-- ==== Sys2Proof/Word.lean ====
section
/-! DEFINITION. The word types of the 6L64: bytes and multi-byte fields of messages, clock and
grant values, and the numbers that name ports, locks and groups. -/

namespace Sys2Proof

/-- A character on a port's line; a byte of a message body. -/
abbrev Byte := BitVec 8

/-- A two-byte field of a message (a lease length, a wait limit, a silence limit, a count). -/
abbrev Half := BitVec 16

/-- A lease clock value, in milliseconds since pin reset (R61). -/
abbrev Clock := BitVec 32

/-- A grant number (R5). -/
abbrev Grant := BitVec 32

/-- A trace timer value, in units of 10 microseconds (R142). -/
abbrev Stamp := BitVec 24

/-- One of the six link ports, P0 to P5. -/
abbrev Port := Fin 6

/-- One of the 64 locks, L0 to L63. -/
abbrev LockId := Fin 64

/-- One of the eight lock groups (R1, R119). -/
abbrev Group := Fin 8

/-- The body of a frame: kind, tag or notice number, then the fields of the kind (R164). -/
abbrev Body := List Byte

end Sys2Proof
end

