-- ==== Sys2Proof/Syntax.lean ====
section
/-! DEFINITION. The commands of the 6L64, one constructor per row of spec/opcode_table.json. A
request row (OPEN to TRACE_READ, UNKNOWN_KIND) names the port whose oldest waiting request is handed
on and taken: its arguments are the bytes of the body that VALID_FRAME or CHARACTER_RECEIVED put in
the port's request window (R155, R156, R166). The other rows are events on a line, a pin or a clock,
or pieces of work the part takes by itself; their operands say where they happen. -/

namespace Sys2Proof

/-- The commands, in the order of the opcode table. -/
inductive Instr where
  /-- OPEN (R103): port `p`'s oldest waiting request, an OPEN, is taken. -/
  | openSession (p : Port)
  /-- REATTACH_HOLDING (R104): the next kept holding of the port that is opening is reattached. -/
  | reattachHolding (p : Port)
  /-- CLOSE (R107). -/
  | closeSession (p : Port)
  /-- PING (R108). -/
  | ping (p : Port)
  /-- CREDIT (R91). -/
  | credit (p : Port)
  /-- FAULT_ACK (R159). -/
  | faultAck (p : Port)
  /-- ACQUIRE (R9). -/
  | acquire (p : Port)
  /-- RELEASE (R19). -/
  | release (p : Port)
  /-- WITHDRAW (R40). -/
  | withdraw (p : Port)
  /-- RENEW (R69). -/
  | renew (p : Port)
  /-- CONVERT (R50). -/
  | convert (p : Port)
  /-- QUERY (R22). -/
  | query (p : Port)
  /-- SET_LOCK (R122). -/
  | setLock (p : Port)
  /-- GET_LOCK (R124). -/
  | getLock (p : Port)
  /-- SET_PORT (R119). -/
  | setPort (p : Port)
  /-- GET_PORT (R121). -/
  | getPort (p : Port)
  /-- REVOKE (R125). -/
  | revoke (p : Port)
  /-- PURGE (R127). -/
  | purge (p : Port)
  /-- DROP_SESSION (R129). -/
  | dropSession (p : Port)
  /-- RESTART (R131). -/
  | restart (p : Port)
  /-- RESTART_COMPLETE (R133): the restart in progress completes. -/
  | restartComplete
  /-- TRACE_SETUP (R136). -/
  | traceSetup (p : Port)
  /-- TRACE_STATUS (R144). -/
  | traceStatus (p : Port)
  /-- TRACE_READ (R143). -/
  | traceRead (p : Port)
  /-- UNKNOWN_KIND (R165): port `p`'s oldest waiting request has a kind outside the table of R166. -/
  | unknownKind (p : Port)
  /-- LEASE_EXPIRY (R70): the expiry of port `p`'s holding of lock `l` is taken. -/
  | leaseExpiry (p : Port) (l : LockId)
  /-- WAIT_EXPIRY (R43): the expiry of port `p`'s wait for lock `l` is taken. -/
  | waitExpiry (p : Port) (l : LockId)
  /-- SILENCE_EXPIRY (R110): the expiry of port `p`'s silence deadline is taken. -/
  | silenceExpiry (p : Port)
  /-- SESSION_END_WITHDRAWAL (R48): the withdrawal on lock `l` of port `p`'s session end. -/
  | sessionEndWithdrawal (p : Port) (l : LockId)
  /-- SESSION_END_RELEASE (R111): the release on lock `l` of port `p`'s session end. -/
  | sessionEndRelease (p : Port) (l : LockId)
  /-- LEASE_CLOCK_ADVANCE (R61): one millisecond passes. -/
  | leaseClockAdvance
  /-- VALID_FRAME (R155): port `p`'s receiver completes a frame with this body and a matching check. -/
  | validFrame (p : Port) (body : Body)
  /-- FRAME_CHECK (R152): a frame with this body ends with check bytes that do not match. -/
  | frameCheck (p : Port) (body : Body) (check : Half)
  /-- FRAME_SHAPE (R152): a length byte outside 2 to 60 is received. -/
  | frameShape (p : Port) (length : Byte)
  /-- CHAR_ERROR (R154): a character with a bad stop bit; `beginsBreak` when the line stays at the
  break level after it. -/
  | charError (p : Port) (beginsBreak : Bool)
  /-- BREAK_END (R154): the line returns to idle after a break. -/
  | breakEnd (p : Port)
  /-- RECEIVE_GAP (R153): the 4 ms gap deadline within a frame is reached. -/
  | receiveGap (p : Port)
  /-- STANDING_NOTICE (R95). -/
  | standingNotice (p : Port)
  /-- FAULT_NOTICE (R160). -/
  | faultNotice (p : Port)
  /-- TRACE_NOTICE (R145). -/
  | traceNotice (p : Port)
  /-- REPLY_SENT (R157): the last byte of the reply on port `p`'s line has gone. -/
  | replySent (p : Port)
  /-- NOTICE_SENT (R92): the last byte of the notice on port `p`'s line has gone. -/
  | noticeSent (p : Port)
  /-- TIME_WRAPPED (R142): the trace timer passes 16,777,215 to 0. -/
  | timeWrapped
  /-- PIN_RESET (R162): the RESET pin is asserted. -/
  | pinReset
  /-- CHARACTER_RECEIVED (R151): a good character is completed on port `p`'s receive line. -/
  | characterReceived (p : Port) (c : Byte)
  /-- TRACE_TIMER_ADVANCE (R142): 10 microseconds pass. -/
  | traceTimerAdvance
  /-- RESET_RELEASED (R162): the RESET pin is released with these levels on the BAUD and SUPSEL straps. -/
  | resetReleased (baud : BitVec 2) (supsel : BitVec 3)
  deriving DecidableEq, Repr

end Sys2Proof
end

