-- ==== Sys2Proof/Decode.lean ====
section
/-! DEFINITION. Decoding of opcode-table words. The 6L64 is a block: no row of spec/opcode_table.json
gives bits ("fields" is empty in every row and none has "fixed"), so no word spells a command. The
bytes of the part's own messages are read in Machine/Operands.lean. -/

namespace Sys2Proof

/-- The command a table word spells: none, since no row of the table gives bits. -/
def decodeTableWord (_nbits _w : Nat) : Option Instr := none

end Sys2Proof
end

