-- ==== Sys2Proof/Machine/Frame.lean ====
section
/-! DEFINITION. Frames on the line: the CRC-16 check of R150, the frame form of R164, and the byte
order of multi-byte fields (most significant byte first, 00_scope.md "Byte order"). -/

namespace Sys2Proof.Machine

/-- The lead byte of every frame (R164). -/
def leadByte : Byte := 0xB7

/-- The shortest and the longest body (R164). -/
def minBody : Nat := 2
def maxBody : Nat := 60

/-- One bit of the CRC-16 with polynomial 0x1021, most significant bit first (R150). -/
def crcBit (r : BitVec 16) : BitVec 16 :=
  if r.msb then (r <<< 1) ^^^ 0x1021 else r <<< 1

/-- One byte fed into the check register, most significant bit first (R150). -/
def crcByte (r : BitVec 16) (b : Byte) : BitVec 16 :=
  let x := r ^^^ (b ++ (0 : Byte))
  crcBit (crcBit (crcBit (crcBit (crcBit (crcBit (crcBit (crcBit x)))))))

/-- The check over some bytes: initial value 0xFFFF, no final inversion (R150). -/
def crc16 (bytes : List Byte) : BitVec 16 := bytes.foldl crcByte 0xFFFF

/-- The length byte of a body. -/
def lengthByte (body : Body) : Byte := BitVec.ofNat 8 body.length

/-- The check of a frame: the CRC over its length byte and its body (R150). -/
def frameCheckOf (body : Body) : BitVec 16 := crc16 (lengthByte body :: body)

/-- The two bytes of a field, most significant first. -/
def halfBytes (h : Half) : List Byte := [h.extractLsb' 8 8, h.extractLsb' 0 8]

/-- The three bytes of a trace timer value, most significant first. -/
def stampBytes (t : Stamp) : List Byte :=
  [t.extractLsb' 16 8, t.extractLsb' 8 8, t.extractLsb' 0 8]

/-- The four bytes of a clock value or grant number, most significant first. -/
def wordBytes (w : BitVec 32) : List Byte :=
  [w.extractLsb' 24 8, w.extractLsb' 16 8, w.extractLsb' 8 8, w.extractLsb' 0 8]

/-- The whole frame of a body: lead, length, body, check high byte first (R164). -/
def frameOf (body : Body) : List Byte :=
  leadByte :: lengthByte body :: (body ++ halfBytes (frameCheckOf body))

/-- A length byte that a frame may have: 2 to 60 (R151). -/
def goodLength (n : Byte) : Bool := decide (minBody ≤ n.toNat ∧ n.toNat ≤ maxBody)

/-- A body a frame can carry: 2 to 60 bytes (R164). -/
def goodBody (body : Body) : Bool := decide (minBody ≤ body.length ∧ body.length ≤ maxBody)

end Sys2Proof.Machine
end

