-- ==== Sys2Proof/Config.lean ====
section
/-! DEFINITION. What is fixed outside the part: the strap levels of the machine's reset state. The spec
reads the straps when RESET is released and gives them no value of its own (R117, R149, R162); the
command RESET_RELEASED carries any levels. No value of the spec is left open beside them, so the model
needs no free value. -/

namespace Sys2Proof.Config

/-- DESIGN CHOICE (log entry 1): the SUPSEL straps read before the reset state; P0 is supervisor.
Unsafe: a statement about the reset state may lean on it. -/
def resetSupsel : BitVec 3 := 0

/-- DESIGN CHOICE (log entry 1): the BAUD straps read before the reset state; 115,200 bit/s.
Unsafe for the same reason. -/
def resetBaud : BitVec 2 := 0

end Sys2Proof.Config
end

