-- ==== Sys2Proof/Machine/State.lean ====
section
/-! DEFINITION. The state of the 6L64 as plain data, block by block as 00_scope.md "The part at a
glance" lists them, and the state right after pin reset. Tables indexed by port or lock are vectors of
fixed length. Reset values are the defaults of the fields; each is the spec's own but for the straps
(log entry 1). -/

namespace Sys2Proof.Machine

/-! ### Names of values (R169) -/

/-- A lock mode (R3). Where a lock has no holder, its current mode NONE is `Option.none`. -/
inductive Mode where
  | shared
  | exclusive
  deriving DecidableEq, Repr

/-- A port's relation to a lock (R79). -/
inductive Standing where
  | none
  | waiting
  | heldShared
  | heldExclusive
  deriving DecidableEq, Repr

/-- A lock's lease policy (R1). -/
inductive LeasePolicy where
  | optional
  | required
  deriving DecidableEq, Repr

/-- What becomes of a port's holdings when its session is lost; also a port's loss policy (R119). -/
inductive Disposition where
  | release
  | retain
  deriving DecidableEq, Repr

/-- A session's state (R100); `opened` is OPEN. -/
inductive SessionState where
  | closed
  | opened
  | lost
  deriving DecidableEq, Repr

/-- The causes of unreported changes (R81); cause "none" is `Option.none`. -/
inductive Cause where
  | granted
  | waitExpired
  | leaseExpired
  | revoked
  | purged
  | retained
  deriving DecidableEq, Repr

/-- The line faults (R158); code NONE is `Option.none`. -/
inductive FaultCode where
  | frameShape
  | charError
  | receiveGap
  | frameCheck
  | windowOverrun
  deriving DecidableEq, Repr

/-- The causes of a session end (R110). -/
inductive EndCause where
  | closed
  | silence
  | dropped
  | superseded
  deriving DecidableEq, Repr

/-- The sixteen classes of trace entry (R146). -/
inductive TraceClass where
  | opened
  | closed
  | lost
  | grantNow
  | queued
  | grantQueued
  | busy
  | released
  | withdrawn
  | waitExpired
  | leaseExpired
  | revoked
  | converted
  | refused
  | linkFault
  | supervisor
  deriving DecidableEq, Repr

/-- The capture states (R135). -/
inductive CaptureState where
  | off
  | armed
  | running
  | stopped
  deriving DecidableEq, Repr

/-- The causes of a capture's stop (R135). -/
inductive StopCause where
  | none
  | stopClass
  | full
  | restart
  deriving DecidableEq, Repr

/-- A thing a notice can report on (R86). -/
inductive Subject where
  | lock (l : LockId)
  | fault
  | trace
  deriving DecidableEq, Repr

/-! ### Lock engine (Chapters 1 to 5) -/

/-- The configuration part of a lock entry, with its values after pin reset (R1). -/
structure LockConfig where
  enabled : Bool := true
  group : Group := 0
  sharedAllowed : Bool := true
  policy : LeasePolicy := .optional
  maxLease : Half := 65535
  deriving DecidableEq, Repr

/-- A holder entry (R3); the port is its index in the holder set. -/
structure Holding where
  mode : Mode
  grant : Grant
  deadline : Option Clock
  deriving DecidableEq, Repr

/-- A waiter record (R25). -/
structure Waiter where
  port : Port
  lock : LockId
  mode : Mode
  lease : Half
  deadline : Option Clock
  deriving DecidableEq, Repr

/-- An entry of the lock table: configuration, holder set by port (it has no order among its entries,
R3), waiter queue oldest first, last grant number (R1, R2). -/
structure LockEntry where
  config : LockConfig := {}
  holders : Vector (Option Holding) 6 := Vector.replicate 6 none
  queue : List Waiter := []
  last : Grant := 0
  deriving DecidableEq, Repr

/-- A standing record (R79): a port's view of a lock. -/
structure StandingRecord where
  standing : Standing := .none
  grant : Grant := 0
  deadline : Option Clock := none
  count : Nat := 0
  cause : Option Cause := none
  deriving DecidableEq, Repr

/-- The lock engine's counts for one port (R15). -/
structure PortCounts where
  holdings : Nat := 0
  waits : Nat := 0
  deriving DecidableEq, Repr

/-! ### Session unit (Chapters 5 to 7) -/

/-- A port's configuration, with its values after pin reset (R119). -/
structure PortConfig where
  groupMask : Byte := 0xFF
  lossPolicy : Disposition := .release
  silenceCeiling : Half := 0
  deriving DecidableEq, Repr

/-- What follows once every withdrawal and release of a session end has been taken: nothing (a loss
by silence), the CLOSE reply (R107), the DROP_SESSION reply (R129), or the new session of a
superseding OPEN (R105), with that OPEN's credit argument and the silence limit fixed when it was taken,
from the ceiling as it stood then (R102, R120). -/
inductive EndSequel where
  | nothing
  | replyClose
  | replyDrop
  | reopen (credit : Byte) (limit : Half)
  deriving DecidableEq, Repr

/-- The lock work a session end still has to take (R110): the withdrawals first, then the releases. -/
inductive EndWork where
  | withdrawing (locks : List LockId)
  | releasing (locks : List LockId)
  deriving DecidableEq, Repr

/-- A session end in progress (R110 to R112). -/
structure SessionEnd where
  disposition : Disposition
  work : EndWork
  sequel : EndSequel
  deriving DecidableEq, Repr

/-- An OPEN in progress (R103, R104): the locks still to be reattached, in lock-number order, the
RETAINED changes made so far, and the disposition applied to a superseded session. -/
structure Opening where
  locks : List LockId
  retained : Nat
  superseded : Option Disposition
  deriving DecidableEq, Repr

/-- A session end that fell due while a request of the port was handed on, to be taken when the reply
is formed (R110, R130): a silence expiry, or a DROP_SESSION with the disposition it names
(`none` is POLICY). -/
inductive DeferredEnd where
  | silence
  | drop (named : Option Disposition)
  deriving DecidableEq, Repr

/-- A port's entry in the session unit, with its values after pin reset (R100), and the session unit's
work in progress for it. -/
structure Session where
  state : SessionState := .closed
  number : Byte := 0
  silenceLimit : Half := 0
  silenceDeadline : Option Clock := none
  credit : Nat := 0
  notices : List Subject := []
  noticeNumber : Byte := 0
  config : PortConfig := {}
  ending : Option SessionEnd := none
  opening : Option Opening := none
  deferred : List DeferredEnd := []
  deriving DecidableEq, Repr

/-! ### Link ports (Chapter 9) -/

/-- A receiver's state with what it keeps of the frame in progress (R151). -/
inductive ReceiverState where
  | hunt
  | length
  | body (length : Byte) (received : Body)
  | check (received : Body) (high : Option Byte)
  deriving DecidableEq, Repr

/-- The condition of an admitted request (R156). -/
inductive SlotCond where
  | waiting
  | handedOn
  | answered
  deriving DecidableEq, Repr

/-- A slot of the request window: an admitted request and its condition (R156). -/
structure Slot where
  body : Body
  cond : SlotCond
  deriving DecidableEq, Repr

/-- A transmitter: free, or sending the bytes of one frame (R157). -/
inductive Transmitter where
  | free
  | sendingReply (frame : List Byte)
  | sendingNotice (frame : List Byte)
  deriving DecidableEq, Repr

/-- A port's fault record; empty exactly when the code is NONE (R158). -/
structure FaultRecord where
  code : Option FaultCode := none
  clock : Clock := 0
  further : Nat := 0
  deriving DecidableEq, Repr

/-- A link port, with its values after pin reset (R162). `gapDeadline` is the lease clock value by which the
next character of a frame in progress has to come; none runs in HUNT (R153). `inBreak` says that the receive
line is held at the break level (R154). -/
structure LinkPort where
  receiver : ReceiverState := .hunt
  gapDeadline : Option Clock := none
  inBreak : Bool := false
  window : List Slot := []
  replies : List Body := []
  transmitter : Transmitter := .free
  fault : FaultRecord := {}
  deriving DecidableEq, Repr

/-! ### Trace unit (Chapter 8) -/

/-- The capture setup (R135); `startOnClass` and `stopOnClass` are the start kind and stop kind
ON_CLASS. -/
structure TraceSetup where
  enable : Bool := false
  startOnClass : Bool := false
  startClass : TraceClass := .opened
  stopOnClass : Bool := false
  stopClass : TraceClass := .opened
  stopOnFull : Bool := false
  classFilter : BitVec 16 := 0
  portFilter : Byte := 0
  deriving DecidableEq, Repr

/-- A report made to the trace unit (R137); a detail of 0 stands for none (R170). -/
structure Report where
  cls : TraceClass
  port : Port
  lock : Option LockId := none
  detail : Byte := 0
  grant : Option Grant := none
  deriving DecidableEq, Repr

/-- A trace entry: a report with its timestamp and lost-after mark (R146). -/
structure TraceEntry where
  report : Report
  stamp : Stamp
  lostAfter : Bool
  deriving DecidableEq, Repr

/-- The trace unit, with its values after pin reset (R135). -/
structure TraceUnit where
  setup : TraceSetup := {}
  state : CaptureState := .off
  stopCause : StopCause := .none
  entriesLost : Bool := false
  timeWrapped : Bool := false
  timer : Stamp := 0
  buffer : List TraceEntry := []
  deriving DecidableEq, Repr

/-! ### The whole part -/

/-- The state of the part and the queue of commands that wait for it. -/
structure State where
  /-- The commands that wait, first in first out: the model's own field, no part of the 6L64. -/
  pending : List Instr := []
  /-- The RESET pin is asserted (R162). -/
  resetAsserted : Bool := false
  /-- The BAUD straps as read (R149). -/
  baud : BitVec 2 := Config.resetBaud
  /-- The SUPSEL straps as read: the supervisor port number (R117). -/
  supsel : BitVec 3 := Config.resetSupsel
  /-- The restart count (R117). -/
  restartCount : Half := 0
  /-- A restart is in progress (R131). -/
  restarting : Bool := false
  /-- The lease clock (R61). -/
  clock : Clock := 0
  /-- The lock table (R1, R2). -/
  locks : Vector LockEntry 64 := Vector.replicate 64 {}
  /-- The standing table, by port and lock (R79). -/
  standings : Vector (Vector StandingRecord 64) 6 := Vector.replicate 6 (Vector.replicate 64 {})
  /-- Waiter records in use, of the pool of 48 (R26). -/
  poolInUse : Nat := 0
  /-- Holdings and waits counts, by port (R15). -/
  counts : Vector PortCounts 6 := Vector.replicate 6 {}
  /-- The session unit's entries, by port (R100). -/
  sessions : Vector Session 6 := Vector.replicate 6 {}
  /-- The link ports (R151 to R158). -/
  links : Vector LinkPort 6 := Vector.replicate 6 {}
  /-- The trace unit (R135). -/
  trace : TraceUnit := {}
  deriving DecidableEq, Repr

/-- The part has no event that stops it: no rule of the spec describes a fault that ends its work (a
line fault is state, R158), so there is no reason to fault. -/
inductive Fault where
  deriving DecidableEq, Repr

/-- Why a command has no meaning. -/
inductive Refusal where
  /-- Raised by exec's arm for a command the model gives no meaning yet; safe, since nothing can be
  proved of the command but that it is refused. -/
  | notModelled (mnemonic : String)
  deriving DecidableEq, Repr

/-- The machine right after pin reset has been released (R2, R26, R61, R79, R100, R117, R119, R135,
R151, R156 to R158, R162), the straps read as Config names them. -/
def State.reset : State := {}

end Sys2Proof.Machine
end

