-- ==== Sys2Proof/Machine/Ops.lean ====
section
/-! DEFINITION. The named operations every command is built from: tables, accessors, the lease clock
and its deadlines (R62), the limits of the part, and the counts and views that more than one block
reads. -/

namespace Sys2Proof.Machine

/-! ### Limits -/

/-- Waiter records in the pool (R26). -/
def poolSize : Nat := 48
/-- Most waits of a port (R26). -/
def maxWaits : Nat := 8
/-- Most holdings and waits of a port together (R26). -/
def maxStandings : Nat := 16
/-- Most requests in a port's window (R156). -/
def windowSize : Nat := 4
/-- Most notice credit of a port (R90). -/
def maxCredit : Nat := 16
/-- The value at which an unreported change count stays (R81). -/
def maxChangeCount : Nat := 15
/-- The value at which a further-count stays (R158). -/
def maxFurther : Nat := 255
/-- Entries in the trace buffer (R135). -/
def traceSize : Nat := 128
/-- Milliseconds allowed between two characters of a frame (R153). -/
def gapLimit : Half := 4
/-- The farthest a deadline is set ahead of the lease clock, in milliseconds (R62). -/
def maxAhead : Nat := 65535

/-- The ports in port order, P0 first. -/
def allPorts : List Port := [0, 1, 2, 3, 4, 5]

/-- The locks in lock-number order, L0 first. -/
def allLocks : List LockId := List.finRange 64

/-! ### Tables -/

/-- The entry of a table. -/
def look {α : Type} {n : Nat} (v : Vector α n) (i : Fin n) : α := v[i.val]

/-- The table with one entry replaced. -/
def put {α : Type} {n : Nat} (v : Vector α n) (i : Fin n) (a : α) : Vector α n := v.set i.val a

/-- The lock table's entry of a lock. -/
def State.lock (s : State) (l : LockId) : LockEntry := look s.locks l

def State.setLock (s : State) (l : LockId) (e : LockEntry) : State :=
  { s with locks := put s.locks l e }

/-- The standing record of a port on a lock (R79). -/
def State.standing (s : State) (p : Port) (l : LockId) : StandingRecord := look (look s.standings p) l

def State.setStanding (s : State) (p : Port) (l : LockId) (r : StandingRecord) : State :=
  { s with standings := put s.standings p (put (look s.standings p) l r) }

/-- The lock engine's counts of a port (R15). -/
def State.count (s : State) (p : Port) : PortCounts := look s.counts p

def State.setCount (s : State) (p : Port) (c : PortCounts) : State :=
  { s with counts := put s.counts p c }

/-- The session entry of a port (R100). -/
def State.session (s : State) (p : Port) : Session := look s.sessions p

def State.setSession (s : State) (p : Port) (x : Session) : State :=
  { s with sessions := put s.sessions p x }

/-- The link port of a port number. -/
def State.link (s : State) (p : Port) : LinkPort := look s.links p

def State.setLink (s : State) (p : Port) (x : LinkPort) : State :=
  { s with links := put s.links p x }

def State.setTrace (s : State) (t : TraceUnit) : State := { s with trace := t }

def State.setPool (s : State) (n : Nat) : State := { s with poolInUse := n }

/-! ### Ports -/

/-- The session of a port is OPEN. -/
def State.isOpen (s : State) (p : Port) : Bool := (s.session p).state == .opened

/-- The supervisor port, if the straps chose one: 0 to 5 a port, 6 or 7 none (R117). -/
def State.supervisor (s : State) : Option Port :=
  if h : s.supsel.toNat < 6 then some ⟨s.supsel.toNat, h⟩ else none

/-- The line rate of every port in bit/s, for BAUD strap values 0 to 3 (R149). -/
def State.lineRate (s : State) : Nat :=
  match s.baud.toNat with
  | 0 => 115200
  | 1 => 460800
  | 2 => 1000000
  | _ => 3000000

/-- The receivers take characters: RESET is not asserted (R162) and no restart is in progress (R133). -/
def State.lineActive (s : State) : Bool := !s.resetAsserted && !s.restarting

/-! ### The lease clock and deadlines -/

/-- The deadline `n` milliseconds ahead of a clock value, counting past the wrap (R62). -/
def deadlineAfter (now : Clock) (n : Half) : Clock := now + n.setWidth 32

/-- The deadline of a lease, wait limit or silence limit; a length of 0 gives none (R6, R42, R103). -/
def optionalDeadline (now : Clock) (n : Half) : Option Clock :=
  if n = 0 then none else some (deadlineAfter now n)

/-- The advances of the clock it takes to reach a deadline (R62). -/
def distance (now deadline : Clock) : Nat := (deadline - now).toNat

/-- The clock has reached the deadline: no distance is left, or the way forward is longer than any
deadline is set ahead (R62, R63). -/
def reached (now deadline : Clock) : Bool :=
  distance now deadline == 0 || decide (maxAhead < distance now deadline)

/-- The clock has reached a deadline that is present. -/
def State.due (s : State) (d : Option Clock) : Bool := d.any (reached s.clock)

/-- The lease remaining of a deadline: the distance, or 1 when the clock has reached it and the expiry
is not yet taken; 0 without a lease (R16, R23, R78). -/
def leaseRemaining (now : Clock) : Option Clock → Half
  | none => 0
  | some d => if reached now d then 1 else BitVec.ofNat 16 (distance now d)

/-! ### Views of a lock -/

/-- The holding of a port on a lock, if it is a holder (R3). -/
def LockEntry.holding (e : LockEntry) (p : Port) : Option Holding := look e.holders p

/-- The ports that hold the lock, in port order. -/
def LockEntry.holderPorts (e : LockEntry) : List Port :=
  allPorts.filter (fun p => (e.holding p).isSome)

/-- The port holds the lock in this mode. -/
def LockEntry.holdsIn (e : LockEntry) (m : Mode) (p : Port) : Bool :=
  (e.holding p).any (fun h => h.mode == m)

/-- The current mode: NONE without holders, else EXCLUSIVE or SHARED (R3). -/
def LockEntry.mode (e : LockEntry) : Option Mode :=
  if allPorts.any (e.holdsIn .exclusive) then some .exclusive
  else if allPorts.any (e.holdsIn .shared) then some .shared
  else none

/-- The waiter record of a port in the queue (R10). -/
def LockEntry.waiter (e : LockEntry) (p : Port) : Option Waiter :=
  e.queue.find? (fun w => w.port == p)

/-- The port has a waiter record in the queue. -/
def LockEntry.waits (e : LockEntry) (p : Port) : Bool := (e.waiter p).isSome

/-- The queue position of a port, 1 for the first waiter, 0 when it does not wait (R23, R29). -/
def LockEntry.position (e : LockEntry) (p : Port) : Nat :=
  if e.waits p then e.queue.findIdx (fun w => w.port == p) + 1 else 0

/-- The port is the first waiter. -/
def LockEntry.isFirst (e : LockEntry) (p : Port) : Bool :=
  (e.queue.head?).any (fun w => w.port == p)

/-- Two modes conflict: every pair but SHARED with SHARED (R3). -/
def Mode.conflicts (a b : Mode) : Bool := !(a == .shared && b == .shared)

/-- The standing of a holder in a mode. -/
def Mode.held : Mode → Standing
  | .shared => .heldShared
  | .exclusive => .heldExclusive

/-- The standing is a held one. -/
def Standing.isHeld : Standing → Bool
  | .heldShared | .heldExclusive => true
  | .none | .waiting => false

/-- The grant number after another: 1 follows 4,294,967,295 and 0 is never given (R5). -/
def nextGrant (g : Grant) : Grant := if g = 0xFFFFFFFF then 1 else g + 1

/-- The session number after another: 1 follows 255 (R103). -/
def nextSessionNumber (n : Byte) : Byte := if n = 0xFF then 1 else n + 1

/-! ### The request window -/

/-- The request of the port that is handed on and whose reply is not yet formed (R156). -/
def LinkPort.handedOn (x : LinkPort) : Option Body :=
  (x.window.find? (fun c => c.cond == .handedOn)).map Slot.body

/-- The oldest request of the window that waits to be handed on (R156). -/
def LinkPort.oldestWaiting (x : LinkPort) : Option Body :=
  (x.window.find? (fun c => c.cond == .waiting)).map Slot.body

/-- The window with its oldest slot in condition `a` brought to condition `b`. -/
def advanceSlot (a b : SlotCond) : List Slot → List Slot
  | [] => []
  | c :: rest => if c.cond = a then { c with cond := b } :: rest else c :: advanceSlot a b rest

/-- The request the port hands on next: its oldest waiting one, when no request of it is handed on
(R156), no session end of it is in progress (R110), and neither a restart (R132) nor a pin reset is. -/
def State.nextRequest (s : State) (p : Port) : Option Body :=
  if s.lineActive && (s.link p).handedOn.isNone && (s.session p).ending.isNone then
    (s.link p).oldestWaiting
  else none

/-- A free transmitter with a reply waiting starts to send the oldest one (R157). -/
def LinkPort.kick (x : LinkPort) : LinkPort :=
  match x.transmitter, x.replies with
  | .free, r :: rest => { x with transmitter := .sendingReply (frameOf r), replies := rest }
  | _, _ => x

end Sys2Proof.Machine
end

