-- ==== Sys2Proof/Machine/Flags.lean ====
section
/-! DEFINITION. The state that events mark and requests clear: notice lists (R86, R87), trace capture
with its flags (R137 to R142, R147), and fault records (R158). -/

namespace Sys2Proof.Machine

/-! ### Codes of the values that trace details and messages share (R169) -/

def TraceClass.code : TraceClass → Nat
  | .opened => 0
  | .closed => 1
  | .lost => 2
  | .grantNow => 3
  | .queued => 4
  | .grantQueued => 5
  | .busy => 6
  | .released => 7
  | .withdrawn => 8
  | .waitExpired => 9
  | .leaseExpired => 10
  | .revoked => 11
  | .converted => 12
  | .refused => 13
  | .linkFault => 14
  | .supervisor => 15

def FaultCode.code : FaultCode → Byte
  | .frameShape => 1
  | .charError => 2
  | .receiveGap => 3
  | .frameCheck => 4
  | .windowOverrun => 5

/-! ### Notice lists -/

/-- A subject joins at the tail unless it is present (R86). -/
def appendSubject (x : Subject) (list : List Subject) : List Subject :=
  if x ∈ list then list else list ++ [x]

/-- The subject removed, wherever it stands (R87). -/
def removeSubject (x : Subject) (list : List Subject) : List Subject :=
  list.filter (fun y => y != x)

/-- The session unit appends a subject to a port's notice list. -/
def State.notify (s : State) (p : Port) (x : Subject) : State :=
  s.setSession p { s.session p with notices := appendSubject x (s.session p).notices }

/-- The session unit removes a subject from a port's notice list, wherever it stands (R87). -/
def State.unnotify (s : State) (p : Port) (x : Subject) : State :=
  s.setSession p { s.session p with notices := removeSubject x (s.session p).notices }

/-! ### Trace capture -/

/-- The port is in the port filter (bit p, R169). -/
def TraceSetup.hearsPort (t : TraceSetup) (p : Port) : Bool := t.portFilter.getLsbD p.val

/-- The class is in the class filter (bit c, R169). -/
def TraceSetup.hearsClass (t : TraceSetup) (c : TraceClass) : Bool := t.classFilter.getLsbD c.code

/-- The lost-after mark set on the entry at the tail (R141). -/
def markTail : List TraceEntry → List TraceEntry
  | [] => []
  | [e] => [{ e with lostAfter := true }]
  | e :: rest => e :: markTail rest

/-- The buffer has room for another entry. -/
def TraceUnit.hasRoom (t : TraceUnit) : Bool := decide (t.buffer.length < traceSize)

/-- A report stored at the tail with its timestamp and its mark clear (R137, R139). -/
def TraceUnit.store (t : TraceUnit) (r : Report) : TraceUnit :=
  { t with buffer := t.buffer ++ [{ report := r, stamp := t.timer, lostAfter := false }] }

/-- A report discarded for want of room: the tail entry is marked and ENTRIES_LOST set (R141). -/
def TraceUnit.lose (t : TraceUnit) : TraceUnit :=
  { t with buffer := markTail t.buffer, entriesLost := true }

/-- A report to be recorded, stored when there is room and otherwise lost. -/
def TraceUnit.record (t : TraceUnit) (r : Report) : TraceUnit :=
  if t.hasRoom then t.store r else t.lose

/-- The capture stopped with a cause; the timer keeps its value (R140, R142). -/
def TraceUnit.stop (t : TraceUnit) (c : StopCause) : TraceUnit :=
  { t with state := .stopped, stopCause := c }

/-- The report starts an ARMED capture (R138). -/
def TraceUnit.starts (t : TraceUnit) (r : Report) : Bool :=
  r.cls == t.setup.startClass && t.setup.hearsPort r.port

/-- The report stops a RUNNING capture (R140). -/
def TraceUnit.stops (t : TraceUnit) (r : Report) : Bool :=
  t.setup.stopOnClass && r.cls == t.setup.stopClass && t.setup.hearsPort r.port

/-- The report passes the filters (R139). -/
def TraceUnit.passes (t : TraceUnit) (r : Report) : Bool :=
  t.setup.hearsClass r.cls && t.setup.hearsPort r.port

/-- What a report does to the trace unit (R138 to R141). -/
def TraceUnit.hear (t : TraceUnit) (r : Report) : TraceUnit :=
  match t.state with
  | .off => t
  | .stopped => t
  | .armed => if t.starts r then { t with state := .running, timer := 0 }.record r else t
  | .running =>
    if t.stops r then (t.record r).stop .stopClass
    else if t.passes r then
      if t.hasRoom then t.store r
      else if t.setup.stopOnFull then t.lose.stop .full
      else t.lose
    else t

/-- The TRACE subject appended to the supervisor port's list, if its session is OPEN (R89). -/
def State.notifyTrace (s : State) : State :=
  match s.supervisor with
  | some q => if s.isOpen q then s.notify q .trace else s
  | none => s

/-- A block reports an event to the trace unit (R137); a stop by the stop class or by a full buffer
appends the TRACE subject (R140, R141). -/
def State.report (s : State) (r : Report) : State :=
  let t := s.trace.hear r
  if s.trace.state = .running ∧ t.state = .stopped then (s.setTrace t).notifyTrace else s.setTrace t

/-- The RESTART's own report: recorded whatever the filters hold when RUNNING, then the capture stops
with cause RESTART if it was ARMED or RUNNING; no TRACE subject (R147). -/
def TraceUnit.hearRestart (t : TraceUnit) (r : Report) : TraceUnit :=
  match t.state with
  | .off => t
  | .stopped => t
  | .armed => t.stop .restart
  | .running => (t.record r).stop .restart

/-- One unit of 10 microseconds passes: the timer counts while RUNNING, and a wrap sets TIME_WRAPPED
(R142). -/
def TraceUnit.tick (t : TraceUnit) : TraceUnit :=
  if t.state = .running then
    { t with timer := t.timer + 1, timeWrapped := t.timeWrapped || t.timer == 0xFFFFFF }
  else t

/-! ### Fault records -/

/-- A fault acts on the record: an empty one latches, a latched one counts on to 255 (R158). -/
def FaultRecord.add (f : FaultRecord) (c : FaultCode) (now : Clock) : FaultRecord :=
  match f.code with
  | none => { code := some c, clock := now, further := 0 }
  | some _ => { f with further := min maxFurther (f.further + 1) }

/-- A fault detected by a port: its record latches or counts, a latch in an OPEN session appends the
FAULT subject (R88), and the port reports LINK_FAULT (R152, R158). The record is told first and the
trace unit second (DEDUCED from R152, log entry 8). -/
def State.linkFault (s : State) (p : Port) (c : FaultCode) : State :=
  let x := s.link p
  let s1 := s.setLink p { x with fault := x.fault.add c s.clock }
  let s2 := if x.fault.code.isNone && s1.isOpen p then s1.notify p .fault else s1
  s2.report { cls := .linkFault, port := p, detail := c.code }

end Sys2Proof.Machine
end

