-- ==== Sys2Proof/Machine/Operands.lean ====
section
/-! DEFINITION. The messages of Chapter 10: request kinds and their argument ranges (R166), the checks
before the owner (R165), the value codes (R169), the standing report (R16), and how a reply is formed
and queued (R156, R157, R167). -/

namespace Sys2Proof.Machine

/-! ### Fields of a body -/

/-- The byte of a body at a position. -/
def byteAt (b : Body) (i : Nat) : Byte := b.getD i 0

/-- The two-byte field of a body at a position, most significant byte first. -/
def halfAt (b : Body) (i : Nat) : Half := byteAt b i ++ byteAt b (i + 1)

/-- The four-byte field of a body at a position, most significant byte first. -/
def wordAt (b : Body) (i : Nat) : BitVec 32 := halfAt b i ++ halfAt b (i + 2)

/-- A port number field (tested to be 0 to 5 before it is read). -/
def portAt (b : Body) (i : Nat) : Port := Fin.ofNat 6 (byteAt b i).toNat

/-- A lock id field (tested to be below 64 before it is read). -/
def lockAt (b : Body) (i : Nat) : LockId := Fin.ofNat 64 (byteAt b i).toNat

/-- A mode field: 1 SHARED, 2 EXCLUSIVE (R169). -/
def modeAt (b : Body) (i : Nat) : Mode := if byteAt b i = 1 then .shared else .exclusive

/-- A yes or no field: 0 no, 1 yes (R169). -/
def flagAt (b : Body) (i : Nat) : Bool := byteAt b i == 1

/-- A trace class field, 0 to 15 (R146). -/
def classAt (b : Body) (i : Nat) : TraceClass :=
  match (byteAt b i).toNat with
  | 0 => .opened
  | 1 => .closed
  | 2 => .lost
  | 3 => .grantNow
  | 4 => .queued
  | 5 => .grantQueued
  | 6 => .busy
  | 7 => .released
  | 8 => .withdrawn
  | 9 => .waitExpired
  | 10 => .leaseExpired
  | 11 => .revoked
  | 12 => .converted
  | 13 => .refused
  | 14 => .linkFault
  | _ => .supervisor

/-! ### Request kinds (R166) -/

/-- The request kinds. -/
inductive Kind where
  | openSession
  | closeSession
  | ping
  | credit
  | faultAck
  | acquire
  | release
  | withdraw
  | renew
  | convert
  | query
  | setLock
  | getLock
  | setPort
  | getPort
  | revoke
  | purge
  | dropSession
  | restart
  | traceSetup
  | traceStatus
  | traceRead
  deriving DecidableEq, Repr

/-- The kinds in the order of R166's table. -/
def allKinds : List Kind :=
  [.openSession, .closeSession, .ping, .credit, .faultAck,
   .acquire, .release, .withdraw, .renew, .convert, .query,
   .setLock, .getLock, .setPort, .getPort, .revoke, .purge, .dropSession, .restart,
   .traceSetup, .traceStatus, .traceRead]

/-- The kind byte (R166). -/
def Kind.code : Kind → Byte
  | .openSession => 0x01
  | .closeSession => 0x02
  | .ping => 0x03
  | .credit => 0x04
  | .faultAck => 0x05
  | .acquire => 0x10
  | .release => 0x11
  | .withdraw => 0x12
  | .renew => 0x13
  | .convert => 0x14
  | .query => 0x15
  | .setLock => 0x20
  | .getLock => 0x21
  | .setPort => 0x22
  | .getPort => 0x23
  | .revoke => 0x24
  | .purge => 0x25
  | .dropSession => 0x26
  | .restart => 0x27
  | .traceSetup => 0x30
  | .traceStatus => 0x31
  | .traceRead => 0x32

/-- The kind of a request body, if its kind byte is in the table (R165, first check). -/
def kindOf (b : Body) : Option Kind := allKinds.find? (fun k => k.code == byteAt b 0)

/-- The one body length of a kind (R166). -/
def Kind.bodyLength : Kind → Nat
  | .openSession => 5
  | .closeSession => 2
  | .ping => 2
  | .credit => 3
  | .faultAck => 2
  | .acquire => 9
  | .release => 7
  | .withdraw => 3
  | .renew => 9
  | .convert => 8
  | .query => 3
  | .setLock => 9
  | .getLock => 3
  | .setPort => 7
  | .getPort => 3
  | .revoke => 4
  | .purge => 3
  | .dropSession => 4
  | .restart => 2
  | .traceSetup => 11
  | .traceStatus => 2
  | .traceRead => 3

/-- The supervisor kinds, the trace kinds among them (R118). -/
def Kind.isSupervisor : Kind → Bool
  | .setLock | .getLock | .setPort | .getPort | .revoke | .purge | .dropSession | .restart
  | .traceSetup | .traceStatus | .traceRead => true
  | .openSession | .closeSession | .ping | .credit | .faultAck
  | .acquire | .release | .withdraw | .renew | .convert | .query => false

/-! ### Status codes (R169) -/

inductive Status where
  | ok
  | granted
  | queued
  | busy
  | unknownKind
  | badLength
  | badArgument
  | noSession
  | sessionLost
  | notSupervisor
  | noSuchLock
  | lockDisabled
  | notPermitted
  | sharedNotAllowed
  | alreadyHolder
  | alreadyWaiting
  | notHolder
  | staleGrant
  | notWaiting
  | leaseRequired
  | leaseTooLong
  | portLimit
  | portWaitLimit
  | poolFull
  | convertDenied
  | sameMode
  | inUse
  deriving DecidableEq, Repr

def Status.code : Status → Byte
  | .ok => 0x00
  | .granted => 0x01
  | .queued => 0x02
  | .busy => 0x03
  | .unknownKind => 0x10
  | .badLength => 0x11
  | .badArgument => 0x12
  | .noSession => 0x13
  | .sessionLost => 0x14
  | .notSupervisor => 0x15
  | .noSuchLock => 0x20
  | .lockDisabled => 0x21
  | .notPermitted => 0x22
  | .sharedNotAllowed => 0x23
  | .alreadyHolder => 0x24
  | .alreadyWaiting => 0x25
  | .notHolder => 0x26
  | .staleGrant => 0x27
  | .notWaiting => 0x28
  | .leaseRequired => 0x29
  | .leaseTooLong => 0x2A
  | .portLimit => 0x2B
  | .portWaitLimit => 0x2C
  | .poolFull => 0x2D
  | .convertDenied => 0x2E
  | .sameMode => 0x2F
  | .inUse => 0x30

/-! ### Value codes (R169) -/

def flagCode (b : Bool) : Byte := if b then 1 else 0

def Mode.code : Mode → Byte
  | .shared => 1
  | .exclusive => 2

/-- A mode field of a reply, 0 for NONE. -/
def modeCode : Option Mode → Byte
  | none => 0
  | some m => m.code

def Standing.code : Standing → Byte
  | .none => 0
  | .waiting => 1
  | .heldShared => 2
  | .heldExclusive => 3

def LeasePolicy.code : LeasePolicy → Byte
  | .optional => 0
  | .required => 1

/-- The loss policy code: 0 RELEASE, 1 RETAIN. -/
def Disposition.policyCode : Disposition → Byte
  | .release => 0
  | .retain => 1

/-- The disposition applied, and OPENED's detail: 0 none, 1 RELEASE, 2 RETAIN. -/
def dispositionCode : Option Disposition → Byte
  | none => 0
  | some .release => 1
  | some .retain => 2

def SessionState.code : SessionState → Byte
  | .closed => 0
  | .opened => 1
  | .lost => 2

def causeCode : Option Cause → Byte
  | none => 0
  | some .granted => 1
  | some .waitExpired => 2
  | some .leaseExpired => 3
  | some .revoked => 4
  | some .purged => 5
  | some .retained => 6

def faultCode : Option FaultCode → Byte
  | none => 0
  | some c => c.code

def CaptureState.code : CaptureState → Byte
  | .off => 0
  | .armed => 1
  | .running => 2
  | .stopped => 3

def StopCause.code : StopCause → Byte
  | .none => 0
  | .stopClass => 1
  | .full => 2
  | .restart => 3

/-- LOST's detail: 1 SILENCE, 2 DROPPED, 3 SUPERSEDED; CLOSED has none. -/
def EndCause.code : EndCause → Byte
  | .closed => 0
  | .silence => 1
  | .dropped => 2
  | .superseded => 3

/-- RELEASED's and WITHDRAWN's detail: 0 request, 1 session end. -/
def byRequest : Byte := 0
def bySessionEnd : Byte := 1

/-- REVOKED's detail: 0 REVOKE, 1 PURGE. -/
def byRevoke : Byte := 0
def byPurge : Byte := 1

/-- A count as one byte of a message. -/
def countByte (n : Nat) : Byte := BitVec.ofNat 8 n

/-- A set of ports as one byte, bit p for port p. -/
def portSetByte (member : Port → Bool) : Byte :=
  allPorts.foldl (fun b p => if member p then b ||| BitVec.twoPow 8 p.val else b) 0

/-- The two status flags: bit 0 ENTRIES_LOST, bit 1 TIME_WRAPPED. -/
def TraceUnit.flagsByte (t : TraceUnit) : Byte :=
  flagCode t.entriesLost ||| (flagCode t.timeWrapped <<< 1)

/-- The five configuration fields of a lock, as QUERY and GET_LOCK carry them (R167). -/
def LockConfig.bytes (c : LockConfig) : List Byte :=
  [flagCode c.enabled, BitVec.ofNat 8 c.group.val, flagCode c.sharedAllowed, c.policy.code] ++
    halfBytes c.maxLease

/-- The setup in the order of TRACE_SETUP's arguments (R166, R167). -/
def TraceSetup.bytes (t : TraceSetup) : List Byte :=
  [flagCode t.enable, flagCode t.startOnClass, countByte t.startClass.code,
   flagCode t.stopOnClass, countByte t.stopClass.code, flagCode t.stopOnFull] ++
    halfBytes t.classFilter ++ [t.portFilter]

/-- The fields of a fault record: code, clock at first fault, further-count (R158, R159). -/
def FaultRecord.bytes (f : FaultRecord) : List Byte :=
  faultCode f.code :: wordBytes f.clock ++ [countByte f.further]

/-- A trace entry as twelve bytes; an absent field is sent as 0 (R170). -/
def TraceEntry.bytes (e : TraceEntry) : List Byte :=
  [countByte e.report.cls.code ||| (flagCode e.lostAfter <<< 7),
   1 ||| (flagCode e.report.lock.isSome <<< 1) ||| (flagCode e.report.grant.isSome <<< 2),
   BitVec.ofNat 8 e.report.port.val,
   BitVec.ofNat 8 ((e.report.lock.map Fin.val).getD 0),
   e.report.detail] ++ wordBytes (e.report.grant.getD 0) ++ stampBytes e.stamp

/-! ### The checks before the owner (R165) -/

/-- A lock id in range (R166). -/
def lockOk (b : Body) (i : Nat) : Bool := decide ((byteAt b i).toNat < 64)

/-- A byte field no greater than a bound. -/
def atMost (b : Body) (i : Nat) (n : Nat) : Bool := decide ((byteAt b i).toNat ≤ n)

/-- A mode argument: 1 or 2 (R166). -/
def modeOk (b : Body) (i : Nat) : Bool := byteAt b i == 1 || byteAt b i == 2

/-- The argument ranges of a kind, in the order the fields stand in the body, each with the status its
failure gives (R166). -/
def argumentTests (k : Kind) (b : Body) : List (Bool × Status) :=
  match k with
  | .openSession => [(decide ((halfAt b 3).toNat ≤ 60000), .badArgument)]
  | .closeSession => []
  | .ping => []
  | .credit => []
  | .faultAck => []
  | .acquire => [(lockOk b 2, .noSuchLock), (modeOk b 3, .badArgument), (atMost b 4 1, .badArgument)]
  | .release => [(lockOk b 2, .noSuchLock)]
  | .withdraw => [(lockOk b 2, .noSuchLock)]
  | .renew => [(lockOk b 2, .noSuchLock)]
  | .convert => [(lockOk b 2, .noSuchLock), (modeOk b 7, .badArgument)]
  | .query => [(lockOk b 2, .noSuchLock)]
  | .setLock =>
    [(lockOk b 2, .noSuchLock), (atMost b 3 1, .badArgument), (atMost b 4 7, .badArgument),
     (atMost b 5 1, .badArgument), (atMost b 6 1, .badArgument),
     (decide (halfAt b 7 ≠ 0), .badArgument)]
  | .getLock => [(lockOk b 2, .noSuchLock)]
  | .setPort =>
    [(atMost b 2 5, .badArgument), (atMost b 4 1, .badArgument),
     (decide (halfAt b 5 = 0 ∨ (10 ≤ (halfAt b 5).toNat ∧ (halfAt b 5).toNat ≤ 60000)), .badArgument)]
  | .getPort => [(atMost b 2 5, .badArgument)]
  | .revoke => [(lockOk b 2, .noSuchLock), (atMost b 3 5 || byteAt b 3 == 0xFF, .badArgument)]
  | .purge => [(lockOk b 2, .noSuchLock)]
  | .dropSession => [(atMost b 2 5, .badArgument), (atMost b 3 2, .badArgument)]
  | .restart => []
  | .traceSetup =>
    [(atMost b 2 1, .badArgument), (atMost b 3 1, .badArgument), (atMost b 4 15, .badArgument),
     (atMost b 5 1, .badArgument), (atMost b 6 15, .badArgument), (atMost b 7 1, .badArgument),
     (atMost b 10 63, .badArgument)]
  | .traceStatus => []
  | .traceRead => [(atMost b 2 4 && byteAt b 2 != 0, .badArgument)]

/-- The status of the first test that fails. -/
def firstFailure : List (Bool × Status) → Option Status
  | [] => none
  | (passed, st) :: rest => if passed then firstFailure rest else some st

/-- The checks a request of a known kind passes before its owner takes it, in order: length, session
(every kind but OPEN), supervisor, arguments (R165). The first that fails gives the status. -/
def State.messageCheck (s : State) (p : Port) (k : Kind) (b : Body) : Option Status :=
  firstFailure
    ([(decide (b.length = k.bodyLength), .badLength),
      (k == .openSession || (s.session p).state != .closed, .noSession),
      (k == .openSession || (s.session p).state != .lost, .sessionLost),
      (!k.isSupervisor || s.supervisor == some p, .notSupervisor)] ++ argumentTests k b)

/-! ### Forming a reply -/

/-- A reply's body: the request's kind plus 0x80, its tag, the status, the results (R164, R167). -/
def replyTo (request : Body) (st : Status) (results : List Byte) : Body :=
  (byteAt request 0 + 0x80) :: byteAt request 1 :: st.code :: results

/-- The reply to a request of unknown kind: 0xFF, tag, status, the kind byte received (R165). -/
def unknownKindReply (request : Body) : Body :=
  [0xFF, byteAt request 1, Status.unknownKind.code, byteAt request 0]

/-- The owner places a reply body at the tail of the port's reply queue; its request is answered, and
a free transmitter takes the oldest reply (R156, R157). -/
def State.answer (s : State) (p : Port) (reply : Body) : State :=
  let x := s.link p
  s.setLink p { x with
    window := advanceSlot .handedOn .answered x.window, replies := x.replies ++ [reply] }.kick

/-- The reply to the request the port has handed on is formed (R156); without one nothing is. -/
def State.reply (s : State) (p : Port) (st : Status) (results : List Byte) : State :=
  match (s.link p).handedOn with
  | some request => s.answer p (replyTo request st results)
  | none => s

/-- The port hands on its oldest waiting request (R156). -/
def State.handOn (s : State) (p : Port) : State :=
  let x := s.link p
  s.setLink p { x with window := advanceSlot .waiting .handedOn x.window }

/-- A refusal reported for trace, by the lock engine with the lock, by another block without (R146,
R165). -/
def State.reportRefused (s : State) (p : Port) (l : Option LockId) (st : Status) : State :=
  s.report { cls := .refused, port := p, lock := l, detail := st.code }

/-- A request refused by a check before its owner: reported, and answered with the status alone
(R165). -/
def State.refuse (s : State) (p : Port) (st : Status) : State :=
  (s.reportRefused p none st).reply p st []

/-- A request row's step: when the port's next request is of this kind it is handed on, checked, and
either refused or taken by its owner. When it is not, the command names an event that does not occur,
and nothing changes (log entry 3). -/
def State.takeRequest (s : State) (k : Kind) (p : Port) (owner : Body → State → State) : State :=
  match s.nextRequest p with
  | none => s
  | some b =>
    if kindOf b = some k then
      match s.messageCheck p k b with
      | some st => (s.handOn p).refuse p st
      | none => owner b (s.handOn p)
    else s

/-! ### The standing report -/

/-- The last field of a standing report or STANDING notice: lease remaining while held, queue position
while waiting, else 0 (R16, R95). -/
def State.standingDetail (s : State) (p : Port) (l : LockId) : Half :=
  match (s.standing p l).standing with
  | .heldShared | .heldExclusive => leaseRemaining s.clock (s.standing p l).deadline
  | .waiting => BitVec.ofNat 16 ((s.lock l).position p)
  | .none => 0

/-- The standing report of a port on a lock: standing, grant number, lease remaining or queue position
(R16, R167). -/
def State.standingReport (s : State) (p : Port) (l : LockId) : List Byte :=
  (s.standing p l).standing.code :: wordBytes (s.standing p l).grant ++
    halfBytes (s.standingDetail p l)

end Sys2Proof.Machine
end

