-- ==== Sys2Proof/Machine/Link.lean ====
section
/-! DEFINITION. The link ports (Chapter 9): reception, its faults, admission, what the transmitter does
when a frame has gone, requests of unknown kind, and the RESET pin. A frame-level command (VALID_FRAME,
FRAME_CHECK, FRAME_SHAPE) names what the last character of a frame brings about; given in HUNT it stands
for the whole frame's characters (log entry 4). -/

namespace Sys2Proof.Machine

/-- The receiver of a port put in a state by a character: outside HUNT the next one has 4 ms to come, and in
HUNT no gap deadline runs (R153). -/
def State.setReceiver (s : State) (p : Port) (r : ReceiverState) : State :=
  s.setLink p { s.link p with
    receiver := r, gapDeadline := if r = .hunt then none else some (deadlineAfter s.clock gapLimit) }

/-- The port's receiver takes characters: the part's receivers are active and the port's line is not in
a break (R154). -/
def State.receives (s : State) (p : Port) : Bool := s.lineActive && !(s.link p).inBreak

/-- The frame in progress discarded with a fault (R152 to R154). -/
def State.discardFrame (s : State) (p : Port) (c : FaultCode) : State :=
  (s.setReceiver p .hunt).linkFault p c

/-- The silence timer restarted by a valid frame, while the session is OPEN with a limit (R109). -/
def State.restartSilence (s : State) (p : Port) : State :=
  let x := s.session p
  if s.isOpen p && x.silenceLimit != 0 then
    s.setSession p { x with silenceDeadline := some (deadlineAfter s.clock x.silenceLimit) }
  else s

/-- A valid frame admitted to the window if it holds fewer than 4 requests, else dropped with
WINDOW_OVERRUN (R155). -/
def State.admitFrame (s : State) (p : Port) (body : Body) : State :=
  let x := s.link p
  if x.window.length < windowSize then
    s.setLink p { x with window := x.window ++ [{ body := body, cond := .waiting }] }
  else s.linkFault p .windowOverrun

/-- A frame completed with a matching check: HUNT, then the session unit is told, then admission
(R155). -/
def State.completeFrame (s : State) (p : Port) (body : Body) : State :=
  ((s.setReceiver p .hunt).restartSilence p).admitFrame p body

/-- A character taken by the receiver in its state: the table of R151. -/
def State.takeCharacter (s : State) (p : Port) (c : Byte) : State :=
  match (s.link p).receiver with
  | .hunt => if c = leadByte then s.setReceiver p .length else s
  | .length =>
    if goodLength c then s.setReceiver p (.body c []) else s.discardFrame p .frameShape
  | .body n got =>
    let got1 := got ++ [c]
    if n.toNat ≤ got1.length then s.setReceiver p (.check got1 none)
    else s.setReceiver p (.body n got1)
  | .check got none => s.setReceiver p (.check got (some c))
  | .check got (some high) =>
    if high ++ c = frameCheckOf got then s.completeFrame p got
    else s.discardFrame p .frameCheck

/-- CHARACTER_RECEIVED (R151). -/
def execCharacterReceived (p : Port) (c : Byte) (s : State) : Host.Outcome State Fault Refusal :=
  .next (if s.receives p then s.takeCharacter p c else s)

/-- The receiver is where a frame with this body and these check bytes can be completed: in CHECK with that
body received, and with that high check byte where it has come already (R151), or in HUNT for a frame named as a
whole. -/
def ReceiverState.canEnd (r : ReceiverState) (body : Body) (check : Half) : Bool :=
  match r with
  | .hunt => true
  | .check got none => got == body
  | .check got (some high) => got == body && high == check.extractLsb' 8 8
  | .length => false
  | .body _ _ => false

/-- VALID_FRAME (R155). -/
def execValidFrame (p : Port) (body : Body) (s : State) : Host.Outcome State Fault Refusal :=
  .next (if s.receives p && goodBody body && (s.link p).receiver.canEnd body (frameCheckOf body) then
    s.completeFrame p body else s)

/-- FRAME_CHECK (R152). -/
def execFrameCheck (p : Port) (body : Body) (check : Half) (s : State) :
    Host.Outcome State Fault Refusal :=
  .next (if s.receives p && goodBody body && check != frameCheckOf body &&
      (s.link p).receiver.canEnd body check then
    s.discardFrame p .frameCheck else s)

/-- The receiver is where a length byte can come: in LENGTH, or in HUNT for the lead byte and it. -/
def ReceiverState.canBegin : ReceiverState → Bool
  | .hunt => true
  | .length => true
  | .body _ _ => false
  | .check _ _ => false

/-- FRAME_SHAPE (R152). -/
def execFrameShape (p : Port) (length : Byte) (s : State) : Host.Outcome State Fault Refusal :=
  .next (if s.receives p && !goodLength length && (s.link p).receiver.canBegin then
    s.discardFrame p .frameShape else s)

/-- A character with a bad stop bit: one CHAR_ERROR and HUNT; a break keeps the receiver from further
characters. While a restart is in progress the level of the line is noted and no fault raised (R133,
R154; log entry 6). -/
def State.takeCharError (s : State) (p : Port) (beginsBreak : Bool) : State :=
  if s.resetAsserted || (s.link p).inBreak then s
  else
    let s1 := if s.restarting then s else s.discardFrame p .charError
    if beginsBreak then s1.setLink p { s1.link p with inBreak := true } else s1

/-- CHAR_ERROR (R154). -/
def execCharError (p : Port) (beginsBreak : Bool) (s : State) : Host.Outcome State Fault Refusal :=
  .next (s.takeCharError p beginsBreak)

/-- The line back at idle after a break: the receiver resumes in HUNT (R154). -/
def State.endBreak (s : State) (p : Port) : State :=
  if (s.link p).inBreak then (s.setLink p { s.link p with inBreak := false }).setReceiver p .hunt else s

/-- BREAK_END (R154). -/
def execBreakEnd (p : Port) (s : State) : Host.Outcome State Fault Refusal := .next (s.endBreak p)

/-- RECEIVE_GAP: a frame in progress is discarded once the clock has reached its gap deadline; in HUNT none
runs (R153). -/
def execReceiveGap (p : Port) (s : State) : Host.Outcome State Fault Refusal :=
  .next (if s.receives p && s.due (s.link p).gapDeadline then s.discardFrame p .receiveGap else s)

/-- UNKNOWN_KIND: the port's next request has a kind outside R166's table, and is answered with kind
0xFF and the kind byte received (R165). -/
def State.refuseUnknown (s : State) (p : Port) : State :=
  match s.nextRequest p with
  | none => s
  | some b =>
    if (kindOf b).isNone then
      ((s.handOn p).reportRefused p none .unknownKind).answer p (unknownKindReply b)
    else s

/-- UNKNOWN_KIND (R165). -/
def execUnknownKind (p : Port) (s : State) : Host.Outcome State Fault Refusal :=
  .next (s.refuseUnknown p)

/-- The last byte of a reply has gone: its slot is freed and the transmitter chooses again (R156,
R157). -/
def State.replyGone (s : State) (p : Port) : State :=
  let x := s.link p
  match x.transmitter with
  | .sendingReply _ => s.setLink p { x with window := x.window.tail, transmitter := .free }.kick
  | .free => s
  | .sendingNotice _ => s

/-- REPLY_SENT (R157). -/
def execReplySent (p : Port) (s : State) : Host.Outcome State Fault Refusal := .next (s.replyGone p)

/-- The last byte of a notice has gone: the transmitter chooses again (R92, R157). -/
def State.noticeGone (s : State) (p : Port) : State :=
  let x := s.link p
  match x.transmitter with
  | .sendingNotice _ => s.setLink p { x with transmitter := .free }.kick
  | .free => s
  | .sendingReply _ => s

/-- NOTICE_SENT (R92). -/
def execNoticeSent (p : Port) (s : State) : Host.Outcome State Fault Refusal := .next (s.noticeGone p)

/-- RESET asserted: transmission is cut off and every block stands in its pin-reset state; the straps are
read only when RESET is released (R162). -/
def execPinReset (s : State) : Host.Outcome State Fault Refusal :=
  .next { State.reset with
    pending := s.pending, resetAsserted := true, baud := s.baud, supsel := s.supsel }

/-- RESET_RELEASED: the straps are read and the part starts (R117, R149, R162). -/
def execResetReleased (baud : BitVec 2) (supsel : BitVec 3) (s : State) :
    Host.Outcome State Fault Refusal :=
  .next (if s.resetAsserted then { s with resetAsserted := false, baud := baud, supsel := supsel }
    else s)

end Sys2Proof.Machine
end

