-- ==== Sys2Proof/Machine/Locks.lean ====
section
/-! DEFINITION. The lock engine's shared work: unreported changes (R81, R84), grants (R6, R35), hand-off
(R34), the ending of a holding and the leaving of a queue (R19, R38), and the reply that carries a
standing report (R16). -/

namespace Sys2Proof.Machine

/-! ### What happens to a lock entry and to a standing record -/

/-- The entry with a holding for a port, new or in place of its old one (R3). -/
def LockEntry.hold (e : LockEntry) (p : Port) (h : Holding) : LockEntry :=
  { e with holders := put e.holders p (some h) }

/-- The entry with the next grant number issued to a holding of a port (R5, R6). -/
def LockEntry.grant (e : LockEntry) (now : Clock) (p : Port) (m : Mode) (lease : Half) : LockEntry :=
  { e.hold p { mode := m, grant := nextGrant e.last, deadline := optionalDeadline now lease } with
    last := nextGrant e.last }

/-- The entry without a port's holding; the last grant number stays (R19, R70). -/
def LockEntry.unhold (e : LockEntry) (p : Port) : LockEntry :=
  { e with holders := put e.holders p none }

/-- The entry with a record at the tail of its queue (R28). -/
def LockEntry.join (e : LockEntry) (w : Waiter) : LockEntry := { e with queue := e.queue ++ [w] }

/-- The entry without the first record of its queue (R35). -/
def LockEntry.popHead (e : LockEntry) : LockEntry := { e with queue := e.queue.tail }

/-- The entry without a port's record; those behind it close up (R38). -/
def LockEntry.leave (e : LockEntry) (p : Port) : LockEntry :=
  { e with queue := e.queue.filter (fun w => w.port != p) }

/-- The standing record of a new holding; count and cause stay (R6). -/
def StandingRecord.hold (r : StandingRecord) (h : Holding) : StandingRecord :=
  { r with standing := h.mode.held, grant := h.grant, deadline := h.deadline }

/-- The standing record once a holding has ended: NONE, with its number (R19, R70, R125). -/
def StandingRecord.unhold (r : StandingRecord) (h : Holding) : StandingRecord :=
  { r with standing := .none, grant := h.grant, deadline := none }

/-- The standing record of a waiter: WAITING, the number kept (R28). -/
def StandingRecord.join (r : StandingRecord) : StandingRecord :=
  { r with standing := .waiting, deadline := none }

/-- The standing record once a wait has ended ungranted: NONE, the number kept (R38). -/
def StandingRecord.leave (r : StandingRecord) : StandingRecord :=
  { r with standing := .none, deadline := none }

/-- The standing record with one more unreported change; a count of 15 stays (R81). -/
def StandingRecord.change (r : StandingRecord) (c : Cause) : StandingRecord :=
  { r with count := min maxChangeCount (r.count + 1), cause := some c }

/-- The standing record with no unreported change (R84). -/
def StandingRecord.clear (r : StandingRecord) : StandingRecord := { r with count := 0, cause := none }

/-! ### Unreported changes -/

/-- An unreported change recorded for a port whose session is OPEN: the count rises to at most 15, the
cause is replaced, the lock joins the notice list (R81); for another port nothing is recorded (R82). -/
def State.recordChange (s : State) (p : Port) (l : LockId) (c : Cause) : State :=
  if s.isOpen p then
    (s.setStanding p l ((s.standing p l).change c)).notify p (.lock l)
  else s

/-- The unreported change of a port on a lock cleared, and the lock removed from the list (R84). -/
def State.clearChange (s : State) (p : Port) (l : LockId) : State :=
  (s.setStanding p l (s.standing p l).clear).unnotify p (.lock l)

/-! ### Grants and hand-off -/

/-- The holdings count of a port one higher (R15). -/
def PortCounts.addHolding (c : PortCounts) : PortCounts := { c with holdings := c.holdings + 1 }

/-- The holdings count one lower. -/
def PortCounts.dropHolding (c : PortCounts) : PortCounts := { c with holdings := c.holdings - 1 }

/-- The waits count one higher. -/
def PortCounts.addWait (c : PortCounts) : PortCounts := { c with waits := c.waits + 1 }

/-- The waits count one lower. -/
def PortCounts.dropWait (c : PortCounts) : PortCounts := { c with waits := c.waits - 1 }

/-- A lock granted to a port, by any path: the next grant number, a holder entry with its deadline, the
standing record and the holdings count (R5, R6, R15). -/
def State.grantTo (s : State) (p : Port) (l : LockId) (m : Mode) (lease : Half) : State :=
  let h : Holding :=
    { mode := m, grant := nextGrant (s.lock l).last, deadline := optionalDeadline s.clock lease }
  ((s.setLock l ((s.lock l).grant s.clock p m lease)).setStanding p l
    ((s.standing p l).hold h)).setCount p (s.count p).addHolding

/-- An immediate grant, reported as GRANT_NOW (R6, R12). -/
def State.grantNow (s : State) (p : Port) (l : LockId) (m : Mode) (lease : Half) : State :=
  (s.grantTo p l m lease).report
    { cls := .grantNow, port := p, lock := some l, detail := m.code,
      grant := some (nextGrant (s.lock l).last) }

/-- The first record of a queue, a port's, taken out and returned to the pool (R26, R35). -/
def State.takeHead (s : State) (l : LockId) (p : Port) : State :=
  ((s.setLock l (s.lock l).popHead).setPool (s.poolInUse - 1)).setCount p (s.count p).dropWait

/-- One waiter granted by hand-off (R35). -/
def State.grantHead (s : State) (l : LockId) (w : Waiter) : State :=
  (((s.takeHead l w.port).grantTo w.port l w.mode w.lease).recordChange w.port l .granted).report
    { cls := .grantQueued, port := w.port, lock := some l, detail := w.mode.code,
      grant := some (nextGrant (s.lock l).last) }

/-- The waiters a hand-off grants, in queue order: the table of R34. -/
def LockEntry.handOffRun (e : LockEntry) : List Waiter :=
  match e.queue with
  | [] => []
  | w :: _ =>
    match e.mode, w.mode with
    | none, .exclusive => [w]
    | none, .shared => e.queue.takeWhile (fun x => x.mode == .shared)
    | some .shared, .shared => e.queue.takeWhile (fun x => x.mode == .shared)
    | some .shared, .exclusive => []
    | some .exclusive, _ => []

/-- Hand-off on a lock: the waiters of R34's table are granted, first waiter first (R33 to R37). -/
def State.handOff (s : State) (l : LockId) : State :=
  (s.lock l).handOffRun.foldl (fun t w => t.grantHead l w) s

/-! ### Endings -/

/-- A holding ended, by any path: the entry and its deadline go, the standing becomes NONE and keeps the
number, the holdings count falls (R19, R70, R111, R125). -/
def State.endHolding (s : State) (p : Port) (l : LockId) (h : Holding) : State :=
  ((s.setLock l ((s.lock l).unhold p)).setStanding p l ((s.standing p l).unhold h)).setCount p
    (s.count p).dropHolding

/-- A waiter record leaving its queue ungranted, by any path (R38). -/
def State.leaveQueue (s : State) (p : Port) (l : LockId) : State :=
  (((s.setLock l ((s.lock l).leave p)).setPool (s.poolInUse - 1)).setStanding p l
    (s.standing p l).leave).setCount p (s.count p).dropWait

/-- Hand-off when the departed record was the first waiter: the head re-examination (R39). -/
def State.reexamine (s : State) (l : LockId) (wasFirst : Bool) : State :=
  if wasFirst then s.handOff l else s

/-- A wait given up by its port or by its session's end: the record leaves, WITHDRAWN is reported with
the cause, and the head is re-examined (R40, R48). -/
def State.withdrawWait (s : State) (p : Port) (l : LockId) (detail : Byte) : State :=
  let s1 := (s.leaveQueue p l).report
    { cls := .withdrawn, port := p, lock := some l, detail := detail }
  s1.reexamine l ((s.lock l).isFirst p)

/-- A holding given up by its port or by its session's end: it ends, RELEASED is reported with the
cause and the number, and hand-off runs (R19, R111). -/
def State.releaseHolding (s : State) (p : Port) (l : LockId) (h : Holding) (detail : Byte) : State :=
  ((s.endHolding p l h).report
    { cls := .released, port := p, lock := some l, detail := detail, grant := some h.grant }).handOff l

/-! ### Replies of the lock engine -/

/-- The reply of the lock engine to ACQUIRE, RELEASE, WITHDRAW, RENEW or CONVERT: the caller's
unreported change on the lock is cleared and the reply carries its standing report, whatever the status
(R16, R84). -/
def State.replyStanding (s : State) (p : Port) (l : LockId) (st : Status) : State :=
  let s1 := s.clearChange p l
  s1.reply p st (s1.standingReport p l)

/-- A refusal by the lock engine, reported with the lock (R17, R20, R146). -/
def State.refuseStanding (s : State) (p : Port) (l : LockId) (st : Status) : State :=
  (s.reportRefused p (some l) st).replyStanding p l st

/-- The test that the caller holds the lock with the grant number given: NOT_HOLDER or STALE_GRANT
otherwise (R20, R51, R67). -/
def LockEntry.holderTest (e : LockEntry) (p : Port) (g : Grant) : Except Status Holding :=
  match e.holding p with
  | none => .error .notHolder
  | some h => if h.grant = g then .ok h else .error .staleGrant

end Sys2Proof.Machine
end

