-- ==== Sys2Proof/Machine/LockRequests.lean ====
section
/-! DEFINITION. The lock requests: ACQUIRE, RELEASE, WITHDRAW, RENEW, CONVERT, QUERY (Chapters 1 to 4). -/

namespace Sys2Proof.Machine

/-! ### ACQUIRE -/

/-- An acquisition is immediately grantable: no holders, or SHARED on a SHARED lock without waiters
(R7). -/
def LockEntry.grantable (e : LockEntry) (m : Mode) : Bool :=
  match e.mode with
  | none => true
  | some .shared => m == .shared && e.queue.isEmpty
  | some .exclusive => false

/-- The status of an ACQUIRE that reached the lock engine: the tests of R9 to R14 in their order. -/
def State.judgeAcquire (s : State) (p : Port) (l : LockId) (m : Mode) (wait : Bool) (lease : Half) :
    Status :=
  let e := s.lock l
  if !e.config.enabled then .lockDisabled
  else if !(s.session p).config.groupMask.getLsbD e.config.group.val then .notPermitted
  else if m == .shared && !e.config.sharedAllowed then .sharedNotAllowed
  else if (e.holding p).isSome then .alreadyHolder
  else if e.waits p then .alreadyWaiting
  else if e.config.policy == .required && lease == 0 then .leaseRequired
  else if decide (e.config.maxLease.toNat < lease.toNat) then .leaseTooLong
  else if e.grantable m then
    if decide (maxStandings ≤ (s.count p).holdings + (s.count p).waits) then .portLimit else .granted
  else if !wait then .busy
  else if decide (maxWaits ≤ (s.count p).waits) then .portWaitLimit
  else if decide (maxStandings ≤ (s.count p).holdings + (s.count p).waits) then .portLimit
  else if decide (poolSize ≤ s.poolInUse) then .poolFull
  else .queued

/-- The record of a WAIT, with its deadline (R25, R42). -/
def newWaiter (now : Clock) (p : Port) (l : LockId) (m : Mode) (lease limit : Half) : Waiter :=
  { port := p, lock := l, mode := m, lease := lease, deadline := optionalDeadline now limit }

/-- A WAIT's record taken from the pool and put at the tail of the queue, the standing WAITING, the waits
count one higher (R28 steps 1 to 4, R42). -/
def State.enqueue (s : State) (p : Port) (l : LockId) (m : Mode) (lease limit : Half) : State :=
  (((s.setLock l ((s.lock l).join (newWaiter s.clock p l m lease limit))).setPool
    (s.poolInUse + 1)).setStanding p l (s.standing p l).join).setCount p (s.count p).addWait

/-- A WAIT joins the queue and is reported as QUEUED with its position (R17, R28). -/
def State.joinQueue (s : State) (p : Port) (l : LockId) (m : Mode) (lease limit : Half) : State :=
  (s.enqueue p l m lease limit).report
    { cls := .queued, port := p, lock := some l, detail := countByte ((s.lock l).queue.length + 1) }

/-- An ACQUIRE taken by the lock engine (R9 to R17). -/
def State.takeAcquire (s : State) (p : Port) (l : LockId) (m : Mode) (wait : Bool)
    (lease limit : Half) : State :=
  match s.judgeAcquire p l m wait lease with
  | .granted => (s.grantNow p l m lease).replyStanding p l .granted
  | .queued => (s.joinQueue p l m lease limit).replyStanding p l .queued
  | .busy => (s.report { cls := .busy, port := p, lock := some l }).replyStanding p l .busy
  | st => s.refuseStanding p l st

/-- ACQUIRE: lock, mode, style, lease length, wait limit (R9, R166). -/
def execAcquire (p : Port) (s : State) : Host.Outcome State Fault Refusal :=
  .next (s.takeRequest .acquire p fun b t =>
    t.takeAcquire p (lockAt b 2) (modeAt b 3) (flagAt b 4) (halfAt b 5) (halfAt b 7))

/-! ### RELEASE -/

/-- A RELEASE taken by the lock engine (R19, R20). -/
def State.takeRelease (s : State) (p : Port) (l : LockId) (g : Grant) : State :=
  match (s.lock l).holderTest p g with
  | .error st => s.refuseStanding p l st
  | .ok h => (s.releaseHolding p l h byRequest).replyStanding p l .ok

/-- RELEASE: lock, grant number (R19, R166). -/
def execRelease (p : Port) (s : State) : Host.Outcome State Fault Refusal :=
  .next (s.takeRequest .release p fun b t => t.takeRelease p (lockAt b 2) (wordAt b 3))

/-! ### WITHDRAW -/

/-- A WITHDRAW taken by the lock engine (R40, R41). -/
def State.takeWithdraw (s : State) (p : Port) (l : LockId) : State :=
  if (s.lock l).waits p then (s.withdrawWait p l byRequest).replyStanding p l .ok
  else s.refuseStanding p l .notWaiting

/-- WITHDRAW: lock (R40, R166). -/
def execWithdraw (p : Port) (s : State) : Host.Outcome State Fault Refusal :=
  .next (s.takeRequest .withdraw p fun b t => t.takeWithdraw p (lockAt b 2))

/-! ### RENEW -/

/-- A holding put in place of the port's present one, in the holder entry and in the standing record
(R69, R54, R56). -/
def State.alterHolding (s : State) (p : Port) (l : LockId) (h : Holding) : State :=
  (s.setLock l ((s.lock l).hold p h)).setStanding p l ((s.standing p l).hold h)

/-- A RENEW taken by the lock engine (R66 to R69). -/
def State.takeRenew (s : State) (p : Port) (l : LockId) (g : Grant) (lease : Half) : State :=
  let c := (s.lock l).config
  match (s.lock l).holderTest p g with
  | .error st => s.refuseStanding p l st
  | .ok h =>
    if c.policy == .required && lease == 0 then s.refuseStanding p l .leaseRequired
    else if decide (c.maxLease.toNat < lease.toNat) then s.refuseStanding p l .leaseTooLong
    else (s.alterHolding p l { h with deadline := optionalDeadline s.clock lease }).replyStanding p l .ok

/-- RENEW: lock, grant number, lease length (R69, R166). -/
def execRenew (p : Port) (s : State) : Host.Outcome State Fault Refusal :=
  .next (s.takeRequest .renew p fun b t => t.takeRenew p (lockAt b 2) (wordAt b 3) (halfAt b 7))

/-! ### CONVERT -/

/-- A holding turned SHARED in place, number and lease kept, then hand-off (R54). -/
def State.downgrade (s : State) (p : Port) (l : LockId) (h : Holding) : State :=
  ((s.alterHolding p l { h with mode := .shared }).report
    { cls := .converted, port := p, lock := some l, detail := Mode.shared.code,
      grant := some h.grant }).handOff l

/-- The last grant number of a lock raised by one (R5). -/
def LockEntry.issue (e : LockEntry) : LockEntry := { e with last := nextGrant e.last }

/-- A holding turned EXCLUSIVE in place under the next grant number, lease kept (R56 steps 1 and 2). -/
def State.raiseHolding (s : State) (p : Port) (l : LockId) (h : Holding) : State :=
  (s.setLock l (s.lock l).issue).alterHolding p l
    { h with mode := .exclusive, grant := nextGrant (s.lock l).last }

/-- A sole SHARED holding turned EXCLUSIVE, reported with its new number (R56). -/
def State.upgrade (s : State) (p : Port) (l : LockId) (h : Holding) : State :=
  (s.raiseHolding p l h).report
    { cls := .converted, port := p, lock := some l, detail := Mode.exclusive.code,
      grant := some (nextGrant (s.lock l).last) }

/-- The caller is the lock's sole holder and the queue is empty (R55). -/
def LockEntry.upgradable (e : LockEntry) (p : Port) : Bool :=
  e.holderPorts == [p] && e.queue.isEmpty

/-- A CONVERT taken by the lock engine: the tests of R50's table in order, then R54 or R56. -/
def State.takeConvert (s : State) (p : Port) (l : LockId) (g : Grant) (target : Mode) : State :=
  match (s.lock l).holderTest p g with
  | .error st => s.refuseStanding p l st
  | .ok h =>
    if h.mode = target then s.refuseStanding p l .sameMode
    else match target with
      | .shared =>
        if (s.lock l).config.sharedAllowed then (s.downgrade p l h).replyStanding p l .ok
        else s.refuseStanding p l .sharedNotAllowed
      | .exclusive =>
        if (s.lock l).upgradable p then (s.upgrade p l h).replyStanding p l .ok
        else s.refuseStanding p l .convertDenied

/-- CONVERT: lock, grant number, target mode (R50, R166). -/
def execConvert (p : Port) (s : State) : Host.Outcome State Fault Refusal :=
  .next (s.takeRequest .convert p fun b t => t.takeConvert p (lockAt b 2) (wordAt b 3) (modeAt b 7))

/-! ### QUERY -/

/-- The results of a QUERY: the lock's configuration, mode, holders, waiters and last grant number, and
the caller's four fields (R22, R23, R167). -/
def State.queryResults (s : State) (p : Port) (l : LockId) : List Byte :=
  let e := s.lock l
  let r := s.standing p l
  e.config.bytes ++
    [modeCode e.mode, portSetByte (fun q => (e.holding q).isSome), countByte e.queue.length,
     modeCode (e.queue.head?.map Waiter.mode)] ++ wordBytes e.last ++
    [r.standing.code] ++ wordBytes r.grant ++
    halfBytes (if r.standing.isHeld then leaseRemaining s.clock r.deadline else 0) ++
    [countByte (e.position p)]

/-- QUERY: lock (R22, R166). It changes no lock, standing or notice state (R23). -/
def execQuery (p : Port) (s : State) : Host.Outcome State Fault Refusal :=
  .next (s.takeRequest .query p fun b t => t.reply p .ok (t.queryResults p (lockAt b 2)))

end Sys2Proof.Machine
end

