-- ==== Sys2Proof/Machine/Notices.lean ====
section
/-! DEFINITION. The forming of notices (R92, R93): STANDING_NOTICE (R95), FAULT_NOTICE (R160),
TRACE_NOTICE (R145), with the layouts of R168. -/

namespace Sys2Proof.Machine

/-- The subject a notice is formed for when the six conditions of R92 hold: the oldest of the list. -/
def State.noticeSubject (s : State) (p : Port) : Option Subject :=
  let x := s.link p
  let y := s.session p
  if x.transmitter == .free && x.replies.isEmpty && decide (0 < y.credit) && s.isOpen p &&
      x.handedOn.isNone then
    y.notices.head?
  else none

/-- A notice body: kind, notice number, fields (R94, R164). -/
def State.noticeBody (s : State) (p : Port) (kind : Byte) (fields : List Byte) : Body :=
  kind :: (s.session p).noticeNumber :: fields

/-- A notice handed to the transmitter: its subject leaves the list, the credit falls by one and the
notice number rises by one (R93). -/
def State.sendNotice (s : State) (p : Port) (body : Body) : State :=
  let y := s.session p
  let s1 := s.setSession p { y with
    notices := y.notices.tail, credit := y.credit - 1, noticeNumber := y.noticeNumber + 1 }
  s1.setLink p { s1.link p with transmitter := .sendingNotice (frameOf body) }

/-- The fields of a STANDING notice (R95, R168). -/
def State.standingFields (s : State) (p : Port) (l : LockId) : List Byte :=
  BitVec.ofNat 8 l.val :: s.standingReport p l ++
    [causeCode (s.standing p l).cause, countByte (s.standing p l).count]

/-- A STANDING notice formed: the record's count and cause are cleared once read (R93, R95). -/
def State.formStanding (s : State) (p : Port) : State :=
  match s.noticeSubject p with
  | some (.lock l) =>
    let s1 := s.sendNotice p (s.noticeBody p 0xE0 (s.standingFields p l))
    s1.setStanding p l (s1.standing p l).clear
  | _ => s

/-- STANDING_NOTICE (R95). -/
def execStandingNotice (p : Port) (s : State) : Host.Outcome State Fault Refusal :=
  .next (s.formStanding p)

/-- A FAULT notice formed; the record stays latched (R160). -/
def State.formFault (s : State) (p : Port) : State :=
  match s.noticeSubject p with
  | some .fault => s.sendNotice p (s.noticeBody p 0xE1 (s.link p).fault.bytes)
  | _ => s

/-- FAULT_NOTICE (R160). -/
def execFaultNotice (p : Port) (s : State) : Host.Outcome State Fault Refusal :=
  .next (s.formFault p)

/-- A TRACE notice formed: state, stop cause, entry count, flags (R145, R168). -/
def State.formTrace (s : State) (p : Port) : State :=
  match s.noticeSubject p with
  | some .trace =>
    s.sendNotice p (s.noticeBody p 0xE2
      [s.trace.state.code, s.trace.stopCause.code, countByte s.trace.buffer.length,
       s.trace.flagsByte])
  | _ => s

/-- TRACE_NOTICE (R145). -/
def execTraceNotice (p : Port) (s : State) : Host.Outcome State Fault Refusal :=
  .next (s.formTrace p)

end Sys2Proof.Machine
end

