-- ==== Sys2Proof/Machine/Expiry.lean ====
section
/-! DEFINITION. The lease clock and what it makes fall due on locks: LEASE_CLOCK_ADVANCE (R61, R63),
LEASE_EXPIRY (R70, R71), WAIT_EXPIRY (R43). -/

namespace Sys2Proof.Machine

/-- The lease clock counts one millisecond, in every state but under an asserted RESET (R61, R162). -/
def State.advanceClock (s : State) : State :=
  if s.resetAsserted then s else { s with clock := s.clock + 1 }

/-- LEASE_CLOCK_ADVANCE (R61). -/
def execLeaseClockAdvance (s : State) : Host.Outcome State Fault Refusal := .next s.advanceClock

/-- A holding ended by its lease: R70's steps in order. -/
def State.expireLease (s : State) (p : Port) (l : LockId) (h : Holding) : State :=
  (((s.endHolding p l h).recordChange p l .leaseExpired).report
    { cls := .leaseExpired, port := p, lock := some l, grant := some h.grant }).handOff l

/-- A lease expiry taken on a lock: without a holding whose deadline the clock has reached it does
nothing (R71). -/
def State.takeLeaseExpiry (s : State) (p : Port) (l : LockId) : State :=
  match (s.lock l).holding p with
  | none => s
  | some h => if s.due h.deadline then s.expireLease p l h else s

/-- LEASE_EXPIRY (R70). -/
def execLeaseExpiry (p : Port) (l : LockId) (s : State) : Host.Outcome State Fault Refusal :=
  .next (s.takeLeaseExpiry p l)

/-- A waiter removed by its wait limit (R43). -/
def State.expireWait (s : State) (p : Port) (l : LockId) : State :=
  let s1 := ((s.leaveQueue p l).recordChange p l .waitExpired).report
    { cls := .waitExpired, port := p, lock := some l }
  s1.reexamine l ((s.lock l).isFirst p)

/-- A wait expiry taken on a lock: without a record whose deadline the clock has reached it does
nothing (R43, R44). -/
def State.takeWaitExpiry (s : State) (p : Port) (l : LockId) : State :=
  match (s.lock l).waiter p with
  | none => s
  | some w => if s.due w.deadline then s.expireWait p l else s

/-- WAIT_EXPIRY (R43). -/
def execWaitExpiry (p : Port) (l : LockId) (s : State) : Host.Outcome State Fault Refusal :=
  .next (s.takeWaitExpiry p l)

end Sys2Proof.Machine
end

