-- ==== Sys2Proof/Machine/Sessions.lean ====
section
/-! DEFINITION. The session unit: session ends and their lock work (R110 to R112, R48), what follows
them, OPEN with its reattachment (R102 to R105), CLOSE, PING, CREDIT, FAULT_ACK, the silence expiry
(R110), and the steps SESSION_END_WITHDRAWAL, SESSION_END_RELEASE and REATTACH_HOLDING. A session end,
an OPEN and a DROP_SESSION that have lock work to take stay in progress in State until their last step
is taken; then what was waiting for them follows in that same step. -/

namespace Sys2Proof.Machine

/-! ### The locks a port stands on -/

/-- The locks the port holds, in lock-number order. -/
def State.heldLocks (s : State) (p : Port) : List LockId :=
  allLocks.filter (fun l => ((s.lock l).holding p).isSome)

/-- The locks the port waits for, in lock-number order. -/
def State.waitedLocks (s : State) (p : Port) : List LockId :=
  allLocks.filter (fun l => (s.lock l).waits p)

/-! ### A session end -/

/-- The count and cause of every standing record of the port cleared (R83). -/
def State.clearAllChanges (s : State) (p : Port) : State :=
  { s with standings := put s.standings p ((look s.standings p).map StandingRecord.clear) }

def State.setEnding (s : State) (p : Port) (e : Option SessionEnd) : State :=
  s.setSession p { s.session p with ending := e }

/-- The class a session end is reported as: CLOSED for its own CLOSE, else LOST (R110). -/
def EndCause.cls : EndCause → TraceClass
  | .closed => .closed
  | .silence | .dropped | .superseded => .lost

/-- The state a session end leaves: CLOSED for its own CLOSE, else LOST (R110). -/
def EndCause.state : EndCause → SessionState
  | .closed => .closed
  | .silence | .dropped | .superseded => .lost

/-- The session unit's own part of a session end: steps 1 to 3 of R110. -/
def State.closeOut (s : State) (p : Port) (c : EndCause) : State :=
  let s1 := s.setSession p { s.session p with
    state := c.state, silenceDeadline := none, silenceLimit := 0, notices := [], credit := 0,
    opening := none }
  (s1.clearAllChanges p).report { cls := c.cls, port := p, detail := c.code }

/-- A session end whose withdrawals are all taken goes on to its releases, under RELEASE: of the
holdings the port then has (R48, R111). -/
def SessionEnd.stage (e : SessionEnd) (held : List LockId) : SessionEnd :=
  match e.work, e.disposition with
  | .withdrawing [], .release => { e with work := .releasing held }
  | _, _ => e

/-- Every withdrawal and release of the session end has been taken. -/
def SessionEnd.done (e : SessionEnd) : Bool :=
  match e.work, e.disposition with
  | .withdrawing [], .retain => true
  | .releasing [], _ => true
  | _, _ => false

/-- The session end goes on with the work `e` still holds; when none is left, it is over and `finish`
follows. -/
def State.goOnEnding (s : State) (p : Port) (e : SessionEnd)
    (finish : SessionEnd → State → State) : State :=
  let e1 := e.stage (s.heldLocks p)
  if e1.done then finish e1 (s.setEnding p none) else s.setEnding p (some e1)

/-- A session end is taken: R110's steps 1 to 3, then its lock work is due. -/
def State.beginEnd (s : State) (p : Port) (c : EndCause) (d : Disposition) (q : EndSequel)
    (finish : SessionEnd → State → State) : State :=
  let s1 := s.closeOut p c
  s1.goOnEnding p { disposition := d, work := .withdrawing (s1.waitedLocks p), sequel := q } finish

/-! ### What follows a reply or a session end -/

/-- The port's session is lost to silence if its deadline is still in force and reached, under its loss
policy (R110); nothing follows such an end. -/
def State.loseToSilence (s : State) (p : Port) : State :=
  if s.isOpen p && s.due (s.session p).silenceDeadline then
    s.beginEnd p .silence (s.session p).config.lossPolicy .nothing (fun _ t => t)
  else s

def State.setDeferred (s : State) (p : Port) (d : List DeferredEnd) : State :=
  s.setSession p { s.session p with deferred := d }

/-- The DROP_SESSION reply formed at the supervisor's port; a silence expiry of the supervisor's own
session that waited for it is then taken (R110, R129). -/
def State.replyDrop (s : State) (ended : Bool) (d : Option Disposition) : State :=
  match s.supervisor with
  | none => s
  | some q =>
    let s1 := s.reply q .ok [if ended then 0 else 1, dispositionCode d]
    if .silence ∈ (s1.session q).deferred then (s1.setDeferred q []).loseToSilence q else s1

/-- A DROP_SESSION carried out on port `p`: an OPEN session ends with cause DROPPED under the named
disposition or the loss policy, after its SUPERVISOR report; another is left alone (R129). -/
def State.drop (s : State) (p : Port) (named : Option Disposition) : State :=
  if s.isOpen p then
    let d := named.getD (s.session p).config.lossPolicy
    let s1 := match s.supervisor with
      | some q => s.report { cls := .supervisor, port := q, detail := Kind.dropSession.code }
      | none => s
    s1.beginEnd p .dropped d .replyDrop (fun e t => t.replyDrop true (some e.disposition))
  else s.replyDrop false none

/-- A session end that waited for a reply of the port, taken now (R110, R130). -/
def State.takeDeferred (s : State) (p : Port) : DeferredEnd → State
  | .silence => s.loseToSilence p
  | .drop named => s.drop p named

/-- Once a reply of the port is formed, the session ends that waited for it are taken, in the order they
fell due (R110, R114). -/
def State.afterReply (s : State) (p : Port) : State :=
  (s.session p).deferred.foldl (fun t d => t.takeDeferred p d) (s.setDeferred p [])

/-! ### OPEN -/

/-- The silence limit in force for an argument and a ceiling (R102). -/
def silenceLimitFor (argument ceiling : Half) : Half :=
  let a := if argument ≠ 0 ∧ argument.toNat < 10 then 10 else argument
  if ceiling = 0 then a
  else if a = 0 ∨ ceiling.toNat < a.toNat then ceiling
  else a

/-- The port's OPEN in progress replaced. -/
def State.setOpening (s : State) (p : Port) (o : Option Opening) : State :=
  s.setSession p { s.session p with opening := o }

/-- The OPEN's last steps: the FAULT subject, the OPENED report, the reply (R103 steps 5 to 7). -/
def State.finishOpen (s : State) (p : Port) (o : Opening) : State :=
  let s1 := s.setOpening p none
  let s2 := if (s1.link p).fault.code.isSome then s1.notify p .fault else s1
  let s3 := s2.report { cls := .opened, port := p, detail := dispositionCode o.superseded }
  let x := s3.session p
  (s3.reply p .ok ([x.number] ++ halfBytes x.silenceLimit ++ [countByte x.credit] ++
    halfBytes s3.restartCount ++ [countByte o.retained])).afterReply p

/-- The OPEN goes on with the locks still to be reattached, and finishes when none is left (R104). -/
def State.goOnOpening (s : State) (p : Port) (o : Opening) : State :=
  match o.locks with
  | [] => s.finishOpen p o
  | _ :: _ => s.setOpening p (some o)

/-- The entry of a new session: session number, notice number, credit, silence limit and deadline, state OPEN
(R103 steps 1 to 3). -/
def Session.reopened (x : Session) (now : Clock) (credit : Byte) (limit : Half) : Session :=
  { x with
    number := nextSessionNumber x.number, noticeNumber := 0, credit := min maxCredit credit.toNat,
    silenceLimit := limit, state := .opened, silenceDeadline := optionalDeadline now limit }

/-- A new session opened with an OPEN's credit argument and the silence limit fixed when it was taken, then the
reattachment of the holdings the port still has (R103 steps 1 to 4). -/
def State.startOpen (s : State) (p : Port) (credit : Byte) (limit : Half)
    (superseded : Option Disposition) : State :=
  (s.setSession p ((s.session p).reopened s.clock credit limit)).goOnOpening p
    { locks := s.heldLocks p, retained := 0, superseded := superseded }

/-- What follows a session end once its last withdrawal or release is taken (R105, R107, R129). -/
def State.finishEnd (s : State) (p : Port) (e : SessionEnd) : State :=
  match e.sequel with
  | .nothing => s
  | .replyClose => (s.reply p .ok []).afterReply p
  | .replyDrop => s.replyDrop true (some e.disposition)
  | .reopen credit limit => s.startOpen p credit limit (some e.disposition)

/-- An OPEN taken by the session unit: its silence limit is fixed by the ceiling as it stands now (R102, R120),
and a session still OPEN is superseded first (R103, R105). -/
def State.takeOpen (s : State) (p : Port) (credit : Byte) (silence : Half) : State :=
  let limit := silenceLimitFor silence (s.session p).config.silenceCeiling
  if s.isOpen p then
    s.beginEnd p .superseded (s.session p).config.lossPolicy (.reopen credit limit)
      (fun e t => t.finishEnd p e)
  else s.startOpen p credit limit none

/-- OPEN: credit, silence limit (R103, R166). -/
def execOpenSession (p : Port) (s : State) : Host.Outcome State Fault Refusal :=
  .next (s.takeRequest .openSession p fun b t =>
    t.takeOpen p (byteAt b 2) (halfAt b 3))

/-- The next reattachment of an OPEN in progress: a holding the port still has makes a RETAINED change
and is counted (R104). -/
def State.reattachNext (s : State) (p : Port) : State :=
  match (s.session p).opening with
  | none => s
  | some o =>
    match o.locks with
    | [] => s
    | l :: rest =>
      if ((s.lock l).holding p).isSome then
        (s.recordChange p l .retained).goOnOpening p
          { o with locks := rest, retained := o.retained + 1 }
      else s.goOnOpening p { o with locks := rest }

/-- REATTACH_HOLDING (R104). -/
def execReattachHolding (p : Port) (s : State) : Host.Outcome State Fault Refusal :=
  .next (s.reattachNext p)

/-! ### CLOSE, PING, CREDIT, FAULT_ACK -/

/-- A CLOSE taken: the session ends with cause CLOSED and RELEASE, whatever the loss policy (R107). -/
def State.takeClose (s : State) (p : Port) : State :=
  s.beginEnd p .closed .release .replyClose (fun e t => t.finishEnd p e)

/-- CLOSE (R107). -/
def execCloseSession (p : Port) (s : State) : Host.Outcome State Fault Refusal :=
  .next (s.takeRequest .closeSession p fun _ t => t.takeClose p)

/-- PING: lease clock, restart count, session number (R108, R167). -/
def execPing (p : Port) (s : State) : Host.Outcome State Fault Refusal :=
  .next (s.takeRequest .ping p fun _ t =>
    t.reply p .ok (wordBytes t.clock ++ halfBytes t.restartCount ++ [(t.session p).number]))

/-- A CREDIT taken: the credit rises by `n`, to at most 16, and is reported (R91). -/
def State.takeCredit (s : State) (p : Port) (n : Nat) : State :=
  let c := min maxCredit ((s.session p).credit + n)
  (s.setSession p { s.session p with credit := c }).reply p .ok [countByte c]

/-- CREDIT: n (R91, R166). -/
def execCredit (p : Port) (s : State) : Host.Outcome State Fault Refusal :=
  .next (s.takeRequest .credit p fun b t => t.takeCredit p (byteAt b 2).toNat)

/-- A FAULT_ACK taken: the record is returned and emptied, the FAULT subject removed (R159). -/
def State.takeFaultAck (s : State) (p : Port) : State :=
  let f := (s.link p).fault
  ((s.setLink p { s.link p with fault := {} }).unnotify p .fault).reply p .ok f.bytes

/-- FAULT_ACK (R159). -/
def execFaultAck (p : Port) (s : State) : Host.Outcome State Fault Refusal :=
  .next (s.takeRequest .faultAck p fun _ t => t.takeFaultAck p)

/-! ### Silence -/

/-- A silence expiry: the session is lost at once, or, while a request of the port is handed on, once
its reply is formed (R110). -/
def State.takeSilenceExpiry (s : State) (p : Port) : State :=
  if s.isOpen p && s.due (s.session p).silenceDeadline then
    if (s.link p).handedOn.isSome then
      if .silence ∈ (s.session p).deferred then s
      else s.setDeferred p ((s.session p).deferred ++ [.silence])
    else s.loseToSilence p
  else s

/-- SILENCE_EXPIRY (R110). -/
def execSilenceExpiry (p : Port) (s : State) : Host.Outcome State Fault Refusal :=
  .next (s.takeSilenceExpiry p)

/-! ### The lock work of a session end -/

/-- The withdrawal on a lock of a session end: a record still in the queue leaves it with cause "session
end"; one already gone leaves nothing to do (R48). `finish` follows the end's last piece of work. -/
def State.takeEndWithdrawal (s : State) (p : Port) (l : LockId)
    (finish : SessionEnd → State → State) : State :=
  match (s.session p).ending with
  | none => s
  | some e =>
    match e.work with
    | .releasing _ => s
    | .withdrawing ls =>
      if l ∈ ls then
        let s1 := if (s.lock l).waits p then s.withdrawWait p l bySessionEnd else s
        s1.goOnEnding p { e with work := .withdrawing (ls.filter (fun k => k != l)) } finish
      else s

/-- SESSION_END_WITHDRAWAL (R48). -/
def execSessionEndWithdrawal (p : Port) (l : LockId) (s : State) : Host.Outcome State Fault Refusal :=
  .next (s.takeEndWithdrawal p l fun e t => t.finishEnd p e)

/-- The release on a lock of a session end: a holding still there ends with cause "session end" and
hand-off runs; one already ended leaves nothing to do (R111). `finish` follows the end's last piece of
work. -/
def State.takeEndRelease (s : State) (p : Port) (l : LockId)
    (finish : SessionEnd → State → State) : State :=
  match (s.session p).ending with
  | none => s
  | some e =>
    match e.work with
    | .withdrawing _ => s
    | .releasing ls =>
      if l ∈ ls then
        let s1 := match (s.lock l).holding p with
          | some h => s.releaseHolding p l h bySessionEnd
          | none => s
        s1.goOnEnding p { e with work := .releasing (ls.filter (fun k => k != l)) } finish
      else s

/-- SESSION_END_RELEASE (R111). -/
def execSessionEndRelease (p : Port) (l : LockId) (s : State) : Host.Outcome State Fault Refusal :=
  .next (s.takeEndRelease p l fun e t => t.finishEnd p e)

/-- The locks, in lock-number order, on which a session end of the port has still to withdraw. -/
def State.dueWithdrawals (s : State) (p : Port) : List LockId :=
  match (s.session p).ending.map SessionEnd.work with
  | some (.withdrawing ls) => allLocks.filter (fun l => l ∈ ls)
  | _ => []

/-- The locks, in lock-number order, on which a session end of the port has still to release. -/
def State.dueReleases (s : State) (p : Port) : List LockId :=
  match (s.session p).ending.map SessionEnd.work with
  | some (.releasing ls) => allLocks.filter (fun l => l ∈ ls)
  | _ => []

/-- The lock work that a port's session end still has to take, taken in lock order, the withdrawals first
(R114). Nothing follows it: the request that waits for the end is discarded by the RESTART (log entry 19). -/
def State.settleEnd (s : State) (p : Port) : State :=
  let s1 := (s.dueWithdrawals p).foldl (fun t l => t.takeEndWithdrawal p l fun _ u => u) s
  (s1.dueReleases p).foldl (fun t l => t.takeEndRelease p l fun _ u => u) s1

/-- The lock work of every session end in progress taken, in port order (R114; log entry 19). -/
def State.settleEnds (s : State) : State := allPorts.foldl State.settleEnd s

end Sys2Proof.Machine
end

