-- ==== Sys2Proof/Machine/Supervision.lean ====
section
/-! DEFINITION. The supervisor requests (Chapter 7): SET_LOCK, GET_LOCK, SET_PORT, GET_PORT, REVOKE,
PURGE, DROP_SESSION, RESTART and RESTART_COMPLETE. -/

namespace Sys2Proof.Machine

/-! ### SET_LOCK, GET_LOCK -/

/-- The configuration fields a SET_LOCK carries (R122, R166). -/
def lockConfigAt (b : Body) : LockConfig :=
  { enabled := flagAt b 3, group := Fin.ofNat 8 (byteAt b 4).toNat, sharedAllowed := flagAt b 5,
    policy := if byteAt b 6 = 1 then .required else .optional, maxLease := halfAt b 7 }

/-- The lock has a holder or a waiter. -/
def LockEntry.inUse (e : LockEntry) : Bool := !e.holderPorts.isEmpty || !e.queue.isEmpty

/-- A SET_LOCK taken: refused IN_USE when it would disable a lock with holders or waiters, else applied
whole (R122). -/
def State.takeSetLock (s : State) (p : Port) (l : LockId) (c : LockConfig) : State :=
  if !c.enabled && (s.lock l).inUse then
    (s.reportRefused p (some l) .inUse).reply p .inUse []
  else
    ((s.setLock l { s.lock l with config := c }).report
      { cls := .supervisor, port := p, lock := some l, detail := Kind.setLock.code }).reply p .ok []

/-- SET_LOCK: lock, enabled, group, shared allowed, lease policy, maximum lease (R122, R166). -/
def execSetLock (p : Port) (s : State) : Host.Outcome State Fault Refusal :=
  .next (s.takeRequest .setLock p fun b t => t.takeSetLock p (lockAt b 2) (lockConfigAt b))

/-- GET_LOCK: lock (R124, R166). -/
def execGetLock (p : Port) (s : State) : Host.Outcome State Fault Refusal :=
  .next (s.takeRequest .getLock p fun b t => t.reply p .ok (t.lock (lockAt b 2)).config.bytes)

/-! ### SET_PORT, GET_PORT -/

/-- The configuration a SET_PORT carries (R119, R166). -/
def portConfigAt (b : Body) : PortConfig :=
  { groupMask := byteAt b 3, lossPolicy := if byteAt b 4 = 1 then .retain else .release,
    silenceCeiling := halfAt b 5 }

/-- A SET_PORT taken: the named port's three fields are replaced together (R119). -/
def State.takeSetPort (s : State) (p target : Port) (c : PortConfig) : State :=
  ((s.setSession target { s.session target with config := c }).report
    { cls := .supervisor, port := p, detail := Kind.setPort.code }).reply p .ok []

/-- SET_PORT: port, group mask, loss policy, silence ceiling (R119, R166). -/
def execSetPort (p : Port) (s : State) : Host.Outcome State Fault Refusal :=
  .next (s.takeRequest .setPort p fun b t => t.takeSetPort p (portAt b 2) (portConfigAt b))

/-- The results of a GET_PORT (R121, R167). -/
def State.portResults (s : State) (q : Port) : List Byte :=
  let x := s.session q
  [x.config.groupMask, x.config.lossPolicy.policyCode] ++ halfBytes x.config.silenceCeiling ++
    [x.state.code, x.number, countByte x.credit, countByte x.notices.length,
     countByte (s.count q).holdings, countByte (s.count q).waits] ++ (s.link q).fault.bytes

/-- GET_PORT: port (R121, R166). -/
def execGetPort (p : Port) (s : State) : Host.Outcome State Fault Refusal :=
  .next (s.takeRequest .getPort p fun b t => t.reply p .ok (t.portResults (portAt b 2)))

/-! ### REVOKE, PURGE -/

/-- A port's holding removed by the supervisor: it ends, the change is recorded with its cause, REVOKED
is reported with its detail (R125, R127). -/
def State.revokeHolding (s : State) (l : LockId) (c : Cause) (detail : Byte) (q : Port) : State :=
  match (s.lock l).holding q with
  | none => s
  | some h =>
    ((s.endHolding q l h).recordChange q l c).report
      { cls := .revoked, port := q, lock := some l, detail := detail, grant := some h.grant }

/-- The holders a REVOKE names: the target port if it holds, or every holder for ALL, in port order. -/
def LockEntry.targets (e : LockEntry) (target : Byte) : List Port :=
  if target = 0xFF then e.holderPorts
  else e.holderPorts.filter (fun q => q.val == target.toNat)

/-- A REVOKE taken: NOT_HOLDER without a holding to remove, else SUPERVISOR, the removals, one hand-off
(R125, R126). -/
def State.takeRevoke (s : State) (p : Port) (l : LockId) (target : Byte) : State :=
  match (s.lock l).targets target with
  | [] => (s.reportRefused p (some l) .notHolder).reply p .notHolder []
  | qs =>
    let s1 := s.report { cls := .supervisor, port := p, lock := some l, detail := Kind.revoke.code }
    let s2 := qs.foldl (fun t q => t.revokeHolding l .revoked byRevoke q) s1
    (s2.handOff l).reply p .ok [countByte qs.length]

/-- REVOKE: lock, target (R125, R166). -/
def execRevoke (p : Port) (s : State) : Host.Outcome State Fault Refusal :=
  .next (s.takeRequest .revoke p fun b t => t.takeRevoke p (lockAt b 2) (byteAt b 3))

/-- A waiter removed by a PURGE (R49, R127). -/
def State.purgeWaiter (s : State) (l : LockId) (w : Waiter) : State :=
  ((s.leaveQueue w.port l).recordChange w.port l .purged).report
    { cls := .revoked, port := w.port, lock := some l, detail := byPurge }

/-- A PURGE taken: SUPERVISOR, every holding in port order, every waiter in queue order, hand-off
(R127). -/
def State.takePurge (s : State) (p : Port) (l : LockId) : State :=
  let holders := (s.lock l).holderPorts
  let waiters := (s.lock l).queue
  let s1 := s.report { cls := .supervisor, port := p, lock := some l, detail := Kind.purge.code }
  let s2 := holders.foldl (fun t q => t.revokeHolding l .purged byPurge q) s1
  let s3 := waiters.foldl (fun t w => t.purgeWaiter l w) s2
  (s3.handOff l).reply p .ok [countByte holders.length, countByte waiters.length]

/-- PURGE: lock (R127, R166). -/
def execPurge (p : Port) (s : State) : Host.Outcome State Fault Refusal :=
  .next (s.takeRequest .purge p fun b t => t.takePurge p (lockAt b 2))

/-! ### DROP_SESSION -/

/-- The disposition a DROP_SESSION names; POLICY names none (R129, R169). -/
def namedDisposition (b : Byte) : Option Disposition :=
  match b.toNat with
  | 1 => some .release
  | 2 => some .retain
  | _ => none

/-- The request the port has handed on is an OPEN. -/
def State.isOpening (s : State) (p : Port) : Bool :=
  ((s.link p).handedOn.bind kindOf) == some .openSession

/-- A DROP_SESSION has to wait for a reply of its target: a request of it is handed on, and its session
is OPEN or that request is an OPEN (R110, R130; log entry 5). -/
def State.dropWaits (s : State) (target : Port) : Bool :=
  (s.link target).handedOn.isSome && (s.isOpen target || s.isOpening target)

/-- A DROP_SESSION taken: BAD_ARGUMENT for the supervisor's own port, else the target's session ends now
or when the reply it waits for is formed (R129, R130). -/
def State.takeDrop (s : State) (p target : Port) (named : Option Disposition) : State :=
  if target = p then s.refuse p .badArgument
  else if s.dropWaits target then
    s.setDeferred target ((s.session target).deferred ++ [.drop named])
  else s.drop target named

/-- DROP_SESSION: port, disposition (R129, R166). -/
def execDropSession (p : Port) (s : State) : Host.Outcome State Fault Refusal :=
  .next (s.takeRequest .dropSession p fun b t =>
    t.takeDrop p (portAt b 2) (namedDisposition (byteAt b 3)))

/-! ### RESTART -/

/-- The slots of a window that a RESTART keeps: that of a reply in transmission, and on the
supervisor's port the RESTART's own (R132). -/
def LinkPort.keptSlots (x : LinkPort) (own : Bool) : List Slot :=
  (match x.transmitter with
   | .sendingReply _ => (x.window.filter (fun c => c.cond == .answered)).take 1
   | .free => []
   | .sendingNotice _ => []) ++
  (if own then x.window.filter (fun c => c.cond == .handedOn) else [])

/-- A link port cleared by a RESTART: a frame in transmission goes on, and the level of the line is not
the part's to change (R131 to R133, R163). -/
def LinkPort.restarted (x : LinkPort) (own : Bool) : LinkPort :=
  { receiver := .hunt, gapDeadline := none, inBreak := x.inBreak, window := x.keptSlots own, replies := [],
    transmitter := x.transmitter, fault := {} }

/-- A session entry cleared by a RESTART: number and configuration kept (R100). -/
def Session.restarted (x : Session) : Session := { number := x.number, config := x.config }

/-- A lock entry cleared by a RESTART: configuration and last grant number kept (R1, R2). -/
def LockEntry.restarted (e : LockEntry) : LockEntry := { config := e.config, last := e.last }

/-- Every block clears its state as R131's table states. Every standing record is cleared to R79's values, its
grant number to 0, that of a port whose kept holding the RESTART ends among them, where R82 and R112 would keep
that holding's number (log entry 18, DESIGN CHOICE). -/
def State.clearForRestart (s : State) (p : Port) : State :=
  { s with
    restarting := true
    locks := s.locks.map LockEntry.restarted
    standings := State.reset.standings
    poolInUse := 0
    counts := State.reset.counts
    sessions := s.sessions.map Session.restarted
    links := Vector.ofFn fun q : Fin 6 => (s.link q).restarted (q == p) }

/-- The RESTART's own work: the report that ends a capture, the restart count, the clearing (R131, R147). -/
def State.beginRestart (s : State) (p : Port) : State :=
  let t := s.trace.hearRestart { cls := .supervisor, port := p, detail := Kind.restart.code }
  { s with trace := t, restartCount := s.restartCount + 1 }.clearForRestart p

/-- A RESTART taken: a session end taken before it has its withdrawals and releases taken first, and the
restart removes what is left (R114, R131, R134). -/
def State.takeRestart (s : State) (p : Port) : State := s.settleEnds.beginRestart p

/-- RESTART (R131, R166). -/
def execRestart (p : Port) (s : State) : Host.Outcome State Fault Refusal :=
  .next (s.takeRequest .restart p fun _ t => t.takeRestart p)

/-- The link port with its receiver in HUNT and no gap deadline. -/
def LinkPort.hunting (x : LinkPort) : LinkPort := { x with receiver := .hunt, gapDeadline := none }

/-- The restart completes: receivers in HUNT, the reply formed at the supervisor's port (R131, R133). -/
def State.completeRestart (s : State) : State :=
  if s.restarting then
    let s1 : State := { s with restarting := false, links := s.links.map LinkPort.hunting }
    match s1.supervisor with
    | some q => s1.reply q .ok (halfBytes s1.restartCount)
    | none => s1
  else s

/-- RESTART_COMPLETE (R133). -/
def execRestartComplete (s : State) : Host.Outcome State Fault Refusal := .next s.completeRestart

end Sys2Proof.Machine
end

