-- ==== Sys2Proof/Machine/Trace.lean ====
section
/-! DEFINITION. The trace requests and the trace timer (Chapter 8): TRACE_SETUP, TRACE_STATUS,
TRACE_READ, TIME_WRAPPED, TRACE_TIMER_ADVANCE. What reports do to the capture is in Flags.lean. -/

namespace Sys2Proof.Machine

/-- The eight setup fields a TRACE_SETUP carries (R136, R166). -/
def traceSetupAt (b : Body) : TraceSetup :=
  { enable := flagAt b 2, startOnClass := flagAt b 3, startClass := classAt b 4,
    stopOnClass := flagAt b 5, stopClass := classAt b 6, stopOnFull := flagAt b 7,
    classFilter := halfAt b 8, portFilter := byteAt b 10 }

/-- The capture state a setup begins in (R136 step 4). -/
def TraceSetup.firstState (t : TraceSetup) : CaptureState :=
  if t.enable then (if t.startOnClass then .armed else .running) else .off

/-- A TRACE_SETUP taken: a new window with an empty buffer, clear flags and timer 0, and no TRACE subject
left in the supervisor's list (R136). -/
def State.takeTraceSetup (s : State) (p : Port) (t : TraceSetup) : State :=
  ((s.setTrace { setup := t, state := t.firstState }).unnotify p .trace).reply p .ok []

/-- TRACE_SETUP (R136, R166). -/
def execTraceSetup (p : Port) (s : State) : Host.Outcome State Fault Refusal :=
  .next (s.takeRequest .traceSetup p fun b t => t.takeTraceSetup p (traceSetupAt b))

/-- State, stop cause, entry count, flags: the capture fields that replies share (R143, R144). -/
def TraceUnit.statusBytes (t : TraceUnit) : List Byte :=
  [t.state.code, t.stopCause.code, countByte t.buffer.length, t.flagsByte]

/-- TRACE_STATUS (R144, R167). -/
def execTraceStatus (p : Port) (s : State) : Host.Outcome State Fault Refusal :=
  .next (s.takeRequest .traceStatus p fun _ t =>
    t.reply p .ok (t.trace.statusBytes ++ stampBytes t.trace.timer ++ t.trace.setup.bytes))

/-- A TRACE_READ taken: up to `n` entries leave the head of the buffer and are returned, oldest first,
after the capture fields read behind them (R143, R167). -/
def State.takeTraceRead (s : State) (p : Port) (n : Nat) : State :=
  let taken := s.trace.buffer.take n
  let t : TraceUnit := { s.trace with buffer := s.trace.buffer.drop n }
  (s.setTrace t).reply p .ok
    (countByte taken.length :: t.statusBytes ++ (taken.map TraceEntry.bytes).flatten)

/-- TRACE_READ: n (R143, R166). -/
def execTraceRead (p : Port) (s : State) : Host.Outcome State Fault Refusal :=
  .next (s.takeRequest .traceRead p fun b t => t.takeTraceRead p (byteAt b 2).toNat)

/-- TRACE_TIMER_ADVANCE: 10 microseconds pass (R142). -/
def execTraceTimerAdvance (s : State) : Host.Outcome State Fault Refusal :=
  .next (s.setTrace s.trace.tick)

/-- The advance of the trace timer that passes 16,777,215 to 0 and sets TIME_WRAPPED; while the timer
does not stand there, or the capture does not run, no such advance can happen (R142). -/
def State.wrapTimer (s : State) : State :=
  if s.trace.timer = 0xFFFFFF then s.setTrace s.trace.tick else s

/-- TIME_WRAPPED (R142). -/
def execTimeWrapped (s : State) : Host.Outcome State Fault Refusal := .next s.wrapTimer

end Sys2Proof.Machine
end

