-- ==== Sys2Proof/Machine/Dispatch.lean ====
section
/-! DEFINITION. The dispatch: one arm per command, each one call of its meaning. -/

namespace Sys2Proof.Machine

def exec (i : Instr) (s : State) : Host.Outcome State Fault Refusal :=
  match i with
  | .openSession p => Sys2Proof.Machine.execOpenSession p s
  | .reattachHolding p => Sys2Proof.Machine.execReattachHolding p s
  | .closeSession p => Sys2Proof.Machine.execCloseSession p s
  | .ping p => Sys2Proof.Machine.execPing p s
  | .credit p => Sys2Proof.Machine.execCredit p s
  | .faultAck p => Sys2Proof.Machine.execFaultAck p s
  | .acquire p => Sys2Proof.Machine.execAcquire p s
  | .release p => Sys2Proof.Machine.execRelease p s
  | .withdraw p => Sys2Proof.Machine.execWithdraw p s
  | .renew p => Sys2Proof.Machine.execRenew p s
  | .convert p => Sys2Proof.Machine.execConvert p s
  | .query p => Sys2Proof.Machine.execQuery p s
  | .setLock p => Sys2Proof.Machine.execSetLock p s
  | .getLock p => Sys2Proof.Machine.execGetLock p s
  | .setPort p => Sys2Proof.Machine.execSetPort p s
  | .getPort p => Sys2Proof.Machine.execGetPort p s
  | .revoke p => Sys2Proof.Machine.execRevoke p s
  | .purge p => Sys2Proof.Machine.execPurge p s
  | .dropSession p => Sys2Proof.Machine.execDropSession p s
  | .restart p => Sys2Proof.Machine.execRestart p s
  | .restartComplete => Sys2Proof.Machine.execRestartComplete s
  | .traceSetup p => Sys2Proof.Machine.execTraceSetup p s
  | .traceStatus p => Sys2Proof.Machine.execTraceStatus p s
  | .traceRead p => Sys2Proof.Machine.execTraceRead p s
  | .unknownKind p => Sys2Proof.Machine.execUnknownKind p s
  | .leaseExpiry p l => Sys2Proof.Machine.execLeaseExpiry p l s
  | .waitExpiry p l => Sys2Proof.Machine.execWaitExpiry p l s
  | .silenceExpiry p => Sys2Proof.Machine.execSilenceExpiry p s
  | .sessionEndWithdrawal p l => Sys2Proof.Machine.execSessionEndWithdrawal p l s
  | .sessionEndRelease p l => Sys2Proof.Machine.execSessionEndRelease p l s
  | .leaseClockAdvance => Sys2Proof.Machine.execLeaseClockAdvance s
  | .validFrame p body => Sys2Proof.Machine.execValidFrame p body s
  | .frameCheck p body check => Sys2Proof.Machine.execFrameCheck p body check s
  | .frameShape p length => Sys2Proof.Machine.execFrameShape p length s
  | .charError p beginsBreak => Sys2Proof.Machine.execCharError p beginsBreak s
  | .breakEnd p => Sys2Proof.Machine.execBreakEnd p s
  | .receiveGap p => Sys2Proof.Machine.execReceiveGap p s
  | .standingNotice p => Sys2Proof.Machine.execStandingNotice p s
  | .faultNotice p => Sys2Proof.Machine.execFaultNotice p s
  | .traceNotice p => Sys2Proof.Machine.execTraceNotice p s
  | .replySent p => Sys2Proof.Machine.execReplySent p s
  | .noticeSent p => Sys2Proof.Machine.execNoticeSent p s
  | .timeWrapped => Sys2Proof.Machine.execTimeWrapped s
  | .pinReset => Sys2Proof.Machine.execPinReset s
  | .characterReceived p c => Sys2Proof.Machine.execCharacterReceived p c s
  | .traceTimerAdvance => Sys2Proof.Machine.execTraceTimerAdvance s
  | .resetReleased baud supsel => Sys2Proof.Machine.execResetReleased baud supsel s

end Sys2Proof.Machine
end

