-- ==== Sys2Proof/Safety.lean ====
section
/-! DEFINITION. What holds of the part in every state of a run: the laws the spec states over the whole
part (R7, R10, R26, R29, R34, R79, R80, R86, R90, R100, R135, R156, R158), as decidable predicates over a
state; and the terms in which statements say what a command does to a state: `s` is the state before it and
`t` the state after it throughout. -/

namespace Sys2Proof.Machine

/-! ### Locks -/

/-- A lock's holders are none, exactly one EXCLUSIVE holder, or SHARED holders (R7). -/
abbrev LockEntry.Shape (e : LockEntry) : Prop :=
  ∀ p q : Port, p ≠ q → e.holdsIn .exclusive p = true → e.holding q = none

/-- Whenever a lock has waiters, the mode of its first waiter conflicts with its current holding; so a
lock without holders has no waiters (R34). -/
abbrev LockEntry.HeadConflicts (e : LockEntry) : Prop :=
  (e.queue.head?.all fun w => e.mode.any fun m => w.mode.conflicts m) = true

/-- A port appears at most once among a lock's holders and waiters taken together (R10, R29). -/
abbrev LockEntry.PortOnce (e : LockEntry) : Prop :=
  (e.queue.map Waiter.port).Nodup ∧ ∀ p : Port, (e.holding p).isSome = true → e.waits p = false

/-- The laws of one lock entry: R7, R34, R10 and R29, the lock its records name (R29), no holding with
number 0 (R5), and no holder or waiter on a lock that is not enabled (R1). -/
abbrev LockEntry.Sound (e : LockEntry) (l : LockId) : Prop :=
  e.Shape ∧ e.HeadConflicts ∧ e.PortOnce ∧ (∀ w ∈ e.queue, w.lock = l) ∧
    (∀ p : Port, (e.holding p).all (fun h => h.grant != 0) = true) ∧
    (e.config.enabled = true ∨ e.inUse = false)

/-- Every lock keeps its laws. -/
abbrev State.LocksSound (s : State) : Prop := ∀ l : LockId, (s.lock l).Sound l

/-! ### Standing records and counts -/

/-- The standing and lease deadline that a lock entry gives a port (R80). -/
def LockEntry.view (e : LockEntry) (p : Port) : Standing × Option Clock :=
  match e.holding p with
  | some h => (h.mode.held, h.deadline)
  | none => if e.waits p then (.waiting, none) else (.none, none)

/-- A standing record is in step with the lock entry: standing, deadline, and a holder's number (R80). -/
abbrev StandingRecord.Agrees (r : StandingRecord) (e : LockEntry) (p : Port) : Prop :=
  (r.standing, r.deadline) = e.view p ∧ (e.holding p).all (fun h => h.grant == r.grant) = true

/-- Every standing record is in step with the lock table (R80). -/
abbrev State.StandingsAgree (s : State) : Prop :=
  ∀ (p : Port) (l : LockId), (s.standing p l).Agrees (s.lock l) p

/-- The waiter records that stand in queues (R26). -/
def State.queuedRecords (s : State) : Nat := (allLocks.map fun l => (s.lock l).queue.length).sum

/-- The counts are those of the lock table: holdings and waits of each port (R15), records in use
(R26). -/
abbrev State.CountsAgree (s : State) : Prop :=
  (∀ p : Port, (s.count p).holdings = (s.heldLocks p).length ∧
    (s.count p).waits = (s.waitedLocks p).length) ∧ s.poolInUse = s.queuedRecords

/-- At most 48 records in use; at most 8 waits of a port, and 16 holdings and waits together (R26). -/
abbrev State.WithinLimits (s : State) : Prop :=
  (∀ p : Port, (s.count p).waits ≤ maxWaits ∧
    (s.count p).holdings + (s.count p).waits ≤ maxStandings) ∧ s.poolInUse ≤ poolSize

/-! ### Notices -/

/-- The count and the cause of every standing record belong together, and the count is at most 15
(R79). -/
abbrev State.ChangesAgree (s : State) : Prop :=
  ∀ (p : Port) (l : LockId), (s.standing p l).count ≤ maxChangeCount ∧
    ((s.standing p l).cause = none ↔ (s.standing p l).count = 0)

/-- A port's notice list holds no subject twice; a lock stands in it exactly while its change count is
above 0; FAULT only while the record is latched (R160), TRACE only on the supervisor port with a capture
stopped by its stop class or a full buffer (R145); it is empty whenever the session is not OPEN (R86), and
an OPEN in progress has made its session OPEN (R103). -/
abbrev State.NoticesAgree (s : State) : Prop :=
  ∀ p : Port, (s.session p).notices.Nodup ∧
    (∀ l : LockId, .lock l ∈ (s.session p).notices ↔ 0 < (s.standing p l).count) ∧
    (.fault ∈ (s.session p).notices → (s.link p).fault.code.isSome = true) ∧
    (.trace ∈ (s.session p).notices → s.supervisor = some p ∧ s.trace.state = .stopped ∧
      (s.trace.stopCause = .stopClass ∨ s.trace.stopCause = .full)) ∧
    (s.isOpen p = false → (s.session p).notices = []) ∧
    ((s.session p).opening.isSome = true → s.isOpen p = true)

/-! ### Sessions -/

/-- A silence limit or ceiling: 0, or 10 to 60,000 ms (R100, R119). -/
abbrev SilenceRange (n : Half) : Prop := n = 0 ∨ (10 ≤ n.toNat ∧ n.toNat ≤ 60000)

/-- The silence limit fixed for the OPEN that follows a session end; 0 where none follows. -/
def EndSequel.silence : EndSequel → Half
  | .reopen _ n => n
  | .nothing => 0
  | .replyClose => 0
  | .replyDrop => 0

/-- A session entry within R100's table: credit 0 to 16 and only while OPEN (R90), a silence limit in
range and in force only while OPEN, a silence deadline exactly while OPEN with a limit, a ceiling in
range; and the limit fixed for an OPEN that waits for its old session's end is in range (R102). -/
abbrev Session.Sound (x : Session) : Prop :=
  x.credit ≤ maxCredit ∧ SilenceRange x.silenceLimit ∧ SilenceRange x.config.silenceCeiling ∧
    (x.state ≠ .opened → x.credit = 0 ∧ x.silenceLimit = 0) ∧
    (x.silenceDeadline.isSome = true ↔ x.state = .opened ∧ x.silenceLimit ≠ 0) ∧
    x.ending.all (fun e => decide (SilenceRange e.sequel.silence)) = true

/-- Every session entry is within its table. -/
abbrev State.SessionsSound (s : State) : Prop := ∀ p : Port, (s.session p).Sound

/-! ### Link ports -/

/-- The order of a request's conditions in the window: answered before handed on before waiting. -/
def SlotCond.rank : SlotCond → Nat
  | .answered => 0
  | .handedOn => 1
  | .waiting => 2

/-- The replies of the port not yet completely transmitted. -/
def LinkPort.unsent (x : LinkPort) : Nat :=
  x.replies.length + (match x.transmitter with
    | .sendingReply _ => 1
    | .free => 0
    | .sendingNotice _ => 0)

/-- The replies of the port not yet completely transmitted, as frames, in the order they leave: the one on
the line, then those of the reply queue (R156, R157). -/
def LinkPort.outgoing (x : LinkPort) : List (List Byte) :=
  (match x.transmitter with
    | .sendingReply f => [f]
    | .free => []
    | .sendingNotice _ => []) ++ x.replies.map frameOf

/-- A link port within R156 to R158: at most 4 requests, in order, at most one handed on; one answered
slot for each reply not yet sent; no reply waits at a free transmitter; a further-count of at most 255, and
an empty record all zero; a gap deadline exactly outside HUNT (R153). -/
abbrev LinkPort.Sound (x : LinkPort) : Prop :=
  x.window.length ≤ windowSize ∧
    x.window.Pairwise (fun a b => a.cond.rank ≤ b.cond.rank) ∧
    (x.window.filter (fun c => c.cond == .handedOn)).length ≤ 1 ∧
    (x.window.filter (fun c => c.cond == .answered)).length = x.unsent ∧
    (x.transmitter = .free → x.replies = []) ∧
    x.fault.further ≤ maxFurther ∧ (x.fault.code = none → x.fault = {}) ∧
    (x.gapDeadline = none ↔ x.receiver = .hunt)

/-- Every link port is within its rules. -/
abbrev State.LinksSound (s : State) : Prop := ∀ p : Port, (s.link p).Sound

/-! ### Trace unit -/

/-- The trace unit within R135 to R142: at most 128 entries, none while ARMED, a stop cause exactly while
STOPPED, OFF exactly without enable. -/
abbrev TraceUnit.Sound (t : TraceUnit) : Prop :=
  t.buffer.length ≤ traceSize ∧ (t.state = .armed → t.buffer = []) ∧
    (t.stopCause = .none ↔ t.state ≠ .stopped) ∧ (t.state = .off ↔ t.setup.enable = false)

/-! ### Session ends -/

/-- Where a port's session stands toward its locks. While an end is in progress the session is not OPEN, the
work still to be taken covers every wait, and after the withdrawals every holding (R110, R48, R111); CLOSE ends
under RELEASE (R107). With no end in progress a port whose session is not OPEN has no waits (R48), and one
that is CLOSED has no holdings (R112). -/
abbrev State.EndSound (s : State) (p : Port) : Prop :=
  match (s.session p).ending with
  | none =>
    (s.isOpen p = false → ∀ l : LockId, (s.lock l).waits p = false) ∧
      ((s.session p).state = .closed → ∀ l : LockId, (s.lock l).holding p = none)
  | some e =>
    s.isOpen p = false ∧ ((s.session p).state = .closed → e.disposition = .release) ∧
      match e.work with
      | .withdrawing ls => ∀ l : LockId, (s.lock l).waits p = true → l ∈ ls
      | .releasing ls => e.disposition = .release ∧ (∀ l : LockId, (s.lock l).waits p = false) ∧
          ∀ l : LockId, ((s.lock l).holding p).isSome = true → l ∈ ls

/-- Every port's session stands toward its locks as R48, R110 to R112 say. -/
abbrev State.EndsSound (s : State) : Prop := ∀ p : Port, s.EndSound p

/-- A session end waits only for a reply of its port that is still to come (R110), and none by DROP_SESSION
waits at the supervisor's own port (R129). While a restart is in progress every session is CLOSED, with no end in
progress and none waiting (R131). -/
abbrev State.WaitingEndsSound (s : State) : Prop :=
  ∀ p : Port, ((s.link p).handedOn = none → (s.session p).deferred = []) ∧
    (s.supervisor = some p → ∀ d ∈ (s.session p).deferred, d = .silence) ∧
    (s.restarting = true →
      (s.session p).state = .closed ∧ (s.session p).ending = none ∧ (s.session p).deferred = [])

/-! ### RESET -/

/-- While RESET is asserted the part stands in its pin-reset state (R162). -/
abbrev State.HeldInReset (s : State) : Prop :=
  s.resetAsserted = true → s = { State.reset with
    pending := s.pending, resetAsserted := true, baud := s.baud, supsel := s.supsel }

/-- All the laws together. -/
abbrev State.Inv (s : State) : Prop :=
  s.LocksSound ∧ s.StandingsAgree ∧ s.CountsAgree ∧ s.WithinLimits ∧ s.ChangesAgree ∧
    s.NoticesAgree ∧ s.SessionsSound ∧ s.LinksSound ∧ s.trace.Sound ∧ s.EndsSound ∧ s.WaitingEndsSound ∧
    s.HeldInReset

/-! ### Requests and replies -/

/-- Port `p`'s next request is `b`, of kind `k`, and it passes the checks of R165. -/
abbrev State.Takes (s : State) (p : Port) (k : Kind) (b : Body) : Prop :=
  s.nextRequest p = some b ∧ kindOf b = some k ∧ s.messageCheck p k b = none

/-- A reply has been formed at a link port (R156, R157): it leaves behind every reply before it, its
request goes from condition `c` to answered, a free transmitter has begun to send, and nothing else of the
port has changed. -/
abbrev LinkPort.AnsweredWith (x y : LinkPort) (c : SlotCond) (reply : Body) : Prop :=
  y.outgoing = x.outgoing ++ [frameOf reply] ∧ y.window = advanceSlot c .answered x.window ∧
    y.transmitter ≠ .free ∧ (x.transmitter ≠ .free → y.transmitter = x.transmitter) ∧
    y.receiver = x.receiver ∧ y.gapDeadline = x.gapDeadline ∧ y.inBreak = x.inBreak ∧ y.fault = x.fault

/-- The only change at the link ports is the reply formed at port `p`. -/
abbrev State.Replied (s t : State) (p : Port) (c : SlotCond) (reply : Body) : Prop :=
  (s.link p).AnsweredWith (t.link p) c reply ∧ ∀ q : Port, q ≠ p → t.link q = s.link q

/-- The only change at the link ports is that port `p` has handed its next request on (R156). -/
abbrev State.HandedOn (s t : State) (p : Port) : Prop :=
  t.link p = { s.link p with window := advanceSlot .waiting .handedOn (s.link p).window } ∧
    ∀ q : Port, q ≠ p → t.link q = s.link q

/-! ### Reports and notice lists -/

/-- The trace unit has heard these reports, in this order (R137). -/
abbrev State.Hears (s t : State) (reports : List Report) : Prop :=
  t.trace = reports.foldl TraceUnit.hear s.trace

/-- The command's reports stopped the capture (RUNNING before, or started by an earlier one of them), and port `q`
is the supervisor with an OPEN session (R89). -/
def State.stopToldTo (s t : State) (q : Port) : Bool :=
  s.trace.state != .stopped && t.trace.state == .stopped && s.supervisor == some q && s.isOpen q

/-- The subjects a command appends to port `q`'s notice list: the lock where the port gets an unreported
change and its session is OPEN (R81), TRACE where the capture stopped (R140, R141), each unless already
there (R86). -/
def State.newSubjects (s t : State) (l : LockId) (gets : Port → Bool) (q : Port) : List Subject :=
  ((if gets q && s.isOpen q then [Subject.lock l] else []) ++
    (if s.stopToldTo t q then [Subject.trace] else [])).filter
      fun x => decide (x ∉ (s.session q).notices)

/-- Notice lists grow at the tail by those subjects, in one order or the other; the caller's own list then
loses the lock (R84). -/
abbrev State.ListsGrow (s t : State) (l : LockId) (gets : Port → Bool) (caller : Option Port) : Prop :=
  ∀ q : Port,
    (t.session q).notices = (if caller = some q then removeSubject (.lock l) else id)
      ((s.session q).notices ++ s.newSubjects t l gets q) ∨
    (t.session q).notices = (if caller = some q then removeSubject (.lock l) else id)
      ((s.session q).notices ++ (s.newSubjects t l gets q).reverse)

/-- The only change in the session entries: TRACE has been appended where the capture stopped. -/
abbrev State.OnlyTraceTold (s t : State) : Prop :=
  ∀ q : Port, t.session q = { s.session q with
    notices := (s.session q).notices ++ s.newSubjects t 0 (fun _ => false) q }

/-- A standing record after a change of cause `c` on a port: count and cause as R81 states while its session
is OPEN, left as they are otherwise (R82). -/
def State.changed (s : State) (q : Port) (c : Cause) (r : StandingRecord) : StandingRecord :=
  if s.isOpen q then { r with count := min 15 (r.count + 1), cause := some c } else r

/-! ### Work on one lock -/

/-- Work on lock `l` leaves alone: every other lock, every standing record of another lock, every session
entry but for its notice list, the clock, and everything outside the lock engine, the notice lists, the link
ports and the trace unit. -/
abbrev State.LockFrame (s t : State) (l : LockId) : Prop :=
  t = { s with locks := t.locks, standings := t.standings, poolInUse := t.poolInUse, counts := t.counts,
               sessions := t.sessions, links := t.links, trace := t.trace } ∧
    (∀ k : LockId, k ≠ l → t.lock k = s.lock k) ∧
    (∀ (q : Port) (k : LockId), k ≠ l → t.standing q k = s.standing q k) ∧
    ∀ q : Port, t.session q = { s.session q with notices := (t.session q).notices }

/-- Port `p`'s own request has done its work on lock `l` without a hand-off: the lock's entry, the port's
standing record, its counts and the pool are as given, no other port's are changed, the reports given have
been made, and the port's unreported change on the lock is gone from its list (R84). -/
abbrev State.OwnWork (s t : State) (p : Port) (l : LockId) (entry : LockEntry) (record : StandingRecord)
    (counts : PortCounts) (pool : Nat) (reports : List Report) : Prop :=
  s.LockFrame t l ∧ t.lock l = entry ∧ t.standing p l = record ∧ t.count p = counts ∧
    (∀ q : Port, q ≠ p → t.standing q l = s.standing q l ∧ t.count q = s.count q) ∧
    t.poolInUse = pool ∧ s.Hears t reports ∧ s.ListsGrow t l (fun _ => false) (some p)

/-- The lock engine has refused port `p`'s request on lock `l`: nothing has changed but the port's unreported
change, cleared, and the reply carries its standing report whatever the status (R16, R84). -/
abbrev State.RefusedOn (s t : State) (p : Port) (l : LockId) (b : Body) (st : Status)
    (report : Report) : Prop :=
  s.OwnWork t p l (s.lock l) { s.standing p l with count := 0, cause := none } (s.count p) s.poolInUse
      [report] ∧
    s.Replied t p .waiting (replyTo b st (s.standingReport p l))

/-- The report of a request refused by the lock engine (R146). -/
def refusedReport (p : Port) (l : LockId) (st : Status) : Report :=
  { cls := .refused, port := p, lock := some l, detail := st.code }

/-! ### Hand-off -/

/-- The ports a hand-off on the entry grants, in queue order (R34). -/
def LockEntry.runPorts (e : LockEntry) : List Port := e.handOffRun.map Waiter.port

/-- The holding a hand-off gives to its waiter `i`, counted from 0 (R35 steps 2 and 3). -/
def LockEntry.granted (e : LockEntry) (now : Clock) (i : Fin e.handOffRun.length) : Holding :=
  { mode := e.handOffRun[i].mode, grant := nextGrant^[i.val + 1] e.last,
    deadline := optionalDeadline now e.handOffRun[i].lease }

/-- `f` is the entry `e` after a hand-off (R35): the waiters granted have left the head of the queue, each has
its holding with consecutive grant numbers in queue order, and no other holding is touched. -/
abbrev LockEntry.HandedOffTo (e f : LockEntry) (now : Clock) : Prop :=
  f.config = e.config ∧ e.queue = e.handOffRun ++ f.queue ∧
    f.last = nextGrant^[e.handOffRun.length] e.last ∧
    (∀ q : Port, q ∉ e.runPorts → f.holding q = e.holding q) ∧
    ∀ i : Fin e.handOffRun.length, f.holding e.handOffRun[i].port = some (e.granted now i)

/-- The reports of a hand-off, in queue order (R35 step 7, R37). -/
def LockEntry.grantReports (e : LockEntry) (l : LockId) : List Report :=
  (List.finRange e.handOffRun.length).map fun i =>
    { cls := .grantQueued, port := e.handOffRun[i].port, lock := some l,
      detail := e.handOffRun[i].mode.code, grant := some (nextGrant^[i.val + 1] e.last) }

/-- A piece of work on lock `l` that leaves its entry as `e` and then hands off (R33 to R37). `ended` are the
ports whose holding or wait the work itself ended, `gets` those of them that get an unreported change for it,
`reports` the work's own reports, which come before those of the grants. -/
abbrev State.HandsOff (s t : State) (l : LockId) (e : LockEntry) (ended : List Port) (gets : Port → Bool)
    (caller : Option Port) (reports : List Report) : Prop :=
  s.LockFrame t l ∧ e.HandedOffTo (t.lock l) s.clock ∧
    (∀ i : Fin e.handOffRun.length,
      t.standing e.handOffRun[i].port l = s.changed e.handOffRun[i].port .granted
        { s.standing e.handOffRun[i].port l with
          standing := e.handOffRun[i].mode.held, grant := (e.granted s.clock i).grant,
          deadline := (e.granted s.clock i).deadline } ∧
      t.count e.handOffRun[i].port =
        { holdings := (s.count e.handOffRun[i].port).holdings + 1,
          waits := (s.count e.handOffRun[i].port).waits - 1 }) ∧
    (∀ q : Port, q ∉ ended → q ∉ e.runPorts →
      t.standing q l = s.standing q l ∧ t.count q = s.count q) ∧
    s.Hears t (reports ++ e.grantReports l) ∧
    s.ListsGrow t l (fun q => gets q || decide (q ∈ e.runPorts)) caller

/-! ### Session ends -/

/-- The lock work a session end of port `p` still has to take, if any (R110 steps 4 and 5). -/
def State.endWork (s : State) (p : Port) (d : Disposition) (q : EndSequel) : Option SessionEnd :=
  if s.waitedLocks p ≠ [] then
    some { disposition := d, work := .withdrawing (s.waitedLocks p), sequel := q }
  else if d = .release ∧ s.heldLocks p ≠ [] then
    some { disposition := d, work := .releasing (s.heldLocks p), sequel := q }
  else none

/-- Port `p`'s session entry after the session unit's part of a session end (R110 steps 1 and 2): number,
notice number and configuration are left. -/
def Session.ended (x : Session) (c : EndCause) (work : Option SessionEnd) : Session :=
  { x with state := c.state, silenceDeadline := none, silenceLimit := 0, notices := [], credit := 0,
           opening := none, ending := work }

/-- Port `p`'s session has been ended with a cause (R110 steps 1 to 3, R83): its entry is as above with the
lock work given, the count and cause of all its standing records are cleared, no lock and no other port's entry
has changed, and the end has been reported after the reports given. -/
abbrev State.SessionEnded (s t : State) (p : Port) (c : EndCause) (work : Option SessionEnd)
    (before : List Report) : Prop :=
  t = { s with standings := t.standings, sessions := t.sessions, links := t.links, trace := t.trace } ∧
    t.session p = (s.session p).ended c work ∧
    (∀ (q : Port) (l : LockId), t.standing q l =
      if q = p then { s.standing q l with count := 0, cause := none } else s.standing q l) ∧
    (∀ q : Port, q ≠ p → t.session q = { s.session q with
      notices := (s.session q).notices ++ s.newSubjects t 0 (fun _ => false) q }) ∧
    s.Hears t (before ++ [{ cls := c.cls, port := p, detail := c.code }])

/-- `u` is the state `s` after a session end's withdrawal of port `p` on lock `l`, the end itself left as it stood
(R48, R38, R39, R82): a record still in the queue has left it with WITHDRAWN and cause session end, nothing is
recorded as a change for the port, and hand-off has run on the lock; without a record nothing is done. -/
abbrev State.WithdrawnAtEnd (s u : State) (p : Port) (l : LockId) : Prop :=
  if (s.lock l).waits p = true then
    s.HandsOff u l ((s.lock l).leave p) [p] (fun _ => false) none
      [{ cls := .withdrawn, port := p, lock := some l, detail := 1 }] ∧
    ((s.lock l).isFirst p = false → ((s.lock l).leave p).handOffRun = []) ∧
    u.standing p l = { s.standing p l with standing := .none, deadline := none } ∧
    u.count p = { holdings := (s.count p).holdings, waits := (s.count p).waits - 1 } ∧
    u.poolInUse = s.poolInUse - 1 - ((s.lock l).leave p).handOffRun.length ∧ u.links = s.links
  else u = s

/-- `u` is the state `s` after a session end's release of port `p` on lock `l`, the end itself left as it stood
(R111, R33 to R37, R82): a holding still there has ended with RELEASED, cause session end and its number, nothing
is recorded as a change for the port, and hand-off has run on the lock; without a holding nothing is done. -/
abbrev State.ReleasedAtEnd (s u : State) (p : Port) (l : LockId) : Prop :=
  (∀ h ∈ (s.lock l).holding p,
    s.HandsOff u l ((s.lock l).unhold p) [p] (fun _ => false) none
      [{ cls := .released, port := p, lock := some l, detail := 1, grant := some h.grant }] ∧
    u.standing p l = { s.standing p l with standing := .none, grant := h.grant, deadline := none } ∧
    u.count p = { holdings := (s.count p).holdings - 1, waits := (s.count p).waits } ∧
    u.poolInUse = s.poolInUse - ((s.lock l).unhold p).handOffRun.length ∧ u.links = s.links) ∧
  ((s.lock l).holding p = none → u = s)

/-- The state with nothing left to follow its session ends. -/
def State.unfollowed (s : State) : State :=
  { s with sessions := s.sessions.map fun x =>
      { x with ending := x.ending.map fun e => { e with sequel := .nothing } } }

/-- The withdrawals and releases of session ends on every lock, port after port. -/
def endCommands : List Instr :=
  allPorts.flatMap fun q => allLocks.map (.sessionEndWithdrawal q) ++ allLocks.map (.sessionEndRelease q)

/-- `u` is the state `s` after the withdrawals and releases its session ends in progress still had to take, with
nothing done of what follows an end. -/
abbrev State.EndsSettled (s u : State) : Prop :=
  u.pending = s.pending ∧
    Host.Core.run core endCommands.length { s.unfollowed with pending := endCommands } =
      .next { u with pending := [] }

/-! ### New sessions -/

/-- Port `p`'s OPEN has been brought to its reply (R103 steps 5 to 7): OPENED is reported with the disposition
applied to a superseded session, the list has gained the lock given, then FAULT for a latched record and TRACE
where that report stopped the capture, each unless already there, and the reply shows the session and the number
of retained holdings. Another port's entry changes only where TRACE is told. -/
abbrev State.OpenFinished (s t : State) (p : Port) (superseded : Option Disposition) (kept : List Subject)
    (retained : Nat) (c : SlotCond) (b : Body) : Prop :=
  s.Hears t [{ cls := .opened, port := p, detail := dispositionCode superseded }] ∧
    (t.session p).notices = (s.session p).notices ++
      (kept ++ (if (s.link p).fault.code = none then [] else [Subject.fault]) ++
        (if (s.setSession p (t.session p)).stopToldTo t p then [Subject.trace] else [])).filter
          (fun x => decide (x ∉ (s.session p).notices)) ∧
    (∀ q : Port, q ≠ p → t.session q = { s.session q with
      notices := (s.session q).notices ++ s.newSubjects t 0 (fun _ => false) q }) ∧
    s.Replied t p c (replyTo b .ok
      ([(t.session p).number] ++ halfBytes (t.session p).silenceLimit ++ [countByte (t.session p).credit] ++
        halfBytes s.restartCount ++ [countByte retained]))

/-- The silence limit of a new session for an OPEN's argument and the port's ceiling, as the steps of R102 give
it. -/
def limitInForce (argument ceiling : Half) : Half :=
  let raised : Half := if 1 ≤ argument.toNat ∧ argument.toNat ≤ 9 then 10 else argument
  if ceiling = 0 then raised else if raised = 0 ∨ ceiling.toNat < raised.toNat then ceiling else raised

/-- Port `p` has a new session (R103, R90): the session number is raised past 255 to 1, the notice number is 0,
the credit is as the OPEN's argument gives it, the silence limit as given, with a deadline when there is one. With
no kept holding the OPEN is brought to its reply; otherwise their reattachment, in lock order, comes first. -/
abbrev State.SessionBegun (s t : State) (p : Port) (credit : Byte) (limit : Half)
    (superseded : Option Disposition) (c : SlotCond) (b : Body) : Prop :=
  t = { s with sessions := t.sessions, links := t.links, trace := t.trace } ∧
    t.session p = { s.session p with
      state := .opened
      number := if (s.session p).number = 255 then 1 else (s.session p).number + 1
      noticeNumber := 0
      credit := min 16 credit.toNat
      silenceLimit := limit
      silenceDeadline := if limit = 0 then none else some (s.clock + limit.setWidth 32)
      opening := if s.heldLocks p = [] then none
        else some { locks := s.heldLocks p, retained := 0, superseded := superseded }
      notices := (t.session p).notices } ∧
    if s.heldLocks p = [] then s.OpenFinished t p superseded [] 0 c b
    else (t.session p).notices = (s.session p).notices ∧ (∀ q : Port, q ≠ p → t.session q = s.session q) ∧
      t.trace = s.trace

/-! ### Requests by kind -/

/-- The command that hands on and takes a port's next request of a kind (R166). -/
def Kind.request : Kind → Port → Instr
  | .openSession => .openSession
  | .closeSession => .closeSession
  | .ping => .ping
  | .credit => .credit
  | .faultAck => .faultAck
  | .acquire => .acquire
  | .release => .release
  | .withdraw => .withdraw
  | .renew => .renew
  | .convert => .convert
  | .query => .query
  | .setLock => .setLock
  | .getLock => .getLock
  | .setPort => .setPort
  | .getPort => .getPort
  | .revoke => .revoke
  | .purge => .purge
  | .dropSession => .dropSession
  | .restart => .restart
  | .traceSetup => .traceSetup
  | .traceStatus => .traceStatus
  | .traceRead => .traceRead

/-! ### The tests of an ACQUIRE -/

/-- An acquisition is immediately grantable (R7): the lock has no holders, or it is held SHARED, the request is
SHARED and no port waits. -/
abbrev LockEntry.AtOnce (e : LockEntry) (m : Mode) : Prop :=
  (∀ q : Port, e.holding q = none) ∨
    (m = .shared ∧ e.queue = [] ∧ ∀ q : Port, (e.holding q).all (fun h => h.mode == .shared) = true)

/-- The tests an ACQUIRE meets at the lock engine, in order, each with its refusal: rows 1 to 7 of R14's table,
then 8a, or 8b and 8c. -/
def State.acquireTests (s : State) (p : Port) (l : LockId) (m : Mode) (wait : Bool) (lease : Half) :
    List (Bool × Status) :=
  let e := s.lock l
  let c := s.count p
  [(e.config.enabled, .lockDisabled),
   ((s.session p).config.groupMask.getLsbD e.config.group.val, .notPermitted),
   (m == .exclusive || e.config.sharedAllowed, .sharedNotAllowed),
   ((e.holding p).isNone, .alreadyHolder),
   (e.queue.all fun w => w.port != p, .alreadyWaiting),
   (e.config.policy == .optional || lease != 0, .leaseRequired),
   (decide (lease.toNat ≤ e.config.maxLease.toNat), .leaseTooLong)] ++
  if e.AtOnce m then [(decide (c.holdings + c.waits < 16), .portLimit)]
  else [(wait, .busy), (decide (c.waits < 8), .portWaitLimit), (decide (c.holdings + c.waits < 16), .portLimit),
    (decide (s.poolInUse < 48), .poolFull)]

/-! ### Notices and line faults -/

/-- A notice has been formed for port `p` and handed to its transmitter (R93 steps 1, 4 and 5): `rest` is left in
the list, the credit is one lower and the notice number one higher, and nothing else has changed. -/
abbrev State.NoticeFormed (s t : State) (p : Port) (rest : List Subject) (body : Body) : Prop :=
  t = { s with sessions := t.sessions, links := t.links } ∧
    t.session p = { s.session p with
      notices := rest, credit := (s.session p).credit - 1, noticeNumber := (s.session p).noticeNumber + 1 } ∧
    t.link p = { s.link p with transmitter := .sendingNotice (frameOf body) } ∧
    ∀ q : Port, q ≠ p → t.session q = s.session q ∧ t.link q = s.link q

/-- A fault record after a fault (R158): an empty one latches the code and the clock, a latched one counts on to
255. -/
def FaultRecord.after (f : FaultRecord) (c : FaultCode) (now : Clock) : FaultRecord :=
  if f.code = none then { code := some c, clock := now, further := 0 }
  else { f with further := min 255 (f.further + 1) }

/-- Port `p` has detected a fault (R152, R158): its receiver is in HUNT, where no gap deadline runs, its record has latched or counted, a
latch in an OPEN session has appended FAULT unless it stood there (R88), LINK_FAULT has been reported, and
nothing else has changed. -/
abbrev State.Faulted (s t : State) (p : Port) (c : FaultCode) (inBreak : Bool) : Prop :=
  t = { s with sessions := t.sessions, links := t.links, trace := t.trace } ∧
    t.link p = { s.link p with
      receiver := .hunt, gapDeadline := none, inBreak := inBreak, fault := (s.link p).fault.after c s.clock } ∧
    (∀ q : Port, q ≠ p → t.link q = s.link q) ∧
    s.Hears t [{ cls := .linkFault, port := p, detail := c.code }] ∧
    ∀ q : Port, t.session q = { s.session q with notices := (s.session q).notices ++
      (((if q = p ∧ (s.link p).fault.code = none ∧ s.isOpen p then [Subject.fault] else []) ++
        (if s.stopToldTo t q then [Subject.trace] else [])).filter
          fun x => decide (x ∉ (s.session q).notices)) }

end Sys2Proof.Machine
end

