-- ==== Sys2Proof/Certificates/Slice0/Obligations.lean ====
section
/-! DEFINITION. The statements for the provers. Each docstring names the rules of spec/ behind it; where a
statement rests on a choice of the model it names the log entry. A statement of what a request does supposes
that the request is the port's next one and passes the checks of R165 (`State.Takes`); what happens when it
does not is `ChecksRefuseRequests` and `IdleAndAbsentCommandsChangeNothing`. -/

open Sys2Proof Sys2Proof.Machine

/-! ### Steps and commands -/

/-- A step takes the command at the front of the queue, with the queue's rest. -/
def Obligations.StepTakesTheFrontCommand : Prop :=
  ∀ (s : State) (c : Instr), step { s with pending := c :: s.pending } = exec c s

/-- The queue is the model's own: no command reads it or writes it. -/
def Obligations.CommandsLeaveTheQueueAlone : Prop :=
  ∀ (c : Instr) (s t : State) (waiting : List Instr), exec c s = .next t →
    t.pending = s.pending ∧
      exec c { s with pending := waiting } = .next { t with pending := waiting }

/-- Log entries 2 and 3 (DESIGN CHOICE): on an empty queue the part idles, and a request command that names
another request than the port's next one changes nothing. -/
def Obligations.IdleAndAbsentCommandsChangeNothing : Prop :=
  (∀ s : State, s.pending = [] → step s = .next s) ∧
  (∀ (s : State) (p : Port) (k : Kind),
    (s.nextRequest p).bind kindOf ≠ some k → exec (k.request p) s = .next s) ∧
  ∀ (s : State) (p : Port),
    (s.nextRequest p).all (fun b => (kindOf b).isSome) = true → exec (.unknownKind p) s = .next s

/-! ### Messages -/

/-- R165: a request that fails one of the checks before its owner changes no state but the reports. One of a kind in
R166's table is answered with kind plus 0x80, tag and the status of the first failure; one of another kind with
kind 0xFF, its tag, UNKNOWN_KIND and the kind byte received. Both are reported as REFUSED without a lock. -/
def Obligations.ChecksRefuseRequests : Prop :=
  ∀ (s : State) (p : Port), ∀ b ∈ s.nextRequest p,
    (∀ k ∈ kindOf b, ∀ st ∈ s.messageCheck p k b,
      ∃ t : State, exec (k.request p) s = .next t ∧
        t = { s with sessions := t.sessions, links := t.links, trace := t.trace } ∧
        s.OnlyTraceTold t ∧
        s.Hears t [{ cls := .refused, port := p, detail := st.code }] ∧
        s.Replied t p .waiting [byteAt b 0 + 0x80, byteAt b 1, st.code]) ∧
    ((∀ k ∈ allKinds, k.code ≠ byteAt b 0) →
      ∃ t : State, exec (.unknownKind p) s = .next t ∧
        t = { s with sessions := t.sessions, links := t.links, trace := t.trace } ∧
        s.OnlyTraceTold t ∧
        s.Hears t [{ cls := .refused, port := p, detail := 0x10 }] ∧
        s.Replied t p .waiting [0xFF, byteAt b 1, 0x10, byteAt b 0])

/-- R165: the order of the checks after the first. The body's length is tested before the session, the session
before the supervisor port, the supervisor port before the arguments; OPEN is not tested against the session
(R101), and a lock id of 64 or more is refused NO_SUCH_LOCK before any other argument (R166). -/
def Obligations.ChecksStandInOrder : Prop :=
  ∀ (s : State) (p : Port) (k : Kind) (b : Body),
    (b.length ≠ k.bodyLength → s.messageCheck p k b = some .badLength) ∧
    (b.length = k.bodyLength →
      (k ≠ .openSession → (s.session p).state = .closed → s.messageCheck p k b = some .noSession) ∧
      (k ≠ .openSession → (s.session p).state = .lost → s.messageCheck p k b = some .sessionLost) ∧
      ((k = .openSession ∨ s.isOpen p = true) →
        (k.isSupervisor = true → s.supervisor ≠ some p →
          s.messageCheck p k b = some .notSupervisor) ∧
        ((k.isSupervisor = true → s.supervisor = some p) →
          (k ∈ [.acquire, .release, .withdraw, .renew, .convert, .query, .setLock, .getLock, .revoke, .purge] →
            64 ≤ (byteAt b 2).toNat → s.messageCheck p k b = some .noSuchLock) ∧
          (k ∈ [.closeSession, .ping, .credit, .faultAck, .restart, .traceStatus] →
            s.messageCheck p k b = none) ∧
          (k = .openSession → s.messageCheck p k b =
            if 60000 < (halfAt b 3).toNat then some .badArgument else none))))

/-- R169 and R167: what SET_LOCK, SET_PORT and TRACE_SETUP carry is read from the bytes that GET_LOCK, GET_PORT
and TRACE_STATUS send for the same configuration, every field at every value. -/
def Obligations.ConfigurationsReadBack : Prop :=
  (∀ (kind tag lock : Byte) (c : LockConfig), lockConfigAt (kind :: tag :: lock :: c.bytes) = c) ∧
  (∀ (kind tag port : Byte) (c : PortConfig),
    portConfigAt ([kind, tag, port, c.groupMask, c.lossPolicy.policyCode] ++ halfBytes c.silenceCeiling) = c) ∧
  ∀ (kind tag : Byte) (c : TraceSetup), traceSetupAt (kind :: tag :: c.bytes) = c

/-! ### Requests that only read -/

/-- R108, R121, R124, R144: PING, GET_PORT, GET_LOCK and TRACE_STATUS are answered OK with the state as it
stands, and nothing changes but the link port that sends the reply: no report is made, no unreported change
cleared (R85). -/
def Obligations.ReadingRequestsOnlyReply : Prop :=
  ∀ (s : State) (p : Port) (b : Body),
    (s.Takes p .ping b → ∃ t : State, exec (.ping p) s = .next t ∧
      t = { s with links := t.links } ∧
      s.Replied t p .waiting (replyTo b .ok
        (wordBytes s.clock ++ halfBytes s.restartCount ++ [(s.session p).number]))) ∧
    (s.Takes p .getLock b → ∃ t : State, exec (.getLock p) s = .next t ∧
      t = { s with links := t.links } ∧
      s.Replied t p .waiting (replyTo b .ok (s.lock (lockAt b 2)).config.bytes)) ∧
    (s.Takes p .getPort b → ∃ t : State, exec (.getPort p) s = .next t ∧
      t = { s with links := t.links } ∧
      s.Replied t p .waiting (replyTo b .ok
        ([(s.session (portAt b 2)).config.groupMask, (s.session (portAt b 2)).config.lossPolicy.policyCode] ++
          halfBytes (s.session (portAt b 2)).config.silenceCeiling ++
          [(s.session (portAt b 2)).state.code, (s.session (portAt b 2)).number,
           countByte (s.session (portAt b 2)).credit, countByte (s.session (portAt b 2)).notices.length,
           countByte (s.count (portAt b 2)).holdings, countByte (s.count (portAt b 2)).waits,
           faultCode (s.link (portAt b 2)).fault.code] ++
          wordBytes (s.link (portAt b 2)).fault.clock ++ [countByte (s.link (portAt b 2)).fault.further]))) ∧
    (s.Takes p .traceStatus b → ∃ t : State, exec (.traceStatus p) s = .next t ∧
      t = { s with links := t.links } ∧
      s.Replied t p .waiting (replyTo b .ok
        ([s.trace.state.code, s.trace.stopCause.code, countByte s.trace.buffer.length,
          s.trace.flagsByte] ++ stampBytes s.trace.timer ++ s.trace.setup.bytes)))

/-- R22, R23: a QUERY is answered OK with the lock's configuration, current mode, holder set, waiter count, first
waiter's mode and last grant number, and with the caller's standing, number, lease remaining and position. It
changes nothing but the link port that replies: the caller's unreported change stays (R85). -/
def Obligations.QueryReportsTheLock : Prop :=
  ∀ (s : State) (p : Port) (b : Body), s.Takes p .query b →
    ∃ t : State, exec (.query p) s = .next t ∧
      t = { s with links := t.links } ∧
      ∃ holders : Byte,
        (∀ q : Port, holders.getLsbD q.val = ((s.lock (lockAt b 2)).holding q).isSome) ∧
        holders.toNat < 64 ∧
        s.Replied t p .waiting (replyTo b .ok
          ((s.lock (lockAt b 2)).config.bytes ++
            [modeCode (s.lock (lockAt b 2)).mode, holders, countByte (s.lock (lockAt b 2)).queue.length,
             modeCode ((s.lock (lockAt b 2)).queue.head?.map Waiter.mode)] ++
            wordBytes (s.lock (lockAt b 2)).last ++ [(s.standing p (lockAt b 2)).standing.code] ++
            wordBytes (s.standing p (lockAt b 2)).grant ++
            halfBytes (if (s.standing p (lockAt b 2)).standing.isHeld
              then leaseRemaining s.clock (s.standing p (lockAt b 2)).deadline else 0) ++
            [countByte ((s.lock (lockAt b 2)).position p)]))

/-! ### ACQUIRE -/

/-- R9 to R12, R5, R6, R16, R17: an ACQUIRE that passes every test on a lock that is grantable at once makes a
holding under the next grant number, with a lease from now when a length is given; the port's standing record
and holdings count follow, GRANT_NOW is reported, no waiter record is used and no hand-off is run; the reply
shows the full lease. -/
def Obligations.AcquireGrants : Prop :=
  ∀ (s : State) (p : Port) (b : Body), s.Takes p .acquire b →
    firstFailure (s.acquireTests p (lockAt b 2) (modeAt b 3) (flagAt b 4) (halfAt b 5)) = none →
    (s.lock (lockAt b 2)).AtOnce (modeAt b 3) →
    ∃ t : State, exec (.acquire p) s = .next t ∧
      s.OwnWork t p (lockAt b 2)
        { s.lock (lockAt b 2) with
          last := nextGrant (s.lock (lockAt b 2)).last
          holders := put (s.lock (lockAt b 2)).holders p (some
            { mode := modeAt b 3, grant := nextGrant (s.lock (lockAt b 2)).last,
              deadline := if halfAt b 5 = 0 then none else some (s.clock + (halfAt b 5).setWidth 32) }) }
        { standing := (modeAt b 3).held, grant := nextGrant (s.lock (lockAt b 2)).last,
          deadline := if halfAt b 5 = 0 then none else some (s.clock + (halfAt b 5).setWidth 32),
          count := 0, cause := none }
        { holdings := (s.count p).holdings + 1, waits := (s.count p).waits } s.poolInUse
        [{ cls := .grantNow, port := p, lock := some (lockAt b 2), detail := (modeAt b 3).code,
           grant := some (nextGrant (s.lock (lockAt b 2)).last) }] ∧
      s.Replied t p .waiting (replyTo b .granted
        ((modeAt b 3).held.code :: wordBytes (nextGrant (s.lock (lockAt b 2)).last) ++ halfBytes (halfAt b 5)))

/-- R14, R28, R42, R17: a WAIT that passes every test and is not grantable at once takes a record from the pool
with its mode, lease length and deadline, and joins the tail of the queue; the port is WAITING under the number
it had, its waits count rises, QUEUED is reported with the position, and no hand-off is run. -/
def Obligations.AcquireQueues : Prop :=
  ∀ (s : State) (p : Port) (b : Body), s.Takes p .acquire b →
    firstFailure (s.acquireTests p (lockAt b 2) (modeAt b 3) (flagAt b 4) (halfAt b 5)) = none →
    ¬ (s.lock (lockAt b 2)).AtOnce (modeAt b 3) →
    ∃ t : State, exec (.acquire p) s = .next t ∧
      s.OwnWork t p (lockAt b 2)
        { s.lock (lockAt b 2) with
          queue := (s.lock (lockAt b 2)).queue ++
            [{ port := p, lock := lockAt b 2, mode := modeAt b 3, lease := halfAt b 5,
               deadline := if halfAt b 7 = 0 then none else some (s.clock + (halfAt b 7).setWidth 32) }] }
        { standing := .waiting, grant := (s.standing p (lockAt b 2)).grant, deadline := none,
          count := 0, cause := none }
        { holdings := (s.count p).holdings, waits := (s.count p).waits + 1 } (s.poolInUse + 1)
        [{ cls := .queued, port := p, lock := some (lockAt b 2),
           detail := countByte ((s.lock (lockAt b 2)).queue.length + 1) }] ∧
      s.Replied t p .waiting (replyTo b .queued
        (Standing.waiting.code :: wordBytes (s.standing p (lockAt b 2)).grant ++
          halfBytes (BitVec.ofNat 16 ((s.lock (lockAt b 2)).queue.length + 1))))

/-- R9 to R14, R16, R17: the first test that fails decides the refusal of an ACQUIRE. The lock, the pool and the
counts stay, the reply carries the caller's standing report, and the report is BUSY for BUSY and REFUSED with
the status code for every other. -/
def Obligations.AcquireRefusals : Prop :=
  ∀ (s : State) (p : Port) (b : Body), s.Takes p .acquire b →
    ∀ st ∈ firstFailure (s.acquireTests p (lockAt b 2) (modeAt b 3) (flagAt b 4) (halfAt b 5)),
    ∃ t : State, exec (.acquire p) s = .next t ∧
      s.RefusedOn t p (lockAt b 2) b st
        (if st = .busy then { cls := .busy, port := p, lock := some (lockAt b 2) }
         else refusedReport p (lockAt b 2) st)

/-! ### Giving back, renewing, converting -/

/-- R19, R33 to R37, R16: a RELEASE of the caller's holding with its number ends it: NONE with the number, one
holding fewer, RELEASED with cause request, then hand-off on the lock without the holding; the reply shows NONE,
the number and 0. -/
def Obligations.ReleaseEndsTheHolding : Prop :=
  ∀ (s : State) (p : Port) (b : Body), s.LocksSound → s.Takes p .release b →
    ∀ h ∈ (s.lock (lockAt b 2)).holding p, h.grant = wordAt b 3 →
    ∃ t : State, exec (.release p) s = .next t ∧
      s.HandsOff t (lockAt b 2) ((s.lock (lockAt b 2)).unhold p) [p] (fun _ => false) (some p)
        [{ cls := .released, port := p, lock := some (lockAt b 2), detail := 0, grant := some h.grant }] ∧
      t.standing p (lockAt b 2) =
        { standing := .none, grant := h.grant, deadline := none, count := 0, cause := none } ∧
      t.count p = { holdings := (s.count p).holdings - 1, waits := (s.count p).waits } ∧
      t.poolInUse = s.poolInUse - ((s.lock (lockAt b 2)).unhold p).handOffRun.length ∧
      s.Replied t p .waiting (replyTo b .ok
        (Standing.none.code :: wordBytes h.grant ++ halfBytes 0))

/-- R40, R38, R39, R16: a WITHDRAW of the caller's wait takes its record from the queue and returns it to the
pool: NONE with the number it had, one wait fewer, WITHDRAWN with cause request, then hand-off, which grants only
when the record was the first. -/
def Obligations.WithdrawEndsTheWait : Prop :=
  ∀ (s : State) (p : Port) (b : Body), s.LocksSound → s.Takes p .withdraw b →
    (s.lock (lockAt b 2)).waits p = true →
    ∃ t : State, exec (.withdraw p) s = .next t ∧
      s.HandsOff t (lockAt b 2) ((s.lock (lockAt b 2)).leave p) [p] (fun _ => false) (some p)
        [{ cls := .withdrawn, port := p, lock := some (lockAt b 2), detail := 0 }] ∧
      ((s.lock (lockAt b 2)).isFirst p = false → ((s.lock (lockAt b 2)).leave p).handOffRun = []) ∧
      t.standing p (lockAt b 2) =
        { standing := .none, grant := (s.standing p (lockAt b 2)).grant, deadline := none, count := 0,
          cause := none } ∧
      t.count p = { holdings := (s.count p).holdings, waits := (s.count p).waits - 1 } ∧
      t.poolInUse = s.poolInUse - 1 - ((s.lock (lockAt b 2)).leave p).handOffRun.length ∧
      s.Replied t p .waiting (replyTo b .ok
        (Standing.none.code :: wordBytes (s.standing p (lockAt b 2)).grant ++ halfBytes 0))

/-- R20, R51, R67, R41: a RELEASE, RENEW or CONVERT whose caller does not hold the lock is refused NOT_HOLDER, one
whose caller holds it under another number STALE_GRANT, and a WITHDRAW whose caller does not wait NOT_WAITING;
none of them ends or changes anything. -/
def Obligations.RequestsOnNothingOfTheCallersAreRefused : Prop :=
  ∀ (s : State) (p : Port) (b : Body),
    (∀ k ∈ [Kind.release, .renew, .convert], s.Takes p k b →
      ((s.lock (lockAt b 2)).holding p = none →
        ∃ t : State, exec (k.request p) s = .next t ∧
          s.RefusedOn t p (lockAt b 2) b .notHolder (refusedReport p (lockAt b 2) .notHolder)) ∧
      ∀ h ∈ (s.lock (lockAt b 2)).holding p, h.grant ≠ wordAt b 3 →
        ∃ t : State, exec (k.request p) s = .next t ∧
          s.RefusedOn t p (lockAt b 2) b .staleGrant (refusedReport p (lockAt b 2) .staleGrant)) ∧
    (s.Takes p .withdraw b → (s.lock (lockAt b 2)).waits p = false →
      ∃ t : State, exec (.withdraw p) s = .next t ∧
        s.RefusedOn t p (lockAt b 2) b .notWaiting (refusedReport p (lockAt b 2) .notWaiting))

/-- R66, R68, R69, R16: a RENEW of the caller's holding with its number is refused LEASE_REQUIRED for length 0
under policy REQUIRED and LEASE_TOO_LONG for a length above the maximum, with the lease as it was; otherwise it
sets the deadline from now in the holder entry and the standing record, or removes it for length 0, and nothing
else: mode, number and last grant number stay and no report is made. -/
def Obligations.RenewSetsTheLease : Prop :=
  ∀ (s : State) (p : Port) (b : Body), s.Takes p .renew b →
    ∀ h ∈ (s.lock (lockAt b 2)).holding p, h.grant = wordAt b 3 →
    ∃ t : State, exec (.renew p) s = .next t ∧
      if (s.lock (lockAt b 2)).config.policy = .required ∧ halfAt b 7 = 0 then
        s.RefusedOn t p (lockAt b 2) b .leaseRequired (refusedReport p (lockAt b 2) .leaseRequired)
      else if (s.lock (lockAt b 2)).config.maxLease.toNat < (halfAt b 7).toNat then
        s.RefusedOn t p (lockAt b 2) b .leaseTooLong (refusedReport p (lockAt b 2) .leaseTooLong)
      else
        s.OwnWork t p (lockAt b 2)
          { s.lock (lockAt b 2) with holders := put (s.lock (lockAt b 2)).holders p (some
            { h with deadline := if halfAt b 7 = 0 then none
                                 else some (s.clock + (halfAt b 7).setWidth 32) }) }
          { standing := h.mode.held, grant := h.grant, count := 0, cause := none,
            deadline := if halfAt b 7 = 0 then none else some (s.clock + (halfAt b 7).setWidth 32) }
          (s.count p) s.poolInUse [] ∧
        s.Replied t p .waiting (replyTo b .ok
          (h.mode.held.code :: wordBytes h.grant ++ halfBytes (halfAt b 7)))

/-- R54, R57, R33 to R37: a downgrade on a lock that allows sharing turns the caller's EXCLUSIVE holding SHARED in
place, number and lease kept and no number issued; CONVERTED is reported with SHARED and the number, then
hand-off runs; the counts stay. -/
def Obligations.ConvertDowngrades : Prop :=
  ∀ (s : State) (p : Port) (b : Body), s.LocksSound → s.Takes p .convert b →
    ∀ h ∈ (s.lock (lockAt b 2)).holding p, h.grant = wordAt b 3 → h.mode = .exclusive → modeAt b 7 = .shared →
    (s.lock (lockAt b 2)).config.sharedAllowed = true →
    ∃ t : State, exec (.convert p) s = .next t ∧
      s.HandsOff t (lockAt b 2) ((s.lock (lockAt b 2)).hold p { h with mode := .shared }) [p]
        (fun _ => false) (some p)
        [{ cls := .converted, port := p, lock := some (lockAt b 2), detail := 1, grant := some h.grant }] ∧
      t.standing p (lockAt b 2) =
        { standing := .heldShared, grant := h.grant, deadline := h.deadline, count := 0, cause := none } ∧
      t.count p = s.count p ∧
      t.poolInUse = s.poolInUse -
        ((s.lock (lockAt b 2)).hold p { h with mode := .shared }).handOffRun.length ∧
      s.Replied t p .waiting (replyTo b .ok
        (Standing.heldShared.code :: wordBytes h.grant ++ halfBytes (leaseRemaining s.clock h.deadline)))

/-- R55 to R57: an upgrade of the sole holder of a lock without waiters turns its SHARED holding EXCLUSIVE in place
under the next grant number, the lease kept; CONVERTED is reported with EXCLUSIVE and the new number, no
hand-off is run and the counts stay. The lock's shared allowed field is not tested. -/
def Obligations.ConvertUpgrades : Prop :=
  ∀ (s : State) (p : Port) (b : Body), s.Takes p .convert b →
    ∀ h ∈ (s.lock (lockAt b 2)).holding p, h.grant = wordAt b 3 → h.mode = .shared → modeAt b 7 = .exclusive →
    (∀ q : Port, q ≠ p → (s.lock (lockAt b 2)).holding q = none) → (s.lock (lockAt b 2)).queue = [] →
    ∃ t : State, exec (.convert p) s = .next t ∧
      s.OwnWork t p (lockAt b 2)
        { s.lock (lockAt b 2) with
          last := nextGrant (s.lock (lockAt b 2)).last
          holders := put (s.lock (lockAt b 2)).holders p (some
            { mode := .exclusive, grant := nextGrant (s.lock (lockAt b 2)).last, deadline := h.deadline }) }
        { standing := .heldExclusive, grant := nextGrant (s.lock (lockAt b 2)).last, deadline := h.deadline,
          count := 0, cause := none }
        (s.count p) s.poolInUse
        [{ cls := .converted, port := p, lock := some (lockAt b 2), detail := 2,
           grant := some (nextGrant (s.lock (lockAt b 2)).last) }] ∧
      s.Replied t p .waiting (replyTo b .ok
        (Standing.heldExclusive.code :: wordBytes (nextGrant (s.lock (lockAt b 2)).last) ++
          halfBytes (leaseRemaining s.clock h.deadline)))

/-- R52, R53, R55: a CONVERT of the caller's holding with its number is refused SAME_MODE when the target is the
mode it has, SHARED_NOT_ALLOWED for a downgrade on a lock that does not allow sharing, and CONVERT_DENIED for an
upgrade with another holder or any waiter; the holding, its number and its lease stay, no record is taken and no
hand-off is run, and the refusal is reported with its status code. -/
def Obligations.ConvertRefusals : Prop :=
  ∀ (s : State) (p : Port) (b : Body), s.Takes p .convert b →
    ∀ h ∈ (s.lock (lockAt b 2)).holding p, h.grant = wordAt b 3 →
    (h.mode = modeAt b 7 →
      ∃ t : State, exec (.convert p) s = .next t ∧
        s.RefusedOn t p (lockAt b 2) b .sameMode (refusedReport p (lockAt b 2) .sameMode)) ∧
    (h.mode = .exclusive → modeAt b 7 = .shared → (s.lock (lockAt b 2)).config.sharedAllowed = false →
      ∃ t : State, exec (.convert p) s = .next t ∧
        s.RefusedOn t p (lockAt b 2) b .sharedNotAllowed (refusedReport p (lockAt b 2) .sharedNotAllowed)) ∧
    (h.mode = .shared → modeAt b 7 = .exclusive →
      ((∃ q : Port, q ≠ p ∧ (s.lock (lockAt b 2)).holding q ≠ none) ∨ (s.lock (lockAt b 2)).queue ≠ []) →
      ∃ t : State, exec (.convert p) s = .next t ∧
        s.RefusedOn t p (lockAt b 2) b .convertDenied (refusedReport p (lockAt b 2) .convertDenied))

/-- R34: the waiters a hand-off grants, row by row of its table. The shared run is the first waiter and every
SHARED waiter that directly follows it. -/
def Obligations.HandOffFollowsItsTable : Prop :=
  ∀ e : LockEntry, e.Shape →
    (e.queue = [] → e.handOffRun = []) ∧
    ∀ w rest, e.queue = w :: rest →
      ((∀ q : Port, e.holding q = none) → w.mode = .exclusive → e.handOffRun = [w]) ∧
      ((∃ q : Port, e.holdsIn .exclusive q = true) → e.handOffRun = []) ∧
      ((∃ q : Port, e.holdsIn .shared q = true) → w.mode = .exclusive → e.handOffRun = []) ∧
      ((∀ q : Port, e.holdsIn .exclusive q = false) → w.mode = .shared →
        ∃ behind, e.queue = e.handOffRun ++ behind ∧ e.handOffRun ≠ [] ∧
          (∀ x ∈ e.handOffRun, x.mode = .shared) ∧ ∀ x ∈ behind.head?, x.mode = .exclusive)

/-! ### Expiries -/

/-- R70, R33 to R37, R82: when the clock has reached a holding's deadline the expiry ends the holding: NONE with the
number, a LEASE_EXPIRED change while the port's session is OPEN and none otherwise, one holding fewer,
LEASE_EXPIRED reported with the number, then hand-off. No reply is formed. R71: an expiry that finds no holding
whose deadline the clock has reached does nothing at all. -/
def Obligations.LeaseExpiryEndsTheHolding : Prop :=
  ∀ (s : State) (p : Port) (l : LockId),
    (s.LocksSound → ∀ h ∈ (s.lock l).holding p, s.due h.deadline = true →
      ∃ t : State, exec (.leaseExpiry p l) s = .next t ∧
        s.HandsOff t l ((s.lock l).unhold p) [p] (fun q => decide (q = p)) none
          [{ cls := .leaseExpired, port := p, lock := some l, grant := some h.grant }] ∧
        t.standing p l = s.changed p .leaseExpired
          { s.standing p l with standing := .none, grant := h.grant, deadline := none } ∧
        t.count p = { holdings := (s.count p).holdings - 1, waits := (s.count p).waits } ∧
        t.poolInUse = s.poolInUse - ((s.lock l).unhold p).handOffRun.length ∧
        t.links = s.links) ∧
    ((∀ h ∈ (s.lock l).holding p, s.due h.deadline = false) → exec (.leaseExpiry p l) s = .next s)

/-- R43, R38, R39, R44, R82: when the clock has reached a waiter's deadline the expiry takes its record from the
queue: NONE with the number it had, a WAIT_EXPIRED change while the port's session is OPEN, one wait and one
record fewer, WAIT_EXPIRED reported, then hand-off, which grants only when the record was the first. Without a
record of the port whose deadline is reached it does nothing. -/
def Obligations.WaitExpiryEndsTheWait : Prop :=
  ∀ (s : State) (p : Port) (l : LockId), s.LocksSound →
    (∀ w ∈ (s.lock l).waiter p, s.due w.deadline = true →
      ∃ t : State, exec (.waitExpiry p l) s = .next t ∧
        s.HandsOff t l ((s.lock l).leave p) [p] (fun q => decide (q = p)) none
          [{ cls := .waitExpired, port := p, lock := some l }] ∧
        ((s.lock l).isFirst p = false → ((s.lock l).leave p).handOffRun = []) ∧
        t.standing p l = s.changed p .waitExpired
          { s.standing p l with standing := .none, deadline := none } ∧
        t.count p = { holdings := (s.count p).holdings, waits := (s.count p).waits - 1 } ∧
        t.poolInUse = s.poolInUse - 1 - ((s.lock l).leave p).handOffRun.length ∧
        t.links = s.links) ∧
    ((∀ w ∈ (s.lock l).waiter p, s.due w.deadline = false) → exec (.waitExpiry p l) s = .next s)

/-! ### Clocks -/

/-- R62, R63, R16, R78: a deadline set `n` ms ahead is reached after `n` advances of the clock and not before,
across a wrap as well; until then the lease remaining is the rest of the way, and it is 1 when the clock has just
reached the deadline. -/
def Obligations.DeadlinesAreReachedOnTime : Prop :=
  ∀ (now : Clock) (n : Half) (k : Nat), n ≠ 0 → k ≤ n.toNat →
    (reached (now + BitVec.ofNat 32 k) (deadlineAfter now n) = true ↔ k = n.toNat) ∧
    leaseRemaining (now + BitVec.ofNat 32 k) (some (deadlineAfter now n)) =
      BitVec.ofNat 16 (max 1 (n.toNat - k))

/-- R61, R142: the lease clock counts one millisecond whatever the part does, unless RESET is asserted, and wraps;
the trace timer counts its units while the capture is RUNNING only, and TIME_WRAPPED is set by the advance that
passes 16,777,215 to 0. Nothing else changes. That the command TIME_WRAPPED is that advance is log entry 17
(DEDUCED), and that it changes nothing while the capture is not RUNNING is log entry 3 (DESIGN CHOICE). -/
def Obligations.ClocksCount : Prop :=
  ∀ s : State,
    (s.resetAsserted = false → exec .leaseClockAdvance s = .next { s with clock := s.clock + 1 }) ∧
    (s.trace.state = .running → s.trace.timer ≠ 0xFFFFFF →
      exec .traceTimerAdvance s = .next { s with trace := { s.trace with timer := s.trace.timer + 1 } }) ∧
    (s.trace.state = .running → s.trace.timer = 0xFFFFFF →
      exec .traceTimerAdvance s =
        .next { s with trace := { s.trace with timer := 0, timeWrapped := true } } ∧
      exec .timeWrapped s = .next { s with trace := { s.trace with timer := 0, timeWrapped := true } }) ∧
    (s.trace.state ≠ .running →
      exec .traceTimerAdvance s = .next s ∧ exec .timeWrapped s = .next s)

/-! ### Sessions -/

/-- R102, R103, R104, R90: an OPEN taken while the session is not OPEN begins a new one: number, credit, silence
limit (from the argument and the port's ceiling) and deadline as the rules give them. With no kept holding it reports OPENED, appends FAULT for a latched
record, and replies; with kept holdings their reattachment, in lock order, comes first and the request stays
handed on. -/
def Obligations.OpenBeginsASession : Prop :=
  ∀ (s : State) (p : Port) (b : Body), s.WaitingEndsSound → s.Takes p .openSession b → s.isOpen p = false →
    ∃ t : State, exec (.openSession p) s = .next t ∧
      s.SessionBegun t p (byteAt b 2) (limitInForce (halfAt b 3) (s.session p).config.silenceCeiling) none
        .waiting b ∧
      (s.heldLocks p ≠ [] → s.HandedOn t p)

/-- R105, R110, R102, R120: an OPEN taken while the session is OPEN first ends the old session with cause SUPERSEDED
under the loss policy. While that end has lock work to take, the OPEN waits for it with its credit argument and its
silence limit, fixed by the ceiling of the moment it is taken, and the request stays handed on; with none the new session follows at once, and its OPENED carries the disposition applied. -/
def Obligations.OpenSupersedesAnOpenSession : Prop :=
  ∀ (s : State) (p : Port) (b : Body), s.WaitingEndsSound → s.Takes p .openSession b → s.isOpen p = true →
    ∀ limit : Half, limit = limitInForce (halfAt b 3) (s.session p).config.silenceCeiling →
    (∀ e ∈ s.endWork p (s.session p).config.lossPolicy (.reopen (byteAt b 2) limit),
      ∃ t : State, exec (.openSession p) s = .next t ∧
        s.SessionEnded t p .superseded (some e) [] ∧ s.HandedOn t p) ∧
    (s.endWork p (s.session p).config.lossPolicy (.reopen (byteAt b 2) limit) = none →
      ∃ t : State, exec (.openSession p) s = .next t ∧
        ∃ u : State, s.SessionEnded u p .superseded none [] ∧ u.links = s.links ∧
          u.SessionBegun t p (byteAt b 2) limit (some (s.session p).config.lossPolicy) .waiting b ∧
          (u.heldLocks p ≠ [] → u.HandedOn t p))

/-- R104, R103, R81: the reattachment of the next kept holding of an OPEN in progress. A holding the port still has
gets a RETAINED change and is counted; the lock joins the list. A lock the port no longer holds is passed over.
The holding itself is left as it is. After the last one the OPEN reports OPENED, appends FAULT for a latched
record behind the locks, and replies with the count of retained holdings; then come the session ends that waited
for that reply (`WaitingSessionEndsAreTaken`). -/
def Obligations.ReattachmentRecordsRetained : Prop :=
  ∀ (s : State) (p : Port), s.isOpen p = true → ∀ o ∈ (s.session p).opening, ∀ l ∈ o.locks.head?,
    ∃ t v : State, exec (.reattachHolding p) s = .next t ∧
      (∀ (q : Port) (k : LockId), v.standing q k =
        if q = p ∧ k = l ∧ (s.lock l).holding p ≠ none then
          { s.standing p l with count := min 15 ((s.standing p l).count + 1), cause := some .retained }
        else s.standing q k) ∧
      (o.locks.tail ≠ [] → t = v ∧
        v = { s with standings := v.standings, sessions := v.sessions } ∧
        (∀ q : Port, q ≠ p → v.session q = s.session q) ∧
        v.session p = { s.session p with
          opening := some { o with
            locks := o.locks.tail
            retained := if (s.lock l).holding p = none then o.retained else o.retained + 1 }
          notices := if (s.lock l).holding p = none ∨ .lock l ∈ (s.session p).notices
            then (s.session p).notices else (s.session p).notices ++ [.lock l] }) ∧
      (o.locks.tail = [] → ∀ b ∈ (s.link p).handedOn, t = v.afterReply p ∧
        v = { s with standings := v.standings, sessions := v.sessions, links := v.links, trace := v.trace } ∧
        v.session p = { s.session p with opening := none, notices := (v.session p).notices } ∧
        s.OpenFinished v p o.superseded (if (s.lock l).holding p = none then [] else [.lock l])
          (if (s.lock l).holding p = none then o.retained else o.retained + 1) .handedOn b)

/-- R107, R110, R83: a CLOSE ends the session with cause CLOSED under RELEASE whatever the loss policy. With
nothing held or waited for it is answered OK at once; otherwise the withdrawals and releases are due first and
the request stays handed on. -/
def Obligations.CloseEndsTheSession : Prop :=
  ∀ (s : State) (p : Port) (b : Body), s.WaitingEndsSound → s.Takes p .closeSession b →
    ∃ t : State, exec (.closeSession p) s = .next t ∧
      s.SessionEnded t p .closed (s.endWork p .release .replyClose) [] ∧
      if s.endWork p .release .replyClose = none then s.Replied t p .waiting (replyTo b .ok [])
      else s.HandedOn t p

/-- R91, R159: a CREDIT raises the port's credit by n, stopping at 16, and its reply carries the credit in force. A
FAULT_ACK returns the port's fault record as it stood, empties it, and removes the FAULT subject from the port's
list wherever it stands. Neither changes anything else or makes a report. -/
def Obligations.CreditAndFaultAckDoTheirOneThing : Prop :=
  ∀ (s : State) (p : Port) (b : Body),
    (s.Takes p .credit b →
      ∃ t : State, exec (.credit p) s = .next t ∧
        t = { s with sessions := t.sessions, links := t.links } ∧
        t.session p = { s.session p with credit := min 16 ((s.session p).credit + (byteAt b 2).toNat) } ∧
        (∀ q : Port, q ≠ p → t.session q = s.session q) ∧
        s.Replied t p .waiting (replyTo b .ok
          [countByte (min 16 ((s.session p).credit + (byteAt b 2).toNat))])) ∧
    (s.Takes p .faultAck b →
      ∃ t : State, exec (.faultAck p) s = .next t ∧
        t = { s with sessions := t.sessions, links := t.links } ∧
        t.session p = { s.session p with
          notices := (s.session p).notices.filter (fun x => x != .fault) } ∧
        (∀ q : Port, q ≠ p → t.session q = s.session q) ∧
        (s.setLink p { s.link p with fault := { code := none, clock := 0, further := 0 } }).Replied t p
          .waiting (replyTo b .ok (faultCode (s.link p).fault.code :: wordBytes (s.link p).fault.clock ++
            [countByte (s.link p).fault.further])))

/-- R110, R83, R112, R48: a silence deadline the clock has reached ends the session at once when no request of the
port is handed on: LOST with cause SILENCE under the loss policy, with the lock work that policy leaves. With a
request handed on the end waits for its reply, and without a reached deadline nothing happens. No reply is formed
for it. -/
def Obligations.SilenceEndsTheSession : Prop :=
  ∀ (s : State) (p : Port),
    (s.isOpen p = true → s.due (s.session p).silenceDeadline = true → (s.link p).handedOn = none →
      ∃ t : State, exec (.silenceExpiry p) s = .next t ∧
        s.SessionEnded t p .silence (s.endWork p (s.session p).config.lossPolicy .nothing) [] ∧
        t.links = s.links) ∧
    (s.isOpen p = true → s.due (s.session p).silenceDeadline = true → (s.link p).handedOn ≠ none →
      .silence ∉ (s.session p).deferred →
      exec (.silenceExpiry p) s = .next (s.setSession p { s.session p with
        deferred := (s.session p).deferred ++ [.silence] })) ∧
    ((s.isOpen p = false ∨ s.due (s.session p).silenceDeadline = false) →
      exec (.silenceExpiry p) s = .next s)

/-- R110, R130, R114: the session ends that waited for a reply of the port, taken once it is formed
(`State.afterReply`), in the order they fell due. Their order and the second look at a silence deadline are log entry
11 (DEDUCED), and what a DROP_SESSION waits for is log entry 5 (DEDUCED). A silence expiry ends the session if it is still OPEN
with a deadline the clock has reached, under the loss policy, and otherwise does nothing. A DROP_SESSION ends a
session then OPEN, that of the superseding OPEN it waited for among them, after its SUPERVISOR report, and is
answered ENDED once there is no lock work to take; a session no longer OPEN is left alone and the answer is
NOT_OPEN. A silence expiry that waited for the DROP_SESSION's own reply follows that reply. -/
def Obligations.WaitingSessionEndsAreTaken : Prop :=
  ∀ (s : State) (p : Port),
    ((s.session p).deferred = [] → s.afterReply p = s) ∧
    ∀ d rest, (s.session p).deferred = d :: rest →
      ∀ u : State, u = s.setSession p { s.session p with deferred := rest } →
      (d = .silence →
        (s.isOpen p = true → s.due (s.session p).silenceDeadline = true →
          ∃ v : State, u.SessionEnded v p .silence (u.endWork p (s.session p).config.lossPolicy .nothing) [] ∧
            v.links = s.links ∧ s.afterReply p = v.afterReply p) ∧
        ((s.isOpen p = false ∨ s.due (s.session p).silenceDeadline = false) →
          s.afterReply p = u.afterReply p)) ∧
      ∀ named, d = .drop named → ∀ q ∈ s.supervisor, q ≠ p → ∀ b ∈ (s.link q).handedOn,
        (∀ x ∈ (s.session q).deferred, x = .silence) →
        ∀ disposition : Disposition, disposition = named.getD (s.session p).config.lossPolicy →
        (s.isOpen p = true → u.endWork p disposition .replyDrop ≠ none →
          ∃ v : State, u.SessionEnded v p .dropped (u.endWork p disposition .replyDrop)
              [{ cls := .supervisor, port := q, detail := 0x26 }] ∧
            v.links = s.links ∧ s.afterReply p = v.afterReply p) ∧
        (s.isOpen p = true → u.endWork p disposition .replyDrop = none →
          ∃ v w : State, u.SessionEnded v p .dropped none [{ cls := .supervisor, port := q, detail := 0x26 }] ∧
            v.links = s.links ∧ w = { v with links := w.links } ∧
            v.Replied w q .handedOn (replyTo b .ok [0, if disposition = .release then 1 else 2]) ∧
            s.afterReply p = (w.afterReply q).afterReply p) ∧
        (s.isOpen p = false →
          ∃ w : State, w = { u with links := w.links } ∧
            u.Replied w q .handedOn (replyTo b .ok [1, 0]) ∧ s.afterReply p = (w.afterReply q).afterReply p)

/-- R48, R38, R39, R82: the withdrawal of a session end, whatever its cause, on a lock where the port still waits
takes its record from the queue with WITHDRAWN and cause session end, records no change for the port, and hands off;
on a lock where it no longer waits it does nothing there. Either way that lock is done: the remaining withdrawals
follow, then the releases under RELEASE. With neither left the end is over, and a loss by silence with it
(`SessionEndsAreFollowedThrough` has the others). -/
def Obligations.SessionEndWithdrawsTheWait : Prop :=
  ∀ (s : State) (p : Port) (l : LockId), s.LocksSound → s.isOpen p = false →
    ∀ e ∈ (s.session p).ending, ∀ ls, e.work = .withdrawing ls → l ∈ ls →
    ∃ t u : State, exec (.sessionEndWithdrawal p l) s = .next t ∧ s.WithdrawnAtEnd u p l ∧
      if ls.filter (fun k => k != l) ≠ [] then
        t = u.setSession p { u.session p with
          ending := some { e with work := .withdrawing (ls.filter fun k => k != l) } }
      else if e.disposition = .release ∧ u.heldLocks p ≠ [] then
        t = u.setSession p { u.session p with ending := some { e with work := .releasing (u.heldLocks p) } }
      else e.sequel = .nothing → t = u.setSession p { u.session p with ending := none }

/-- R111, R33 to R37, R82, R107: the release of a session end, whatever its cause, on a lock the port still holds ends
the holding with RELEASED, cause session end and its number, records no change for the port, and hands off; on a
lock it no longer holds it does nothing there. Either way that lock is done. After the last release the end is over;
nothing follows a loss by silence, and a CLOSE is answered OK before the session ends that waited for that reply
(`SessionEndsAreFollowedThrough` has the others). -/
def Obligations.SessionEndReleasesTheHolding : Prop :=
  ∀ (s : State) (p : Port) (l : LockId), s.LocksSound → s.isOpen p = false →
    ∀ e ∈ (s.session p).ending, ∀ ls, e.work = .releasing ls → l ∈ ls →
    ∃ t u w : State, exec (.sessionEndRelease p l) s = .next t ∧ s.ReleasedAtEnd u p l ∧
      w = u.setSession p { u.session p with
        ending := if ls.filter (fun k => k != l) = [] then none
          else some { e with work := .releasing (ls.filter fun k => k != l) } } ∧
      if ls.filter (fun k => k != l) ≠ [] ∨ e.sequel = .nothing then t = w
      else e.sequel = .replyClose → ∀ b ∈ (s.link p).handedOn,
        ∃ v : State, v = { w with links := v.links } ∧ w.Replied v p .handedOn (replyTo b .ok []) ∧
          t = v.afterReply p

/-- R105, R107, R110, R129, R102: what follows the last piece of a session end's lock work, once that piece has been
taken. A loss by silence has nothing more; a CLOSE is answered OK, a DROP_SESSION ENDED with the disposition
applied, and a superseding OPEN begins its new session with the limit fixed when it was taken. The session ends that
waited for that reply come after it (`WaitingSessionEndsAreTaken`). -/
def Obligations.SessionEndsAreFollowedThrough : Prop :=
  ∀ (s : State) (p : Port) (l : LockId) (c : Instr), s.LocksSound → s.isOpen p = false →
    ∀ e ∈ (s.session p).ending,
    ((c = .sessionEndRelease p l ∧ e.work = .releasing [l]) ∨
      (c = .sessionEndWithdrawal p l ∧ e.work = .withdrawing [l] ∧
        (e.disposition = .retain ∨ s.heldLocks p = []))) →
    ∃ t u w : State, exec c s = .next t ∧
      (if c = .sessionEndRelease p l then s.ReleasedAtEnd u p l else s.WithdrawnAtEnd u p l) ∧
      w = u.setSession p { u.session p with ending := none } ∧
      (e.sequel = .nothing → t = w) ∧
      (e.sequel = .replyClose → ∀ b ∈ (s.link p).handedOn,
        ∃ v : State, v = { w with links := v.links } ∧ w.Replied v p .handedOn (replyTo b .ok []) ∧
          t = v.afterReply p) ∧
      (e.sequel = .replyDrop → ∀ q ∈ s.supervisor, ∀ b ∈ (s.link q).handedOn,
        (∀ x ∈ (s.session q).deferred, x = .silence) →
        ∃ v : State, v = { w with links := v.links } ∧
          w.Replied v q .handedOn (replyTo b .ok [0, if e.disposition = .release then 1 else 2]) ∧
          t = v.afterReply q) ∧
      ∀ (credit : Byte) (limit : Half), e.sequel = .reopen credit limit → ∀ b ∈ (s.link p).handedOn,
        ∃ v : State, w.SessionBegun v p credit limit (some e.disposition) .handedOn b ∧
          if w.heldLocks p = [] then t = v.afterReply p else t = v ∧ v.links = w.links

/-! ### Supervision -/

/-- R119, R122, R123: a SET_PORT replaces the named port's three fields, a SET_LOCK that is not refused the lock's
five, whatever they held; SUPERVISOR is reported, the reply is OK without results, and no holding, waiter,
standing, grant number or session changes. -/
def Obligations.ConfigurationIsReplacedWhole : Prop :=
  ∀ (s : State) (p : Port) (b : Body),
    (s.Takes p .setPort b →
      ∃ t : State, exec (.setPort p) s = .next t ∧
        t = { s with sessions := t.sessions, links := t.links, trace := t.trace } ∧
        (∀ q : Port, t.session q = { s.session q with
          config := if q = portAt b 2 then
            { groupMask := byteAt b 3, lossPolicy := if byteAt b 4 = 1 then .retain else .release,
              silenceCeiling := halfAt b 5 }
            else (s.session q).config
          notices := (s.session q).notices ++ s.newSubjects t 0 (fun _ => false) q }) ∧
        s.Hears t [{ cls := .supervisor, port := p, detail := 0x22 }] ∧
        s.Replied t p .waiting (replyTo b .ok [])) ∧
    (s.Takes p .setLock b →
      (byteAt b 3 = 1 ∨ ((∀ q : Port, (s.lock (lockAt b 2)).holding q = none) ∧
        (s.lock (lockAt b 2)).queue = [])) →
      ∃ t : State, exec (.setLock p) s = .next t ∧
        t = { s with locks := t.locks, sessions := t.sessions, links := t.links, trace := t.trace } ∧
        (∀ k : LockId, t.lock k = { s.lock k with
          config := if k = lockAt b 2 then
            { enabled := byteAt b 3 == 1, group := Fin.ofNat 8 (byteAt b 4).toNat,
              sharedAllowed := byteAt b 5 == 1,
              policy := if byteAt b 6 = 1 then .required else .optional, maxLease := halfAt b 7 }
            else (s.lock k).config }) ∧
        s.OnlyTraceTold t ∧
        s.Hears t [{ cls := .supervisor, port := p, lock := some (lockAt b 2), detail := 0x20 }] ∧
        s.Replied t p .waiting (replyTo b .ok []))

/-- R122, R126, R129: a SET_LOCK that would disable a lock with holders or waiters is refused IN_USE, a REVOKE whose
target holds nothing NOT_HOLDER, both reported with the lock; a DROP_SESSION of the supervisor's own port is
refused BAD_ARGUMENT, reported without one. Nothing else changes and the replies carry the status alone. -/
def Obligations.OwnersRefuseSupervisorRequests : Prop :=
  ∀ (s : State) (p : Port) (b : Body),
    (s.Takes p .setLock b → byteAt b 3 = 0 →
      ((∃ q : Port, (s.lock (lockAt b 2)).holding q ≠ none) ∨ (s.lock (lockAt b 2)).queue ≠ []) →
      ∃ t : State, exec (.setLock p) s = .next t ∧
        t = { s with sessions := t.sessions, links := t.links, trace := t.trace } ∧ s.OnlyTraceTold t ∧
        s.Hears t [refusedReport p (lockAt b 2) .inUse] ∧ s.Replied t p .waiting (replyTo b .inUse [])) ∧
    (s.Takes p .revoke b →
      (∀ q : Port, (byteAt b 3 = 0xFF ∨ q.val = (byteAt b 3).toNat) →
        (s.lock (lockAt b 2)).holding q = none) →
      ∃ t : State, exec (.revoke p) s = .next t ∧
        t = { s with sessions := t.sessions, links := t.links, trace := t.trace } ∧ s.OnlyTraceTold t ∧
        s.Hears t [refusedReport p (lockAt b 2) .notHolder] ∧
        s.Replied t p .waiting (replyTo b .notHolder [])) ∧
    (s.Takes p .dropSession b → portAt b 2 = p →
      ∃ t : State, exec (.dropSession p) s = .next t ∧
        t = { s with sessions := t.sessions, links := t.links, trace := t.trace } ∧ s.OnlyTraceTold t ∧
        s.Hears t [{ cls := .refused, port := p, detail := Status.badArgument.code }] ∧
        s.Replied t p .waiting (replyTo b .badArgument []))

/-- R125, R82, R33 to R37: a REVOKE of holders ends the holding of every port it names, in port order: NONE with
the number, one holding fewer, a REVOKED change where the session is OPEN. SUPERVISOR is reported first, then
one REVOKED each, then the grants of one hand-off; the waiters stay; the reply counts the removals. -/
def Obligations.RevokeRemovesHolders : Prop :=
  ∀ (s : State) (p : Port) (b : Body), s.LocksSound → s.Takes p .revoke b →
    ∀ qs : List Port, qs = allPorts.filter (fun q => (byteAt b 3 == 0xFF || q.val == (byteAt b 3).toNat) &&
      ((s.lock (lockAt b 2)).holding q).isSome) → qs ≠ [] →
    ∀ e : LockEntry, e = qs.foldl LockEntry.unhold (s.lock (lockAt b 2)) →
    ∃ t : State, exec (.revoke p) s = .next t ∧
      s.HandsOff t (lockAt b 2) e qs (fun q => decide (q ∈ qs)) none
        ({ cls := .supervisor, port := p, lock := some (lockAt b 2), detail := 0x24 } ::
          qs.map fun q => { cls := .revoked, port := q, lock := some (lockAt b 2), detail := 0,
                            grant := ((s.lock (lockAt b 2)).holding q).map Holding.grant }) ∧
      (∀ q ∈ qs, ∀ h ∈ (s.lock (lockAt b 2)).holding q,
        t.standing q (lockAt b 2) = s.changed q .revoked
          { s.standing q (lockAt b 2) with standing := .none, grant := h.grant, deadline := none } ∧
        t.count q = { holdings := (s.count q).holdings - 1, waits := (s.count q).waits }) ∧
      t.poolInUse = s.poolInUse - e.handOffRun.length ∧
      s.Replied t p .waiting (replyTo b .ok [countByte qs.length])

/-- R127, R49, R82: a PURGE removes every holder in port order and every waiter in queue order and leaves the lock
with neither; its last grant number and configuration stay and nobody is granted. Each removed port has NONE, a
PURGED change where its session is OPEN, and its count lowered; SUPERVISOR is reported first, then REVOKED for
each with cause PURGE, with the number for a holding and none for a waiter; the reply counts both. -/
def Obligations.PurgeEmptiesTheLock : Prop :=
  ∀ (s : State) (p : Port) (b : Body), s.LocksSound → s.Takes p .purge b →
    ∀ hs : List Port, hs = allPorts.filter (fun q => ((s.lock (lockAt b 2)).holding q).isSome) →
    ∀ ws : List Port, ws = (s.lock (lockAt b 2)).queue.map Waiter.port →
    ∃ t : State, exec (.purge p) s = .next t ∧
      s.LockFrame t (lockAt b 2) ∧
      (∀ q : Port, (t.lock (lockAt b 2)).holding q = none) ∧
      t.lock (lockAt b 2) = { config := (s.lock (lockAt b 2)).config, last := (s.lock (lockAt b 2)).last } ∧
      (∀ q ∈ hs, ∀ h ∈ (s.lock (lockAt b 2)).holding q,
        t.standing q (lockAt b 2) = s.changed q .purged
          { s.standing q (lockAt b 2) with standing := .none, grant := h.grant, deadline := none } ∧
        t.count q = { holdings := (s.count q).holdings - 1, waits := (s.count q).waits }) ∧
      (∀ q ∈ ws,
        t.standing q (lockAt b 2) = s.changed q .purged
          { s.standing q (lockAt b 2) with standing := .none, deadline := none } ∧
        t.count q = { holdings := (s.count q).holdings, waits := (s.count q).waits - 1 }) ∧
      (∀ q : Port, q ∉ hs → q ∉ ws →
        t.standing q (lockAt b 2) = s.standing q (lockAt b 2) ∧ t.count q = s.count q) ∧
      t.poolInUse = s.poolInUse - ws.length ∧
      s.Hears t ({ cls := .supervisor, port := p, lock := some (lockAt b 2), detail := 0x25 } ::
        (hs.map fun q => { cls := .revoked, port := q, lock := some (lockAt b 2), detail := 1,
                           grant := ((s.lock (lockAt b 2)).holding q).map Holding.grant }) ++
        ws.map fun q => { cls := .revoked, port := q, lock := some (lockAt b 2), detail := 1 }) ∧
      s.ListsGrow t (lockAt b 2) (fun q => decide (q ∈ hs) || decide (q ∈ ws)) none ∧
      s.Replied t p .waiting (replyTo b .ok [countByte hs.length, countByte ws.length])

/-- R129, R130, R110: a DROP_SESSION of another port. A session that is OPEN, with no request of the port handed on,
ends with cause DROPPED under the disposition named or the loss policy, SUPERVISOR reported before LOST; with no
lock work the reply ENDED follows at once, otherwise that work is due first. A port whose session is not OPEN and
which has no OPEN in progress is left alone, and the reply says NOT_OPEN and none. A request handed on makes the
end wait for its reply when the session is OPEN or that request is an OPEN (log entry 5). -/
def Obligations.DropSessionEndsTheSession : Prop :=
  ∀ (s : State) (p : Port) (b : Body), s.WaitingEndsSound → s.Takes p .dropSession b → portAt b 2 ≠ p →
    ∀ d : Disposition, d = (if byteAt b 3 = 1 then .release else if byteAt b 3 = 2 then .retain
      else (s.session (portAt b 2)).config.lossPolicy) →
    ∃ t : State, exec (.dropSession p) s = .next t ∧
      (s.isOpen (portAt b 2) = true → (s.link (portAt b 2)).handedOn = none →
        s.SessionEnded t (portAt b 2) .dropped (s.endWork (portAt b 2) d .replyDrop)
          [{ cls := .supervisor, port := p, detail := 0x26 }] ∧
        if s.endWork (portAt b 2) d .replyDrop = none then
          s.Replied t p .waiting (replyTo b .ok [0, if d = .release then 1 else 2])
        else s.HandedOn t p) ∧
      (s.isOpen (portAt b 2) = false →
        (s.link (portAt b 2)).handedOn.bind kindOf ≠ some .openSession →
        t = { s with links := t.links } ∧ s.Replied t p .waiting (replyTo b .ok [1, 0])) ∧
      ((s.link (portAt b 2)).handedOn ≠ none → (s.isOpen (portAt b 2) = true ∨
          (s.link (portAt b 2)).handedOn.bind kindOf = some .openSession) →
        t = { s with sessions := t.sessions, links := t.links } ∧
        (∀ q : Port, t.session q = if q = portAt b 2 then { s.session q with
          deferred := (s.session q).deferred ++ [.drop (if byteAt b 3 = 1 then some .release
            else if byteAt b 3 = 2 then some .retain else none)] } else s.session q) ∧
        s.HandedOn t p)

/-- R131, R132, R134, R114, R2, R79, R100, R119, R163: a RESTART raises the restart count and clears, on every lock,
port and session, all that R131's table says, and keeps all that it says: configurations, last grant numbers,
session numbers, the lease clock, the straps. A frame in transmission goes on with its slot, and the RESTART keeps
its own. It runs no hand-off and records no change. It finds the locks and the capture as the withdrawals and
releases of the session ends in progress leave them (`u`); with none in progress, as they stand. The model's choices
in it: each line's break is kept (log entry 6), a standing record goes to number 0 even where the RESTART ends a
kept holding (log entry 18), and session ends in progress are settled port by port, without what would follow them
(log entry 19). -/
def Obligations.RestartClearsAndKeeps : Prop :=
  ∀ (s : State) (p : Port) (b : Body), s.Takes p .restart b →
    ∃ t u : State, exec (.restart p) s = .next t ∧ s.EndsSettled u ∧
      ((∀ q : Port, (s.session q).ending = none) → u = s) ∧
      t = { s with restarting := true, restartCount := s.restartCount + 1, poolInUse := 0, locks := t.locks,
                   standings := t.standings, counts := t.counts, sessions := t.sessions, links := t.links,
                   trace := t.trace } ∧
      (∀ l : LockId, t.lock l = { config := (s.lock l).config, last := (u.lock l).last,
                                  holders := Vector.replicate 6 none, queue := [] }) ∧
      (∀ (q : Port) (l : LockId), t.standing q l =
        { standing := .none, grant := 0, deadline := none, count := 0, cause := none }) ∧
      (∀ q : Port, t.count q = { holdings := 0, waits := 0 }) ∧
      (∀ q : Port, t.session q =
        { state := .closed, number := (s.session q).number, silenceLimit := 0, silenceDeadline := none,
          credit := 0, notices := [], noticeNumber := 0, config := (s.session q).config, ending := none,
          opening := none, deferred := [] }) ∧
      (∀ q : Port, (t.link q).receiver = .hunt ∧ (t.link q).replies = [] ∧
        (t.link q).gapDeadline = none ∧
        (t.link q).transmitter = (s.link q).transmitter ∧ (t.link q).inBreak = (s.link q).inBreak ∧
        (t.link q).fault = { code := none, clock := 0, further := 0 } ∧
        (t.link q).window =
          (match (s.link q).transmitter with
            | .sendingReply _ => ((s.link q).window.filter fun c => c.cond == .answered).take 1
            | .sendingNotice _ => []
            | .free => []) ++ if q = p then [{ body := b, cond := .handedOn }] else []) ∧
      (t.trace.setup = s.trace.setup ∧ t.trace.timer = u.trace.timer ∧
        t.trace.timeWrapped = u.trace.timeWrapped ∧
        (u.trace.state = .off ∨ u.trace.state = .stopped → t.trace = u.trace) ∧
        (u.trace.state = .armed → t.trace = { u.trace with state := .stopped, stopCause := .restart }) ∧
        (u.trace.state = .running → t.trace.state = .stopped ∧ t.trace.stopCause = .restart ∧
          (u.trace.buffer.length < 128 → t.trace.entriesLost = u.trace.entriesLost ∧
            t.trace.buffer = u.trace.buffer ++
              [{ report := { cls := .supervisor, port := p, detail := 0x27 }, stamp := u.trace.timer,
                 lostAfter := false }]) ∧
          (128 ≤ u.trace.buffer.length → t.trace.entriesLost = true ∧ t.trace.buffer =
            u.trace.buffer.modify (u.trace.buffer.length - 1) fun x => { x with lostAfter := true })))

/-- R131, R133: when a restart completes, the receivers are in HUNT and the RESTART handed on at the supervisor port
is answered OK with the restart count; nothing else changes. That the command does nothing without a restart in
progress is log entry 3 (DESIGN CHOICE). -/
def Obligations.RestartCompletesWithItsReply : Prop :=
  ∀ s : State,
    (s.restarting = true → ∀ p ∈ s.supervisor, ∀ b ∈ (s.link p).handedOn,
      ∃ t : State, exec .restartComplete s = .next t ∧
        t = { s with restarting := false, links := t.links } ∧
        ({ s with links := s.links.map fun x =>
          { x with receiver := .hunt, gapDeadline := none } } : State).Replied t p .handedOn
          (replyTo b .ok (halfBytes s.restartCount))) ∧
    (s.restarting = false → exec .restartComplete s = .next s)

/-! ### Trace -/

/-- R136, R87: a TRACE_SETUP begins a new window whatever the capture was doing: empty buffer, clear flags, no stop
cause, timer 0, the eight fields loaded, and OFF, ARMED or RUNNING as they say; the TRACE subject leaves the
supervisor's list, no report is made, and the reply is OK without results. -/
def Obligations.TraceSetupBeginsAWindow : Prop :=
  ∀ (s : State) (p : Port) (b : Body), s.Takes p .traceSetup b →
    ∃ t : State, exec (.traceSetup p) s = .next t ∧
      t = { s with sessions := t.sessions, links := t.links, trace := t.trace } ∧
      t.trace =
        { setup :=
            { enable := byteAt b 2 == 1, startOnClass := byteAt b 3 == 1, startClass := classAt b 4,
              stopOnClass := byteAt b 5 == 1, stopClass := classAt b 6, stopOnFull := byteAt b 7 == 1,
              classFilter := halfAt b 8, portFilter := byteAt b 10 }
          state := if byteAt b 2 = 1 then (if byteAt b 3 = 1 then .armed else .running) else .off
          stopCause := .none, entriesLost := false, timeWrapped := false, timer := 0, buffer := [] } ∧
      t.session p = { s.session p with notices := (s.session p).notices.filter (fun x => x != .trace) } ∧
      (∀ q : Port, q ≠ p → t.session q = s.session q) ∧
      s.Replied t p .waiting (replyTo b .ok [])

/-- R143, R167: a TRACE_READ takes up to n entries from the head of the buffer and returns them oldest first, behind
the capture fields read once they are gone; nothing but the buffer changes. -/
def Obligations.TraceReadDrainsTheHead : Prop :=
  ∀ (s : State) (p : Port) (b : Body), s.Takes p .traceRead b →
    ∃ t : State, exec (.traceRead p) s = .next t ∧
      t = { s with links := t.links, trace := { s.trace with
        buffer := s.trace.buffer.drop (byteAt b 2).toNat } } ∧
      s.Replied t p .waiting (replyTo b .ok
        (countByte (min (byteAt b 2).toNat s.trace.buffer.length) ::
          [s.trace.state.code, s.trace.stopCause.code,
           countByte (s.trace.buffer.length - (byteAt b 2).toNat), s.trace.flagsByte] ++
          (s.trace.buffer.take (byteAt b 2).toNat).flatMap TraceEntry.bytes))

/-- R138 to R141, R89: what a report does. In OFF and STOPPED it is discarded. In ARMED the start class from a port in
the filter starts the capture with the timer at 0 and is the first entry, whatever the class filter and the stop
class are, and any other report is discarded. In RUNNING, one of the stop class from a port in the filter stops the
capture with cause STOP_CLASS, recorded when there is room and otherwise lost; another is recorded when both
filters pass it. A report to be recorded on a full buffer is lost: the tail entry is marked, ENTRIES_LOST is set,
and stop-on-full stops the capture with cause FULL. Such a stop appends TRACE to the list of a supervisor whose
session is OPEN; nothing else in the part changes. -/
def Obligations.ReportsReachTheCapture : Prop :=
  ∀ (s : State) (r : Report),
    s.report r = { s with trace := (s.report r).trace, sessions := (s.report r).sessions } ∧
    s.OnlyTraceTold (s.report r) ∧
    (s.trace.state = .off ∨ s.trace.state = .stopped → s.report r = s) ∧
    (s.trace.state = .armed → s.trace.buffer = [] →
      (r.cls = s.trace.setup.startClass → s.trace.setup.portFilter.getLsbD r.port.val = true →
        (s.report r).trace = { s.trace with
          state := .running, timer := 0, buffer := [{ report := r, stamp := 0, lostAfter := false }] }) ∧
      (r.cls ≠ s.trace.setup.startClass ∨ s.trace.setup.portFilter.getLsbD r.port.val = false →
        s.report r = s)) ∧
    (s.trace.state = .running → ∀ stops passes room : Bool,
      stops = (s.trace.setup.stopOnClass && r.cls == s.trace.setup.stopClass &&
        s.trace.setup.portFilter.getLsbD r.port.val) →
      passes = (s.trace.setup.classFilter.getLsbD r.cls.code &&
        s.trace.setup.portFilter.getLsbD r.port.val) →
      room = decide (s.trace.buffer.length < 128) →
      (s.report r).trace =
        if stops || passes then
          { s.trace with
            buffer :=
              if room then s.trace.buffer ++ [{ report := r, stamp := s.trace.timer, lostAfter := false }]
              else s.trace.buffer.modify (s.trace.buffer.length - 1) fun x => { x with lostAfter := true }
            entriesLost := s.trace.entriesLost || !room
            state := if stops || (!room && s.trace.setup.stopOnFull) then .stopped else .running
            stopCause := if stops then .stopClass
              else if !room && s.trace.setup.stopOnFull then .full else s.trace.stopCause }
        else s.trace)

/-! ### Link ports -/

/-- R151 and R153: a character taken in each state of the receiver moves it as the table says, and outside HUNT the
next one has 4 ms from now; the check is compared with that of the length and body received, and a match completes
a valid frame. -/
def Obligations.ReceiverFollowsItsTable : Prop :=
  ∀ (s : State) (p : Port) (c : Byte), s.receives p = true →
    ((s.link p).receiver = .hunt →
      exec (.characterReceived p c) s =
        .next (if c = 0xB7 then
          s.setLink p { s.link p with receiver := .length, gapDeadline := some (s.clock + 4) } else s)) ∧
    ((s.link p).receiver = .length → 2 ≤ c.toNat → c.toNat ≤ 60 →
      exec (.characterReceived p c) s = .next (s.setLink p { s.link p with
        receiver := .body c [], gapDeadline := some (s.clock + 4) })) ∧
    ((s.link p).receiver = .length → (c.toNat < 2 ∨ 60 < c.toNat) →
      exec (.characterReceived p c) s = exec (.frameShape p c) s) ∧
    (∀ (n : Byte) (got : Body), (s.link p).receiver = .body n got → got.length < n.toNat →
      exec (.characterReceived p c) s = .next (s.setLink p { s.link p with
        receiver := if got.length + 1 = n.toNat then .check (got ++ [c]) none else .body n (got ++ [c])
        gapDeadline := some (s.clock + 4) })) ∧
    (∀ got : Body, (s.link p).receiver = .check got none →
      exec (.characterReceived p c) s =
        .next (s.setLink p { s.link p with
          receiver := .check got (some c), gapDeadline := some (s.clock + 4) })) ∧
    ∀ (got : Body) (high : Byte), (s.link p).receiver = .check got (some high) →
      2 ≤ got.length → got.length ≤ 60 →
      exec (.characterReceived p c) s =
        if high ++ c = crc16 (BitVec.ofNat 8 got.length :: got) then exec (.validFrame p got) s
        else exec (.frameCheck p got (high ++ c)) s

/-- R155, R109, R156: a valid frame restarts the silence timer of an OPEN session with a limit, whether it is
admitted or not; it is admitted behind the requests in the window when they are fewer than 4, and otherwise
dropped with WINDOW_OVERRUN. The receiver is back in HUNT. In CHECK the frame is valid only with the body received
and with a high check byte, if that has come, that is the check's; otherwise VALID_FRAME changes nothing (log
entry 3, DESIGN CHOICE). That VALID_FRAME given in HUNT stands for the whole frame is log entry 4 (DESIGN CHOICE),
and that a fault enters the notice list ahead of its report is log entry 8 (DEDUCED). -/
def Obligations.ValidFrameIsAdmitted : Prop :=
  ∀ (s : State) (p : Port) (body : Body), s.receives p = true → 2 ≤ body.length → body.length ≤ 60 →
    (((s.link p).receiver = .hunt ∨ (s.link p).receiver = .check body none ∨
        (s.link p).receiver = .check body
          (some ((crc16 (BitVec.ofNat 8 body.length :: body)).extractLsb' 8 8))) →
      ∀ u : State, u = (if s.isOpen p = true ∧ (s.session p).silenceLimit ≠ 0 then
        s.setSession p { s.session p with
          silenceDeadline := some (s.clock + (s.session p).silenceLimit.setWidth 32) } else s) →
      ∃ t : State, exec (.validFrame p body) s = .next t ∧
        ((s.link p).window.length < 4 → t = u.setLink p { s.link p with
          receiver := .hunt, gapDeadline := none
          window := (s.link p).window ++ [{ body := body, cond := .waiting }] }) ∧
        (4 ≤ (s.link p).window.length → u.Faulted t p .windowOverrun (s.link p).inBreak)) ∧
    ∀ got high, (s.link p).receiver = .check got high →
      (got ≠ body ∨ ∃ x ∈ high, x ≠ (crc16 (BitVec.ofNat 8 body.length :: body)).extractLsb' 8 8) →
      exec (.validFrame p body) s = .next s

/-- R152, R153, R154, R158, R88: FRAME_CHECK, FRAME_SHAPE, CHAR_ERROR, and RECEIVE_GAP once the clock has reached the gap
deadline and not before, discard the frame in progress, latch or count in the fault record, and are reported. That a
fault acts on the record and the notice list ahead of its report is log entry 8 (DEDUCED), and that FRAME_CHECK and
FRAME_SHAPE given in HUNT stand for the whole frame is log entry 4 (DESIGN CHOICE). While the line stays at the break level no character is
taken and no further fault counted; when it returns to idle the receiver resumes in HUNT and nothing else
changes. -/
def Obligations.LineFaultsAreRecorded : Prop :=
  ∀ (s : State) (p : Port),
    (s.receives p = true →
      (∀ (body : Body) (check : Half), 2 ≤ body.length → body.length ≤ 60 →
        check ≠ crc16 (BitVec.ofNat 8 body.length :: body) →
        ((s.link p).receiver = .hunt ∨ (s.link p).receiver = .check body none ∨
          (s.link p).receiver = .check body (some (check.extractLsb' 8 8))) →
        ∃ t : State, exec (.frameCheck p body check) s = .next t ∧ s.Faulted t p .frameCheck false) ∧
      (∀ n : Byte, (n.toNat < 2 ∨ 60 < n.toNat) →
        ((s.link p).receiver = .hunt ∨ (s.link p).receiver = .length) →
        ∃ t : State, exec (.frameShape p n) s = .next t ∧ s.Faulted t p .frameShape false) ∧
      (s.due (s.link p).gapDeadline = true →
        ∃ t : State, exec (.receiveGap p) s = .next t ∧ s.Faulted t p .receiveGap false) ∧
      (s.due (s.link p).gapDeadline = false → exec (.receiveGap p) s = .next s) ∧
      ∀ beginsBreak : Bool,
        ∃ t : State, exec (.charError p beginsBreak) s = .next t ∧ s.Faulted t p .charError beginsBreak) ∧
    ((s.link p).inBreak = true →
      (∀ c : Byte, exec (.characterReceived p c) s = .next s) ∧
      (∀ body : Body, exec (.validFrame p body) s = .next s) ∧
      (∀ again : Bool, exec (.charError p again) s = .next s) ∧ exec (.receiveGap p) s = .next s ∧
      exec (.breakEnd p) s = .next (s.setLink p { s.link p with
        inBreak := false, receiver := .hunt, gapDeadline := none }))

/-- R156, R157: when the last byte of a reply has gone its slot is freed and the oldest waiting reply is begun, in
request order; when that of a notice has gone a waiting reply goes before any further notice; with none waiting
the transmitter is free. Nothing else changes. -/
def Obligations.TransmitterSendsRepliesInOrder : Prop :=
  ∀ (s : State) (p : Port),
    (∀ f, (s.link p).transmitter = .sendingReply f →
      ∃ t : State, exec (.replySent p) s = .next t ∧
        t = s.setLink p { s.link p with window := (s.link p).window.tail, replies := (t.link p).replies,
                                        transmitter := (t.link p).transmitter } ∧
        (s.link p).outgoing = f :: (t.link p).outgoing ∧
        ((t.link p).transmitter = .free ↔ (t.link p).outgoing = []) ∧
        ∀ g, (t.link p).transmitter ≠ .sendingNotice g) ∧
    (∀ f, (s.link p).transmitter = .sendingNotice f →
      ∃ t : State, exec (.noticeSent p) s = .next t ∧
        t = s.setLink p { s.link p with replies := (t.link p).replies,
                                        transmitter := (t.link p).transmitter } ∧
        (t.link p).outgoing = (s.link p).outgoing ∧
        ((t.link p).transmitter = .free ↔ (t.link p).outgoing = []) ∧
        ∀ g, (t.link p).transmitter ≠ .sendingNotice g)

/-- R92 to R95, R160, R145, R168: when the six conditions hold, a notice is formed for the oldest subject of the
list, as it stands at that moment, and its sending begins: the subject leaves the list, the credit falls by one,
the notice number rises by one. A STANDING notice clears its lock's count and cause; a FAULT notice leaves the
record latched, a TRACE notice the capture. Nothing else changes. When one of the conditions fails no notice is
formed (R90, R92): none without credit, while the transmitter is busy or a reply waits, outside an OPEN session,
while a request is handed on, or with an empty list. A command whose kind of notice is not the oldest subject's
changes nothing either (log entry 3, DESIGN CHOICE). -/
def Obligations.NoticesReportTheOldestSubject : Prop :=
  ∀ (s : State) (p : Port),
    ((s.link p).transmitter = .free → (s.link p).replies = [] → 0 < (s.session p).credit → s.isOpen p = true →
      (s.link p).handedOn = none →
      (∀ l rest, (s.session p).notices = .lock l :: rest →
        ∃ t : State, exec (.standingNotice p) s = .next t ∧
          (s.setStanding p l { s.standing p l with count := 0, cause := none }).NoticeFormed t p rest
            ([0xE0, (s.session p).noticeNumber, BitVec.ofNat 8 l.val, (s.standing p l).standing.code] ++
              wordBytes (s.standing p l).grant ++ halfBytes (s.standingDetail p l) ++
              [causeCode (s.standing p l).cause, countByte (s.standing p l).count])) ∧
      (∀ rest, (s.session p).notices = .fault :: rest →
        ∃ t : State, exec (.faultNotice p) s = .next t ∧
          s.NoticeFormed t p rest
            ([0xE1, (s.session p).noticeNumber, faultCode (s.link p).fault.code] ++
              wordBytes (s.link p).fault.clock ++ [countByte (s.link p).fault.further])) ∧
      ∀ rest, (s.session p).notices = .trace :: rest →
        ∃ t : State, exec (.traceNotice p) s = .next t ∧
          s.NoticeFormed t p rest
            [0xE2, (s.session p).noticeNumber, s.trace.state.code, s.trace.stopCause.code,
             countByte s.trace.buffer.length, s.trace.flagsByte]) ∧
    (((s.session p).credit = 0 ∨ (s.link p).transmitter ≠ .free ∨ (s.link p).replies ≠ [] ∨
        s.isOpen p = false ∨ (s.link p).handedOn ≠ none ∨ (s.session p).notices = []) →
      exec (.standingNotice p) s = .next s ∧ exec (.faultNotice p) s = .next s ∧
        exec (.traceNotice p) s = .next s) ∧
    ((∀ l : LockId, (s.session p).notices.head? ≠ some (.lock l)) → exec (.standingNotice p) s = .next s) ∧
    ((s.session p).notices.head? ≠ some .fault → exec (.faultNotice p) s = .next s) ∧
    ((s.session p).notices.head? ≠ some .trace → exec (.traceNotice p) s = .next s)

/-- R16, R78, R95: the last field of a standing report is the lease remaining while the lock is held, the queue
position while the port waits, and 0 otherwise; the position is the record's place in the queue, from 1 (R29). -/
def Obligations.StandingReportsLastField : Prop :=
  ∀ (s : State) (p : Port) (l : LockId), s.LocksSound → s.StandingsAgree →
    (∀ h ∈ (s.lock l).holding p, s.standingDetail p l = leaseRemaining s.clock h.deadline) ∧
    (∀ before w after, (s.lock l).queue = before ++ w :: after → w.port = p →
      s.standingDetail p l = BitVec.ofNat 16 (before.length + 1)) ∧
    ((s.lock l).holding p = none → (s.lock l).waits p = false → s.standingDetail p l = 0)

/-- R162, R117, R149, R2, R26, R61, R79, R100, R119, R135: RESET puts every block into its pin-reset state and holds
it there, whatever it was doing; on release the straps are read and the part starts. Asserting the pin is a
choice of moment by log entry 7. -/
def Obligations.PinResetStartsAfresh : Prop :=
  ∀ (s : State) (baud : BitVec 2) (supsel : BitVec 3),
    ∃ t : State, exec .pinReset s = .next t ∧ t.resetAsserted = true ∧
      (∀ l : LockId, t.lock l =
        { config := { enabled := true, group := 0, sharedAllowed := true, policy := .optional, maxLease := 65535 }
          holders := Vector.replicate 6 none
          queue := []
          last := 0 }) ∧
      (∀ (q : Port) (l : LockId), t.standing q l =
        { standing := .none, grant := 0, deadline := none, count := 0, cause := none }) ∧
      (∀ q : Port, t.count q = { holdings := 0, waits := 0 }) ∧ t.poolInUse = 0 ∧
      (∀ q : Port, t.session q =
        { state := .closed, number := 0, silenceLimit := 0, silenceDeadline := none, credit := 0,
          notices := [], noticeNumber := 0,
          config := { groupMask := 0xFF, lossPolicy := .release, silenceCeiling := 0 },
          ending := none, opening := none, deferred := [] }) ∧
      (∀ q : Port, t.link q =
        { receiver := .hunt, gapDeadline := none, inBreak := false, window := [], replies := [],
          transmitter := .free, fault := { code := none, clock := 0, further := 0 } }) ∧
      t.clock = 0 ∧ t.restartCount = 0 ∧ t.restarting = false ∧
      t.trace =
        { setup :=
            { enable := false, startOnClass := false, startClass := .opened, stopOnClass := false,
              stopClass := .opened, stopOnFull := false, classFilter := 0, portFilter := 0 }
          state := .off, stopCause := .none, entriesLost := false, timeWrapped := false, timer := 0,
          buffer := [] } ∧
      ∀ u : State, u.resetAsserted = true → exec (.resetReleased baud supsel) u = .next
        { u with resetAsserted := false, baud := baud, supsel := supsel }

/-- R151, R150, R164: the characters of a whole good frame, taken one by one from HUNT, do what VALID_FRAME does
with its body, and those of a frame with a wrong check what FRAME_CHECK does. That these two commands given in HUNT
stand for the whole frame is log entry 4 (DESIGN CHOICE). -/
def Obligations.FramesAreMadeOfCharacters : Prop :=
  ∀ (s : State) (p : Port) (body : Body) (check : Half), s.receives p = true →
    (s.link p).receiver = .hunt → 2 ≤ body.length → body.length ≤ 60 →
    Host.Core.run core (body.length + 4) { s with pending :=
      (([0xB7, BitVec.ofNat 8 body.length] ++ body ++ halfBytes check).map (.characterReceived p)) ++
        s.pending } =
      if check = frameCheckOf body then exec (.validFrame p body) s else exec (.frameCheck p body check) s

/-! ### Laws of the whole part -/

/-- The state after reset keeps every law. -/
def Obligations.ResetKeepsTheLaws : Prop := State.reset.Inv

/-- R7, R34, R10, R29, R5, R1: every step keeps the laws of the lock table: its shapes of holders, a head of the
queue in conflict with them, a port once among holders and waiters, no holding numbered 0, nobody on a disabled
lock. -/
def Obligations.StepsKeepTheLocksSound : Prop :=
  ∀ s t : State, s.LocksSound → step s = .next t → t.LocksSound

/-- R80: every step keeps the standing table in step with the lock table. -/
def Obligations.StepsKeepTheStandingsInStep : Prop :=
  ∀ s t : State, s.LocksSound → s.StandingsAgree → step s = .next t → t.StandingsAgree

/-- R15, R26, R32: every step keeps the counts and the pool true to the lock table, and within 48 records, 8 waits
a port, and 16 holdings and waits a port. -/
def Obligations.StepsKeepTheCountsAndLimits : Prop :=
  ∀ s t : State, s.LocksSound → s.CountsAgree → s.WithinLimits → step s = .next t →
    t.CountsAgree ∧ t.WithinLimits

/-- R79, R86, R90, R103, R145, R160: every step keeps count and cause together and the notice lists what they
should be: no subject twice, a lock exactly while its count is above 0, empty outside an OPEN session. -/
def Obligations.StepsKeepTheNoticeLists : Prop :=
  ∀ s t : State, s.LocksSound → s.HeldInReset → s.ChangesAgree → s.NoticesAgree → step s = .next t →
    t.ChangesAgree ∧ t.NoticesAgree

/-- R90, R100, R102, R119, R153, R156, R157, R158, R135, R141: every step keeps every session entry, link port and the
trace unit within its table. -/
def Obligations.StepsKeepSessionsLinksAndTrace : Prop :=
  ∀ s t : State, s.LocksSound → s.SessionsSound → s.LinksSound → s.trace.Sound → step s = .next t →
    t.SessionsSound ∧ t.LinksSound ∧ t.trace.Sound

/-- R48, R107, R110 to R112, R131, R162: every step keeps what a port whose session is not OPEN may have: no waits once its
end's withdrawals are taken, holdings only while LOST, and an end in progress that still covers all of them; an end
waits only for a reply still to come, and no DROP_SESSION waits at the supervisor's own port; while a restart is in
progress every session is CLOSED with no end in progress or waiting (R131). While RESET is asserted
the part stays in its pin-reset state, whatever command comes: that it stands there already while the pin is
asserted is log entry 7 (DEDUCED), and the fields that hold an end in progress or waiting are log entry 15
(DEDUCED). -/
def Obligations.StepsKeepSessionEndsAndReset : Prop :=
  ∀ s t : State, s.Inv → step s = .next t → t.EndsSound ∧ t.WaitingEndsSound ∧ t.HeldInReset

/-- R5: grant numbers move forward: the next is one more, and 1 after 4,294,967,295. Whatever one command other than a pin reset does, a lock's last grant number
goes on by at most six, and every holding on the lock afterwards was there before under the same number or carries
one of the numbers just issued. -/
def Obligations.GrantNumbersMoveForward : Prop :=
  (∀ g : Grant, nextGrant g = if g = 4294967295 then 1 else g + 1) ∧
  ∀ (c : Instr) (s t : State) (l : LockId), s.LocksSound → c ≠ .pinReset → exec c s = .next t →
    ∃ n ≤ 6, (t.lock l).last = nextGrant^[n] (s.lock l).last ∧
      ∀ p : Port, ∀ h ∈ (t.lock l).holding p,
        (∃ k ∈ (s.lock l).holding p, k.grant = h.grant) ∨
        ∃ i, 1 ≤ i ∧ i ≤ n ∧ h.grant = nextGrant^[i] (s.lock l).last

/-- R61, R117, R1, R119, R135, R106, R131: only the named commands write what outlives sessions: the straps by
RESET_RELEASED, the clock by its advance, the restart count by RESTART, a lock's configuration by SET_LOCK, a
port's by SET_PORT, the capture setup by TRACE_SETUP; all but the straps also by pin reset. A port's session number
is written by pin reset and otherwise only raised by one, past 255 to 1, and only by its own OPEN or by the
withdrawal or release of its own session end that completes a superseding OPEN. -/
def Obligations.OnlyNamedCommandsWriteWhatLasts : Prop :=
  ∀ (c : Instr) (s t : State), exec c s = .next t →
    ((∀ b v, c ≠ .resetReleased b v) → t.baud = s.baud ∧ t.supsel = s.supsel) ∧
    (c ≠ .pinReset →
      (c ≠ .leaseClockAdvance → t.clock = s.clock) ∧
      ((∀ p, c ≠ .restart p) → t.restartCount = s.restartCount) ∧
      ((∀ p, c ≠ .setLock p) → ∀ l : LockId, (t.lock l).config = (s.lock l).config) ∧
      ((∀ p, c ≠ .setPort p) → ∀ q : Port, (t.session q).config = (s.session q).config) ∧
      ((∀ p, c ≠ .traceSetup p) → t.trace.setup = s.trace.setup) ∧
      ∀ q : Port, (t.session q).number = (s.session q).number ∨
        (t.session q).number = (if (s.session q).number = 255 then 1 else (s.session q).number + 1) ∧
          (c = .openSession q ∨ ((∃ l, c = .sessionEndWithdrawal q l ∨ c = .sessionEndRelease q l) ∧
            ∃ e ∈ (s.session q).ending, ∃ credit limit, e.sequel = .reopen credit limit)))
end

