-- ==== Sys2Proof/Laws/State.lean ====
section
/-! SUPPORT. The small lemmas of State: what each named update does to each part of the state. -/

namespace Sys2Proof.Machine

variable {α : Type} {n : Nat}

/-! ### Tables -/

theorem look_put (v : Vector α n) (i j : Fin n) (a : α) :
    look (put v i a) j = if i = j then a else look v j := by
  simp [look, put, Vector.getElem_set, Fin.ext_iff]

@[simp] theorem look_put_self (v : Vector α n) (i : Fin n) (a : α) : look (put v i a) i = a := by
  simp [look_put]

theorem look_put_ne (v : Vector α n) {i j : Fin n} (a : α) (h : i ≠ j) :
    look (put v i a) j = look v j := by
  simp [look_put, h]

@[simp] theorem put_look (v : Vector α n) (i : Fin n) : put v i (look v i) = v := by
  simp [look, put]

@[simp] theorem put_put (v : Vector α n) (i : Fin n) (a b : α) : put (put v i a) i b = put v i b := by
  simp [put]

@[simp] theorem look_replicate (a : α) (i : Fin n) : look (Vector.replicate n a) i = a := by
  simp [look]

@[simp] theorem look_map {β : Type} (f : α → β) (v : Vector α n) (i : Fin n) :
    look (v.map f) i = f (look v i) := by
  simp [look]

@[simp] theorem look_ofFn (f : Fin n → α) (i : Fin n) : look (Vector.ofFn f) i = f i := by
  simp [look]

/-- Two tables with equal entries are equal. -/
theorem table_ext {v w : Vector α n} (h : ∀ i, look v i = look w i) : v = w := by
  ext i hi
  exact h ⟨i, hi⟩

variable (s : State)

/-! ### The updated entry -/

theorem lock_setLock (l : LockId) (e : LockEntry) (k : LockId) :
    (s.setLock l e).lock k = if l = k then e else s.lock k := look_put _ _ _ _

theorem standing_setStanding (p : Port) (l : LockId) (r : StandingRecord) (q : Port) (k : LockId) :
    (s.setStanding p l r).standing q k = if p = q ∧ l = k then r else s.standing q k := by
  simp only [State.setStanding, State.standing, look_put]
  by_cases h : p = q
  · subst h
    simp [look_put]
  · simp [h]

theorem count_setCount (p : Port) (c : PortCounts) (q : Port) :
    (s.setCount p c).count q = if p = q then c else s.count q := look_put _ _ _ _

theorem session_setSession (p : Port) (x : Session) (q : Port) :
    (s.setSession p x).session q = if p = q then x else s.session q := look_put _ _ _ _

theorem link_setLink (p : Port) (x : LinkPort) (q : Port) :
    (s.setLink p x).link q = if p = q then x else s.link q := look_put _ _ _ _

@[simp] theorem lock_setLock_self (l : LockId) (e : LockEntry) : (s.setLock l e).lock l = e := by
  simp [lock_setLock]

@[simp] theorem standing_setStanding_self (p : Port) (l : LockId) (r : StandingRecord) :
    (s.setStanding p l r).standing p l = r := by simp [standing_setStanding]

@[simp] theorem count_setCount_self (p : Port) (c : PortCounts) : (s.setCount p c).count p = c := by
  simp [count_setCount]

@[simp] theorem session_setSession_self (p : Port) (x : Session) :
    (s.setSession p x).session p = x := by simp [session_setSession]

@[simp] theorem link_setLink_self (p : Port) (x : LinkPort) : (s.setLink p x).link p = x := by
  simp [link_setLink]

@[simp] theorem trace_setTrace (t : TraceUnit) : (s.setTrace t).trace = t := rfl

@[simp] theorem poolInUse_setPool (n : Nat) : (s.setPool n).poolInUse = n := rfl

/-! ### Writing back what is there, and writing twice -/

@[simp] theorem setLink_link (p : Port) : s.setLink p (s.link p) = s := by
  simp [State.setLink, State.link]

@[simp] theorem setSession_session (p : Port) : s.setSession p (s.session p) = s := by
  simp [State.setSession, State.session]

@[simp] theorem setLink_setLink (p : Port) (x y : LinkPort) :
    (s.setLink p x).setLink p y = s.setLink p y := by
  simp [State.setLink]

@[simp] theorem setSession_setSession (p : Port) (x y : Session) :
    (s.setSession p x).setSession p y = s.setSession p y := by
  simp [State.setSession]

/-! ### Everything else -/

@[simp] theorem standing_setLock (l : LockId) (e : LockEntry) (q : Port) (k : LockId) :
    (s.setLock l e).standing q k = s.standing q k := (rfl)

@[simp] theorem count_setLock (l : LockId) (e : LockEntry) (q : Port) :
    (s.setLock l e).count q = s.count q := (rfl)

@[simp] theorem session_setLock (l : LockId) (e : LockEntry) (q : Port) :
    (s.setLock l e).session q = s.session q := (rfl)

@[simp] theorem link_setLock (l : LockId) (e : LockEntry) (q : Port) :
    (s.setLock l e).link q = s.link q := (rfl)

@[simp] theorem pending_setLock (l : LockId) (e : LockEntry) :
    (s.setLock l e).pending = s.pending := (rfl)

@[simp] theorem resetAsserted_setLock (l : LockId) (e : LockEntry) :
    (s.setLock l e).resetAsserted = s.resetAsserted := (rfl)

@[simp] theorem baud_setLock (l : LockId) (e : LockEntry) :
    (s.setLock l e).baud = s.baud := (rfl)

@[simp] theorem supsel_setLock (l : LockId) (e : LockEntry) :
    (s.setLock l e).supsel = s.supsel := (rfl)

@[simp] theorem restartCount_setLock (l : LockId) (e : LockEntry) :
    (s.setLock l e).restartCount = s.restartCount := (rfl)

@[simp] theorem restarting_setLock (l : LockId) (e : LockEntry) :
    (s.setLock l e).restarting = s.restarting := (rfl)

@[simp] theorem clock_setLock (l : LockId) (e : LockEntry) :
    (s.setLock l e).clock = s.clock := (rfl)

@[simp] theorem poolInUse_setLock (l : LockId) (e : LockEntry) :
    (s.setLock l e).poolInUse = s.poolInUse := (rfl)

@[simp] theorem trace_setLock (l : LockId) (e : LockEntry) :
    (s.setLock l e).trace = s.trace := (rfl)

@[simp] theorem supervisor_setLock (l : LockId) (e : LockEntry) :
    (s.setLock l e).supervisor = s.supervisor := (rfl)

@[simp] theorem lineActive_setLock (l : LockId) (e : LockEntry) :
    (s.setLock l e).lineActive = s.lineActive := (rfl)

@[simp] theorem isOpen_setLock (l : LockId) (e : LockEntry) (q : Port) :
    (s.setLock l e).isOpen q = s.isOpen q := (rfl)

@[simp] theorem lock_setStanding (p : Port) (l : LockId) (r : StandingRecord) (k : LockId) :
    (s.setStanding p l r).lock k = s.lock k := (rfl)

@[simp] theorem count_setStanding (p : Port) (l : LockId) (r : StandingRecord) (q : Port) :
    (s.setStanding p l r).count q = s.count q := (rfl)

@[simp] theorem session_setStanding (p : Port) (l : LockId) (r : StandingRecord) (q : Port) :
    (s.setStanding p l r).session q = s.session q := (rfl)

@[simp] theorem link_setStanding (p : Port) (l : LockId) (r : StandingRecord) (q : Port) :
    (s.setStanding p l r).link q = s.link q := (rfl)

@[simp] theorem pending_setStanding (p : Port) (l : LockId) (r : StandingRecord) :
    (s.setStanding p l r).pending = s.pending := (rfl)

@[simp] theorem resetAsserted_setStanding (p : Port) (l : LockId) (r : StandingRecord) :
    (s.setStanding p l r).resetAsserted = s.resetAsserted := (rfl)

@[simp] theorem baud_setStanding (p : Port) (l : LockId) (r : StandingRecord) :
    (s.setStanding p l r).baud = s.baud := (rfl)

@[simp] theorem supsel_setStanding (p : Port) (l : LockId) (r : StandingRecord) :
    (s.setStanding p l r).supsel = s.supsel := (rfl)

@[simp] theorem restartCount_setStanding (p : Port) (l : LockId) (r : StandingRecord) :
    (s.setStanding p l r).restartCount = s.restartCount := (rfl)

@[simp] theorem restarting_setStanding (p : Port) (l : LockId) (r : StandingRecord) :
    (s.setStanding p l r).restarting = s.restarting := (rfl)

@[simp] theorem clock_setStanding (p : Port) (l : LockId) (r : StandingRecord) :
    (s.setStanding p l r).clock = s.clock := (rfl)

@[simp] theorem poolInUse_setStanding (p : Port) (l : LockId) (r : StandingRecord) :
    (s.setStanding p l r).poolInUse = s.poolInUse := (rfl)

@[simp] theorem trace_setStanding (p : Port) (l : LockId) (r : StandingRecord) :
    (s.setStanding p l r).trace = s.trace := (rfl)

@[simp] theorem supervisor_setStanding (p : Port) (l : LockId) (r : StandingRecord) :
    (s.setStanding p l r).supervisor = s.supervisor := (rfl)

@[simp] theorem lineActive_setStanding (p : Port) (l : LockId) (r : StandingRecord) :
    (s.setStanding p l r).lineActive = s.lineActive := (rfl)

@[simp] theorem isOpen_setStanding (p : Port) (l : LockId) (r : StandingRecord) (q : Port) :
    (s.setStanding p l r).isOpen q = s.isOpen q := (rfl)

@[simp] theorem lock_setCount (p : Port) (c : PortCounts) (k : LockId) :
    (s.setCount p c).lock k = s.lock k := (rfl)

@[simp] theorem standing_setCount (p : Port) (c : PortCounts) (q : Port) (k : LockId) :
    (s.setCount p c).standing q k = s.standing q k := (rfl)

@[simp] theorem session_setCount (p : Port) (c : PortCounts) (q : Port) :
    (s.setCount p c).session q = s.session q := (rfl)

@[simp] theorem link_setCount (p : Port) (c : PortCounts) (q : Port) :
    (s.setCount p c).link q = s.link q := (rfl)

@[simp] theorem pending_setCount (p : Port) (c : PortCounts) :
    (s.setCount p c).pending = s.pending := (rfl)

@[simp] theorem resetAsserted_setCount (p : Port) (c : PortCounts) :
    (s.setCount p c).resetAsserted = s.resetAsserted := (rfl)

@[simp] theorem baud_setCount (p : Port) (c : PortCounts) :
    (s.setCount p c).baud = s.baud := (rfl)

@[simp] theorem supsel_setCount (p : Port) (c : PortCounts) :
    (s.setCount p c).supsel = s.supsel := (rfl)

@[simp] theorem restartCount_setCount (p : Port) (c : PortCounts) :
    (s.setCount p c).restartCount = s.restartCount := (rfl)

@[simp] theorem restarting_setCount (p : Port) (c : PortCounts) :
    (s.setCount p c).restarting = s.restarting := (rfl)

@[simp] theorem clock_setCount (p : Port) (c : PortCounts) :
    (s.setCount p c).clock = s.clock := (rfl)

@[simp] theorem poolInUse_setCount (p : Port) (c : PortCounts) :
    (s.setCount p c).poolInUse = s.poolInUse := (rfl)

@[simp] theorem trace_setCount (p : Port) (c : PortCounts) :
    (s.setCount p c).trace = s.trace := (rfl)

@[simp] theorem supervisor_setCount (p : Port) (c : PortCounts) :
    (s.setCount p c).supervisor = s.supervisor := (rfl)

@[simp] theorem lineActive_setCount (p : Port) (c : PortCounts) :
    (s.setCount p c).lineActive = s.lineActive := (rfl)

@[simp] theorem isOpen_setCount (p : Port) (c : PortCounts) (q : Port) :
    (s.setCount p c).isOpen q = s.isOpen q := (rfl)

@[simp] theorem lock_setSession (p : Port) (x : Session) (k : LockId) :
    (s.setSession p x).lock k = s.lock k := (rfl)

@[simp] theorem standing_setSession (p : Port) (x : Session) (q : Port) (k : LockId) :
    (s.setSession p x).standing q k = s.standing q k := (rfl)

@[simp] theorem count_setSession (p : Port) (x : Session) (q : Port) :
    (s.setSession p x).count q = s.count q := (rfl)

@[simp] theorem link_setSession (p : Port) (x : Session) (q : Port) :
    (s.setSession p x).link q = s.link q := (rfl)

@[simp] theorem pending_setSession (p : Port) (x : Session) :
    (s.setSession p x).pending = s.pending := (rfl)

@[simp] theorem resetAsserted_setSession (p : Port) (x : Session) :
    (s.setSession p x).resetAsserted = s.resetAsserted := (rfl)

@[simp] theorem baud_setSession (p : Port) (x : Session) :
    (s.setSession p x).baud = s.baud := (rfl)

@[simp] theorem supsel_setSession (p : Port) (x : Session) :
    (s.setSession p x).supsel = s.supsel := (rfl)

@[simp] theorem restartCount_setSession (p : Port) (x : Session) :
    (s.setSession p x).restartCount = s.restartCount := (rfl)

@[simp] theorem restarting_setSession (p : Port) (x : Session) :
    (s.setSession p x).restarting = s.restarting := (rfl)

@[simp] theorem clock_setSession (p : Port) (x : Session) :
    (s.setSession p x).clock = s.clock := (rfl)

@[simp] theorem poolInUse_setSession (p : Port) (x : Session) :
    (s.setSession p x).poolInUse = s.poolInUse := (rfl)

@[simp] theorem trace_setSession (p : Port) (x : Session) :
    (s.setSession p x).trace = s.trace := (rfl)

@[simp] theorem supervisor_setSession (p : Port) (x : Session) :
    (s.setSession p x).supervisor = s.supervisor := (rfl)

@[simp] theorem lineActive_setSession (p : Port) (x : Session) :
    (s.setSession p x).lineActive = s.lineActive := (rfl)

@[simp] theorem lock_setLink (p : Port) (x : LinkPort) (k : LockId) :
    (s.setLink p x).lock k = s.lock k := (rfl)

@[simp] theorem standing_setLink (p : Port) (x : LinkPort) (q : Port) (k : LockId) :
    (s.setLink p x).standing q k = s.standing q k := (rfl)

@[simp] theorem count_setLink (p : Port) (x : LinkPort) (q : Port) :
    (s.setLink p x).count q = s.count q := (rfl)

@[simp] theorem session_setLink (p : Port) (x : LinkPort) (q : Port) :
    (s.setLink p x).session q = s.session q := (rfl)

@[simp] theorem pending_setLink (p : Port) (x : LinkPort) :
    (s.setLink p x).pending = s.pending := (rfl)

@[simp] theorem resetAsserted_setLink (p : Port) (x : LinkPort) :
    (s.setLink p x).resetAsserted = s.resetAsserted := (rfl)

@[simp] theorem baud_setLink (p : Port) (x : LinkPort) :
    (s.setLink p x).baud = s.baud := (rfl)

@[simp] theorem supsel_setLink (p : Port) (x : LinkPort) :
    (s.setLink p x).supsel = s.supsel := (rfl)

@[simp] theorem restartCount_setLink (p : Port) (x : LinkPort) :
    (s.setLink p x).restartCount = s.restartCount := (rfl)

@[simp] theorem restarting_setLink (p : Port) (x : LinkPort) :
    (s.setLink p x).restarting = s.restarting := (rfl)

@[simp] theorem clock_setLink (p : Port) (x : LinkPort) :
    (s.setLink p x).clock = s.clock := (rfl)

@[simp] theorem poolInUse_setLink (p : Port) (x : LinkPort) :
    (s.setLink p x).poolInUse = s.poolInUse := (rfl)

@[simp] theorem trace_setLink (p : Port) (x : LinkPort) :
    (s.setLink p x).trace = s.trace := (rfl)

@[simp] theorem supervisor_setLink (p : Port) (x : LinkPort) :
    (s.setLink p x).supervisor = s.supervisor := (rfl)

@[simp] theorem lineActive_setLink (p : Port) (x : LinkPort) :
    (s.setLink p x).lineActive = s.lineActive := (rfl)

@[simp] theorem isOpen_setLink (p : Port) (x : LinkPort) (q : Port) :
    (s.setLink p x).isOpen q = s.isOpen q := (rfl)

@[simp] theorem lock_setTrace (t : TraceUnit) (k : LockId) :
    (s.setTrace t).lock k = s.lock k := (rfl)

@[simp] theorem standing_setTrace (t : TraceUnit) (q : Port) (k : LockId) :
    (s.setTrace t).standing q k = s.standing q k := (rfl)

@[simp] theorem count_setTrace (t : TraceUnit) (q : Port) :
    (s.setTrace t).count q = s.count q := (rfl)

@[simp] theorem session_setTrace (t : TraceUnit) (q : Port) :
    (s.setTrace t).session q = s.session q := (rfl)

@[simp] theorem link_setTrace (t : TraceUnit) (q : Port) :
    (s.setTrace t).link q = s.link q := (rfl)

@[simp] theorem pending_setTrace (t : TraceUnit) :
    (s.setTrace t).pending = s.pending := (rfl)

@[simp] theorem resetAsserted_setTrace (t : TraceUnit) :
    (s.setTrace t).resetAsserted = s.resetAsserted := (rfl)

@[simp] theorem baud_setTrace (t : TraceUnit) :
    (s.setTrace t).baud = s.baud := (rfl)

@[simp] theorem supsel_setTrace (t : TraceUnit) :
    (s.setTrace t).supsel = s.supsel := (rfl)

@[simp] theorem restartCount_setTrace (t : TraceUnit) :
    (s.setTrace t).restartCount = s.restartCount := (rfl)

@[simp] theorem restarting_setTrace (t : TraceUnit) :
    (s.setTrace t).restarting = s.restarting := (rfl)

@[simp] theorem clock_setTrace (t : TraceUnit) :
    (s.setTrace t).clock = s.clock := (rfl)

@[simp] theorem poolInUse_setTrace (t : TraceUnit) :
    (s.setTrace t).poolInUse = s.poolInUse := (rfl)

@[simp] theorem supervisor_setTrace (t : TraceUnit) :
    (s.setTrace t).supervisor = s.supervisor := (rfl)

@[simp] theorem lineActive_setTrace (t : TraceUnit) :
    (s.setTrace t).lineActive = s.lineActive := (rfl)

@[simp] theorem isOpen_setTrace (t : TraceUnit) (q : Port) :
    (s.setTrace t).isOpen q = s.isOpen q := (rfl)

@[simp] theorem lock_setPool (n : Nat) (k : LockId) :
    (s.setPool n).lock k = s.lock k := (rfl)

@[simp] theorem standing_setPool (n : Nat) (q : Port) (k : LockId) :
    (s.setPool n).standing q k = s.standing q k := (rfl)

@[simp] theorem count_setPool (n : Nat) (q : Port) :
    (s.setPool n).count q = s.count q := (rfl)

@[simp] theorem session_setPool (n : Nat) (q : Port) :
    (s.setPool n).session q = s.session q := (rfl)

@[simp] theorem link_setPool (n : Nat) (q : Port) :
    (s.setPool n).link q = s.link q := (rfl)

@[simp] theorem pending_setPool (n : Nat) :
    (s.setPool n).pending = s.pending := (rfl)

@[simp] theorem resetAsserted_setPool (n : Nat) :
    (s.setPool n).resetAsserted = s.resetAsserted := (rfl)

@[simp] theorem baud_setPool (n : Nat) :
    (s.setPool n).baud = s.baud := (rfl)

@[simp] theorem supsel_setPool (n : Nat) :
    (s.setPool n).supsel = s.supsel := (rfl)

@[simp] theorem restartCount_setPool (n : Nat) :
    (s.setPool n).restartCount = s.restartCount := (rfl)

@[simp] theorem restarting_setPool (n : Nat) :
    (s.setPool n).restarting = s.restarting := (rfl)

@[simp] theorem clock_setPool (n : Nat) :
    (s.setPool n).clock = s.clock := (rfl)

@[simp] theorem trace_setPool (n : Nat) :
    (s.setPool n).trace = s.trace := (rfl)

@[simp] theorem supervisor_setPool (n : Nat) :
    (s.setPool n).supervisor = s.supervisor := (rfl)

@[simp] theorem lineActive_setPool (n : Nat) :
    (s.setPool n).lineActive = s.lineActive := (rfl)

@[simp] theorem isOpen_setPool (n : Nat) (q : Port) :
    (s.setPool n).isOpen q = s.isOpen q := (rfl)

/-- A session is OPEN after an update of a session as the new entry says. -/
theorem isOpen_setSession (p : Port) (x : Session) (q : Port) :
    (s.setSession p x).isOpen q = if p = q then x.state == .opened else s.isOpen q := by
  simp only [State.isOpen, session_setSession]
  split <;> rfl

end Sys2Proof.Machine
end

