-- ==== Sys2Proof/Laws/Flags.lean ====
section
/-! SUPPORT. What the operations of Flags.lean can do: notice lists, reports to the trace unit, line
faults. Reports change the trace unit and, at a stop, the supervisor's notice list; nothing else. -/

namespace Sys2Proof.Machine

/-- Two session entries that differ at most in their notice lists. -/
def Session.SameButNotices (x y : Session) : Prop := y = { x with notices := y.notices }

theorem Session.SameButNotices.refl (x : Session) : x.SameButNotices x := rfl

theorem Session.SameButNotices.trans {x y z : Session} (h : x.SameButNotices y)
    (k : y.SameButNotices z) : x.SameButNotices z := by
  unfold SameButNotices at *
  rw [k, h]

/-! ### Notice lists -/

@[simp] theorem mem_appendSubject (x y : Subject) (list : List Subject) :
    y ∈ appendSubject x list ↔ y ∈ list ∨ y = x := by
  unfold appendSubject
  split
  · constructor
    · exact Or.inl
    · rintro (h | rfl) <;> assumption
  · simp

theorem nodup_appendSubject (x : Subject) {list : List Subject} (h : list.Nodup) :
    (appendSubject x list).Nodup := by
  unfold appendSubject
  split
  · exact h
  · simp [List.nodup_append, h]
    intro a ha hax
    exact absurd (hax ▸ ha) ‹_›

@[simp] theorem mem_removeSubject (x y : Subject) (list : List Subject) :
    y ∈ removeSubject x list ↔ y ∈ list ∧ y ≠ x := by
  simp [removeSubject]

theorem nodup_removeSubject (x : Subject) {list : List Subject} (h : list.Nodup) :
    (removeSubject x list).Nodup := h.filter _

variable (s : State)

theorem session_notify (p : Port) (x : Subject) (q : Port) :
    (s.notify p x).session q =
      if p = q then { s.session q with notices := appendSubject x (s.session q).notices }
      else s.session q := by
  unfold State.notify
  rw [session_setSession]
  split
  · subst_vars; rfl
  · rfl

theorem session_unnotify (p : Port) (x : Subject) (q : Port) :
    (s.unnotify p x).session q =
      if p = q then { s.session q with notices := removeSubject x (s.session q).notices }
      else s.session q := by
  unfold State.unnotify
  rw [session_setSession]
  split
  · subst_vars; rfl
  · rfl

@[simp] theorem trace_notify (p : Port) (x : Subject) : (s.notify p x).trace = s.trace := rfl

@[simp] theorem trace_unnotify (p : Port) (x : Subject) : (s.unnotify p x).trace = s.trace := rfl

@[simp] theorem isOpen_notify (p : Port) (x : Subject) (q : Port) :
    (s.notify p x).isOpen q = s.isOpen q := by
  simp only [State.isOpen, session_notify]
  split <;> rfl

@[simp] theorem isOpen_unnotify (p : Port) (x : Subject) (q : Port) :
    (s.unnotify p x).isOpen q = s.isOpen q := by
  simp only [State.isOpen, session_unnotify]
  split <;> rfl

@[simp] theorem lock_notify (p : Port) (x : Subject) (k : LockId) :
    (s.notify p x).lock k = s.lock k := by exact (rfl)

@[simp] theorem standing_notify (p : Port) (x : Subject) (q : Port) (k : LockId) :
    (s.notify p x).standing q k = s.standing q k := by exact (rfl)

@[simp] theorem count_notify (p : Port) (x : Subject) (q : Port) :
    (s.notify p x).count q = s.count q := by exact (rfl)

@[simp] theorem link_notify (p : Port) (x : Subject) (q : Port) :
    (s.notify p x).link q = s.link q := by exact (rfl)

@[simp] theorem pending_notify (p : Port) (x : Subject) :
    (s.notify p x).pending = s.pending := by exact (rfl)

@[simp] theorem resetAsserted_notify (p : Port) (x : Subject) :
    (s.notify p x).resetAsserted = s.resetAsserted := by exact (rfl)

@[simp] theorem baud_notify (p : Port) (x : Subject) :
    (s.notify p x).baud = s.baud := by exact (rfl)

@[simp] theorem supsel_notify (p : Port) (x : Subject) :
    (s.notify p x).supsel = s.supsel := by exact (rfl)

@[simp] theorem restartCount_notify (p : Port) (x : Subject) :
    (s.notify p x).restartCount = s.restartCount := by exact (rfl)

@[simp] theorem restarting_notify (p : Port) (x : Subject) :
    (s.notify p x).restarting = s.restarting := by exact (rfl)

@[simp] theorem clock_notify (p : Port) (x : Subject) :
    (s.notify p x).clock = s.clock := by exact (rfl)

@[simp] theorem poolInUse_notify (p : Port) (x : Subject) :
    (s.notify p x).poolInUse = s.poolInUse := by exact (rfl)

@[simp] theorem supervisor_notify (p : Port) (x : Subject) :
    (s.notify p x).supervisor = s.supervisor := by exact (rfl)

@[simp] theorem lock_unnotify (p : Port) (x : Subject) (k : LockId) :
    (s.unnotify p x).lock k = s.lock k := by exact (rfl)

@[simp] theorem standing_unnotify (p : Port) (x : Subject) (q : Port) (k : LockId) :
    (s.unnotify p x).standing q k = s.standing q k := by exact (rfl)

@[simp] theorem count_unnotify (p : Port) (x : Subject) (q : Port) :
    (s.unnotify p x).count q = s.count q := by exact (rfl)

@[simp] theorem link_unnotify (p : Port) (x : Subject) (q : Port) :
    (s.unnotify p x).link q = s.link q := by exact (rfl)

@[simp] theorem pending_unnotify (p : Port) (x : Subject) :
    (s.unnotify p x).pending = s.pending := by exact (rfl)

@[simp] theorem resetAsserted_unnotify (p : Port) (x : Subject) :
    (s.unnotify p x).resetAsserted = s.resetAsserted := by exact (rfl)

@[simp] theorem baud_unnotify (p : Port) (x : Subject) :
    (s.unnotify p x).baud = s.baud := by exact (rfl)

@[simp] theorem supsel_unnotify (p : Port) (x : Subject) :
    (s.unnotify p x).supsel = s.supsel := by exact (rfl)

@[simp] theorem restartCount_unnotify (p : Port) (x : Subject) :
    (s.unnotify p x).restartCount = s.restartCount := by exact (rfl)

@[simp] theorem restarting_unnotify (p : Port) (x : Subject) :
    (s.unnotify p x).restarting = s.restarting := by exact (rfl)

@[simp] theorem clock_unnotify (p : Port) (x : Subject) :
    (s.unnotify p x).clock = s.clock := by exact (rfl)

@[simp] theorem poolInUse_unnotify (p : Port) (x : Subject) :
    (s.unnotify p x).poolInUse = s.poolInUse := by exact (rfl)

@[simp] theorem supervisor_unnotify (p : Port) (x : Subject) :
    (s.unnotify p x).supervisor = s.supervisor := by exact (rfl)

theorem sameButNotices_notify (p : Port) (x : Subject) (q : Port) :
    (s.session q).SameButNotices ((s.notify p x).session q) := by
  rw [session_notify]
  split <;> rfl

theorem sameButNotices_unnotify (p : Port) (x : Subject) (q : Port) :
    (s.session q).SameButNotices ((s.unnotify p x).session q) := by
  rw [session_unnotify]
  split <;> rfl

/-! ### Reports -/

/-- A report takes a RUNNING capture to STOPPED (R140, R141). -/
def State.stopsOn (r : Report) : Prop :=
  s.trace.state = .running ∧ (s.trace.hear r).state = .stopped

theorem report_cases (r : Report) :
    s.report r = s.setTrace (s.trace.hear r) ∨
      ∃ q, s.stopsOn r ∧ s.supervisor = some q ∧ s.isOpen q = true ∧
        s.report r = (s.setTrace (s.trace.hear r)).notify q .trace := by
  unfold State.report
  dsimp only
  by_cases h : s.trace.state = .running ∧ (s.trace.hear r).state = .stopped
  · rw [if_pos h]
    unfold State.notifyTrace
    simp only [supervisor_setTrace, isOpen_setTrace]
    split
    · rename_i q hq
      by_cases ho : s.isOpen q = true
      · rw [if_pos ho]
        exact Or.inr ⟨q, h, hq, ho, rfl⟩
      · rw [if_neg ho]
        exact Or.inl rfl
    · exact Or.inl rfl
  · rw [if_neg h]
    exact Or.inl rfl

@[simp] theorem trace_report (r : Report) : (s.report r).trace = s.trace.hear r := by
  rcases report_cases s r with h | ⟨q, -, -, -, h⟩ <;> simp [h]

@[simp] theorem lock_report (r : Report) (k : LockId) :
    (s.report r).lock k = s.lock k := by rcases report_cases s r with h | ⟨q, -, -, -, h⟩ <;> simp [h]

@[simp] theorem standing_report (r : Report) (q : Port) (k : LockId) :
    (s.report r).standing q k = s.standing q k := by rcases report_cases s r with h | ⟨q, -, -, -, h⟩ <;> simp [h]

@[simp] theorem count_report (r : Report) (q : Port) :
    (s.report r).count q = s.count q := by rcases report_cases s r with h | ⟨q, -, -, -, h⟩ <;> simp [h]

@[simp] theorem link_report (r : Report) (q : Port) :
    (s.report r).link q = s.link q := by rcases report_cases s r with h | ⟨q, -, -, -, h⟩ <;> simp [h]

@[simp] theorem pending_report (r : Report) :
    (s.report r).pending = s.pending := by rcases report_cases s r with h | ⟨q, -, -, -, h⟩ <;> simp [h]

@[simp] theorem resetAsserted_report (r : Report) :
    (s.report r).resetAsserted = s.resetAsserted := by rcases report_cases s r with h | ⟨q, -, -, -, h⟩ <;> simp [h]

@[simp] theorem baud_report (r : Report) :
    (s.report r).baud = s.baud := by rcases report_cases s r with h | ⟨q, -, -, -, h⟩ <;> simp [h]

@[simp] theorem supsel_report (r : Report) :
    (s.report r).supsel = s.supsel := by rcases report_cases s r with h | ⟨q, -, -, -, h⟩ <;> simp [h]

@[simp] theorem restartCount_report (r : Report) :
    (s.report r).restartCount = s.restartCount := by rcases report_cases s r with h | ⟨q, -, -, -, h⟩ <;> simp [h]

@[simp] theorem restarting_report (r : Report) :
    (s.report r).restarting = s.restarting := by rcases report_cases s r with h | ⟨q, -, -, -, h⟩ <;> simp [h]

@[simp] theorem clock_report (r : Report) :
    (s.report r).clock = s.clock := by rcases report_cases s r with h | ⟨q, -, -, -, h⟩ <;> simp [h]

@[simp] theorem poolInUse_report (r : Report) :
    (s.report r).poolInUse = s.poolInUse := by rcases report_cases s r with h | ⟨q, -, -, -, h⟩ <;> simp [h]

@[simp] theorem supervisor_report (r : Report) :
    (s.report r).supervisor = s.supervisor := by rcases report_cases s r with h | ⟨q, -, -, -, h⟩ <;> simp [h]

@[simp] theorem isOpen_report (r : Report) (q : Port) :
    (s.report r).isOpen q = s.isOpen q := by rcases report_cases s r with h | ⟨q, -, -, -, h⟩ <;> simp [h]

theorem sameButNotices_report (r : Report) (q : Port) :
    (s.session q).SameButNotices ((s.report r).session q) := by
  rcases report_cases s r with h | ⟨p, -, -, -, h⟩
  · simp only [h, session_setTrace]
    exact Session.SameButNotices.refl _
  · rw [h]
    exact sameButNotices_notify _ _ _ _

/-! ### The capture -/

theorem length_markTail (b : List TraceEntry) : (markTail b).length = b.length := by
  induction b with
  | nil => rfl
  | cons e rest ih =>
    cases rest with
    | nil => rfl
    | cons f more => simpa [markTail] using ih

theorem length_record_le (t : TraceUnit) (r : Report) (h : t.buffer.length ≤ traceSize) :
    (t.record r).buffer.length ≤ traceSize := by
  unfold TraceUnit.record TraceUnit.hasRoom
  split
  · simp_all [TraceUnit.store]
  · simpa [TraceUnit.lose, length_markTail] using h

@[simp] theorem state_record (t : TraceUnit) (r : Report) : (t.record r).state = t.state := by
  unfold TraceUnit.record
  split <;> rfl

@[simp] theorem stopCause_record (t : TraceUnit) (r : Report) :
    (t.record r).stopCause = t.stopCause := by
  unfold TraceUnit.record
  split <;> rfl

@[simp] theorem setup_record (t : TraceUnit) (r : Report) : (t.record r).setup = t.setup := by
  unfold TraceUnit.record
  split <;> rfl

@[simp] theorem timer_record (t : TraceUnit) (r : Report) : (t.record r).timer = t.timer := by
  unfold TraceUnit.record
  split <;> rfl

@[simp] theorem setup_hear (t : TraceUnit) (r : Report) : (t.hear r).setup = t.setup := by
  unfold TraceUnit.hear
  repeat' split
  all_goals first | rfl | simp [TraceUnit.stop]

/-- A capture that is not ARMED or RUNNING takes no report (R138). -/
theorem hear_of_idle {t : TraceUnit} (r : Report) (h : t.state = .off ∨ t.state = .stopped) :
    t.hear r = t := by
  unfold TraceUnit.hear
  rcases h with h | h <;> simp [h]

/-- A report keeps the laws of the trace unit. -/
theorem sound_hear {t : TraceUnit} (r : Report) (h : t.Sound) : (t.hear r).Sound := by
  obtain ⟨h1, h2, h3, h4⟩ := h
  unfold TraceUnit.hear
  split
  · exact ⟨h1, h2, h3, h4⟩
  · exact ⟨h1, h2, h3, h4⟩
  · rename_i hs
    split
    · refine ⟨length_record_le _ _ h1, by simp, ?_, ?_⟩ <;> simp_all
    · exact ⟨h1, h2, h3, h4⟩
  · rename_i hs
    split
    · refine ⟨length_record_le _ _ h1, by simp [TraceUnit.stop], ?_, ?_⟩ <;>
        simp_all [TraceUnit.stop]
    · split
      · split
        · rename_i hr
          refine ⟨?_, ?_, ?_, ?_⟩ <;> simp_all [TraceUnit.store, TraceUnit.hasRoom]
        · split <;> refine ⟨?_, ?_, ?_, ?_⟩ <;>
            simp_all [TraceUnit.stop, TraceUnit.lose, length_markTail]
      · exact ⟨h1, h2, h3, h4⟩

/-- A stop by a report has cause STOP_CLASS or FULL (R140, R141, R145). -/
theorem stopCause_of_stopsOn {r : Report} (h : s.stopsOn r) :
    (s.trace.hear r).stopCause = .stopClass ∨ (s.trace.hear r).stopCause = .full := by
  obtain ⟨h1, h2⟩ := h
  revert h2
  unfold TraceUnit.hear
  simp only [h1]
  split
  · intro _; exact Or.inl rfl
  · split
    · split
      · simp [TraceUnit.store, h1]
      · split
        · intro _; exact Or.inr rfl
        · simp [TraceUnit.lose, h1]
    · simp [h1]

/-- A stopped capture stays as it is under reports. -/
theorem hear_of_stopped {t : TraceUnit} (r : Report) (h : t.state = .stopped) : t.hear r = t :=
  hear_of_idle r (Or.inr h)

/-! ### Line faults -/

/-- A line fault: the record takes it, the FAULT subject joins at a latch in an OPEN session, and
LINK_FAULT is reported (R152, R158). -/
theorem link_linkFault (p : Port) (c : FaultCode) (q : Port) :
    (s.linkFault p c).link q =
      if p = q then { s.link q with fault := (s.link q).fault.add c s.clock } else s.link q := by
  unfold State.linkFault
  simp only [link_report]
  split <;> simp only [link_notify, link_setLink] <;> split <;> simp_all

@[simp] theorem lock_linkFault (p : Port) (c : FaultCode) (k : LockId) :
    (s.linkFault p c).lock k = s.lock k := by unfold State.linkFault; dsimp only; split <;> simp

@[simp] theorem standing_linkFault (p : Port) (c : FaultCode) (q : Port) (k : LockId) :
    (s.linkFault p c).standing q k = s.standing q k := by unfold State.linkFault; dsimp only; split <;> simp

@[simp] theorem count_linkFault (p : Port) (c : FaultCode) (q : Port) :
    (s.linkFault p c).count q = s.count q := by unfold State.linkFault; dsimp only; split <;> simp

@[simp] theorem pending_linkFault (p : Port) (c : FaultCode) :
    (s.linkFault p c).pending = s.pending := by unfold State.linkFault; dsimp only; split <;> simp

@[simp] theorem resetAsserted_linkFault (p : Port) (c : FaultCode) :
    (s.linkFault p c).resetAsserted = s.resetAsserted := by unfold State.linkFault; dsimp only; split <;> simp

@[simp] theorem baud_linkFault (p : Port) (c : FaultCode) :
    (s.linkFault p c).baud = s.baud := by unfold State.linkFault; dsimp only; split <;> simp

@[simp] theorem supsel_linkFault (p : Port) (c : FaultCode) :
    (s.linkFault p c).supsel = s.supsel := by unfold State.linkFault; dsimp only; split <;> simp

@[simp] theorem restartCount_linkFault (p : Port) (c : FaultCode) :
    (s.linkFault p c).restartCount = s.restartCount := by unfold State.linkFault; dsimp only; split <;> simp

@[simp] theorem restarting_linkFault (p : Port) (c : FaultCode) :
    (s.linkFault p c).restarting = s.restarting := by unfold State.linkFault; dsimp only; split <;> simp

@[simp] theorem clock_linkFault (p : Port) (c : FaultCode) :
    (s.linkFault p c).clock = s.clock := by unfold State.linkFault; dsimp only; split <;> simp

@[simp] theorem poolInUse_linkFault (p : Port) (c : FaultCode) :
    (s.linkFault p c).poolInUse = s.poolInUse := by unfold State.linkFault; dsimp only; split <;> simp

@[simp] theorem supervisor_linkFault (p : Port) (c : FaultCode) :
    (s.linkFault p c).supervisor = s.supervisor := by unfold State.linkFault; dsimp only; split <;> simp

@[simp] theorem isOpen_linkFault (p : Port) (c : FaultCode) (q : Port) :
    (s.linkFault p c).isOpen q = s.isOpen q := by unfold State.linkFault; dsimp only; split <;> simp

theorem sameButNotices_linkFault (p : Port) (c : FaultCode) (q : Port) :
    (s.session q).SameButNotices ((s.linkFault p c).session q) := by
  unfold State.linkFault
  dsimp only
  split
  · exact (sameButNotices_notify _ _ _ _).trans (sameButNotices_report _ _ _)
  · exact sameButNotices_report _ _ _

@[simp] theorem trace_linkFault (p : Port) (c : FaultCode) :
    (s.linkFault p c).trace = s.trace.hear { cls := .linkFault, port := p, detail := c.code } := by
  unfold State.linkFault
  dsimp only
  split <;> simp

end Sys2Proof.Machine
end

