-- ==== Sys2Proof/Laws/Links.lean ====
section
/-! SUPPORT. What the window and reply operations of Operands.lean can do, and the steps of a request:
handed on, refused by a check, or taken by its owner. -/

namespace Sys2Proof.Machine

/-! ### Slots -/

/-- A slot found in a condition: the window around it, and the window with it advanced. -/
theorem advanceSlot_of_find {a b : SlotCond} {w : List Slot} {c : Slot}
    (h : w.find? (fun x => x.cond == a) = some c) :
    ∃ pre post, w = pre ++ c :: post ∧ c.cond = a ∧ (∀ x ∈ pre, x.cond ≠ a) ∧
      advanceSlot a b w = pre ++ { c with cond := b } :: post := by
  induction w with
  | nil => simp at h
  | cons d rest ih =>
    by_cases hd : d.cond = a
    · have : d = c := by simpa [hd] using h
      subst this
      exact ⟨[], rest, rfl, hd, by simp, by simp [advanceSlot, hd]⟩
    · have hf : rest.find? (fun x => x.cond == a) = some c := by simpa [hd] using h
      obtain ⟨pre, post, h1, h2, h3, h4⟩ := ih hf
      refine ⟨d :: pre, post, by simp [h1], h2, ?_, by simp [advanceSlot, hd, h4]⟩
      intro x hx
      rcases List.mem_cons.mp hx with rfl | hx
      · exact hd
      · exact h3 x hx

/-- A window without a slot in the condition stays as it is. -/
theorem advanceSlot_of_none {a b : SlotCond} {w : List Slot}
    (h : w.find? (fun x => x.cond == a) = none) : advanceSlot a b w = w := by
  induction w with
  | nil => rfl
  | cons d rest ih =>
    have hd : d.cond ≠ a := by
      intro e; simp [e] at h
    simp only [advanceSlot, hd, if_false]
    rw [ih (by simpa [hd] using h)]

@[simp] theorem length_advanceSlot (a b : SlotCond) (w : List Slot) :
    (advanceSlot a b w).length = w.length := by
  induction w with
  | nil => rfl
  | cons d rest ih =>
    simp only [advanceSlot]
    split <;> simp [ih]

/-- Handing on and answering bring the oldest waiting request to answered, when none was handed on. -/
theorem advanceSlot_answer {w : List Slot} (h : w.find? (fun x => x.cond == .handedOn) = none) :
    advanceSlot .handedOn .answered (advanceSlot .waiting .handedOn w) =
      advanceSlot .waiting .answered w := by
  induction w with
  | nil => rfl
  | cons d rest ih =>
    have hd : d.cond ≠ .handedOn := by
      intro e; simp [e] at h
    have hr : rest.find? (fun x => x.cond == .handedOn) = none := by simpa [hd] using h
    by_cases hw : d.cond = .waiting
    · simp [advanceSlot, hw]
    · simp [advanceSlot, hw, hd, ih hr]

/-! ### The transmitter -/

@[simp] theorem outgoing_kick (x : LinkPort) : x.kick.outgoing = x.outgoing := by
  unfold LinkPort.kick
  split
  · rename_i h1 h2
    simp [LinkPort.outgoing, h1, h2]
  · rfl

@[simp] theorem unsent_kick (x : LinkPort) : x.kick.unsent = x.unsent := by
  unfold LinkPort.kick
  split
  · rename_i h1 h2
    simp [LinkPort.unsent, h1, h2]
  · rfl

@[simp] theorem window_kick (x : LinkPort) : x.kick.window = x.window := by
  unfold LinkPort.kick; split <;> rfl

@[simp] theorem gapDeadline_kick (x : LinkPort) : x.kick.gapDeadline = x.gapDeadline := by
  unfold LinkPort.kick; split <;> rfl

@[simp] theorem receiver_kick (x : LinkPort) : x.kick.receiver = x.receiver := by
  unfold LinkPort.kick; split <;> rfl

@[simp] theorem inBreak_kick (x : LinkPort) : x.kick.inBreak = x.inBreak := by
  unfold LinkPort.kick; split <;> rfl

@[simp] theorem fault_kick (x : LinkPort) : x.kick.fault = x.fault := by
  unfold LinkPort.kick; split <;> rfl

/-- After the transmitter has chosen, no reply waits at a free one (R157). -/
theorem kick_settled (x : LinkPort) (h : x.kick.transmitter = .free) : x.kick.replies = [] := by
  unfold LinkPort.kick at *
  split at h
  · simp at h
  · rename_i hn
    cases hr : x.replies with
    | nil => rfl
    | cons r rest => exact (hn _ _ h hr).elim

variable (s : State)

/-! ### Replies -/

theorem link_answer (p : Port) (b : Body) (q : Port) :
    (s.answer p b).link q = if p = q then
      { s.link p with window := advanceSlot .handedOn .answered (s.link p).window,
                      replies := (s.link p).replies ++ [b] : LinkPort }.kick
      else s.link q := by
  unfold State.answer
  exact link_setLink _ _ _ _

@[simp] theorem lock_answer (p : Port) (b : Body) (k : LockId) :
    (s.answer p b).lock k = s.lock k := by exact (rfl)

@[simp] theorem standing_answer (p : Port) (b : Body) (q : Port) (k : LockId) :
    (s.answer p b).standing q k = s.standing q k := by exact (rfl)

@[simp] theorem count_answer (p : Port) (b : Body) (q : Port) :
    (s.answer p b).count q = s.count q := by exact (rfl)

@[simp] theorem pending_answer (p : Port) (b : Body) :
    (s.answer p b).pending = s.pending := by exact (rfl)

@[simp] theorem resetAsserted_answer (p : Port) (b : Body) :
    (s.answer p b).resetAsserted = s.resetAsserted := by exact (rfl)

@[simp] theorem baud_answer (p : Port) (b : Body) :
    (s.answer p b).baud = s.baud := by exact (rfl)

@[simp] theorem supsel_answer (p : Port) (b : Body) :
    (s.answer p b).supsel = s.supsel := by exact (rfl)

@[simp] theorem restartCount_answer (p : Port) (b : Body) :
    (s.answer p b).restartCount = s.restartCount := by exact (rfl)

@[simp] theorem restarting_answer (p : Port) (b : Body) :
    (s.answer p b).restarting = s.restarting := by exact (rfl)

@[simp] theorem clock_answer (p : Port) (b : Body) :
    (s.answer p b).clock = s.clock := by exact (rfl)

@[simp] theorem poolInUse_answer (p : Port) (b : Body) :
    (s.answer p b).poolInUse = s.poolInUse := by exact (rfl)

@[simp] theorem supervisor_answer (p : Port) (b : Body) :
    (s.answer p b).supervisor = s.supervisor := by exact (rfl)

@[simp] theorem isOpen_answer (p : Port) (b : Body) (q : Port) :
    (s.answer p b).isOpen q = s.isOpen q := by exact (rfl)

@[simp] theorem session_answer (p : Port) (b : Body) (q : Port) :
    (s.answer p b).session q = s.session q := by exact (rfl)

@[simp] theorem trace_answer (p : Port) (b : Body) :
    (s.answer p b).trace = s.trace := by exact (rfl)

/-- A reply is formed only to a request handed on; then it is that of `answer`. -/
theorem reply_cases (p : Port) (st : Status) (res : List Byte) :
    ((s.link p).handedOn = none ∧ s.reply p st res = s) ∨
      ∃ b, (s.link p).handedOn = some b ∧ s.reply p st res = s.answer p (replyTo b st res) := by
  unfold State.reply
  cases h : (s.link p).handedOn with
  | none => exact Or.inl ⟨rfl, rfl⟩
  | some b => exact Or.inr ⟨b, rfl, rfl⟩

@[simp] theorem lock_reply (p : Port) (st : Status) (res : List Byte) (k : LockId) :
    (s.reply p st res).lock k = s.lock k := by rcases reply_cases s p st res with ⟨-, h⟩ | ⟨b, -, h⟩ <;> simp [h]

@[simp] theorem standing_reply (p : Port) (st : Status) (res : List Byte) (q : Port) (k : LockId) :
    (s.reply p st res).standing q k = s.standing q k := by rcases reply_cases s p st res with ⟨-, h⟩ | ⟨b, -, h⟩ <;> simp [h]

@[simp] theorem count_reply (p : Port) (st : Status) (res : List Byte) (q : Port) :
    (s.reply p st res).count q = s.count q := by rcases reply_cases s p st res with ⟨-, h⟩ | ⟨b, -, h⟩ <;> simp [h]

@[simp] theorem pending_reply (p : Port) (st : Status) (res : List Byte) :
    (s.reply p st res).pending = s.pending := by rcases reply_cases s p st res with ⟨-, h⟩ | ⟨b, -, h⟩ <;> simp [h]

@[simp] theorem resetAsserted_reply (p : Port) (st : Status) (res : List Byte) :
    (s.reply p st res).resetAsserted = s.resetAsserted := by rcases reply_cases s p st res with ⟨-, h⟩ | ⟨b, -, h⟩ <;> simp [h]

@[simp] theorem baud_reply (p : Port) (st : Status) (res : List Byte) :
    (s.reply p st res).baud = s.baud := by rcases reply_cases s p st res with ⟨-, h⟩ | ⟨b, -, h⟩ <;> simp [h]

@[simp] theorem supsel_reply (p : Port) (st : Status) (res : List Byte) :
    (s.reply p st res).supsel = s.supsel := by rcases reply_cases s p st res with ⟨-, h⟩ | ⟨b, -, h⟩ <;> simp [h]

@[simp] theorem restartCount_reply (p : Port) (st : Status) (res : List Byte) :
    (s.reply p st res).restartCount = s.restartCount := by rcases reply_cases s p st res with ⟨-, h⟩ | ⟨b, -, h⟩ <;> simp [h]

@[simp] theorem restarting_reply (p : Port) (st : Status) (res : List Byte) :
    (s.reply p st res).restarting = s.restarting := by rcases reply_cases s p st res with ⟨-, h⟩ | ⟨b, -, h⟩ <;> simp [h]

@[simp] theorem clock_reply (p : Port) (st : Status) (res : List Byte) :
    (s.reply p st res).clock = s.clock := by rcases reply_cases s p st res with ⟨-, h⟩ | ⟨b, -, h⟩ <;> simp [h]

@[simp] theorem poolInUse_reply (p : Port) (st : Status) (res : List Byte) :
    (s.reply p st res).poolInUse = s.poolInUse := by rcases reply_cases s p st res with ⟨-, h⟩ | ⟨b, -, h⟩ <;> simp [h]

@[simp] theorem supervisor_reply (p : Port) (st : Status) (res : List Byte) :
    (s.reply p st res).supervisor = s.supervisor := by rcases reply_cases s p st res with ⟨-, h⟩ | ⟨b, -, h⟩ <;> simp [h]

@[simp] theorem isOpen_reply (p : Port) (st : Status) (res : List Byte) (q : Port) :
    (s.reply p st res).isOpen q = s.isOpen q := by rcases reply_cases s p st res with ⟨-, h⟩ | ⟨b, -, h⟩ <;> simp [h]

@[simp] theorem session_reply (p : Port) (st : Status) (res : List Byte) (q : Port) :
    (s.reply p st res).session q = s.session q := by rcases reply_cases s p st res with ⟨-, h⟩ | ⟨b, -, h⟩ <;> simp [h]

@[simp] theorem trace_reply (p : Port) (st : Status) (res : List Byte) :
    (s.reply p st res).trace = s.trace := by rcases reply_cases s p st res with ⟨-, h⟩ | ⟨b, -, h⟩ <;> simp [h]

theorem link_reply_ne {p q : Port} (st : Status) (res : List Byte) (h : p ≠ q) :
    (s.reply p st res).link q = s.link q := by
  rcases reply_cases s p st res with ⟨-, e⟩ | ⟨b, -, e⟩ <;> simp [e, link_answer, h]

@[simp] theorem lock_handOn (p : Port) (k : LockId) :
    (s.handOn p).lock k = s.lock k := by exact (rfl)

@[simp] theorem standing_handOn (p : Port) (q : Port) (k : LockId) :
    (s.handOn p).standing q k = s.standing q k := by exact (rfl)

@[simp] theorem count_handOn (p : Port) (q : Port) :
    (s.handOn p).count q = s.count q := by exact (rfl)

@[simp] theorem pending_handOn (p : Port) :
    (s.handOn p).pending = s.pending := by exact (rfl)

@[simp] theorem resetAsserted_handOn (p : Port) :
    (s.handOn p).resetAsserted = s.resetAsserted := by exact (rfl)

@[simp] theorem baud_handOn (p : Port) :
    (s.handOn p).baud = s.baud := by exact (rfl)

@[simp] theorem supsel_handOn (p : Port) :
    (s.handOn p).supsel = s.supsel := by exact (rfl)

@[simp] theorem restartCount_handOn (p : Port) :
    (s.handOn p).restartCount = s.restartCount := by exact (rfl)

@[simp] theorem restarting_handOn (p : Port) :
    (s.handOn p).restarting = s.restarting := by exact (rfl)

@[simp] theorem clock_handOn (p : Port) :
    (s.handOn p).clock = s.clock := by exact (rfl)

@[simp] theorem poolInUse_handOn (p : Port) :
    (s.handOn p).poolInUse = s.poolInUse := by exact (rfl)

@[simp] theorem supervisor_handOn (p : Port) :
    (s.handOn p).supervisor = s.supervisor := by exact (rfl)

@[simp] theorem isOpen_handOn (p : Port) (q : Port) :
    (s.handOn p).isOpen q = s.isOpen q := by exact (rfl)

@[simp] theorem session_handOn (p : Port) (q : Port) :
    (s.handOn p).session q = s.session q := by exact (rfl)

@[simp] theorem trace_handOn (p : Port) :
    (s.handOn p).trace = s.trace := by exact (rfl)

theorem link_handOn (p q : Port) :
    (s.handOn p).link q = if p = q then
      { s.link p with window := advanceSlot .waiting .handedOn (s.link p).window } else s.link q := by
  unfold State.handOn
  exact link_setLink _ _ _ _

@[simp] theorem lock_reportRefused (p : Port) (l : Option LockId) (st : Status) (k : LockId) :
    (s.reportRefused p l st).lock k = s.lock k := by unfold State.reportRefused; simp

@[simp] theorem standing_reportRefused (p : Port) (l : Option LockId) (st : Status) (q : Port) (k : LockId) :
    (s.reportRefused p l st).standing q k = s.standing q k := by unfold State.reportRefused; simp

@[simp] theorem count_reportRefused (p : Port) (l : Option LockId) (st : Status) (q : Port) :
    (s.reportRefused p l st).count q = s.count q := by unfold State.reportRefused; simp

@[simp] theorem link_reportRefused (p : Port) (l : Option LockId) (st : Status) (q : Port) :
    (s.reportRefused p l st).link q = s.link q := by unfold State.reportRefused; simp

@[simp] theorem pending_reportRefused (p : Port) (l : Option LockId) (st : Status) :
    (s.reportRefused p l st).pending = s.pending := by unfold State.reportRefused; simp

@[simp] theorem resetAsserted_reportRefused (p : Port) (l : Option LockId) (st : Status) :
    (s.reportRefused p l st).resetAsserted = s.resetAsserted := by unfold State.reportRefused; simp

@[simp] theorem baud_reportRefused (p : Port) (l : Option LockId) (st : Status) :
    (s.reportRefused p l st).baud = s.baud := by unfold State.reportRefused; simp

@[simp] theorem supsel_reportRefused (p : Port) (l : Option LockId) (st : Status) :
    (s.reportRefused p l st).supsel = s.supsel := by unfold State.reportRefused; simp

@[simp] theorem restartCount_reportRefused (p : Port) (l : Option LockId) (st : Status) :
    (s.reportRefused p l st).restartCount = s.restartCount := by unfold State.reportRefused; simp

@[simp] theorem restarting_reportRefused (p : Port) (l : Option LockId) (st : Status) :
    (s.reportRefused p l st).restarting = s.restarting := by unfold State.reportRefused; simp

@[simp] theorem clock_reportRefused (p : Port) (l : Option LockId) (st : Status) :
    (s.reportRefused p l st).clock = s.clock := by unfold State.reportRefused; simp

@[simp] theorem poolInUse_reportRefused (p : Port) (l : Option LockId) (st : Status) :
    (s.reportRefused p l st).poolInUse = s.poolInUse := by unfold State.reportRefused; simp

@[simp] theorem supervisor_reportRefused (p : Port) (l : Option LockId) (st : Status) :
    (s.reportRefused p l st).supervisor = s.supervisor := by unfold State.reportRefused; simp

@[simp] theorem isOpen_reportRefused (p : Port) (l : Option LockId) (st : Status) (q : Port) :
    (s.reportRefused p l st).isOpen q = s.isOpen q := by unfold State.reportRefused; simp

@[simp] theorem trace_reportRefused (p : Port) (l : Option LockId) (st : Status) :
    (s.reportRefused p l st).trace =
      s.trace.hear { cls := .refused, port := p, lock := l, detail := st.code } := by
  unfold State.reportRefused; simp

theorem sameButNotices_reportRefused (p : Port) (l : Option LockId) (st : Status) (q : Port) :
    (s.session q).SameButNotices ((s.reportRefused p l st).session q) :=
  sameButNotices_report _ _ _

/-! ### The steps of a request -/

/-- What it takes for a request to be handed on next (R110, R132, R156). -/
theorem nextRequest_eq_some {p : Port} {b : Body} (h : s.nextRequest p = some b) :
    s.lineActive = true ∧ (s.link p).handedOn = none ∧ (s.session p).ending = none ∧
      (s.link p).oldestWaiting = some b := by
  unfold State.nextRequest at h
  split at h
  · rename_i hc
    simp only [Bool.and_eq_true, Option.isNone_iff_eq_none] at hc
    exact ⟨hc.1.1, hc.1.2, hc.2, h⟩
  · simp at h

/-- The request handed on is the one that was next. -/
theorem handedOn_handOn {p : Port} {b : Body} (h : s.nextRequest p = some b) :
    ((s.handOn p).link p).handedOn = some b := by
  obtain ⟨-, h1, -, h2⟩ := nextRequest_eq_some s h
  have hn : (s.link p).window.find? (fun x => x.cond == .handedOn) = none := by
    simpa [LinkPort.handedOn] using h1
  obtain ⟨c, hc, rfl⟩ : ∃ c, (s.link p).window.find? (fun x => x.cond == .waiting) = some c ∧
      c.body = b := by simpa [LinkPort.oldestWaiting] using h2
  obtain ⟨pre, post, e1, e2, -, e4⟩ := advanceSlot_of_find (b := .handedOn) hc
  rw [link_handOn, if_pos rfl]
  simp only [LinkPort.handedOn, e4]
  have hp : pre.find? (fun x => x.cond == .handedOn) = none := by
    rw [e1, List.find?_append] at hn
    exact (Option.or_eq_none_iff.mp hn).1
  simp [List.find?_append, hp]

/-- A request row's step: nothing without such a request; else the request is handed on and refused by a
check, or taken by its owner. -/
theorem takeRequest_cases (k : Kind) (p : Port) (owner : Body → State → State) :
    s.takeRequest k p owner = s ∨
      ∃ b, s.nextRequest p = some b ∧ kindOf b = some k ∧
        ((∃ st, s.messageCheck p k b = some st ∧
            s.takeRequest k p owner = (s.handOn p).refuse p st) ∨
          (s.messageCheck p k b = none ∧ s.takeRequest k p owner = owner b (s.handOn p))) := by
  unfold State.takeRequest
  cases h : s.nextRequest p with
  | none => exact Or.inl rfl
  | some b =>
    by_cases hk : kindOf b = some k
    · right
      refine ⟨b, rfl, hk, ?_⟩
      simp only [hk, if_true]
      cases hm : s.messageCheck p k b with
      | none => exact Or.inr ⟨rfl, rfl⟩
      | some st => exact Or.inl ⟨st, rfl, rfl⟩
    · left
      simp [hk]

/-- A request that passes its checks is handed on and taken by its owner. -/
theorem takeRequest_of_taken {k : Kind} {p : Port} {b : Body} (owner : Body → State → State)
    (h1 : s.nextRequest p = some b) (h2 : kindOf b = some k) (h3 : s.messageCheck p k b = none) :
    s.takeRequest k p owner = owner b (s.handOn p) := by
  simp [State.takeRequest, h1, h2, h3]

/-- A receiver put in a state: its gap deadline goes with the state (R153). -/
theorem link_setReceiver (p : Port) (r : ReceiverState) (q : Port) :
    (s.setReceiver p r).link q = if p = q then { s.link p with
      receiver := r, gapDeadline := if r = .hunt then none else some (deadlineAfter s.clock gapLimit) }
      else s.link q := link_setLink _ _ _ _

/-- A gap deadline runs exactly outside HUNT (R153). -/
theorem gapDeadline_setReceiver (p : Port) (r : ReceiverState) :
    ((s.setReceiver p r).link p).gapDeadline = none ↔ r = .hunt := by
  rw [link_setReceiver, if_pos rfl]
  by_cases h : r = .hunt <;> simp [h]

/-- A request that a check refuses is handed on and refused. -/
theorem takeRequest_of_refused {k : Kind} {p : Port} {b : Body} {st : Status}
    (owner : Body → State → State) (h1 : s.nextRequest p = some b) (h2 : kindOf b = some k)
    (h3 : s.messageCheck p k b = some st) :
    s.takeRequest k p owner = (s.handOn p).refuse p st := by
  simp [State.takeRequest, h1, h2, h3]

/-- The reply to the request just handed on: queued or sent behind the replies before it, its slot
answered, the receiver and the fault record as they were. -/
theorem reply_handedOn {p : Port} {b : Body} (st : Status) (res : List Byte) (t : State)
    (h : s.nextRequest p = some b) (ht : t.link p = (s.handOn p).link p) :
    ((t.reply p st res).link p).outgoing =
        (s.link p).outgoing ++ [frameOf (replyTo b st res)] ∧
      ((t.reply p st res).link p).window = advanceSlot .waiting .answered (s.link p).window ∧
      ((t.reply p st res).link p).receiver = (s.link p).receiver ∧
      ((t.reply p st res).link p).inBreak = (s.link p).inBreak ∧
      ((t.reply p st res).link p).fault = (s.link p).fault := by
  have hh : (t.link p).handedOn = some b := by rw [ht]; exact handedOn_handOn s h
  obtain ⟨-, h1, -, -⟩ := nextRequest_eq_some s h
  have hn : (s.link p).window.find? (fun x => x.cond == .handedOn) = none := by
    simpa [LinkPort.handedOn] using h1
  have e : t.reply p st res = t.answer p (replyTo b st res) := by simp [State.reply, hh]
  rw [e, link_answer, if_pos rfl, ht, link_handOn, if_pos rfl]
  refine ⟨?_, by simp [advanceSlot_answer hn], by simp, by simp, by simp⟩
  rw [outgoing_kick]
  simp [LinkPort.outgoing]

end Sys2Proof.Machine
end

