-- ==== Sys2Proof/Laws/Entries.lean ====
section
/-! SUPPORT. What the operations on one lock entry do: holders, queue, mode, and the laws of R7, R10 and
R34 through grants, endings and hand-off. -/

namespace Sys2Proof.Machine

@[simp] theorem mem_allPorts (p : Port) : p ∈ allPorts := by
  revert p; decide

@[simp] theorem mem_allLocks (l : LockId) : l ∈ allLocks := List.mem_finRange l

variable (e : LockEntry)

/-! ### Holders -/

theorem holding_hold (p : Port) (h : Holding) (q : Port) :
    (e.hold p h).holding q = if p = q then some h else e.holding q := look_put _ _ _ _

theorem holding_grant (now : Clock) (p : Port) (m : Mode) (lease : Half) (q : Port) :
    (e.grant now p m lease).holding q =
      if p = q then some { mode := m, grant := nextGrant e.last, deadline := optionalDeadline now lease }
      else e.holding q := look_put _ _ _ _

theorem holding_unhold (p q : Port) :
    (e.unhold p).holding q = if p = q then none else e.holding q := look_put _ _ _ _

@[simp] theorem holding_leave (p q : Port) : (e.leave p).holding q = e.holding q := (rfl)

@[simp] theorem holding_join (w : Waiter) (q : Port) : (e.join w).holding q = e.holding q := (rfl)

@[simp] theorem holding_popHead (q : Port) : e.popHead.holding q = e.holding q := (rfl)

@[simp] theorem holding_issue (q : Port) : e.issue.holding q = e.holding q := (rfl)

@[simp] theorem queue_hold (p : Port) (h : Holding) : (e.hold p h).queue = e.queue := (rfl)

@[simp] theorem queue_grant (now : Clock) (p : Port) (m : Mode) (lease : Half) :
    (e.grant now p m lease).queue = e.queue := (rfl)

@[simp] theorem queue_unhold (p : Port) : (e.unhold p).queue = e.queue := (rfl)

@[simp] theorem queue_leave (p : Port) :
    (e.leave p).queue = e.queue.filter (fun w => w.port != p) := (rfl)

@[simp] theorem queue_join (w : Waiter) : (e.join w).queue = e.queue ++ [w] := (rfl)

@[simp] theorem queue_popHead : e.popHead.queue = e.queue.tail := (rfl)

@[simp] theorem queue_issue : e.issue.queue = e.queue := (rfl)

@[simp] theorem config_hold (p : Port) (h : Holding) : (e.hold p h).config = e.config := (rfl)

@[simp] theorem config_grant (now : Clock) (p : Port) (m : Mode) (lease : Half) :
    (e.grant now p m lease).config = e.config := (rfl)

@[simp] theorem config_unhold (p : Port) : (e.unhold p).config = e.config := (rfl)

@[simp] theorem config_leave (p : Port) : (e.leave p).config = e.config := (rfl)

@[simp] theorem config_join (w : Waiter) : (e.join w).config = e.config := (rfl)

@[simp] theorem config_popHead : e.popHead.config = e.config := (rfl)

@[simp] theorem config_issue : e.issue.config = e.config := (rfl)

@[simp] theorem last_hold (p : Port) (h : Holding) : (e.hold p h).last = e.last := (rfl)

@[simp] theorem last_grant (now : Clock) (p : Port) (m : Mode) (lease : Half) :
    (e.grant now p m lease).last = nextGrant e.last := (rfl)

@[simp] theorem last_unhold (p : Port) : (e.unhold p).last = e.last := (rfl)

@[simp] theorem last_leave (p : Port) : (e.leave p).last = e.last := (rfl)

@[simp] theorem last_join (w : Waiter) : (e.join w).last = e.last := (rfl)

@[simp] theorem last_popHead : e.popHead.last = e.last := (rfl)

@[simp] theorem last_issue : e.issue.last = nextGrant e.last := (rfl)

/-- A grant number issued is never 0 (R5). -/
theorem nextGrant_ne_zero (g : Grant) : nextGrant g ≠ 0 := by
  unfold nextGrant
  split
  · decide
  · bv_omega

/-! ### Modes -/

theorem holdsIn_iff (m : Mode) (p : Port) :
    e.holdsIn m p = true ↔ ∃ h, e.holding p = some h ∧ h.mode = m := by
  simp [LockEntry.holdsIn, Option.any_eq_true]

theorem mode_eq_none_iff : e.mode = none ↔ ∀ p, e.holding p = none := by
  unfold LockEntry.mode
  constructor
  · intro h p
    cases hp : e.holding p with
    | none => rfl
    | some x =>
      exfalso
      cases hm : x.mode with
      | shared =>
        have : allPorts.any (e.holdsIn .shared) = true :=
          List.any_eq_true.mpr ⟨p, mem_allPorts p, (holdsIn_iff e _ p).mpr ⟨x, hp, hm⟩⟩
        split at h <;> simp_all
      | exclusive =>
        have : allPorts.any (e.holdsIn .exclusive) = true :=
          List.any_eq_true.mpr ⟨p, mem_allPorts p, (holdsIn_iff e _ p).mpr ⟨x, hp, hm⟩⟩
        simp_all
  · intro h
    have hn : ∀ m, allPorts.any (e.holdsIn m) = false := by
      intro m
      rw [List.any_eq_false]
      intro p _
      simp [LockEntry.holdsIn, h p]
    simp [hn]

theorem mode_eq_exclusive_iff : e.mode = some .exclusive ↔ ∃ p, e.holdsIn .exclusive p = true := by
  unfold LockEntry.mode
  constructor
  · intro h
    split at h
    · rename_i hx
      obtain ⟨p, -, hp⟩ := List.any_eq_true.mp hx
      exact ⟨p, hp⟩
    · split at h <;> simp at h
  · rintro ⟨p, hp⟩
    rw [if_pos (List.any_eq_true.mpr ⟨p, mem_allPorts p, hp⟩)]

theorem mode_eq_shared_iff : e.mode = some .shared ↔
    (∃ p, e.holdsIn .shared p = true) ∧ ∀ p, e.holdsIn .exclusive p = false := by
  unfold LockEntry.mode
  constructor
  · intro h
    split at h
    · simp at h
    · rename_i hx
      split at h
      · rename_i hs
        obtain ⟨p, -, hp⟩ := List.any_eq_true.mp hs
        refine ⟨⟨p, hp⟩, fun q => ?_⟩
        cases hq : e.holdsIn .exclusive q with
        | false => rfl
        | true => exact absurd (List.any_eq_true.mpr ⟨q, mem_allPorts q, hq⟩) hx
      · simp at h
  · rintro ⟨⟨p, hp⟩, hn⟩
    rw [if_neg, if_pos (List.any_eq_true.mpr ⟨p, mem_allPorts p, hp⟩)]
    intro hx
    obtain ⟨q, -, hq⟩ := List.any_eq_true.mp hx
    simp [hn q] at hq

theorem mem_holderPorts (p : Port) : p ∈ e.holderPorts ↔ (e.holding p).isSome = true := by
  simp [LockEntry.holderPorts]

/-- A lock neither held nor waited for is not in use. -/
theorem inUse_eq_false_iff : e.inUse = false ↔ (∀ p, e.holding p = none) ∧ e.queue = [] := by
  have : e.holderPorts = [] ↔ ∀ p, e.holding p = none := by
    rw [List.eq_nil_iff_forall_not_mem]
    simp [mem_holderPorts]
  unfold LockEntry.inUse
  cases hq : e.queue <;> simp [← this]

/-! ### Waiters -/

theorem waits_iff (p : Port) : e.waits p = true ↔ ∃ w ∈ e.queue, w.port = p := by
  simp [LockEntry.waits, LockEntry.waiter, List.find?_isSome]

theorem waits_eq_false_iff (p : Port) : e.waits p = false ↔ ∀ w ∈ e.queue, w.port ≠ p := by
  rw [← Bool.not_eq_true, waits_iff]
  simp

theorem waits_leave (p q : Port) : (e.leave p).waits q = (e.waits q && decide (p ≠ q)) := by
  rw [Bool.eq_iff_iff]
  simp only [waits_iff, queue_leave, List.mem_filter, bne_iff_ne, Bool.and_eq_true, decide_eq_true_eq]
  constructor
  · rintro ⟨w, ⟨hw, hp⟩, rfl⟩
    exact ⟨⟨w, hw, rfl⟩, fun h => hp h.symm⟩
  · rintro ⟨⟨w, hw, rfl⟩, hp⟩
    exact ⟨w, ⟨hw, fun h => hp h.symm⟩, rfl⟩

theorem waits_join (w : Waiter) (q : Port) : (e.join w).waits q = (e.waits q || decide (w.port = q)) := by
  rw [Bool.eq_iff_iff]
  simp [waits_iff, or_and_right, exists_or]

theorem waits_congr {e f : LockEntry} (h : e.queue = f.queue) (p : Port) : e.waits p = f.waits p := by
  simp [LockEntry.waits, LockEntry.waiter, h]

@[simp] theorem waits_hold (p : Port) (h : Holding) (q : Port) : (e.hold p h).waits q = e.waits q := (rfl)

@[simp] theorem waits_grant (now : Clock) (p : Port) (m : Mode) (lease : Half) (q : Port) :
    (e.grant now p m lease).waits q = e.waits q := (rfl)

@[simp] theorem waits_unhold (p q : Port) : (e.unhold p).waits q = e.waits q := (rfl)

@[simp] theorem waits_issue (q : Port) : e.issue.waits q = e.waits q := (rfl)

/-- The first waiter's departure by grant: only its port no longer waits. -/
theorem waits_popHead {w : Waiter} {rest : List Waiter} (h : e.queue = w :: rest)
    (hn : (e.queue.map Waiter.port).Nodup) (q : Port) :
    e.popHead.waits q = (e.waits q && decide (w.port ≠ q)) := by
  rw [Bool.eq_iff_iff]
  rw [h, List.map_cons, List.nodup_cons] at hn
  simp only [waits_iff, queue_popHead, h, List.tail_cons, List.mem_cons, Bool.and_eq_true,
    decide_eq_true_eq]
  constructor
  · rintro ⟨x, hx, rfl⟩
    exact ⟨⟨x, Or.inr hx, rfl⟩, fun hp => hn.1 (hp ▸ List.mem_map_of_mem hx)⟩
  · rintro ⟨⟨x, rfl | hx, rfl⟩, hp⟩
    · exact absurd rfl hp
    · exact ⟨x, hx, rfl⟩

/-! ### Hand-off -/

/-- The lock entry that a hand-off at a clock value leaves: the waiters of R34's table granted in turn. -/
def LockEntry.handedOff (e : LockEntry) (now : Clock) : LockEntry :=
  e.handOffRun.foldl (fun x w => x.popHead.grant now w.port w.mode w.lease) e

/-- The three outcomes of R34's table: nobody, the EXCLUSIVE first waiter alone on a free lock, or the
shared run on a lock without an EXCLUSIVE holder. -/
theorem handOffRun_cases :
    (e.handOffRun = [] ∧ e.HeadConflicts) ∨
      (∃ w rest, e.queue = w :: rest ∧ w.mode = .exclusive ∧ e.mode = none ∧ e.handOffRun = [w]) ∨
      (∃ w rest, e.queue = w :: rest ∧ w.mode = .shared ∧ e.mode ≠ some .exclusive ∧
        e.handOffRun = e.queue.takeWhile (fun x => x.mode == .shared)) := by
  unfold LockEntry.handOffRun LockEntry.HeadConflicts
  cases hq : e.queue with
  | nil => left; simp
  | cons w rest =>
    cases hm : e.mode with
    | none =>
      cases hw : w.mode with
      | exclusive => right; left; exact ⟨w, rest, rfl, hw, rfl, by simp [hw]⟩
      | shared => right; right; exact ⟨w, rest, rfl, hw, by simp, by simp [hw]⟩
    | some m =>
      cases m with
      | exclusive => left; simp [Mode.conflicts]
      | shared =>
        cases hw : w.mode with
        | exclusive => left; simp [Mode.conflicts, hw]
        | shared => right; right; exact ⟨w, rest, rfl, hw, by simp, by simp [hw]⟩

theorem handOffRun_isPrefix : e.handOffRun <+: e.queue := by
  rcases handOffRun_cases e with ⟨h, -⟩ | ⟨w, rest, hq, -, -, h⟩ | ⟨w, rest, -, -, -, h⟩
  · rw [h]; exact List.nil_prefix
  · rw [h, hq]; exact ⟨rest, rfl⟩
  · rw [h]; exact List.takeWhile_prefix _

/-- Granting a run of waiters from the head of the queue, one after another. -/
def LockEntry.grantAll (e : LockEntry) (now : Clock) (run : List Waiter) : LockEntry :=
  run.foldl (fun x w => x.popHead.grant now w.port w.mode w.lease) e

/-- A property kept by each grant of a head waiter is kept by granting a run. -/
theorem grantAll_induct {now : Clock} (P : LockEntry → Prop)
    (hstep : ∀ x w rest, x.queue = w :: rest → P x → P (x.popHead.grant now w.port w.mode w.lease)) :
    ∀ (run rest : List Waiter) (e : LockEntry), e.queue = run ++ rest → P e → P (e.grantAll now run)
  | [], _, _, _, h => h
  | w :: run, rest, e, hq, h => by
    refine grantAll_induct P hstep run rest _ ?_ (hstep e w (run ++ rest) hq h)
    simp [hq]

theorem queue_grantAll (now : Clock) :
    ∀ (run rest : List Waiter) (e : LockEntry), e.queue = run ++ rest → (e.grantAll now run).queue = rest
  | [], _, _, hq => hq
  | w :: run, rest, e, hq => by
    refine queue_grantAll now run rest _ ?_
    simp [hq]

/-- The laws that do not concern the head of the queue: what a lock keeps even before hand-off. -/
structure LockEntry.Fit (e : LockEntry) (l : LockId) : Prop where
  shape : e.Shape
  once : e.PortOnce
  named : ∀ w ∈ e.queue, w.lock = l
  numbered : ∀ p : Port, (e.holding p).all (fun h => h.grant != 0) = true
  enabled : e.config.enabled = true ∨ e.inUse = false

theorem LockEntry.Sound.fit {e : LockEntry} {l : LockId} (h : e.Sound l) : e.Fit l :=
  ⟨h.1, h.2.2.1, h.2.2.2.1, h.2.2.2.2.1, h.2.2.2.2.2⟩

theorem LockEntry.Fit.sound {e : LockEntry} {l : LockId} (h : e.Fit l) (hc : e.HeadConflicts) :
    e.Sound l :=
  ⟨h.shape, hc, h.once, h.named, h.numbered, h.enabled⟩

/-- A lock that is used is enabled (R1). -/
theorem LockEntry.Fit.enabled_of_queue {e : LockEntry} {l : LockId} (h : e.Fit l) {w : Waiter}
    (hw : w ∈ e.queue) : e.config.enabled = true := by
  rcases h.enabled with he | he
  · exact he
  · rw [inUse_eq_false_iff] at he
    simp [he.2] at hw

theorem LockEntry.Fit.enabled_of_holding {e : LockEntry} {l : LockId} (h : e.Fit l) {p : Port}
    (hp : (e.holding p).isSome = true) : e.config.enabled = true := by
  rcases h.enabled with he | he
  · exact he
  · rw [inUse_eq_false_iff] at he
    simp [he.1] at hp

/-- One grant of the first waiter keeps the laws, when its mode agrees with the holders there are. -/
theorem LockEntry.Fit.grantHead {e : LockEntry} {l : LockId} (h : e.Fit l) {w : Waiter}
    {rest : List Waiter} (hq : e.queue = w :: rest) (now : Clock)
    (hm : (∀ p, e.holding p = none) ∨
      (w.mode = .shared ∧ ∀ p, e.holdsIn .exclusive p = false)) :
    (e.popHead.grant now w.port w.mode w.lease).Fit l := by
  have hw : w ∈ e.queue := by simp [hq]
  refine ⟨?_, ⟨?_, ?_⟩, ?_, ?_, Or.inl (h.enabled_of_queue hw)⟩
  · intro p q hpq hx
    rw [holdsIn_iff] at hx
    obtain ⟨k, hk, hkm⟩ := hx
    rw [holding_grant] at hk ⊢
    simp only [holding_popHead] at hk ⊢
    rcases hm with hm | ⟨hs, hm⟩
    · by_cases hp : w.port = p
      · rw [if_neg (fun hc => hpq (hp.symm.trans hc)), hm q]
      · simp [hp, hm p] at hk
    · by_cases hp : w.port = p
      · rw [if_pos hp] at hk
        cases hk
        simp [hs] at hkm
      · rw [if_neg hp] at hk
        have := (holdsIn_iff e .exclusive p).mpr ⟨k, hk, hkm⟩
        simp [hm p] at this
  · have := h.once.1
    simp only [queue_grant, queue_popHead]
    rw [hq, List.map_cons, List.nodup_cons] at this
    simpa [hq] using this.2
  · intro p hp
    rw [waits_grant, waits_popHead e hq h.once.1]
    rw [holding_grant] at hp
    by_cases hpw : w.port = p
    · simp [hpw]
    · rw [if_neg hpw] at hp
      simp [h.once.2 p hp]
  · intro x hx
    simp only [queue_grant, queue_popHead] at hx
    exact h.named x (List.mem_of_mem_tail hx)
  · intro p
    rw [holding_grant]
    split
    · simpa using nextGrant_ne_zero e.last
    · exact h.numbered p

/-- Hand-off restores the law of R34 on a lock that keeps the others. -/
theorem LockEntry.Fit.handedOff {e : LockEntry} {l : LockId} (h : e.Fit l) (now : Clock) :
    (e.handedOff now).Sound l := by
  unfold LockEntry.handedOff
  rcases handOffRun_cases e with ⟨hr, hc⟩ | ⟨w, rest, hq, hw, hm, hr⟩ | ⟨w, rest, hq, hw, hm, hr⟩
  · rw [hr]; exact h.sound hc
  · rw [hr]
    have hm' := (mode_eq_none_iff e).mp hm
    refine (h.grantHead hq now (Or.inl hm')).sound ?_
    have : (e.popHead.grant now w.port w.mode w.lease).mode = some .exclusive := by
      rw [mode_eq_exclusive_iff]
      exact ⟨w.port, (holdsIn_iff _ _ _).mpr ⟨_, by rw [holding_grant, if_pos rfl], hw⟩⟩
    show LockEntry.HeadConflicts (e.popHead.grant now w.port w.mode w.lease)
    simp only [LockEntry.HeadConflicts, this]
    cases (e.popHead.grant now w.port w.mode w.lease).queue.head? with
    | none => rfl
    | some x => simp [Mode.conflicts]
  · rw [hr]
    set run := e.queue.takeWhile (fun x => x.mode == .shared) with hrun
    set tail := e.queue.dropWhile (fun x => x.mode == .shared) with htail
    have hsplit : e.queue = run ++ tail := (List.takeWhile_append_dropWhile).symm
    have hall : ∀ x ∈ run, x.mode = .shared := by
      intro x hx
      simpa using List.mem_takeWhile_imp hx
    have hne : ∀ p, e.holdsIn .exclusive p = false := by
      intro p
      cases hp : e.holdsIn .exclusive p with
      | false => rfl
      | true => exact absurd ((mode_eq_exclusive_iff e).mpr ⟨p, hp⟩) hm
    have key : ∀ (r : List Waiter) (x : LockEntry), x.queue = r ++ tail → (∀ y ∈ r, y.mode = .shared) →
        x.Fit l → (∀ p, x.holdsIn .exclusive p = false) →
        (x.grantAll now r).Fit l ∧ (∀ p, (x.grantAll now r).holdsIn .exclusive p = false) ∧
          (r ≠ [] → ∃ p, (x.grantAll now r).holdsIn .shared p = true) := by
      intro r
      induction r with
      | nil => intro x _ _ hx hxe; exact ⟨hx, hxe, fun hc => absurd rfl hc⟩
      | cons y r ih =>
        intro x hxq hys hx hxe
        have hy : y.mode = .shared := hys y (by simp)
        have hfit := hx.grantHead (rest := r ++ tail) hxq now (Or.inr ⟨hy, hxe⟩)
        have hexc : ∀ p, (x.popHead.grant now y.port y.mode y.lease).holdsIn .exclusive p = false := by
          intro p
          rw [← Bool.not_eq_true, holdsIn_iff, holding_grant]
          rintro ⟨k, hk, hkm⟩
          split at hk
          · cases hk; simp [hy] at hkm
          · have := (holdsIn_iff x .exclusive p).mpr ⟨k, hk, hkm⟩
            simp [hxe p] at this
        obtain ⟨a1, a2, a3⟩ := ih (x.popHead.grant now y.port y.mode y.lease) (by simp [hxq])
          (fun z hz => hys z (by simp [hz])) hfit hexc
        refine ⟨a1, a2, fun _ => ?_⟩
        by_cases hr0 : r = []
        · subst hr0
          exact ⟨y.port, (holdsIn_iff _ _ _).mpr ⟨_, by
            simp only [LockEntry.grantAll, List.foldl_cons, List.foldl_nil]
            rw [holding_grant, if_pos rfl], hy⟩⟩
        · exact a3 hr0
    obtain ⟨k1, k2, k3⟩ := key run e hsplit hall h hne
    have hrunne : run ≠ [] := by
      simp [hrun, hq, hw]
    refine (show (e.grantAll now run).Sound l from k1.sound ?_)
    have hmode : (e.grantAll now run).mode = some .shared :=
      (mode_eq_shared_iff _).mpr ⟨k3 hrunne, k2⟩
    have hqt := queue_grantAll now run tail e hsplit
    simp only [LockEntry.HeadConflicts, hqt, hmode]
    cases ht : tail with
    | nil => rfl
    | cons z zs =>
      have hz : (z.mode == Mode.shared) = false := by
        have := List.head?_dropWhile_not (fun x : Waiter => x.mode == .shared) e.queue
        rw [← htail, ht] at this
        simpa using this
      simp only [List.head?_cons, Option.all_some, Option.any_some, Mode.conflicts]
      simp [hz]

end Sys2Proof.Machine
end

