-- ==== Sys2Proof/Laws/Locks.lean ====
section
/-! SUPPORT. What the shared operations of Locks.lean can do, table by table. Each is work of the lock engine:
it leaves the links and the fixed part of the state alone and touches sessions only in their notice lists. -/

namespace Sys2Proof.Machine

/-- Work of the lock engine: links, clock, straps, restart count and queue of commands stay, and sessions
change at most in their notice lists. -/
structure State.LockWork (s t : State) : Prop where
  fixed : t = { s with
    locks := t.locks, standings := t.standings, poolInUse := t.poolInUse, counts := t.counts,
    sessions := t.sessions, trace := t.trace }
  sessions : ∀ q, (s.session q).SameButNotices (t.session q)

namespace State.LockWork

variable {s t u : State}

theorem refl (s : State) : s.LockWork s := ⟨rfl, fun _ => rfl⟩

theorem trans (h : s.LockWork t) (k : t.LockWork u) : s.LockWork u := by
  refine ⟨?_, fun q => (h.sessions q).trans (k.sessions q)⟩
  rw [k.fixed, h.fixed]

theorem link (h : s.LockWork t) (q : Port) : t.link q = s.link q := by rw [h.fixed]; rfl

theorem clock (h : s.LockWork t) : t.clock = s.clock := by rw [h.fixed]

theorem pending (h : s.LockWork t) : t.pending = s.pending := by rw [h.fixed]

theorem restarting (h : s.LockWork t) : t.restarting = s.restarting := by rw [h.fixed]

theorem resetAsserted (h : s.LockWork t) : t.resetAsserted = s.resetAsserted := by rw [h.fixed]

theorem supervisor (h : s.LockWork t) : t.supervisor = s.supervisor := by rw [h.fixed]; rfl

theorem isOpen (h : s.LockWork t) (q : Port) : t.isOpen q = s.isOpen q := by
  have := h.sessions q
  unfold Session.SameButNotices at this
  simp only [State.isOpen]
  rw [this]

end State.LockWork

variable (s : State)

/-! ### Single updates -/

theorem lockWork_setLock (l : LockId) (e : LockEntry) : s.LockWork (s.setLock l e) :=
  ⟨rfl, fun _ => rfl⟩

theorem lockWork_setStanding (p : Port) (l : LockId) (r : StandingRecord) :
    s.LockWork (s.setStanding p l r) := ⟨rfl, fun _ => rfl⟩

theorem lockWork_setCount (p : Port) (c : PortCounts) : s.LockWork (s.setCount p c) :=
  ⟨rfl, fun _ => rfl⟩

theorem lockWork_setPool (n : Nat) : s.LockWork (s.setPool n) := ⟨rfl, fun _ => rfl⟩

theorem lockWork_notify (p : Port) (x : Subject) : s.LockWork (s.notify p x) :=
  ⟨rfl, sameButNotices_notify s p x⟩

theorem lockWork_unnotify (p : Port) (x : Subject) : s.LockWork (s.unnotify p x) :=
  ⟨rfl, sameButNotices_unnotify s p x⟩

theorem lockWork_report (r : Report) : s.LockWork (s.report r) := by
  rcases report_cases s r with h | ⟨q, -, -, -, h⟩ <;> rw [h]
  · exact ⟨rfl, fun _ => rfl⟩
  · exact (⟨rfl, fun _ => rfl⟩ : s.LockWork (s.setTrace (s.trace.hear r))).trans (lockWork_notify _ _ _)

/-! ### Unreported changes -/

theorem lockWork_recordChange (p : Port) (l : LockId) (c : Cause) :
    s.LockWork (s.recordChange p l c) := by
  unfold State.recordChange
  split
  · exact (lockWork_setStanding _ _ _ _).trans (lockWork_notify _ _ _)
  · exact .refl _

@[simp] theorem lock_recordChange (p : Port) (l : LockId) (c : Cause) (k : LockId) :
    (s.recordChange p l c).lock k = s.lock k := by unfold State.recordChange; split <;> simp

@[simp] theorem count_recordChange (p : Port) (l : LockId) (c : Cause) (q : Port) :
    (s.recordChange p l c).count q = s.count q := by unfold State.recordChange; split <;> simp

@[simp] theorem poolInUse_recordChange (p : Port) (l : LockId) (c : Cause) :
    (s.recordChange p l c).poolInUse = s.poolInUse := by unfold State.recordChange; split <;> simp

@[simp] theorem trace_recordChange (p : Port) (l : LockId) (c : Cause) :
    (s.recordChange p l c).trace = s.trace := by unfold State.recordChange; split <;> simp

theorem standing_recordChange (p : Port) (l : LockId) (c : Cause) (q : Port) (k : LockId) :
    (s.recordChange p l c).standing q k =
      if s.isOpen p = true ∧ p = q ∧ l = k then (s.standing q k).change c else s.standing q k := by
  unfold State.recordChange
  by_cases h : s.isOpen p = true
  · simp only [h, if_true, standing_notify, standing_setStanding, true_and]
    split
    · rename_i hk; rw [hk.1, hk.2]
    · rfl
  · simp [h]

theorem session_recordChange (p : Port) (l : LockId) (c : Cause) (q : Port) :
    (s.recordChange p l c).session q =
      if s.isOpen p = true ∧ p = q then
        { s.session q with notices := appendSubject (.lock l) (s.session q).notices }
      else s.session q := by
  unfold State.recordChange
  by_cases h : s.isOpen p = true
  · simp only [h, if_true, session_notify, session_setStanding, true_and]
  · simp [h]

theorem lockWork_clearChange (p : Port) (l : LockId) : s.LockWork (s.clearChange p l) :=
  (lockWork_setStanding _ _ _ _).trans (lockWork_unnotify _ _ _)

@[simp] theorem lock_clearChange (p : Port) (l k : LockId) :
    (s.clearChange p l).lock k = s.lock k := (rfl)

@[simp] theorem count_clearChange (p : Port) (l : LockId) (q : Port) :
    (s.clearChange p l).count q = s.count q := (rfl)

@[simp] theorem poolInUse_clearChange (p : Port) (l : LockId) :
    (s.clearChange p l).poolInUse = s.poolInUse := (rfl)

@[simp] theorem trace_clearChange (p : Port) (l : LockId) :
    (s.clearChange p l).trace = s.trace := (rfl)

theorem standing_clearChange (p : Port) (l : LockId) (q : Port) (k : LockId) :
    (s.clearChange p l).standing q k =
      if p = q ∧ l = k then (s.standing q k).clear else s.standing q k := by
  unfold State.clearChange
  simp only [standing_unnotify, standing_setStanding]
  split
  · rename_i hk; rw [hk.1, hk.2]
  · rfl

theorem session_clearChange (p : Port) (l : LockId) (q : Port) :
    (s.clearChange p l).session q =
      if p = q then { s.session q with notices := removeSubject (.lock l) (s.session q).notices }
      else s.session q := by
  unfold State.clearChange
  simp [session_unnotify]

/-! ### A grant -/

/-- The holding a grant makes (R5, R6). -/
def State.grantOf (s : State) (l : LockId) (m : Mode) (lease : Half) : Holding :=
  { mode := m, grant := nextGrant (s.lock l).last, deadline := optionalDeadline s.clock lease }

theorem lockWork_grantTo (p : Port) (l : LockId) (m : Mode) (lease : Half) :
    s.LockWork (s.grantTo p l m lease) := ⟨rfl, fun _ => rfl⟩

theorem lock_grantTo (p : Port) (l : LockId) (m : Mode) (lease : Half) (k : LockId) :
    (s.grantTo p l m lease).lock k =
      if l = k then (s.lock l).grant s.clock p m lease else s.lock k := lock_setLock _ _ _ _

theorem standing_grantTo (p : Port) (l : LockId) (m : Mode) (lease : Half) (q : Port) (k : LockId) :
    (s.grantTo p l m lease).standing q k =
      if p = q ∧ l = k then (s.standing p l).hold (s.grantOf l m lease) else s.standing q k :=
  standing_setStanding (s.setLock l ((s.lock l).grant s.clock p m lease)) p l _ q k

theorem count_grantTo (p : Port) (l : LockId) (m : Mode) (lease : Half) (q : Port) :
    (s.grantTo p l m lease).count q = if p = q then (s.count p).addHolding else s.count q :=
  count_setCount _ _ _ _

@[simp] theorem poolInUse_grantTo (p : Port) (l : LockId) (m : Mode) (lease : Half) :
    (s.grantTo p l m lease).poolInUse = s.poolInUse := (rfl)

@[simp] theorem session_grantTo (p : Port) (l : LockId) (m : Mode) (lease : Half) (q : Port) :
    (s.grantTo p l m lease).session q = s.session q := (rfl)

@[simp] theorem trace_grantTo (p : Port) (l : LockId) (m : Mode) (lease : Half) :
    (s.grantTo p l m lease).trace = s.trace := (rfl)

/-! ### A grant by hand-off -/

theorem lockWork_takeHead (l : LockId) (p : Port) : s.LockWork (s.takeHead l p) :=
  ⟨rfl, fun _ => rfl⟩

theorem lock_takeHead (l : LockId) (p : Port) (k : LockId) :
    (s.takeHead l p).lock k = if l = k then (s.lock l).popHead else s.lock k := lock_setLock _ _ _ _

@[simp] theorem standing_takeHead (l : LockId) (p q : Port) (k : LockId) :
    (s.takeHead l p).standing q k = s.standing q k := (rfl)

theorem count_takeHead (l : LockId) (p q : Port) :
    (s.takeHead l p).count q = if p = q then (s.count p).dropWait else s.count q :=
  count_setCount _ _ _ _

@[simp] theorem poolInUse_takeHead (l : LockId) (p : Port) :
    (s.takeHead l p).poolInUse = s.poolInUse - 1 := (rfl)

@[simp] theorem session_takeHead (l : LockId) (p q : Port) :
    (s.takeHead l p).session q = s.session q := (rfl)

@[simp] theorem isOpen_takeHead (l : LockId) (p q : Port) :
    (s.takeHead l p).isOpen q = s.isOpen q := (rfl)

@[simp] theorem isOpen_grantTo (p : Port) (l : LockId) (m : Mode) (lease : Half) (q : Port) :
    (s.grantTo p l m lease).isOpen q = s.isOpen q := (rfl)

theorem lockWork_grantHead (l : LockId) (w : Waiter) : s.LockWork (s.grantHead l w) :=
  (((lockWork_takeHead _ _ _).trans (lockWork_grantTo _ _ _ _ _)).trans
    (lockWork_recordChange _ _ _ _)).trans (lockWork_report _ _)

theorem lock_grantHead (l : LockId) (w : Waiter) (k : LockId) :
    (s.grantHead l w).lock k =
      if l = k then (s.lock l).popHead.grant s.clock w.port w.mode w.lease else s.lock k := by
  unfold State.grantHead
  simp only [lock_report, lock_recordChange, lock_grantTo, lock_takeHead]
  by_cases h : l = k
  · simp [h]; rfl
  · simp [h]

theorem count_grantHead (l : LockId) (w : Waiter) (q : Port) :
    (s.grantHead l w).count q =
      if w.port = q then (s.count q).dropWait.addHolding else s.count q := by
  unfold State.grantHead
  simp only [count_report, count_recordChange, count_grantTo, count_takeHead]
  by_cases h : w.port = q
  · subst h; simp
  · simp [h]

@[simp] theorem poolInUse_grantHead (l : LockId) (w : Waiter) :
    (s.grantHead l w).poolInUse = s.poolInUse - 1 := by
  unfold State.grantHead; simp

theorem standing_grantHead (l : LockId) (w : Waiter) (q : Port) (k : LockId) :
    (s.grantHead l w).standing q k =
      if w.port = q ∧ l = k then
        if s.isOpen q = true then ((s.standing q k).hold (s.grantOf l w.mode w.lease)).change .granted
        else (s.standing q k).hold (s.grantOf l w.mode w.lease)
      else s.standing q k := by
  unfold State.grantHead
  have hg : (s.takeHead l w.port).grantOf l w.mode w.lease = s.grantOf l w.mode w.lease := by
    unfold State.grantOf
    rw [lock_takeHead, if_pos rfl]
    rfl
  simp only [standing_report, standing_recordChange, standing_grantTo, standing_takeHead,
    isOpen_grantTo, isOpen_takeHead, hg]
  by_cases h : w.port = q ∧ l = k
  · obtain ⟨rfl, rfl⟩ := h
    by_cases ho : s.isOpen w.port = true <;> simp [ho]
  · simp [h]

/-! ### Hand-off -/

/-- A property kept by every grant of a head waiter whose mode agrees with the holders is kept by
hand-off. -/
theorem handOff_induct {l : LockId} (P : State → Prop)
    (hstep : ∀ t w rest, (t.lock l).queue = w :: rest →
      ((∀ p, (t.lock l).holding p = none) ∨
        (w.mode = .shared ∧ ∀ p, (t.lock l).holdsIn .exclusive p = false)) →
      P t → P (t.grantHead l w)) (h : P s) : P (s.handOff l) := by
  unfold State.handOff
  rcases handOffRun_cases (s.lock l) with ⟨hr, -⟩ | ⟨w, rest, hq, -, hm, hr⟩ | ⟨w, rest, hq, hw, hm, hr⟩
  · rw [hr]; exact h
  · rw [hr]
    exact hstep s w rest hq (Or.inl ((mode_eq_none_iff _).mp hm)) h
  · rw [hr]
    have hall : ∀ x ∈ (s.lock l).queue.takeWhile (fun x => x.mode == .shared), x.mode = .shared := by
      intro x hx
      simpa using List.mem_takeWhile_imp hx
    have hsplit := (List.takeWhile_append_dropWhile
      (p := fun x : Waiter => x.mode == .shared) (l := (s.lock l).queue)).symm
    have hne : ∀ p, (s.lock l).holdsIn .exclusive p = false := by
      intro p
      cases hp : (s.lock l).holdsIn .exclusive p with
      | false => rfl
      | true => exact absurd ((mode_eq_exclusive_iff _).mpr ⟨p, hp⟩) hm
    generalize (s.lock l).queue.takeWhile (fun x => x.mode == .shared) = run at *
    generalize (s.lock l).queue.dropWhile (fun x => x.mode == .shared) = tail at *
    clear hr hm hw hq
    induction run generalizing s with
    | nil => exact h
    | cons y r ih =>
      have hy := hall y (by simp)
      rw [List.foldl_cons]
      refine ih (s.grantHead l y) (hstep s y (r ++ tail) hsplit (Or.inr ⟨hy, hne⟩) h) ?_
        (fun x hx => hall x (by simp [hx])) ?_
      · intro p
        rw [lock_grantHead, if_pos rfl, ← Bool.not_eq_true, holdsIn_iff, holding_grant]
        rintro ⟨k, hk, hkm⟩
        split at hk
        · cases hk; simp [hy] at hkm
        · have := (holdsIn_iff (s.lock l) .exclusive p).mpr ⟨k, hk, hkm⟩
          simp [hne p] at this
      · rw [lock_grantHead, if_pos rfl]
        simp [hsplit]

theorem lockWork_handOff (l : LockId) : s.LockWork (s.handOff l) :=
  handOff_induct s (P := fun t => s.LockWork t)
    (fun _ _ _ _ _ h => h.trans (lockWork_grantHead _ _ _)) (.refl s)

/-- Hand-off changes its own lock alone, as `handedOff` says. -/
theorem lock_handOff (l k : LockId) :
    (s.handOff l).lock k = if l = k then (s.lock l).handedOff s.clock else s.lock k := by
  have key : ∀ (run : List Waiter) (t : State), t.clock = s.clock →
      (run.foldl (fun t w => t.grantHead l w) t).lock k =
        if l = k then run.foldl (fun x w => x.popHead.grant s.clock w.port w.mode w.lease) (t.lock l)
        else t.lock k := by
    intro run
    induction run with
    | nil => intro t _; split <;> simp_all
    | cons w run ih =>
      intro t ht
      rw [List.foldl_cons, ih _ (by rw [(lockWork_grantHead t l w).clock, ht])]
      simp only [lock_grantHead, if_true, ht, List.foldl_cons]
      split <;> rfl
  exact key _ s rfl

/-! ### Endings -/

theorem lockWork_endHolding (p : Port) (l : LockId) (h : Holding) : s.LockWork (s.endHolding p l h) :=
  ⟨rfl, fun _ => rfl⟩

theorem lock_endHolding (p : Port) (l : LockId) (h : Holding) (k : LockId) :
    (s.endHolding p l h).lock k = if l = k then (s.lock l).unhold p else s.lock k := lock_setLock _ _ _ _

theorem standing_endHolding (p : Port) (l : LockId) (h : Holding) (q : Port) (k : LockId) :
    (s.endHolding p l h).standing q k =
      if p = q ∧ l = k then (s.standing p l).unhold h else s.standing q k :=
  standing_setStanding (s.setLock l ((s.lock l).unhold p)) p l _ q k

theorem count_endHolding (p : Port) (l : LockId) (h : Holding) (q : Port) :
    (s.endHolding p l h).count q = if p = q then (s.count p).dropHolding else s.count q :=
  count_setCount _ _ _ _

@[simp] theorem poolInUse_endHolding (p : Port) (l : LockId) (h : Holding) :
    (s.endHolding p l h).poolInUse = s.poolInUse := (rfl)

@[simp] theorem session_endHolding (p : Port) (l : LockId) (h : Holding) (q : Port) :
    (s.endHolding p l h).session q = s.session q := (rfl)

@[simp] theorem trace_endHolding (p : Port) (l : LockId) (h : Holding) :
    (s.endHolding p l h).trace = s.trace := (rfl)

theorem lockWork_leaveQueue (p : Port) (l : LockId) : s.LockWork (s.leaveQueue p l) :=
  ⟨rfl, fun _ => rfl⟩

theorem lock_leaveQueue (p : Port) (l k : LockId) :
    (s.leaveQueue p l).lock k = if l = k then (s.lock l).leave p else s.lock k := lock_setLock _ _ _ _

theorem standing_leaveQueue (p : Port) (l : LockId) (q : Port) (k : LockId) :
    (s.leaveQueue p l).standing q k =
      if p = q ∧ l = k then (s.standing p l).leave else s.standing q k :=
  standing_setStanding ((s.setLock l ((s.lock l).leave p)).setPool _) p l _ q k

theorem count_leaveQueue (p : Port) (l : LockId) (q : Port) :
    (s.leaveQueue p l).count q = if p = q then (s.count p).dropWait else s.count q :=
  count_setCount _ _ _ _

@[simp] theorem poolInUse_leaveQueue (p : Port) (l : LockId) :
    (s.leaveQueue p l).poolInUse = s.poolInUse - 1 := (rfl)

@[simp] theorem session_leaveQueue (p : Port) (l : LockId) (q : Port) :
    (s.leaveQueue p l).session q = s.session q := (rfl)

@[simp] theorem trace_leaveQueue (p : Port) (l : LockId) :
    (s.leaveQueue p l).trace = s.trace := (rfl)

theorem lockWork_reexamine (l : LockId) (b : Bool) : s.LockWork (s.reexamine l b) := by
  unfold State.reexamine
  split
  · exact lockWork_handOff s l
  · exact .refl s

theorem lockWork_withdrawWait (p : Port) (l : LockId) (d : Byte) : s.LockWork (s.withdrawWait p l d) :=
  ((lockWork_leaveQueue s p l).trans (lockWork_report _ _)).trans (lockWork_reexamine _ _ _)

theorem lockWork_releaseHolding (p : Port) (l : LockId) (h : Holding) (d : Byte) :
    s.LockWork (s.releaseHolding p l h d) :=
  ((lockWork_endHolding s p l h).trans (lockWork_report _ _)).trans (lockWork_handOff _ _)

/-! ### Joining, altering -/

theorem lockWork_enqueue (p : Port) (l : LockId) (m : Mode) (lease limit : Half) :
    s.LockWork (s.enqueue p l m lease limit) := ⟨rfl, fun _ => rfl⟩

theorem lock_enqueue (p : Port) (l : LockId) (m : Mode) (lease limit : Half) (k : LockId) :
    (s.enqueue p l m lease limit).lock k =
      if l = k then (s.lock l).join (newWaiter s.clock p l m lease limit) else s.lock k :=
  lock_setLock _ _ _ _

theorem standing_enqueue (p : Port) (l : LockId) (m : Mode) (lease limit : Half) (q : Port)
    (k : LockId) : (s.enqueue p l m lease limit).standing q k =
      if p = q ∧ l = k then (s.standing p l).join else s.standing q k :=
  standing_setStanding ((s.setLock l _).setPool _) p l _ q k

theorem count_enqueue (p : Port) (l : LockId) (m : Mode) (lease limit : Half) (q : Port) :
    (s.enqueue p l m lease limit).count q = if p = q then (s.count p).addWait else s.count q :=
  count_setCount _ _ _ _

@[simp] theorem poolInUse_enqueue (p : Port) (l : LockId) (m : Mode) (lease limit : Half) :
    (s.enqueue p l m lease limit).poolInUse = s.poolInUse + 1 := (rfl)

@[simp] theorem session_enqueue (p : Port) (l : LockId) (m : Mode) (lease limit : Half) (q : Port) :
    (s.enqueue p l m lease limit).session q = s.session q := (rfl)

@[simp] theorem trace_enqueue (p : Port) (l : LockId) (m : Mode) (lease limit : Half) :
    (s.enqueue p l m lease limit).trace = s.trace := (rfl)

theorem lockWork_alterHolding (p : Port) (l : LockId) (h : Holding) :
    s.LockWork (s.alterHolding p l h) := ⟨rfl, fun _ => rfl⟩

theorem lock_alterHolding (p : Port) (l : LockId) (h : Holding) (k : LockId) :
    (s.alterHolding p l h).lock k = if l = k then (s.lock l).hold p h else s.lock k :=
  lock_setLock _ _ _ _

theorem standing_alterHolding (p : Port) (l : LockId) (h : Holding) (q : Port) (k : LockId) :
    (s.alterHolding p l h).standing q k =
      if p = q ∧ l = k then (s.standing p l).hold h else s.standing q k :=
  standing_setStanding (s.setLock l ((s.lock l).hold p h)) p l _ q k

@[simp] theorem count_alterHolding (p : Port) (l : LockId) (h : Holding) (q : Port) :
    (s.alterHolding p l h).count q = s.count q := (rfl)

@[simp] theorem poolInUse_alterHolding (p : Port) (l : LockId) (h : Holding) :
    (s.alterHolding p l h).poolInUse = s.poolInUse := (rfl)

@[simp] theorem session_alterHolding (p : Port) (l : LockId) (h : Holding) (q : Port) :
    (s.alterHolding p l h).session q = s.session q := (rfl)

@[simp] theorem trace_alterHolding (p : Port) (l : LockId) (h : Holding) :
    (s.alterHolding p l h).trace = s.trace := (rfl)

theorem lockWork_raiseHolding (p : Port) (l : LockId) (h : Holding) :
    s.LockWork (s.raiseHolding p l h) := ⟨rfl, fun _ => rfl⟩

theorem lock_raiseHolding (p : Port) (l : LockId) (h : Holding) (k : LockId) :
    (s.raiseHolding p l h).lock k =
      if l = k then (s.lock l).issue.hold p
        { h with mode := .exclusive, grant := nextGrant (s.lock l).last } else s.lock k := by
  unfold State.raiseHolding
  rw [lock_alterHolding, lock_setLock, lock_setLock, if_pos rfl]
  split <;> rfl

theorem standing_raiseHolding (p : Port) (l : LockId) (h : Holding) (q : Port) (k : LockId) :
    (s.raiseHolding p l h).standing q k =
      if p = q ∧ l = k then (s.standing p l).hold
        { h with mode := .exclusive, grant := nextGrant (s.lock l).last } else s.standing q k :=
  standing_alterHolding (s.setLock l (s.lock l).issue) p l _ q k

@[simp] theorem count_raiseHolding (p : Port) (l : LockId) (h : Holding) (q : Port) :
    (s.raiseHolding p l h).count q = s.count q := (rfl)

@[simp] theorem poolInUse_raiseHolding (p : Port) (l : LockId) (h : Holding) :
    (s.raiseHolding p l h).poolInUse = s.poolInUse := (rfl)

@[simp] theorem session_raiseHolding (p : Port) (l : LockId) (h : Holding) (q : Port) :
    (s.raiseHolding p l h).session q = s.session q := (rfl)

@[simp] theorem trace_raiseHolding (p : Port) (l : LockId) (h : Holding) :
    (s.raiseHolding p l h).trace = s.trace := (rfl)

end Sys2Proof.Machine
end

