-- ==== Sys2Proof/Laws/Requests.lean ====
section
/-! SUPPORT. What passing the checks before the owner says of a request (R165), and what the named results of
the session unit can do. -/

namespace Sys2Proof.Machine

variable (s : State)

/-! ### The checks -/

theorem firstFailure_eq_none_iff (tests : List (Bool × Status)) :
    firstFailure tests = none ↔ ∀ t ∈ tests, t.1 = true := by
  induction tests with
  | nil => simp [firstFailure]
  | cons t rest ih =>
    obtain ⟨b, st⟩ := t
    cases b <;> simp [firstFailure, ih]

/-- What a request that passed its checks satisfies (R165). -/
theorem messageCheck_eq_none_iff (p : Port) (k : Kind) (b : Body) :
    s.messageCheck p k b = none ↔
      b.length = k.bodyLength ∧ (k = .openSession ∨ s.isOpen p = true) ∧
        (k.isSupervisor = true → s.supervisor = some p) ∧ ∀ t ∈ argumentTests k b, t.1 = true := by
  unfold State.messageCheck
  rw [firstFailure_eq_none_iff]
  simp only [List.cons_append, List.nil_append, List.forall_mem_cons, decide_eq_true_eq,
    Bool.or_eq_true, beq_iff_eq, bne_iff_ne, Bool.not_eq_true', State.isOpen]
  constructor
  · rintro ⟨h1, h2, h3, h4, h5⟩
    refine ⟨h1, ?_, ?_, h5⟩
    · rcases h2 with h2 | h2
      · exact Or.inl h2
      · rcases h3 with h3 | h3
        · exact Or.inl h3
        · right
          cases hs : (s.session p).state <;> simp_all
    · intro hk
      rcases h4 with h4 | h4
      · simp [h4] at hk
      · exact h4
  · rintro ⟨h1, h2, h3, h4⟩
    refine ⟨h1, ?_, ?_, ?_, h4⟩
    · rcases h2 with h2 | h2
      · exact Or.inl h2
      · right; simp [h2]
    · rcases h2 with h2 | h2
      · exact Or.inl h2
      · right; simp [h2]
    · cases hk : k.isSupervisor with
      | false => exact Or.inl rfl
      | true => exact Or.inr (h3 hk)

/-- A request other than OPEN that passed its checks comes from an OPEN session (R101). -/
theorem isOpen_of_messageCheck {p : Port} {k : Kind} {b : Body} (h : s.messageCheck p k b = none)
    (hk : k ≠ .openSession) : s.isOpen p = true := by
  rw [messageCheck_eq_none_iff] at h
  exact h.2.1.resolve_left hk

/-- A supervisor request that passed its checks comes from the supervisor port (R118). -/
theorem supervisor_of_messageCheck {p : Port} {k : Kind} {b : Body}
    (h : s.messageCheck p k b = none) (hk : k.isSupervisor = true) : s.supervisor = some p := by
  rw [messageCheck_eq_none_iff] at h
  exact h.2.2.1 hk

/-! ### Judgement of an ACQUIRE -/

/-- A chain of tests that ends in another answer has passed its first test. -/
theorem passed_of_ite {c : Prop} [Decidable c] {a b x : Status} (h : (if c then a else b) = x)
    (ha : a ≠ x) : ¬c ∧ b = x := by
  by_cases hc : c
  · rw [if_pos hc] at h; exact absurd h ha
  · rw [if_neg hc] at h; exact ⟨hc, h⟩

/-- A granted or queued ACQUIRE: the lock is enabled, the caller does not stand on it, and the room and the
style decide (R9 to R14). -/
theorem judgeAcquire_stands {p : Port} {l : LockId} {m : Mode} {wait : Bool} {lease : Half}
    {x : Status} (h : s.judgeAcquire p l m wait lease = x) (hx : x = .granted ∨ x = .queued) :
    (s.lock l).config.enabled = true ∧ (s.lock l).holding p = none ∧ (s.lock l).waits p = false ∧
      (s.count p).holdings + (s.count p).waits < maxStandings ∧
      (x = .granted → (s.lock l).grantable m = true) ∧
      (x = .queued → (s.lock l).grantable m = false ∧ (s.count p).waits < maxWaits ∧
        s.poolInUse < poolSize) := by
  have ne : ∀ a : Status, a ≠ .granted → a ≠ .queued → a ≠ x := by
    rintro a h1 h2 rfl
    rcases hx with rfl | rfl <;> simp_all
  unfold State.judgeAcquire at h
  dsimp only at h
  obtain ⟨h1, h⟩ := passed_of_ite h (ne _ (by decide) (by decide))
  obtain ⟨-, h⟩ := passed_of_ite h (ne _ (by decide) (by decide))
  obtain ⟨-, h⟩ := passed_of_ite h (ne _ (by decide) (by decide))
  obtain ⟨h4, h⟩ := passed_of_ite h (ne _ (by decide) (by decide))
  obtain ⟨h5, h⟩ := passed_of_ite h (ne _ (by decide) (by decide))
  obtain ⟨-, h⟩ := passed_of_ite h (ne _ (by decide) (by decide))
  obtain ⟨-, h⟩ := passed_of_ite h (ne _ (by decide) (by decide))
  have e1 : (s.lock l).config.enabled = true := by simpa using h1
  have e4 : (s.lock l).holding p = none := by simpa using h4
  have e5 : (s.lock l).waits p = false := by simpa using h5
  by_cases hg : (s.lock l).grantable m = true
  · rw [if_pos hg] at h
    obtain ⟨h9, h⟩ := passed_of_ite h (ne _ (by decide) (by decide))
    exact ⟨e1, e4, e5, by simpa using h9, fun _ => hg, fun hq => absurd (h.trans hq) (by decide)⟩
  · rw [if_neg hg] at h
    obtain ⟨-, h⟩ := passed_of_ite h (ne _ (by decide) (by decide))
    obtain ⟨h10, h⟩ := passed_of_ite h (ne _ (by decide) (by decide))
    obtain ⟨h11, h⟩ := passed_of_ite h (ne _ (by decide) (by decide))
    obtain ⟨h12, h⟩ := passed_of_ite h (ne _ (by decide) (by decide))
    exact ⟨e1, e4, e5, by simpa using h11, fun hq => absurd (h.trans hq) (by decide),
      fun _ => ⟨by simpa using hg, by simpa using h10, by simpa using h12⟩⟩

/-! ### Holder tests -/

theorem holderTest_ok {e : LockEntry} {p : Port} {g : Grant} {h : Holding}
    (hh : e.holderTest p g = .ok h) : e.holding p = some h ∧ h.grant = g := by
  unfold LockEntry.holderTest at hh
  split at hh
  · cases hh
  · split at hh
    · cases hh; exact ⟨by assumption, by assumption⟩
    · cases hh

/-! ### Session ends -/

theorem standing_clearAllChanges (p q : Port) (l : LockId) :
    (s.clearAllChanges p).standing q l = if p = q then (s.standing q l).clear else s.standing q l := by
  unfold State.clearAllChanges State.standing
  simp only [look_put]
  by_cases h : p = q
  · subst h; simp
  · simp [h]

@[simp] theorem lock_clearAllChanges (p : Port) (k : LockId) :
    (s.clearAllChanges p).lock k = s.lock k := (rfl)

@[simp] theorem count_clearAllChanges (p : Port) (q : Port) :
    (s.clearAllChanges p).count q = s.count q := (rfl)

@[simp] theorem session_clearAllChanges (p : Port) (q : Port) :
    (s.clearAllChanges p).session q = s.session q := (rfl)

@[simp] theorem link_clearAllChanges (p : Port) (q : Port) :
    (s.clearAllChanges p).link q = s.link q := (rfl)

@[simp] theorem isOpen_clearAllChanges (p : Port) (q : Port) :
    (s.clearAllChanges p).isOpen q = s.isOpen q := (rfl)

@[simp] theorem trace_clearAllChanges (p : Port) : (s.clearAllChanges p).trace = s.trace := (rfl)

@[simp] theorem clock_clearAllChanges (p : Port) : (s.clearAllChanges p).clock = s.clock := (rfl)

@[simp] theorem supervisor_clearAllChanges (p : Port) : (s.clearAllChanges p).supervisor = s.supervisor := (rfl)

@[simp] theorem poolInUse_clearAllChanges (p : Port) : (s.clearAllChanges p).poolInUse = s.poolInUse := (rfl)

@[simp] theorem pending_clearAllChanges (p : Port) : (s.clearAllChanges p).pending = s.pending := (rfl)

/-- The silence limit an OPEN fixes is 0 or from 10 to 60,000 (R102). -/
theorem silenceRange_silenceLimitFor {a c : Half} (ha : a.toNat ≤ 60000) (hc : SilenceRange c) :
    SilenceRange (silenceLimitFor a c) := by
  unfold silenceLimitFor SilenceRange at *
  dsimp only
  have h10 : (10 : Half).toNat = 10 := rfl
  by_cases h1 : a ≠ 0 ∧ a.toNat < 10
  · rw [if_pos h1]
    by_cases h2 : c = 0
    · rw [if_pos h2]; right; omega
    · rw [if_neg h2]
      split
      · exact hc
      · right; omega
  · rw [if_neg h1]
    have ha' : a = 0 ∨ 10 ≤ a.toNat := by
      by_cases h0 : a = 0
      · exact Or.inl h0
      · right; by_contra hlt; exact h1 ⟨h0, by omega⟩
    by_cases h2 : c = 0
    · rw [if_pos h2]; rcases ha' with h | h
      · exact Or.inl h
      · right; omega
    · rw [if_neg h2]
      split
      · exact hc
      · rcases ha' with h | h
        · exact Or.inl h
        · right; omega

end Sys2Proof.Machine
end

