-- ==== Sys2Proof/Laws/Effects.lean ====
section
/-! SUPPORT. What the shared operations do in the terms of Safety.lean: replies, reports, notice lists, and a
piece of lock work with its hand-off. -/

namespace Sys2Proof.Machine

/-! ### Replies -/

/-- After the transmitter has chosen, it is busy when a reply was there to send (R157). -/
theorem kick_busy (x : LinkPort) (h : x.replies ≠ []) : x.kick.transmitter ≠ .free := by
  intro hf
  have hr := kick_settled x hf
  unfold LinkPort.kick at hf hr
  split at hf
  · simp at hf
  · rename_i hn
    split at hr <;> simp_all

/-- A transmitter that is sending goes on with its frame. -/
theorem kick_keeps (x : LinkPort) (h : x.transmitter ≠ .free) : x.kick.transmitter = x.transmitter := by
  unfold LinkPort.kick
  split
  · simp_all
  · rfl

variable {s t : State}

/-- The reply to a request handed on, whatever has happened to the rest of the state since. -/
theorem replied_reply {p : Port} {b : Body} (st : Status) (res : List Byte)
    (h : (s.link p).handedOn = some b) (hl : ∀ q : Port, t.link q = s.link q) :
    s.Replied (t.reply p st res) p .handedOn (replyTo b st res) := by
  have e : t.reply p st res = t.answer p (replyTo b st res) := by simp [State.reply, hl, h]
  rw [e]
  refine ⟨?_, fun q hq => by rw [link_answer, if_neg (Ne.symm hq), hl]⟩
  rw [link_answer, if_pos rfl, hl]
  refine ⟨?_, by simp, kick_busy _ (by simp), fun hf => kick_keeps _ hf, by simp, by simp, by simp, by simp⟩
  rw [outgoing_kick]
  simp [LinkPort.outgoing]

/-- The reply to the request handed on in the same step. -/
theorem replied_taken {p : Port} {b : Body} (st : Status) (res : List Byte)
    (h : s.nextRequest p = some b) (hl : ∀ q : Port, t.link q = (s.handOn p).link q) :
    s.Replied (t.reply p st res) p .waiting (replyTo b st res) := by
  obtain ⟨-, h1, -, -⟩ := nextRequest_eq_some s h
  have hn : (s.link p).window.find? (fun x => x.cond == .handedOn) = none := by
    simpa [LinkPort.handedOn] using h1
  obtain ⟨⟨a1, a2, a3, a4, a5, a6, a7, a8⟩, hq⟩ :=
    replied_reply (s := s.handOn p) st res (handedOn_handOn s h) hl
  rw [link_handOn, if_pos rfl] at a1 a2 a4 a5 a6 a7 a8
  refine ⟨⟨a1, ?_, a3, a4, a5, a6, a7, a8⟩, fun q hne => ?_⟩
  · rw [a2, advanceSlot_answer hn]
  · rw [hq q hne, link_handOn, if_neg (Ne.symm hne)]

/-- Handing on changes its own link port alone. -/
theorem handedOn_of_links {p : Port} (hl : ∀ q : Port, t.link q = (s.handOn p).link q) :
    s.HandedOn t p :=
  ⟨by rw [hl, link_handOn, if_pos rfl], fun q hq => by rw [hl, link_handOn, if_neg (Ne.symm hq)]⟩

/-! ### What reports can do to the capture -/

/-- Only a RUNNING capture is stopped by a report. -/
theorem running_of_stopped_hear {u : TraceUnit} {r : Report} (h : (u.hear r).state = .stopped) :
    u.state = .running ∨ u.state = .stopped := by
  cases hs : u.state with
  | running => exact Or.inl rfl
  | stopped => exact Or.inr rfl
  | off => simp [TraceUnit.hear, hs] at h
  | armed =>
    unfold TraceUnit.hear at h
    simp only [hs] at h
    split at h
    · simp at h
    · simp [hs] at h

/-- A stopped capture hears nothing more, however many reports come. -/
theorem hearAll_of_stopped {u : TraceUnit} (h : u.state = .stopped) (rs : List Report) :
    rs.foldl TraceUnit.hear u = u := by
  induction rs with
  | nil => rfl
  | cons r rs ih => rw [List.foldl_cons, hear_of_stopped r h, ih]

/-! ### Notice lists -/

/-- A subject appended when a condition holds. -/
def appendIf (c : Bool) (x : Subject) (list : List Subject) : List Subject :=
  if c then appendSubject x list else list

/-- The lists of a command that has recorded changes on lock `l` and made reports: the lock and TRACE appended,
in one order or the other. -/
def State.Told (s t : State) (l : LockId) (gets : Port → Bool) : Prop :=
  ∀ q : Port,
    (t.session q).notices = appendIf (s.stopToldTo t q) .trace
        (appendIf (gets q && s.isOpen q) (.lock l) (s.session q).notices) ∨
    (t.session q).notices = appendIf (gets q && s.isOpen q) (.lock l)
        (appendIf (s.stopToldTo t q) .trace (s.session q).notices)

theorem told_refl (s : State) (l : LockId) : s.Told s l (fun _ => false) := by
  intro q
  left
  have : s.stopToldTo s q = false := by
    unfold State.stopToldTo
    cases s.trace.state <;> rfl
  simp [this, appendIf]

theorem appendSubject_of_mem {x : Subject} {list : List Subject} (h : x ∈ list) :
    appendSubject x list = list := by simp [appendSubject, h]

theorem mem_appendIf_self (x y : Subject) (c : Bool) (list : List Subject) (h : x ∈ list) :
    x ∈ appendIf c y list := by
  unfold appendIf
  split
  · simp [h]
  · exact h

/-- A change recorded on the lock goes on with the lists. -/
theorem told_recordChange {l : LockId} {gets : Port → Bool} (h : s.Told t l gets)
    (ho : ∀ q : Port, t.isOpen q = s.isOpen q) (p : Port) (c : Cause) :
    s.Told (t.recordChange p l c) l (fun q => gets q || decide (q = p)) := by
  intro q
  have hT : s.stopToldTo (t.recordChange p l c) q = s.stopToldTo t q := by simp [State.stopToldTo]
  rw [hT, session_recordChange, ho]
  by_cases hq : p = q
  · subst hq
    cases hop : s.isOpen p with
    | false => simpa [hop] using h p
    | true =>
      have hp := h p
      simp only [hop, Bool.and_true] at hp
      simp only [and_self, if_true, decide_true, Bool.or_true, Bool.and_self]
      have hself (list : List Subject) : appendIf true (.lock l) list = appendSubject (.lock l) list := rfl
      cases hg : gets p with
      | true =>
        simp only [hg] at hp
        have hm : Subject.lock l ∈ (t.session p).notices := by
          rcases hp with hp | hp <;> rw [hp]
          · exact mem_appendIf_self _ _ _ _ (by simp [hself])
          · simp [hself]
        rw [appendSubject_of_mem hm]
        exact hp
      | false =>
        right
        have : (t.session p).notices = appendIf (s.stopToldTo t p) .trace (s.session p).notices := by
          simpa [hg, appendIf] using hp
        rw [this]
        rfl
  · have hqp : decide (q = p) = false := by simpa using Ne.symm hq
    simpa [hq, hqp] using h q

/-- A report goes on with the lists. -/
theorem told_report {l : LockId} {gets : Port → Bool} (h : s.Told t l gets)
    (ho : ∀ q : Port, t.isOpen q = s.isOpen q) (hs : t.supervisor = s.supervisor)
    (hk : s.trace.state = .stopped → t.trace.state = .stopped) (r : Report) :
    s.Told (t.report r) l gets := by
  intro q
  have h0 : (t.session q).notices = appendIf (s.stopToldTo t q) .trace
        (appendIf (gets q && s.isOpen q) (.lock l) (s.session q).notices) ∨
    (t.session q).notices = appendIf (gets q && s.isOpen q) (.lock l)
        (appendIf (s.stopToldTo t q) .trace (s.session q).notices) := h q
  by_cases hst : t.stopsOn r
  · obtain ⟨hrun, hstop⟩ := hst
    have hns : s.trace.state ≠ .stopped := fun hc => by simp [hk hc] at hrun
    have h1 : s.stopToldTo t q = false := by simp [State.stopToldTo, hrun]
    have h2 : s.stopToldTo (t.report r) q = (s.supervisor == some q && s.isOpen q) := by
      have hb : (s.trace.state != .stopped) = true := by simpa using hns
      simp [State.stopToldTo, hstop, hb]
    have h3 : (t.session q).notices =
        appendIf (gets q && s.isOpen q) (.lock l) (s.session q).notices := by
      simpa [h1, appendIf] using h0
    left
    rw [h2, ← h3]
    unfold State.report
    simp only [hrun, hstop, and_self, if_true]
    unfold State.notifyTrace
    simp only [supervisor_setTrace, isOpen_setTrace, hs]
    cases hv : s.supervisor with
    | none => simp [appendIf]
    | some v =>
      by_cases hvq : v = q
      · subst hvq
        cases hop : s.isOpen v <;> simp [ho, hop, appendIf, session_notify]
      · have : (some v == some q) = false := by simpa using hvq
        cases hop : t.isOpen v <;> simp [hop, this, appendIf, session_notify, hvq]
  · have h1 : (t.report r).session q = t.session q := by
      rcases report_cases t r with e | ⟨p, e, -⟩
      · simp [e]
      · exact absurd e hst
    have h2 : s.stopToldTo (t.report r) q = s.stopToldTo t q := by
      unfold State.stopToldTo
      rw [trace_report]
      have : ((t.trace.hear r).state == CaptureState.stopped) = (t.trace.state == CaptureState.stopped) := by
        cases ht : t.trace.state == CaptureState.stopped with
        | true =>
          rw [hear_of_stopped r (by simpa using ht)]
          exact ht
        | false =>
          have hne : t.trace.state ≠ .stopped := by simpa using ht
          cases hh : (t.trace.hear r).state == CaptureState.stopped with
          | false => rfl
          | true =>
            have hh' : (t.trace.hear r).state = .stopped := by simpa using hh
            rcases running_of_stopped_hear hh' with e | e
            · exact absurd ⟨e, hh'⟩ hst
            · exact absurd e hne
      rw [this]
    rw [h1, h2]
    exact h0

/-- The lists in the words of `ListsGrow`, for a command without a caller on the lock. -/
theorem listsGrow_of_told {l : LockId} {gets : Port → Bool} (h : s.Told t l gets) :
    s.ListsGrow t l gets none := by
  intro q
  have key : ∀ (a b : Bool) (n : List Subject),
      appendIf b .trace (appendIf a (.lock l) n) =
        n ++ ((if a then [Subject.lock l] else []) ++ (if b then [Subject.trace] else [])).filter
          (fun x => decide (x ∉ n)) ∧
      appendIf a (.lock l) (appendIf b .trace n) =
        n ++ (((if a then [Subject.lock l] else []) ++ (if b then [Subject.trace] else [])).filter
          (fun x => decide (x ∉ n))).reverse := by
    intro a b n
    cases a <;> cases b <;> by_cases h1 : Subject.lock l ∈ n <;> by_cases h2 : Subject.trace ∈ n <;>
      simp [appendIf, appendSubject, h1, h2]
  simp only [reduceCtorEq, if_false, id]
  rcases h q with e | e
  · left
    rw [e, (key _ _ _).1]
    rfl
  · right
    rw [e, (key _ _ _).2]
    rfl

/-! ### Hand-off -/

theorem nextGrant_iterate_succ (n : Nat) (g : Grant) : nextGrant^[n + 1] g = nextGrant^[n] (nextGrant g) :=
  Function.iterate_succ_apply _ _ _

/-- Granting a run of waiters with distinct ports, waiter by waiter. -/
theorem grantAll_spec (now : Clock) : ∀ (run rest : List Waiter) (e : LockEntry),
    e.queue = run ++ rest → (run.map Waiter.port).Nodup →
    (e.grantAll now run).config = e.config ∧ (e.grantAll now run).queue = rest ∧
      (e.grantAll now run).last = nextGrant^[run.length] e.last ∧
      (∀ q : Port, q ∉ run.map Waiter.port → (e.grantAll now run).holding q = e.holding q) ∧
      ∀ i : Fin run.length, (e.grantAll now run).holding run[i].port = some
        { mode := run[i].mode, grant := nextGrant^[i.val + 1] e.last,
          deadline := optionalDeadline now run[i].lease }
  | [], rest, e, hq, _ => ⟨rfl, hq, rfl, fun _ _ => rfl, fun i => i.elim0⟩
  | w :: run, rest, e, hq, hn => by
    rw [List.map_cons, List.nodup_cons] at hn
    obtain ⟨h1, h2, h3, h4, h5⟩ := grantAll_spec now run rest
      (e.popHead.grant now w.port w.mode w.lease) (by simp [hq]) hn.2
    refine ⟨h1.trans rfl, h2, ?_, fun q hne => ?_, fun i => ?_⟩
    · rw [List.length_cons, nextGrant_iterate_succ]
      exact h3
    · simp only [List.map_cons, List.mem_cons, not_or] at hne
      refine (h4 q hne.2).trans ?_
      rw [holding_grant, if_neg (Ne.symm hne.1), holding_popHead]
    · refine Fin.cases ?_ (fun j => ?_) i
      · refine (h4 w.port hn.1).trans ?_
        rw [holding_grant, if_pos rfl]
        rfl
      · refine (h5 j).trans ?_
        have : (e.popHead.grant now w.port w.mode w.lease).last = nextGrant e.last := rfl
        rw [this, ← nextGrant_iterate_succ]
        rfl

/-- Hand-off on an entry whose waiters have distinct ports (R35). -/
theorem handedOffTo_handedOff {e : LockEntry} (now : Clock) (h : (e.queue.map Waiter.port).Nodup) :
    e.HandedOffTo (e.handedOff now) now := by
  obtain ⟨rest, hr⟩ := handOffRun_isPrefix e
  have hn : (e.handOffRun.map Waiter.port).Nodup := by
    rw [← hr, List.map_append] at h
    exact (List.nodup_append.mp h).1
  obtain ⟨h1, h2, h3, h4, h5⟩ := grantAll_spec now e.handOffRun rest e hr.symm hn
  exact ⟨h1, by rw [← hr]; exact congrArg _ h2.symm, h3, h4, h5⟩

/-- The reports of a run granted under the numbers that follow `last`, in queue order. -/
def runReports (l : LockId) : Grant → List Waiter → List Report
  | _, [] => []
  | last, w :: run =>
    { cls := .grantQueued, port := w.port, lock := some l, detail := w.mode.code,
      grant := some (nextGrant last) } :: runReports l (nextGrant last) run

theorem runReports_eq (l : LockId) : ∀ (run : List Waiter) (last : Grant),
    runReports l last run = (List.finRange run.length).map fun i =>
      { cls := .grantQueued, port := run[i].port, lock := some l, detail := run[i].mode.code,
        grant := some (nextGrant^[i.val + 1] last) }
  | [], _ => rfl
  | w :: run, last => by
    rw [runReports, runReports_eq l run]
    simp only [List.length_cons, List.finRange_succ, List.map_cons, List.map_map]
    rfl

theorem grantReports_eq (e : LockEntry) (l : LockId) :
    e.grantReports l = runReports l e.last e.handOffRun := (runReports_eq l _ _).symm

/-- What granting a run of waiters from the head of lock `l`'s queue has done to a state. -/
structure State.RunGranted (t u : State) (l : LockId) (run : List Waiter) : Prop where
  work : t.LockWork u
  others : ∀ k : LockId, k ≠ l → u.lock k = t.lock k
  last : (u.lock l).last = nextGrant^[run.length] (t.lock l).last
  pool : u.poolInUse = t.poolInUse - run.length
  elsewhere : ∀ (q : Port) (k : LockId), k ≠ l → u.standing q k = t.standing q k
  untouched : ∀ q : Port, q ∉ run.map Waiter.port →
    u.standing q l = t.standing q l ∧ u.count q = t.count q
  granted : ∀ i : Fin run.length,
    u.standing run[i].port l = t.changed run[i].port .granted
      { t.standing run[i].port l with
        standing := run[i].mode.held, grant := nextGrant^[i.val + 1] (t.lock l).last,
        deadline := optionalDeadline t.clock run[i].lease } ∧
    u.count run[i].port =
      { holdings := (t.count run[i].port).holdings + 1, waits := (t.count run[i].port).waits - 1 }
  heard : u.trace = (runReports l (t.lock l).last run).foldl TraceUnit.hear t.trace

theorem standing_grantHead_granted (t : State) (l : LockId) (w : Waiter) :
    (t.grantHead l w).standing w.port l = t.changed w.port .granted
      { t.standing w.port l with
        standing := w.mode.held, grant := nextGrant (t.lock l).last,
        deadline := optionalDeadline t.clock w.lease } := by
  rw [standing_grantHead, if_pos ⟨rfl, rfl⟩]
  unfold State.changed
  split <;> rfl

@[simp] theorem last_grantHead (t : State) (l : LockId) (w : Waiter) :
    ((t.grantHead l w).lock l).last = nextGrant (t.lock l).last := by
  rw [lock_grantHead, if_pos rfl]
  rfl

@[simp] theorem trace_grantHead (t : State) (l : LockId) (w : Waiter) :
    (t.grantHead l w).trace = t.trace.hear
      { cls := .grantQueued, port := w.port, lock := some l, detail := w.mode.code,
        grant := some (nextGrant (t.lock l).last) } := by
  unfold State.grantHead
  rw [trace_report, trace_recordChange]
  rfl

/-- A run of waiters with distinct ports, granted waiter by waiter. -/
theorem runGranted_foldl (l : LockId) : ∀ (run : List Waiter) (t : State), (run.map Waiter.port).Nodup →
    t.RunGranted (run.foldl (fun x w => x.grantHead l w) t) l run
  | [], t, _ => ⟨.refl t, fun _ _ => rfl, rfl, rfl, fun _ _ _ => rfl, fun _ _ => ⟨rfl, rfl⟩,
      fun i => i.elim0, rfl⟩
  | w :: run, t, hn => by
    rw [List.map_cons, List.nodup_cons] at hn
    have ih := runGranted_foldl l run (t.grantHead l w) hn.2
    have hw := lockWork_grantHead t l w
    rw [List.foldl_cons]
    refine ⟨hw.trans ih.work, fun k hk => ?_, ?_, ?_, fun q k hk => ?_, fun q hq => ?_, fun i => ?_, ?_⟩
    · rw [ih.others k hk, lock_grantHead, if_neg (Ne.symm hk)]
    · rw [ih.last, last_grantHead, List.length_cons, nextGrant_iterate_succ]
    · rw [ih.pool, poolInUse_grantHead, List.length_cons]
      omega
    · rw [ih.elsewhere q k hk, standing_grantHead, if_neg (fun h => hk h.2.symm)]
    · simp only [List.map_cons, List.mem_cons, not_or] at hq
      rw [(ih.untouched q hq.2).1, (ih.untouched q hq.2).2, standing_grantHead, count_grantHead,
        if_neg (fun h => hq.1 h.1.symm), if_neg (Ne.symm hq.1)]
      exact ⟨rfl, rfl⟩
    · refine Fin.cases ?_ (fun j => ?_) i
      · refine ⟨(ih.untouched w.port hn.1).1.trans (standing_grantHead_granted t l w),
          (ih.untouched w.port hn.1).2.trans ?_⟩
        rw [count_grantHead, if_pos rfl]
        rfl
      · have hj : w.port ≠ run[j].port := fun h => hn.1 (h ▸ List.mem_map_of_mem (List.getElem_mem _))
        obtain ⟨a, b⟩ := ih.granted j
        rw [last_grantHead, ← nextGrant_iterate_succ, hw.clock, standing_grantHead,
          if_neg (fun h => hj h.1)] at a
        rw [count_grantHead, if_neg hj] at b
        refine ⟨a.trans ?_, b⟩
        unfold State.changed
        rw [hw.isOpen]
        rfl
    · rw [ih.heard, trace_grantHead, last_grantHead]
      rfl

theorem stopped_hear {u : TraceUnit} (r : Report) (h : u.state = .stopped) :
    (u.hear r).state = .stopped := by rw [hear_of_stopped r h]; exact h

/-- A run of grants goes on with the notice lists. -/
theorem told_foldl_grantHead {l : LockId} : ∀ (run : List Waiter) {t : State} {gets : Port → Bool},
    s.Told t l gets → s.LockWork t → (s.trace.state = .stopped → t.trace.state = .stopped) →
    s.Told (run.foldl (fun x w => x.grantHead l w) t) l
        (fun q => gets q || decide (q ∈ run.map Waiter.port))
  | [], t, gets, h, _, _ => by simpa using h
  | w :: run, t, gets, h, hw, hk => by
    have h1 : s.LockWork (t.grantHead l w) := hw.trans (lockWork_grantHead t l w)
    have h2 : s.Told (t.grantHead l w) l (fun q => gets q || decide (q = w.port)) := by
      unfold State.grantHead
      have hb := (lockWork_takeHead t l w.port).trans (lockWork_grantTo (t.takeHead l w.port) w.port l w.mode w.lease)
      have h3 : s.Told ((t.takeHead l w.port).grantTo w.port l w.mode w.lease) l gets := by
        intro q
        have hq := h q
        have e : s.stopToldTo ((t.takeHead l w.port).grantTo w.port l w.mode w.lease) q = s.stopToldTo t q := by
          simp only [State.stopToldTo, trace_grantTo]
          rfl
        rw [session_grantTo, session_takeHead, e]
        exact hq
      refine told_report (told_recordChange h3 (fun q => (hw.trans hb).isOpen q) w.port .granted)
        (fun q => ((hw.trans hb).trans (lockWork_recordChange _ _ _ _)).isOpen q)
        ((hw.trans hb).trans (lockWork_recordChange _ _ _ _)).supervisor (fun hs => ?_) _
      rw [trace_recordChange]
      exact hk hs
    have h3 := told_foldl_grantHead run h2 h1 (fun hs => by
      rw [trace_grantHead]; exact stopped_hear _ (hk hs))
    rw [List.foldl_cons]
    intro q
    have e : (gets q || decide (q ∈ (w :: run).map Waiter.port)) =
        ((gets q || decide (q = w.port)) || decide (q ∈ run.map Waiter.port)) := by
      simp [List.map_cons, Bool.or_assoc]
    have := h3 q
    simp only [e]
    exact this

/-- A piece of lock work with its hand-off: `t` is the state when the work's own part is done and its reports are
made, `s` the state before it. -/
theorem handsOff_handOff {l : LockId} {ended : List Port} {gets : Port → Bool} {reports : List Report}
    (hw : s.LockWork t) (hk : ∀ k : LockId, k ≠ l → t.lock k = s.lock k)
    (hr : ∀ (q : Port) (k : LockId), k ≠ l → t.standing q k = s.standing q k)
    (hq : ∀ q : Port, q ∉ ended → t.standing q l = s.standing q l ∧ t.count q = s.count q)
    (hn : ((t.lock l).queue.map Waiter.port).Nodup) (he : ∀ w ∈ (t.lock l).queue, w.port ∉ ended)
    (hh : s.Hears t reports) (ht : s.Told t l gets) :
    s.HandsOff (t.handOff l) l (t.lock l) ended gets none reports ∧
      (t.handOff l).poolInUse = t.poolInUse - (t.lock l).handOffRun.length ∧
      ∀ q ∈ ended, (t.handOff l).standing q l = t.standing q l ∧ (t.handOff l).count q = t.count q := by
  have hpre := handOffRun_isPrefix (t.lock l)
  have hin : ∀ w ∈ (t.lock l).handOffRun, w ∈ (t.lock l).queue := fun w h => hpre.subset h
  have hnr : ((t.lock l).handOffRun.map Waiter.port).Nodup := by
    obtain ⟨rest, e⟩ := hpre
    rw [← e, List.map_append] at hn
    exact (List.nodup_append.mp hn).1
  have hout : ∀ q ∈ ended, q ∉ (t.lock l).handOffRun.map Waiter.port := by
    intro q hqe hqm
    obtain ⟨w, hwm, rfl⟩ := List.mem_map.mp hqm
    exact he w (hin w hwm) hqe
  have g : t.RunGranted (t.handOff l) l (t.lock l).handOffRun := runGranted_foldl l _ t hnr
  have hstop : s.trace.state = .stopped → t.trace.state = .stopped := by
    intro hs
    have : t.trace = reports.foldl TraceUnit.hear s.trace := hh
    rw [this, hearAll_of_stopped hs]
    exact hs
  have hwork := hw.trans g.work
  refine ⟨⟨⟨?_, fun k h => ?_, fun q k h => ?_, fun q => hwork.sessions q⟩, ?_, fun i => ?_, fun q h1 h2 => ?_,
    ?_, ?_⟩, g.pool, fun q h => g.untouched q (hout q h)⟩
  · have := hwork.fixed
    rw [this]
  · rw [g.others k h, hk k h]
  · rw [g.elsewhere q k h, hr q k h]
  · rw [lock_handOff, if_pos rfl, hw.clock]
    exact handedOffTo_handedOff s.clock hn
  · have hne : (t.lock l).handOffRun[i].port ∉ ended := he _ (hin _ (List.getElem_mem _))
    obtain ⟨a, b⟩ := g.granted i
    rw [(hq _ hne).1, hw.clock] at a
    rw [(hq _ hne).2] at b
    refine ⟨a.trans ?_, b⟩
    unfold State.changed
    rw [hw.isOpen]
    rfl
  · obtain ⟨a, b⟩ := g.untouched q h2
    exact ⟨a.trans (hq q h1).1, b.trans (hq q h1).2⟩
  · show _ = _
    rw [g.heard, grantReports_eq, List.foldl_append]
    rw [show t.trace = reports.foldl TraceUnit.hear s.trace from hh]
  · exact listsGrow_of_told (told_foldl_grantHead _ ht hw hstop)

/-! ### Lock work in a request -/

/-- Handing on is no part of lock work: it changes link ports alone. -/
theorem handsOff_of_handOn {p : Port} {l : LockId} {e : LockEntry} {ended : List Port} {gets : Port → Bool}
    {caller : Option Port} {reports : List Report}
    (h : (s.handOn p).HandsOff t l e ended gets caller reports) : s.HandsOff t l e ended gets caller reports := h

theorem ownWork_of_handOn {p q : Port} {l : LockId} {e : LockEntry} {r : StandingRecord} {c : PortCounts}
    {n : Nat} {reports : List Report} (h : (s.handOn q).OwnWork t p l e r c n reports) :
    s.OwnWork t p l e r c n reports := h

@[simp] theorem lock_replyStanding (s : State) (p : Port) (l : LockId) (st : Status) (k : LockId) :
    (s.replyStanding p l st).lock k = s.lock k := by
  unfold State.replyStanding
  rw [lock_reply, lock_clearChange]

theorem standing_replyStanding (s : State) (p : Port) (l : LockId) (st : Status) (q : Port) (k : LockId) :
    (s.replyStanding p l st).standing q k =
      if p = q ∧ l = k then (s.standing q k).clear else s.standing q k := by
  unfold State.replyStanding
  rw [standing_reply, standing_clearChange]

@[simp] theorem count_replyStanding (s : State) (p : Port) (l : LockId) (st : Status) (q : Port) :
    (s.replyStanding p l st).count q = s.count q := by
  unfold State.replyStanding
  rw [count_reply, count_clearChange]

@[simp] theorem poolInUse_replyStanding (s : State) (p : Port) (l : LockId) (st : Status) :
    (s.replyStanding p l st).poolInUse = s.poolInUse := by
  unfold State.replyStanding
  rw [poolInUse_reply, poolInUse_clearChange]

@[simp] theorem trace_replyStanding (s : State) (p : Port) (l : LockId) (st : Status) :
    (s.replyStanding p l st).trace = s.trace := by
  unfold State.replyStanding
  rw [trace_reply, trace_clearChange]

theorem session_replyStanding (s : State) (p : Port) (l : LockId) (st : Status) (q : Port) :
    (s.replyStanding p l st).session q =
      if p = q then { s.session q with notices := removeSubject (.lock l) (s.session q).notices }
      else s.session q := by
  unfold State.replyStanding
  rw [session_reply, session_clearChange]

/-- A reply changes nothing but link ports. -/
theorem fixed_reply (s : State) (p : Port) (st : Status) (res : List Byte) :
    s.reply p st res = { s with links := (s.reply p st res).links } := by
  rcases reply_cases s p st res with ⟨-, e⟩ | ⟨b, -, e⟩
  · rw [e]
  · rw [e]
    rfl

/-- The reply that carries the standing report, in terms of frames: what was lock work on `l` stays so. -/
theorem lockFrame_replyStanding {l : LockId} (h : s.LockFrame t l) (p : Port) (st : Status) :
    s.LockFrame (t.replyStanding p l st) l := by
  obtain ⟨h1, h2, h3, h4⟩ := h
  refine ⟨?_, fun k hk => ?_, fun q k hk => ?_, fun q => ?_⟩
  · have e := fixed_reply (t.clearChange p l) p st ((t.clearChange p l).standingReport p l)
    unfold State.replyStanding
    generalize (t.clearChange p l).reply p st ((t.clearChange p l).standingReport p l) = u at e ⊢
    obtain ⟨x, hx⟩ : ∃ x, u = { t.clearChange p l with links := x } := ⟨_, e⟩
    clear e
    subst hx
    have a1 : t.pending = s.pending := by rw [h1]
    have a2 : t.resetAsserted = s.resetAsserted := by rw [h1]
    have a3 : t.baud = s.baud := by rw [h1]
    have a4 : t.supsel = s.supsel := by rw [h1]
    have a5 : t.restartCount = s.restartCount := by rw [h1]
    have a6 : t.restarting = s.restarting := by rw [h1]
    have a7 : t.clock = s.clock := by rw [h1]
    rw [← a1, ← a2, ← a3, ← a4, ← a5, ← a6, ← a7]
    rfl
  · rw [lock_replyStanding, h2 k hk]
  · rw [standing_replyStanding, if_neg (fun h => hk h.2.symm), h3 q k hk]
  · rw [session_replyStanding]
    split
    · rename_i hq
      rw [h4 q]
    · exact h4 q

theorem listsGrow_replyStanding {l : LockId} {gets : Port → Bool} (h : s.ListsGrow t l gets none) (p : Port)
    (st : Status) : s.ListsGrow (t.replyStanding p l st) l gets (some p) := by
  intro q
  have hn : s.newSubjects (t.replyStanding p l st) l gets q = s.newSubjects t l gets q := by
    simp [State.newSubjects, State.stopToldTo]
  rw [hn, session_replyStanding]
  have hq := h q
  simp only [reduceCtorEq, if_false, id] at hq
  by_cases hp : p = q
  · subst hp
    simp only [if_true]
    rcases hq with e | e <;> rw [e]
    · exact Or.inl rfl
    · exact Or.inr rfl
  · simpa [hp] using hq

/-- Lock work whose caller's own record it ended, once the caller is answered (R16, R84). -/
theorem handsOff_replyStanding {p : Port} {l : LockId} {e : LockEntry} {ended : List Port} {gets : Port → Bool}
    {reports : List Report} (h : s.HandsOff t l e ended gets none reports) (hp : p ∈ ended)
    (hr : p ∉ e.runPorts) (st : Status) :
    s.HandsOff (t.replyStanding p l st) l e ended gets (some p) reports := by
  obtain ⟨h1, h2, h3, h4, h5, h6⟩ := h
  refine ⟨lockFrame_replyStanding h1 p st, by rw [lock_replyStanding]; exact h2, fun i => ?_, fun q hq hn => ?_,
    by rw [State.Hears, trace_replyStanding]; exact h5, listsGrow_replyStanding h6 p st⟩
  · have hne : p ≠ e.handOffRun[i].port := by
      intro hpe
      refine hr ?_
      rw [hpe]
      exact List.mem_map_of_mem (List.getElem_mem _)
    rw [standing_replyStanding, if_neg (fun h => hne h.1), count_replyStanding]
    exact h3 i
  · have hne : p ≠ q := fun hpq => hq (hpq ▸ hp)
    rw [standing_replyStanding, if_neg (fun h => hne h.1), count_replyStanding]
    exact h4 q hq hn

/-- A refusal by the lock engine (R16, R17, R84): nothing but the caller's unreported change. -/
theorem refusedOn_refuseStanding {p : Port} {b : Body} (h : s.nextRequest p = some b) (l : LockId)
    (st : Status) :
    s.RefusedOn ((s.handOn p).refuseStanding p l st) p l b st (refusedReport p l st) := by
  have hw := lockWork_report (s.handOn p) (refusedReport p l st)
  have hf : (s.handOn p).LockFrame ((s.handOn p).report (refusedReport p l st)) l := by
    refine ⟨?_, fun k _ => lock_report _ _ k, fun q k _ => standing_report _ _ q k, hw.sessions⟩
    have := hw.fixed
    rw [this]
  have ht : (s.handOn p).Told ((s.handOn p).report (refusedReport p l st)) l (fun _ => false) :=
    told_report (told_refl _ l) (fun _ => rfl) rfl id _
  have hrep : s.Replied ((s.handOn p).refuseStanding p l st) p .waiting
      (replyTo b st (s.standingReport p l)) := by
    have e : (s.handOn p).refuseStanding p l st =
        (((s.handOn p).report (refusedReport p l st)).clearChange p l).reply p st (s.standingReport p l) := by
      unfold State.refuseStanding State.replyStanding
      show State.reply _ p st _ = State.reply _ p st _
      congr 1
      unfold State.standingReport State.standingDetail
      simp only [standing_clearChange, standing_reportRefused, standing_handOn, and_self, if_true,
        lock_clearChange, lock_reportRefused, lock_handOn]
      have hc : (((s.handOn p).reportRefused p (some l) st).clearChange p l).clock = s.clock := by
        show ((s.handOn p).reportRefused p (some l) st).clock = s.clock
        simp
      rw [hc]
      rfl
    rw [e]
    refine replied_taken st _ h fun q => ?_
    show (((s.handOn p).report (refusedReport p l st)).clearChange p l).link q = _
    rw [((lockWork_report _ _).trans (lockWork_clearChange _ p l)).link]
  refine ⟨?_, hrep⟩
  refine ownWork_of_handOn (q := p) ⟨lockFrame_replyStanding hf p st, ?_, ?_, ?_, fun q hq => ?_, ?_, ?_,
    listsGrow_replyStanding (listsGrow_of_told ht) p st⟩
  · unfold State.refuseStanding
    rw [lock_replyStanding, lock_reportRefused, lock_handOn]
  · unfold State.refuseStanding
    rw [standing_replyStanding, if_pos ⟨rfl, rfl⟩, standing_reportRefused, standing_handOn]
    rfl
  · unfold State.refuseStanding
    rw [count_replyStanding, count_reportRefused, count_handOn]
  · unfold State.refuseStanding
    rw [standing_replyStanding, if_neg (fun e => hq e.1.symm), standing_reportRefused, count_replyStanding,
      count_reportRefused]
    exact ⟨rfl, rfl⟩
  · unfold State.refuseStanding
    rw [poolInUse_replyStanding, poolInUse_reportRefused, poolInUse_handOn]
  · show _ = _
    unfold State.refuseStanding
    rw [trace_replyStanding, trace_reportRefused]
    rfl

/-! ### Work that only reports -/

/-- Lists that have grown by TRACE alone, for sessions that changed in nothing else. -/
theorem onlyTraceTold_of_told (h : s.Told t 0 (fun _ => false))
    (hs : ∀ q : Port, (s.session q).SameButNotices (t.session q)) : s.OnlyTraceTold t := by
  intro q
  have hq := hs q
  unfold Session.SameButNotices at hq
  rw [hq]
  congr 1
  have e : s.newSubjects t 0 (fun _ => false) q =
      (if s.stopToldTo t q then [Subject.trace] else []).filter
        (fun x => decide (x ∉ (s.session q).notices)) := by simp [State.newSubjects]
  rw [e]
  rcases h q with e | e <;> rw [e] <;>
    by_cases hm : Subject.trace ∈ (s.session q).notices <;> cases s.stopToldTo t q <;>
    simp [appendIf, appendSubject, hm]

/-- A report reaches the trace unit and, at a stop, a notice list. -/
theorem fixed_report (s : State) (r : Report) :
    s.report r = { s with trace := (s.report r).trace, sessions := (s.report r).sessions } := by
  rcases report_cases s r with e | ⟨q, -, -, -, e⟩ <;> (rw [e]; rfl)

/-- A report adds TRACE to the supervisor's list at a stop, and nothing to the list of a port that is not OPEN. -/
theorem session_report_of_closed (s : State) (r : Report) {p : Port} (h : s.isOpen p = false) :
    (s.report r).session p = s.session p := by
  rcases report_cases s r with e | ⟨q, -, -, ho, e⟩
  · rw [e]
    rfl
  · have hq : q ≠ p := fun hqp => by simp [← hqp, ho] at h
    rw [e, session_notify, if_neg hq]
    rfl

/-! ### A session end -/

/-- The session unit's own part of a session end, with the lock work left to take (R110 steps 1 to 3, R83). -/
theorem sessionEnded_closeOut (s : State) (p : Port) (c : EndCause) (work : Option SessionEnd) :
    s.SessionEnded ((s.closeOut p c).setEnding p work) p c work [] := by
  unfold State.closeOut State.setEnding
  dsimp only
  have hx : { s.session p with
      state := c.state, silenceDeadline := none, silenceLimit := 0, notices := [], credit := 0,
      opening := none, ending := work } = (s.session p).ended c work := rfl
  set x0 : Session := { s.session p with
      state := c.state, silenceDeadline := none, silenceLimit := 0, notices := [], credit := 0, opening := none }
    with hx0
  set u := (s.setSession p x0).clearAllChanges p with hu
  set r : Report := { cls := c.cls, port := p, detail := c.code } with hr
  have hup : u.session p = x0 := by
    show (s.setSession p x0).session p = x0
    simp
  have huq (q : Port) (hq : q ≠ p) : u.session q = s.session q := by
    show (s.setSession p x0).session q = _
    rw [session_setSession, if_neg (Ne.symm hq)]
  have hclosed : u.isOpen p = false := by
    unfold State.isOpen
    rw [hup]
    cases c <;> rfl
  have hopen (q : Port) (hq : q ≠ p) : u.isOpen q = s.isOpen q := by
    unfold State.isOpen
    rw [huq q hq]
  have hp : (u.report r).session p = x0 := by rw [session_report_of_closed u r hclosed, hup]
  have hw := lockWork_report u r
  refine ⟨?_, ?_, fun q l => ?_, fun q hq => ?_, ?_⟩
  · have := fixed_report u r
    rw [this]
    rfl
  · rw [session_setSession, if_pos rfl, hp]
    exact hx
  · rw [standing_setSession, standing_report, hu, standing_clearAllChanges]
    by_cases hq : p = q
    · subst hq
      rw [if_pos rfl, if_pos rfl]
      rfl
    · rw [if_neg hq, if_neg (Ne.symm hq)]
      rfl
  · rw [session_setSession, if_neg (Ne.symm hq)]
    have ht := onlyTraceTold_of_told (told_report (told_refl u 0) (fun _ => rfl) rfl id r) hw.sessions q
    rw [ht, huq q hq]
    simp only [State.newSubjects, State.stopToldTo, hopen q hq, huq q hq]
    rfl
  · show _ = _
    rw [trace_setSession, trace_report]
    rfl

/-! ### New sessions -/

/-- The notice lists after a report: TRACE where it stopped the capture (R89). -/
theorem session_report_told (u : State) (r : Report) (q : Port) :
    (u.report r).session q = { u.session q with
      notices := (u.session q).notices ++ (if u.stopToldTo (u.report r) q then [Subject.trace] else []).filter
        fun x => decide (x ∉ (u.session q).notices) } := by
  rw [onlyTraceTold_of_told (told_report (told_refl u 0) (fun _ => rfl) rfl id r)
    (lockWork_report u r).sessions q]
  simp only [State.newSubjects, Bool.false_and, Bool.false_eq_true, if_false, List.nil_append]

/-- The last steps of an OPEN that no session end waits for, from a state `s` whose entry of the port has had the
list extended by `kept` (R103 steps 5 to 7). -/
theorem openFinished_finishOpen {p : Port} {o : Opening} {c : SlotCond} {b : Body} {kept : List Subject}
    (u : State) (hkept : kept = [] ∨ ∃ l : LockId, kept = [.lock l])
    (hu : u.session p = { s.session p with
      state := .opened, opening := (u.session p).opening, number := (u.session p).number,
      silenceLimit := (u.session p).silenceLimit, silenceDeadline := (u.session p).silenceDeadline,
      credit := (u.session p).credit, noticeNumber := (u.session p).noticeNumber
      notices := (s.session p).notices ++ kept.filter (fun x => decide (x ∉ (s.session p).notices)) })
    (hq : ∀ q : Port, q ≠ p → u.session q = s.session q)
    (ht : u.trace = s.trace) (hv : u.supervisor = s.supervisor) (hr : u.restartCount = s.restartCount)
    (hf : (u.link p).fault = (s.link p).fault)
    (hrep : ∀ (v : State) (res : List Byte), (∀ q : Port, v.link q = u.link q) →
      s.Replied (v.reply p .ok res) p c (replyTo b .ok res)) :
    ∃ v : State, u.finishOpen p o = v.afterReply p ∧
      v = { u with sessions := v.sessions, links := v.links, trace := v.trace } ∧
      v.session p = { u.session p with opening := none, notices := (v.session p).notices } ∧
      s.OpenFinished v p o.superseded kept o.retained c b := by
  set s1 := u.setOpening p none with hs1
  set x0 : Session := { u.session p with opening := none } with hx0
  have h1p : s1.session p = x0 := by simp [hs1, State.setOpening, hx0]
  have h1q (q : Port) (h : q ≠ p) : s1.session q = s.session q := by
    rw [hs1, State.setOpening, session_setSession, if_neg (Ne.symm h), hq q h]
  set s2 := if (s1.link p).fault.code.isSome then s1.notify p .fault else s1 with hs2
  set r : Report := { cls := .opened, port := p, detail := dispositionCode o.superseded } with hr0
  set s3 := s2.report r with hs3
  have h2p : s2.session p = { x0 with
      notices := if (s.link p).fault.code = none then x0.notices else appendSubject .fault x0.notices } := by
    have e : (s1.link p).fault = (s.link p).fault := hf
    rw [hs2, e]
    cases hc : (s.link p).fault.code with
    | none => simp [h1p]
    | some y => simp [session_notify, h1p]
  have h2q (q : Port) (h : q ≠ p) : s2.session q = s.session q := by
    rw [hs2]
    split
    · rw [session_notify, if_neg (Ne.symm h), h1q q h]
    · exact h1q q h
  have h2t : s2.trace = s.trace := by
    rw [hs2]
    split <;> exact ht
  have h2v : s2.supervisor = s.supervisor := by
    rw [hs2]
    split <;> exact hv
  have h2l (q : Port) : s2.link q = u.link q := by
    rw [hs2]
    split <;> rfl
  have h2r : s2.restartCount = s.restartCount := by
    rw [hs2]
    split <;> exact hr
  have h2 : s2 = { u with sessions := s2.sessions } := by
    rw [hs2]
    split <;> rfl
  have h3l (q : Port) : s3.link q = u.link q := by rw [hs3, (lockWork_report s2 r).link, h2l]
  have h3r : s3.restartCount = s.restartCount := by
    rw [hs3, ← h2r]
    simp
  have h3 : s3 = { u with sessions := s3.sessions, trace := s3.trace } := by
    rw [hs3, fixed_report s2 r, h2]
  set res := [(s3.session p).number] ++ halfBytes (s3.session p).silenceLimit ++ [countByte (s3.session p).credit] ++
    halfBytes s3.restartCount ++ [countByte o.retained] with hres
  have h3p := session_report_told s2 r p
  rw [← hs3, h2p] at h3p
  set v := s3.reply p .ok res with hfin
  have hts : v.trace = s3.trace := by rw [hfin, trace_reply]
  have hss (q : Port) : v.session q = s3.session q := by rw [hfin, session_reply]
  have hsp : (v.session p).state = .opened := by
    rw [hss, h3p]
    show x0.state = _
    rw [hx0, hu]
  have htold : (s.setSession p (v.session p)).stopToldTo v p =
      s2.stopToldTo s3 p := by
    have e : s2.isOpen p = true := by
      rw [State.isOpen, h2p]
      show (x0.state == _) = true
      rw [hx0, hu]
      rfl
    simp only [State.stopToldTo, e, trace_setSession, supervisor_setSession, isOpen_setSession, if_true, hsp, hts,
      h2t, h2v]
    rfl
  have h3t : s3.trace = s.trace.hear r := by rw [hs3, trace_report, h2t]
  refine ⟨v, rfl, ?_, ?_, ?_, ?_, fun q hqp => ?_, ?_⟩
  · rw [hfin, fixed_reply s3 p .ok res, h3]
  · rw [hss, h3p]
  · show _ = _
    rw [hts, h3t]
    rfl
  · rw [htold, hss, h3p]
    generalize hw : s2.stopToldTo s3 p = told
    have hxn : x0.notices = (s.session p).notices ++ kept.filter (fun x => decide (x ∉ (s.session p).notices)) := by
      rw [hx0, hu]
    dsimp only
    rw [hxn]
    generalize (s.session p).notices = n
    have tr : Subject.trace ∉ kept := by rcases hkept with rfl | ⟨l, rfl⟩ <;> simp
    have fa : Subject.fault ∉ kept := by rcases hkept with rfl | ⟨l, rfl⟩ <;> simp
    by_cases hc : (s.link p).fault.code = none <;> by_cases hm : Subject.fault ∈ n <;>
      by_cases hT : Subject.trace ∈ n <;> cases told <;> simp [hc, appendSubject, hm, hT, tr, fa]
  · rw [hss, hs3, session_report_told s2 r q, h2q q hqp]
    have : s2.stopToldTo s3 q = s.stopToldTo v q := by
      simp only [State.stopToldTo, State.isOpen, h2t, h2v, hts, h2q q hqp]
    rw [← hs3, this]
    simp [State.newSubjects]
  · rw [hfin, session_reply, ← h3r]
    exact hrep s3 res h3l

/-- A list of waiting session ends replaced by itself. -/
theorem setDeferred_self {p : Port} {d : List DeferredEnd} (h : (s.session p).deferred = d) :
    s.setDeferred p d = s := by
  rw [State.setDeferred, ← h]
  exact setSession_session _ _

/-! ### Line faults -/

/-- The notice lists after a fault: FAULT at a latch in an OPEN session (R88), TRACE where the report stopped the
capture (R89). -/
theorem session_linkFault (s : State) (p : Port) (c : FaultCode) (q : Port) :
    (s.linkFault p c).session q = { s.session q with notices := (s.session q).notices ++
      (((if q = p ∧ (s.link p).fault.code = none ∧ s.isOpen p then [Subject.fault] else []) ++
        (if s.stopToldTo (s.linkFault p c) q then [Subject.trace] else [])).filter
          fun x => decide (x ∉ (s.session q).notices)) } := by
  have htrace := trace_linkFault s p c
  generalize hb : s.stopToldTo (s.linkFault p c) q = told
  unfold State.stopToldTo at hb
  rw [htrace] at hb
  unfold State.linkFault
  dsimp only
  set s1 := s.setLink p { s.link p with fault := (s.link p).fault.add c s.clock } with hs1
  set rep : Report := { cls := .linkFault, port := p, detail := c.code }
  have only (u : State) (h1 : u.trace = s.trace) (h2 : u.supervisor = s.supervisor)
      (h3 : u.isOpen q = s.isOpen q) : (u.report rep).session q = { u.session q with
        notices := (u.session q).notices ++ (if told then [Subject.trace] else []).filter
          fun x => decide (x ∉ (u.session q).notices) } := by
    rw [onlyTraceTold_of_told (told_report (told_refl u 0) (fun _ => rfl) rfl id rep)
      (lockWork_report u rep).sessions q]
    simp only [State.newSubjects, State.stopToldTo, trace_report, h1, h2, h3, hb, Bool.false_and]
    rfl
  have hnone : (s.link p).fault.code.isNone = true ↔ (s.link p).fault.code = none := Option.isNone_iff_eq_none
  by_cases hc : ((s.link p).fault.code.isNone && s1.isOpen p) = true
  · rw [if_pos hc, only _ (by simp [hs1]) (by simp [hs1]) (by simp [hs1]), session_notify]
    obtain ⟨hc1, hc2⟩ := Bool.and_eq_true_iff.mp hc
    have ho : s.isOpen p = true := hc2
    by_cases hq : p = q
    · subst hq
      simp only [hnone.mp hc1, ho, and_self, if_true]
      have h0 : s1.session p = s.session p := rfl
      rw [h0]
      by_cases hm : Subject.fault ∈ (s.session p).notices <;> cases told <;>
        by_cases ht : Subject.trace ∈ (s.session p).notices <;> simp [appendSubject, hm, ht]
    · have hq' : ¬ (q = p ∧ (s.link p).fault.code = none ∧ s.isOpen p = true) := fun h => hq h.1.symm
      rw [if_neg hq, if_neg hq']
      rfl
  · have hc' : ¬ (q = p ∧ (s.link p).fault.code = none ∧ s.isOpen p = true) := by
      rintro ⟨-, h1, h2⟩
      exact hc (Bool.and_eq_true_iff.mpr ⟨hnone.mpr h1, h2⟩)
    rw [if_neg hc, only s1 rfl rfl rfl, if_neg hc']
    rfl

/-- A fault detected by a port, with the receiver in HUNT and the break as given (R152, R158). -/
theorem faulted_linkFault (s : State) (p : Port) (c : FaultCode) (b : Bool) :
    s.Faulted ((s.linkFault p c).setLink p { (s.linkFault p c).link p with
      receiver := .hunt, gapDeadline := none, inBreak := b }) p c b := by
  have hl := link_linkFault s p c
  refine ⟨?_, ?_, fun q hq => ?_, ?_, fun q => ?_⟩
  · unfold State.linkFault
    dsimp only
    split
    · rw [fixed_report]
      rfl
    · rw [fixed_report]
      rfl
  · rw [link_setLink, if_pos rfl, hl, if_pos rfl]
    unfold FaultRecord.add FaultRecord.after
    cases (s.link p).fault.code <;> rfl
  · rw [link_setLink, if_neg (Ne.symm hq), hl, if_neg (Ne.symm hq)]
  · show _ = _
    rw [trace_setLink, trace_linkFault]
    rfl
  · rw [session_setLink]
    have hT : s.stopToldTo ((s.linkFault p c).setLink p
        { (s.linkFault p c).link p with receiver := .hunt, gapDeadline := none, inBreak := b }) q =
        s.stopToldTo (s.linkFault p c) q := rfl
    rw [hT]
    exact session_linkFault s p c q

/-! ### Notices -/

/-- A notice handed to the transmitter (R93). -/
theorem noticeFormed_sendNotice (s : State) (p : Port) (body : Body) :
    s.NoticeFormed (s.sendNotice p body) p (s.session p).notices.tail body := by
  unfold State.sendNotice
  refine ⟨rfl, by simp, by simp, fun q hq => ?_⟩
  rw [session_setLink, session_setSession, if_neg (Ne.symm hq), link_setLink, if_neg (Ne.symm hq),
    link_setSession]
  exact ⟨rfl, rfl⟩

end Sys2Proof.Machine
end

