-- ==== Sys2Proof/Laws/Steps.lean ====
section
/-! SUPPORT. Every command is made of a few kinds of step. A property that each kind of step keeps is kept by
every command: `StepLaw.exec`. The property `mid l` is what holds of the state between the ending of a holding or
wait on lock `l` and the hand-off that follows it. -/

namespace Sys2Proof.Machine

/-- The kinds of step that commands are made of, each keeping the property `P`. -/
structure StepLaw (P : State → Prop) (mid : LockId → State → Prop) : Prop where
  -- between an ending and its hand-off
  enter : ∀ s l, P s → mid l s
  midReport : ∀ s l r, mid l s → mid l (s.report r)
  midChange : ∀ s l p c, mid l s → mid l (s.recordChange p l c)
  endHolding : ∀ s p l h, mid l s → (s.lock l).holding p = some h → mid l (s.endHolding p l h)
  leaveQueue : ∀ s p l, mid l s → (s.lock l).waits p = true → mid l (s.leaveQueue p l)
  lower : ∀ s p l h, P s → (s.lock l).holding p = some h → h.mode = .exclusive →
    mid l (s.alterHolding p l { h with mode := .shared })
  handOff : ∀ s l, mid l s → P (s.handOff l)
  -- work of the lock engine
  leaveBehind : ∀ s p l, P s → (s.lock l).waits p = true → (s.lock l).isFirst p = false →
    P (s.leaveQueue p l)
  report : ∀ s r, P s → P (s.report r)
  change : ∀ s p l c, P s → P (s.recordChange p l c)
  clear : ∀ s p l, P s → P (s.clearChange p l)
  grantTo : ∀ s p l m lease, P s → s.isOpen p = true → (s.lock l).config.enabled = true →
    (s.lock l).holding p = none → (s.lock l).waits p = false → (s.lock l).grantable m = true →
    (s.count p).holdings + (s.count p).waits < maxStandings → P (s.grantTo p l m lease)
  enqueue : ∀ s p l m lease limit, P s → s.isOpen p = true → (s.lock l).config.enabled = true →
    (s.lock l).holding p = none → (s.lock l).waits p = false → (s.lock l).grantable m = false →
    (s.count p).holdings + (s.count p).waits < maxStandings → (s.count p).waits < maxWaits →
    s.poolInUse < poolSize → P (s.enqueue p l m lease limit)
  renew : ∀ s p l h d, P s → (s.lock l).holding p = some h →
    P (s.alterHolding p l { h with deadline := d })
  raise : ∀ s p l h, P s → (s.lock l).holding p = some h → (s.lock l).upgradable p = true →
    P (s.raiseHolding p l h)
  lockConfig : ∀ s l c, P s → (c.enabled = true ∨ (s.lock l).inUse = false) →
    P (s.setLock l { s.lock l with config := c })
  -- work of the session unit
  portConfig : ∀ s p c, P s → SilenceRange c.silenceCeiling →
    P (s.setSession p { s.session p with config := c })
  credit : ∀ s p n, P s → s.isOpen p = true → n ≤ maxCredit →
    P (s.setSession p { s.session p with credit := n })
  clearFault : ∀ s p, P s → P ((s.setLink p { s.link p with fault := {} }).unnotify p .fault)
  beginEnd : ∀ s p c d q, P s → (c = .closed → d = .release) →
    (∀ n m, q = .reopen n m → ∃ a : Half, a.toNat ≤ 60000 ∧
      m = silenceLimitFor a (s.session p).config.silenceCeiling) →
    P ((s.closeOut p c).setEnding p (some
      { disposition := d, work := .withdrawing ((s.closeOut p c).waitedLocks p), sequel := q }))
  withdrawn : ∀ s t p l e ls, P s → P t → (s.session p).ending = some e →
    e.work = .withdrawing ls → l ∈ ls →
    t = (if (s.lock l).waits p then s.withdrawWait p l bySessionEnd else s) →
    P (t.setEnding p (some { e with work := .withdrawing (ls.filter (fun k => k != l)) }))
  released : ∀ s t p l e ls, P s → P t → (s.session p).ending = some e →
    e.work = .releasing ls → l ∈ ls →
    t = (match (s.lock l).holding p with
      | some h => s.releaseHolding p l h bySessionEnd
      | none => s) →
    P (t.setEnding p (some { e with work := .releasing (ls.filter (fun k => k != l)) }))
  stage : ∀ (s : State) p e, P (s.setEnding p (some e)) → P (s.setEnding p (some (e.stage (s.heldLocks p))))
  endDone : ∀ (s : State) p e, P (s.setEnding p (some e)) → e.done = true → P (s.setEnding p none)
  undefer : ∀ s p, P s → P (s.setDeferred p [])
  deferSilence : ∀ s p, P s → (s.link p).handedOn.isSome = true →
    P (s.setDeferred p ((s.session p).deferred ++ [.silence]))
  deferDrop : ∀ s p n, P s → (s.link p).handedOn.isSome = true → s.supervisor ≠ some p →
    P (s.setDeferred p ((s.session p).deferred ++ [.drop n]))
  opening : ∀ s p o, P s → (s.isOpen p = true ∨ (s.session p).opening.isSome = true) →
    P (s.setOpening p o)
  notifyFault : ∀ s p, P s → (s.isOpen p = true ∨ (s.session p).opening.isSome = true) →
    (s.link p).fault.code.isSome = true → P ((s.setOpening p none).notify p .fault)
  startOpen : ∀ s p c n, P s → (s.session p).ending = none → n.toNat ≤ 60000 →
    P (s.setSession p ((s.session p).reopened s.clock c
      (silenceLimitFor n (s.session p).config.silenceCeiling)))
  reopen : ∀ (s : State) p e c n, P (s.setEnding p (some e)) → e.done = true →
    e.sequel = .reopen c n →
    P ((s.setEnding p none).setSession p ((s.setEnding p none |>.session p).reopened s.clock c n))
  -- requests
  handOn : ∀ s p b, P s → s.nextRequest p = some b → P (s.handOn p)
  answer : ∀ s p b r, P s → (s.link p).handedOn = some b → P (s.answer p r)
  traceSetup : ∀ s p t, P s → s.supervisor = some p →
    P ((s.setTrace { setup := t, state := t.firstState }).unnotify p .trace)
  traceRead : ∀ s n, P s → P (s.setTrace { s.trace with buffer := s.trace.buffer.drop n })
  restart : ∀ s p b, P s → (s.link p).handedOn = some b → P (s.beginRestart p)
  restarted : ∀ s, P s → P { s with restarting := false, links := s.links.map LinkPort.hunting }
  -- clock, line and pins
  advance : ∀ s, P s → P s.advanceClock
  timer : ∀ s, P s → P (s.setTrace s.trace.tick)
  receiver : ∀ s p r, P s → (r = .hunt ∨ s.receives p = true) → P (s.setReceiver p r)
  fault : ∀ s p c, P s → s.lineActive = true → P (s.linkFault p c)
  silence : ∀ s p, P s → s.isOpen p = true → (s.session p).silenceLimit ≠ 0 →
    P (s.setSession p { s.session p with
      silenceDeadline := some (deadlineAfter s.clock (s.session p).silenceLimit) })
  admitted : ∀ s p b, P s → s.lineActive = true → (s.link p).window.length < windowSize →
    P (s.setLink p { s.link p with
      window := (s.link p).window ++ [{ body := b, cond := .waiting }] })
  breakLevel : ∀ s p b, P s → (b = true → s.resetAsserted = false) →
    P (s.setLink p { s.link p with inBreak := b })
  replyGone : ∀ s p, P s → P (s.replyGone p)
  noticeGone : ∀ s p, P s → P (s.noticeGone p)
  notice : ∀ s p x b, P s → s.noticeSubject p = some x → (∀ l, x ≠ .lock l) → P (s.sendNotice p b)
  standingNotice : ∀ s p, P s → P (s.formStanding p)
  pinReset : ∀ s, P s → P { State.reset with
    pending := s.pending, resetAsserted := true, baud := s.baud, supsel := s.supsel }

/-! ### The lock work a RESTART has taken first -/

/-- What every withdrawal and release keeps is kept by taking all of them (R114). -/
theorem settleEnds_keeps {P : State → Prop}
    (hw : ∀ (s : State) p l, P s → P (s.takeEndWithdrawal p l fun _ t => t))
    (hr : ∀ (s : State) p l, P s → P (s.takeEndRelease p l fun _ t => t)) {s : State} (h : P s) :
    P s.settleEnds := by
  have fold {α : Type} (f : State → α → State) (hf : ∀ t a, P t → P (f t a)) :
      ∀ (as : List α) (t : State), P t → P (as.foldl f t) := by
    intro as
    induction as with
    | nil => exact fun _ h => h
    | cons a as ih => exact fun t h => ih _ (hf t a h)
  exact fold _ (fun t p ht => fold _ (fun u l hu => hr u p l hu) _ _
    (fold _ (fun u l hu => hw u p l hu) _ _ ht)) _ _ h

theorem links_goOnEnding (s : State) (p : Port) (e : SessionEnd) :
    (s.goOnEnding p e fun _ t => t).links = s.links := by
  unfold State.goOnEnding
  dsimp only
  split <;> rfl

/-- The lock work of session ends forms no reply: what follows an end is left out (log entry 19). -/
theorem links_settleEnds (s : State) : s.settleEnds.links = s.links := by
  refine settleEnds_keeps (P := fun t => t.links = s.links) (fun t p l h => ?_) (fun t p l h => ?_) rfl
  · unfold State.takeEndWithdrawal
    split
    · exact h
    · split
      · exact h
      · split
        · dsimp only
          rw [links_goOnEnding]
          split
          · exact (congrArg State.links (lockWork_withdrawWait t p l bySessionEnd).fixed).trans h
          · exact h
        · exact h
  · unfold State.takeEndRelease
    split
    · exact h
    · split
      · exact h
      · split
        · dsimp only
          rw [links_goOnEnding]
          split
          · exact (congrArg State.links (lockWork_releaseHolding t p l _ bySessionEnd).fixed).trans h
          · exact h
        · exact h

namespace StepLaw

variable {P : State → Prop} {mid : LockId → State → Prop} (L : StepLaw P mid)
include L

/-! ### Replies -/

theorem reply {s : State} (h : P s) (p : Port) (st : Status) (res : List Byte) :
    P (s.reply p st res) := by
  rcases reply_cases s p st res with ⟨-, e⟩ | ⟨b, hb, e⟩ <;> rw [e]
  · exact h
  · exact L.answer _ _ _ _ h hb

theorem refuse {s : State} (h : P s) (p : Port) (st : Status) : P (s.refuse p st) :=
  L.reply (L.report _ _ h) _ _ _

theorem replyStanding {s : State} (h : P s) (p : Port) (l : LockId) (st : Status) :
    P (s.replyStanding p l st) :=
  L.reply (L.clear _ _ _ h) _ _ _

theorem refuseStanding {s : State} (h : P s) (p : Port) (l : LockId) (st : Status) :
    P (s.refuseStanding p l st) :=
  L.replyStanding (L.report _ _ h) _ _ _

theorem takeRequest {s : State} (h : P s) (k : Kind) (p : Port) (owner : Body → State → State)
    (ho : ∀ b t, s.nextRequest p = some b → s.messageCheck p k b = none → t = s.handOn p → P t →
      P (owner b t)) :
    P (s.takeRequest k p owner) := by
  rcases takeRequest_cases s k p owner with e | ⟨b, hn, -, ⟨st, -, e⟩ | ⟨hm, e⟩⟩ <;> rw [e]
  · exact h
  · exact L.refuse (L.handOn _ _ _ h hn) _ _
  · exact ho b _ hn hm rfl (L.handOn _ _ _ h hn)

/-! ### Lock work -/

theorem withdrawn' {s : State} (h : P s) {p : Port} {l : LockId}
    (hw : (s.lock l).waits p = true) (c : Option Cause) (r : Report) :
    P (((match c with
      | some c => (s.leaveQueue p l).recordChange p l c
      | none => s.leaveQueue p l).report r).reexamine l ((s.lock l).isFirst p)) := by
  unfold State.reexamine
  cases hf : (s.lock l).isFirst p with
  | true =>
    rw [if_pos rfl]
    refine L.handOff _ _ (L.midReport _ _ _ ?_)
    have := L.leaveQueue _ p l (L.enter _ l h) hw
    cases c with
    | none => exact this
    | some c => exact L.midChange _ _ _ _ this
  | false =>
    rw [if_neg (by simp)]
    refine L.report _ _ ?_
    have := L.leaveBehind _ p l h hw hf
    cases c with
    | none => exact this
    | some c => exact L.change _ _ _ _ this

theorem withdrawWait {s : State} (h : P s) {p : Port} {l : LockId}
    (hw : (s.lock l).waits p = true) (d : Byte) : P (s.withdrawWait p l d) :=
  L.withdrawn' h hw none _

theorem expireWait {s : State} (h : P s) {p : Port} {l : LockId}
    (hw : (s.lock l).waits p = true) : P (s.expireWait p l) :=
  L.withdrawn' h hw (some .waitExpired) _

theorem releaseHolding {s : State} (h : P s) {p : Port} {l : LockId} {x : Holding}
    (hx : (s.lock l).holding p = some x) (d : Byte) : P (s.releaseHolding p l x d) :=
  L.handOff _ _ (L.midReport _ _ _ (L.endHolding _ _ _ _ (L.enter _ l h) hx))

theorem expireLease {s : State} (h : P s) {p : Port} {l : LockId} {x : Holding}
    (hx : (s.lock l).holding p = some x) : P (s.expireLease p l x) :=
  L.handOff _ _ (L.midReport _ _ _ (L.midChange _ _ _ _ (L.endHolding _ _ _ _ (L.enter _ l h) hx)))

/-- The removals of a REVOKE or PURGE, before its hand-off. -/
theorem revokeAll {l : LockId} (c : Cause) (d : Byte) :
    ∀ (qs : List Port) {s : State}, mid l s →
      mid l (qs.foldl (fun t q => t.revokeHolding l c d q) s)
  | [], _, h => h
  | q :: qs, s, h => by
    refine revokeAll c d qs ?_
    show mid l (s.revokeHolding l c d q)
    unfold State.revokeHolding
    split
    · exact h
    · rename_i x hx
      exact L.midReport _ _ _ (L.midChange _ _ _ _ (L.endHolding _ _ _ _ h hx))

theorem purgeAll {l : LockId} :
    ∀ (ws : List Waiter) {s : State}, (∀ w ∈ ws, w ∈ (s.lock l).queue) →
      (ws.map Waiter.port).Nodup → mid l s → mid l (ws.foldl (fun t w => t.purgeWaiter l w) s)
  | [], _, _, _, h => h
  | w :: ws, s, hw, hn, h => by
    rw [List.map_cons, List.nodup_cons] at hn
    refine purgeAll ws ?_ hn.2 ?_
    · intro x hx
      have hxq := hw x (by simp [hx])
      unfold State.purgeWaiter
      simp only [lock_report, lock_recordChange, lock_leaveQueue, if_true, queue_leave,
        List.mem_filter, bne_iff_ne]
      exact ⟨hxq, fun e => hn.1 (e ▸ List.mem_map_of_mem hx)⟩
    · exact L.midReport _ _ _ (L.midChange _ _ _ _ (L.leaveQueue _ _ _ h
        ((waits_iff _ _).mpr ⟨w, hw w (by simp), rfl⟩)))

/-! ### Session ends and OPEN -/

theorem goOnEnding {s : State} {p : Port} {e : SessionEnd} (h : P (s.setEnding p (some e)))
    (finish : SessionEnd → State → State)
    (hf : ∀ e, P (s.setEnding p (some e)) → e.done = true → P (finish e (s.setEnding p none))) :
    P (s.goOnEnding p e finish) := by
  unfold State.goOnEnding
  dsimp only
  have h1 := L.stage _ _ _ h
  split
  · rename_i hd
    exact hf _ h1 hd
  · exact h1

theorem beginEnd' {s : State} (h : P s) (p : Port) (c : EndCause) (d : Disposition)
    (q : EndSequel) (hc : c = .closed → d = .release)
    (hq : ∀ n m, q = .reopen n m → ∃ a : Half, a.toNat ≤ 60000 ∧
      m = silenceLimitFor a (s.session p).config.silenceCeiling)
    (finish : SessionEnd → State → State)
    (hf : ∀ e (t : State), P (t.setEnding p (some e)) → e.done = true → P (finish e (t.setEnding p none))) :
    P (s.beginEnd p c d q finish) :=
  L.goOnEnding (L.beginEnd _ _ _ _ _ h hc hq) finish fun e => hf e _

theorem loseToSilence {s : State} (h : P s) (p : Port) : P (s.loseToSilence p) := by
  unfold State.loseToSilence
  split
  · exact L.beginEnd' h _ _ _ _ (by simp) (by simp) _ (fun _ _ ht hd => L.endDone _ _ _ ht hd)
  · exact h

theorem replyDrop {s : State} (h : P s) (b : Bool) (d : Option Disposition) :
    P (s.replyDrop b d) := by
  unfold State.replyDrop
  split
  · exact h
  · rename_i q _
    dsimp only
    generalize hr : s.reply q .ok [if b then 0 else 1, dispositionCode d] = s1
    have h1 : P s1 := hr ▸ L.reply h _ _ _
    by_cases hd : DeferredEnd.silence ∈ (s1.session q).deferred
    · rw [if_pos hd]; exact L.loseToSilence (L.undefer _ _ h1) _
    · rw [if_neg hd]; exact h1

theorem drop {s : State} (h : P s) (p : Port) (n : Option Disposition) : P (s.drop p n) := by
  unfold State.drop
  split
  · dsimp only
    refine L.beginEnd' ?_ _ _ _ _ (by simp) (by simp) _
      (fun _ _ ht hd => L.replyDrop (L.endDone _ _ _ ht hd) _ _)
    split
    · exact L.report _ _ h
    · exact h
  · exact L.replyDrop h _ _

theorem afterReply {s : State} (h : P s) (p : Port) : P (s.afterReply p) := by
  unfold State.afterReply
  have h0 := L.undefer s p h
  generalize s.setDeferred p [] = t at h0
  induction (s.session p).deferred generalizing t with
  | nil => exact h0
  | cons d ds ih =>
    rw [List.foldl_cons]
    refine ih _ ?_
    cases d with
    | silence => exact L.loseToSilence h0 p
    | drop n => exact L.drop h0 p n

theorem finishOpen {s : State} (h : P s) (p : Port) (o : Opening)
    (hp : s.isOpen p = true ∨ (s.session p).opening.isSome = true) : P (s.finishOpen p o) := by
  unfold State.finishOpen
  dsimp only
  refine L.afterReply (L.reply (L.report _ _ ?_) _ _ _) _
  split
  · rename_i hfault
    exact L.notifyFault _ _ h hp hfault
  · exact L.opening _ _ none h hp

theorem goOnOpening {s : State} (h : P s) (p : Port) (o : Opening)
    (hp : s.isOpen p = true ∨ (s.session p).opening.isSome = true) : P (s.goOnOpening p o) := by
  unfold State.goOnOpening
  split
  · exact L.finishOpen h p o hp
  · exact L.opening _ _ _ h hp

theorem startOpen' {s : State} (h : P s) (p : Port) (c : Byte) (n : Half) (d : Option Disposition)
    (he : (s.session p).ending = none) (hn : n.toNat ≤ 60000) :
    P (s.startOpen p c (silenceLimitFor n (s.session p).config.silenceCeiling) d) := by
  refine L.goOnOpening (L.startOpen _ _ _ _ h he hn) _ _ (Or.inl ?_)
  simp [State.isOpen, Session.reopened]

/-- What follows a session end, once its last work is taken. -/
theorem finishEnd {s : State} {p : Port} {e : SessionEnd} (h : P (s.setEnding p (some e)))
    (hd : e.done = true) : P ((s.setEnding p none).finishEnd p e) := by
  have h0 := L.endDone _ _ _ h hd
  unfold State.finishEnd
  split
  · exact h0
  · exact L.afterReply (L.reply h0 _ _ _) _
  · exact L.replyDrop h0 _ _
  · rename_i c n hq
    refine L.goOnOpening (L.reopen _ _ _ c n h hd hq) _ _ (Or.inl ?_)
    simp [State.isOpen, Session.reopened]

/-! ### The commands -/

theorem takeAcquire {s : State} (h : P s) {p : Port} (ho : s.isOpen p = true) (l : LockId) (m : Mode)
    (wait : Bool) (lease limit : Half) : P (s.takeAcquire p l m wait lease limit) := by
  unfold State.takeAcquire
  split
  · rename_i hj
    obtain ⟨h1, h2, h3, h4, h5, -⟩ := judgeAcquire_stands s hj (Or.inl rfl)
    exact L.replyStanding (L.report _ _ (L.grantTo _ _ _ _ _ h ho h1 h2 h3 (h5 rfl) h4)) _ _ _
  · rename_i hj
    obtain ⟨h1, h2, h3, h4, -, h6⟩ := judgeAcquire_stands s hj (Or.inr rfl)
    obtain ⟨h7, h8, h9⟩ := h6 rfl
    exact L.replyStanding (L.report _ _ (L.enqueue _ _ _ _ _ _ h ho h1 h2 h3 h7 h4 h8 h9)) _ _ _
  · exact L.replyStanding (L.report _ _ h) _ _ _
  · exact L.refuseStanding h _ _ _

theorem takeRelease {s : State} (h : P s) (p : Port) (l : LockId) (g : Grant) :
    P (s.takeRelease p l g) := by
  unfold State.takeRelease
  split
  · exact L.refuseStanding h _ _ _
  · rename_i x hx
    exact L.replyStanding (L.releaseHolding h (holderTest_ok hx).1 _) _ _ _

theorem takeWithdraw {s : State} (h : P s) (p : Port) (l : LockId) : P (s.takeWithdraw p l) := by
  unfold State.takeWithdraw
  split
  · rename_i hw
    exact L.replyStanding (L.withdrawWait h hw _) _ _ _
  · exact L.refuseStanding h _ _ _

theorem takeRenew {s : State} (h : P s) (p : Port) (l : LockId) (g : Grant) (n : Half) :
    P (s.takeRenew p l g n) := by
  unfold State.takeRenew
  dsimp only
  split
  · exact L.refuseStanding h _ _ _
  · rename_i x hx
    split
    · exact L.refuseStanding h _ _ _
    · split
      · exact L.refuseStanding h _ _ _
      · exact L.replyStanding (L.renew _ _ _ _ _ h (holderTest_ok hx).1) _ _ _

theorem takeConvert {s : State} (h : P s) (p : Port) (l : LockId) (g : Grant) (m : Mode) :
    P (s.takeConvert p l g m) := by
  unfold State.takeConvert
  split
  · exact L.refuseStanding h _ _ _
  · rename_i x hx
    have hx := (holderTest_ok hx).1
    split
    · exact L.refuseStanding h _ _ _
    · rename_i hne
      split
      · split
        · have hm : x.mode = .exclusive := by
            cases hm : x.mode with
            | shared => exact absurd hm hne
            | exclusive => rfl
          exact L.replyStanding (L.handOff _ _ (L.midReport _ _ _ (L.lower _ _ _ _ h hx hm))) _ _ _
        · exact L.refuseStanding h _ _ _
      · split
        · rename_i hu
          exact L.replyStanding (L.report _ _ (L.raise _ _ _ _ h hx hu)) _ _ _
        · exact L.refuseStanding h _ _ _

theorem takeSetLock {s : State} (h : P s) (p : Port) (l : LockId) (c : LockConfig) :
    P (s.takeSetLock p l c) := by
  unfold State.takeSetLock
  split
  · exact L.reply (L.report _ _ h) _ _ _
  · rename_i hc
    refine L.reply (L.report _ _ (L.lockConfig _ _ _ h ?_)) _ _ _
    cases he : c.enabled with
    | true => exact Or.inl rfl
    | false => right; simpa [he] using hc

theorem takeRevoke {s : State} (h : P s) (p : Port) (l : LockId) (b : Byte) :
    P (s.takeRevoke p l b) := by
  unfold State.takeRevoke
  split
  · exact L.reply (L.report _ _ h) _ _ _
  · dsimp only
    exact L.reply (L.handOff _ _ (L.revokeAll _ _ _ (L.enter _ _ (L.report _ _ h)))) _ _ _

theorem takePurge {s : State} (h : P s) (p : Port) (l : LockId)
    (hn : ((s.lock l).queue.map Waiter.port).Nodup) : P (s.takePurge p l) := by
  unfold State.takePurge
  dsimp only
  refine L.reply (L.handOff _ _ (L.purgeAll _ ?_ hn
    (L.revokeAll _ _ _ (L.enter _ _ (L.report _ _ h))))) _ _ _
  have key : ∀ (qs : List Port) (t : State) (c : Cause) (d : Byte),
      ((qs.foldl (fun t q => t.revokeHolding l c d q) t).lock l).queue = (t.lock l).queue := by
    intro qs
    induction qs with
    | nil => intros; rfl
    | cons q qs ih =>
      intro t c d
      rw [List.foldl_cons, ih]
      unfold State.revokeHolding
      split
      · rfl
      · simp [lock_endHolding]
  intro w hw
  rw [key]
  simpa using hw

theorem takeDrop {s : State} (h : P s) (p q : Port) (d : Option Disposition)
    (hp : s.supervisor = some p) : P (s.takeDrop p q d) := by
  unfold State.takeDrop
  split
  · exact L.refuse h _ _
  · rename_i hq
    split
    · rename_i hw
      refine L.deferDrop _ _ _ h ?_ (by rw [hp]; simpa using Ne.symm hq)
      unfold State.dropWaits at hw
      simp only [Bool.and_eq_true] at hw
      exact hw.1
    · exact L.drop h _ _

theorem takeOpen {s : State} (h : P s) (p : Port) (c : Byte) (n : Half)
    (he : (s.session p).ending = none) (hn : n.toNat ≤ 60000) : P (s.takeOpen p c n) := by
  unfold State.takeOpen
  split
  · refine L.beginEnd' h _ _ _ _ (by simp) (fun m k e => ?_) _ (fun _ _ ht hd => L.finishEnd ht hd)
    cases e
    exact ⟨n, hn, rfl⟩
  · exact L.startOpen' h _ _ _ _ he hn

theorem reattachNext {s : State} (h : P s) (p : Port) : P (s.reattachNext p) := by
  unfold State.reattachNext
  split
  · exact h
  · rename_i o ho
    have hp : s.isOpen p = true ∨ (s.session p).opening.isSome = true := Or.inr (by simp [ho])
    split
    · exact h
    · split
      · refine L.goOnOpening (L.change _ _ _ _ h) _ _ ?_
        rw [(lockWork_recordChange s p _ _).isOpen]
        have := (lockWork_recordChange s p (by assumption) .retained).sessions p
        unfold Session.SameButNotices at this
        rw [this]
        exact hp
      · exact L.goOnOpening h _ _ hp

theorem takeEndWithdrawal {s : State} (h : P s) (p : Port) (l : LockId)
    (finish : SessionEnd → State → State)
    (hf : ∀ e (t : State), P (t.setEnding p (some e)) → e.done = true → P (finish e (t.setEnding p none))) :
    P (s.takeEndWithdrawal p l finish) := by
  unfold State.takeEndWithdrawal
  split
  · exact h
  · rename_i e he
    split
    · exact h
    · rename_i ls hls
      split
      · rename_i hl
        dsimp only
        generalize hs : (if (s.lock l).waits p then s.withdrawWait p l bySessionEnd else s) = t
        have ht : P t := by
          rw [← hs]
          split
          · rename_i hw; exact L.withdrawWait h hw _
          · exact h
        exact L.goOnEnding (L.withdrawn s t p l e ls h ht he hls hl hs.symm) finish fun e => hf e _
      · exact h

theorem takeEndRelease {s : State} (h : P s) (p : Port) (l : LockId)
    (finish : SessionEnd → State → State)
    (hf : ∀ e (t : State), P (t.setEnding p (some e)) → e.done = true → P (finish e (t.setEnding p none))) :
    P (s.takeEndRelease p l finish) := by
  unfold State.takeEndRelease
  split
  · exact h
  · rename_i e he
    split
    · exact h
    · rename_i ls hls
      split
      · rename_i hl
        dsimp only
        cases hx : (s.lock l).holding p with
        | none =>
          exact L.goOnEnding (L.released s s p l e ls h h he hls hl (by rw [hx])) finish fun e => hf e _
        | some x =>
          exact L.goOnEnding (L.released s _ p l e ls h (L.releaseHolding h hx _) he hls hl (by rw [hx]))
            finish fun e => hf e _
      · exact h

/-- The lock work of the session ends in progress, with nothing following (R114). -/
theorem settleEnds {s : State} (h : P s) : P s.settleEnds := by
  have done (p : Port) (e : SessionEnd) (u : State) (hu : P (u.setEnding p (some e))) (hd : e.done = true) :
      P (u.setEnding p none) := L.endDone _ _ _ hu hd
  exact settleEnds_keeps (P := P) (s := s) (fun t p l ht => L.takeEndWithdrawal ht p l _ (done p))
    (fun t p l ht => L.takeEndRelease ht p l _ (done p)) h

theorem takeRestart {s : State} (h : P s) {p : Port} {b : Body} (hb : (s.link p).handedOn = some b) :
    P (s.takeRestart p) := by
  have hl : s.settleEnds.link p = s.link p := congrArg (look · p) (links_settleEnds s)
  exact L.restart s.settleEnds p b (L.settleEnds h) (by rw [hl]; exact hb)

theorem takeSilenceExpiry {s : State} (h : P s) (p : Port) : P (s.takeSilenceExpiry p) := by
  unfold State.takeSilenceExpiry
  split
  · split
    · rename_i hb
      split
      · exact h
      · exact L.deferSilence _ _ h hb
    · exact L.loseToSilence h p
  · exact h

theorem takeLeaseExpiry {s : State} (h : P s) (p : Port) (l : LockId) :
    P (s.takeLeaseExpiry p l) := by
  unfold State.takeLeaseExpiry
  split
  · exact h
  · rename_i x hx
    split
    · exact L.expireLease h hx
    · exact h

theorem takeWaitExpiry {s : State} (h : P s) (p : Port) (l : LockId) :
    P (s.takeWaitExpiry p l) := by
  unfold State.takeWaitExpiry
  split
  · exact h
  · rename_i w hw
    split
    · exact L.expireWait h (by simp [LockEntry.waits, hw])
    · exact h

theorem completeRestart {s : State} (h : P s) : P s.completeRestart := by
  unfold State.completeRestart
  split
  · dsimp only
    split
    · exact L.reply (L.restarted _ h) _ _ _
    · exact L.restarted _ h
  · exact h

theorem refuseUnknown {s : State} (h : P s) (p : Port) : P (s.refuseUnknown p) := by
  unfold State.refuseUnknown
  split
  · exact h
  · rename_i b hb
    split
    · refine L.answer _ _ b _ (L.report _ _ (L.handOn _ _ _ h hb)) ?_
      simpa using handedOn_handOn s hb
    · exact h

theorem discardFrame {s : State} (h : P s) (p : Port) (c : FaultCode)
    (hr : s.lineActive = true) : P (s.discardFrame p c) :=
  L.fault _ _ _ (L.receiver _ _ _ h (Or.inl rfl)) hr

theorem completeFrame {s : State} (h : P s) (p : Port) (b : Body) (hr : s.lineActive = true) :
    P (s.completeFrame p b) := by
  unfold State.completeFrame
  have h1 := L.receiver _ p .hunt h (Or.inl rfl)
  have h2 : P ((s.setReceiver p .hunt).restartSilence p) := by
    unfold State.restartSilence
    dsimp only
    split
    · rename_i hc
      simp only [Bool.and_eq_true, bne_iff_ne] at hc
      exact L.silence _ _ h1 hc.1 hc.2
    · exact h1
  have hr2 : ((s.setReceiver p .hunt).restartSilence p).lineActive = true := by
    unfold State.restartSilence
    dsimp only
    split <;> exact hr
  unfold State.admitFrame
  dsimp only
  split
  · exact L.admitted _ _ _ h2 hr2 (by assumption)
  · exact L.fault _ _ _ h2 hr2

theorem takeCharacter {s : State} (h : P s) (p : Port) (c : Byte) (hr : s.receives p = true) :
    P (s.takeCharacter p c) := by
  have hl : s.lineActive = true := by
    unfold State.receives at hr
    simp only [Bool.and_eq_true] at hr
    exact hr.1
  unfold State.takeCharacter
  split
  · split
    · exact L.receiver _ _ _ h (Or.inr hr)
    · exact h
  · split
    · exact L.receiver _ _ _ h (Or.inr hr)
    · exact L.discardFrame h _ _ hl
  · dsimp only
    split <;> exact L.receiver _ _ _ h (Or.inr hr)
  · exact L.receiver _ _ _ h (Or.inr hr)
  · split
    · exact L.completeFrame h _ _ hl
    · exact L.discardFrame h _ _ hl

theorem takeCharError {s : State} (h : P s) (p : Port) (b : Bool) : P (s.takeCharError p b) := by
  unfold State.takeCharError
  split
  · exact h
  · rename_i hc
    simp only [Bool.or_eq_true, not_or, Bool.not_eq_true] at hc
    dsimp only
    generalize hs : (if s.restarting then s else s.discardFrame p .charError) = t
    have ht : P t ∧ t.resetAsserted = false := by
      rw [← hs]
      split
      · exact ⟨h, hc.1⟩
      · rename_i hn
        refine ⟨L.discardFrame h _ _ ?_, ?_⟩
        · simp [State.lineActive, hc.1, hn]
        · simpa [State.discardFrame, State.setReceiver] using hc.1
    split
    · exact L.breakLevel _ _ _ ht.1 fun _ => ht.2
    · exact ht.1

theorem endBreak {s : State} (h : P s) (p : Port) : P (s.endBreak p) := by
  unfold State.endBreak
  split
  · exact L.receiver _ p .hunt (L.breakLevel s p false h (by simp)) (Or.inl rfl)
  · exact h

theorem notice' {s : State} (h : P s) (p : Port) (b : Body) {x : Subject}
    (hx : s.noticeSubject p = some x) (hl : ∀ l, x ≠ .lock l) : P (s.sendNotice p b) :=
  L.notice _ _ _ _ h hx hl

/-- A property kept by every kind of step, and by the release of RESET, is kept by every command. -/
theorem exec {s t : State} (hs : s.LocksSound) (h : P s) (i : Instr)
    (hr : ∀ b u, s.resetAsserted = true → P { s with resetAsserted := false, baud := b, supsel := u })
    (ht : Machine.exec i s = .next t) : P t := by
  have isOpenHandOn : ∀ {p : Port} {k : Kind} {b : Body} {u : State}, s.messageCheck p k b = none →
      k ≠ .openSession → u = s.handOn p → u.isOpen p = true := by
    intro p k b u hm hk hu
    rw [hu, isOpen_handOn]
    exact isOpen_of_messageCheck s hm hk
  have req : ∀ (k : Kind) (p : Port) (owner : Body → State → State),
      (∀ b u, s.nextRequest p = some b → s.messageCheck p k b = none → u = s.handOn p → P u →
        P (owner b u)) → P (s.takeRequest k p owner) := fun k p owner ho => L.takeRequest h k p owner ho
  cases i <;>
    simp only [Machine.exec, execOpenSession, execReattachHolding, execCloseSession, execPing,
      execCredit, execFaultAck, execAcquire, execRelease, execWithdraw, execRenew, execConvert,
      execQuery, execSetLock, execGetLock, execSetPort, execGetPort, execRevoke, execPurge,
      execDropSession, execRestart, execRestartComplete, execTraceSetup, execTraceStatus,
      execTraceRead, execUnknownKind, execLeaseExpiry, execWaitExpiry, execSilenceExpiry,
      execSessionEndWithdrawal, execSessionEndRelease, execLeaseClockAdvance, execValidFrame,
      execFrameCheck, execFrameShape, execCharError, execBreakEnd, execReceiveGap,
      execStandingNotice, execFaultNotice, execTraceNotice, execReplySent, execNoticeSent,
      execTimeWrapped, execPinReset, execCharacterReceived, execTraceTimerAdvance,
      execResetReleased, Host.Outcome.next.injEq] at ht <;> subst ht
  case openSession p =>
    refine req _ _ _ fun b u hn hm hu h1 => L.takeOpen h1 _ _ _ ?_ ?_
    · rw [hu, session_handOn]; exact (nextRequest_eq_some s hn).2.2.1
    · rw [messageCheck_eq_none_iff] at hm
      simpa [argumentTests] using hm.2.2.2
  case reattachHolding p => exact L.reattachNext h p
  case closeSession p =>
    exact req _ _ _ fun b u hn hm hu h1 =>
      L.beginEnd' h1 _ _ _ _ (fun _ => rfl) (by simp) _ (fun _ _ ht hd => L.finishEnd ht hd)
  case ping p => exact req _ _ _ fun b u hn hm hu h1 => L.reply h1 _ _ _
  case credit p =>
    refine req _ _ _ fun b u hn hm hu h1 => L.reply (L.credit _ _ _ h1 ?_ (Nat.min_le_left _ _)) _ _ _
    exact isOpenHandOn hm (by decide) hu
  case faultAck p =>
    exact req _ _ _ fun b u hn hm hu h1 => L.reply (L.clearFault _ _ h1) _ _ _
  case acquire p =>
    exact req _ _ _ fun b u hn hm hu h1 => L.takeAcquire h1 (isOpenHandOn hm (by decide) hu) _ _ _ _ _
  case release p => exact req _ _ _ fun b u hn hm hu h1 => L.takeRelease h1 _ _ _
  case withdraw p => exact req _ _ _ fun b u hn hm hu h1 => L.takeWithdraw h1 _ _
  case renew p => exact req _ _ _ fun b u hn hm hu h1 => L.takeRenew h1 _ _ _ _
  case convert p => exact req _ _ _ fun b u hn hm hu h1 => L.takeConvert h1 _ _ _ _
  case query p => exact req _ _ _ fun b u hn hm hu h1 => L.reply h1 _ _ _
  case setLock p => exact req _ _ _ fun b u hn hm hu h1 => L.takeSetLock h1 _ _ _
  case getLock p => exact req _ _ _ fun b u hn hm hu h1 => L.reply h1 _ _ _
  case setPort p =>
    refine req _ _ _ fun b u hn hm hu h1 =>
      L.reply (L.report _ _ (L.portConfig _ _ _ h1 ?_)) _ _ _
    rw [messageCheck_eq_none_iff] at hm
    have := hm.2.2.2
    simp only [argumentTests, List.forall_mem_cons, decide_eq_true_eq] at this
    exact this.2.2.1
  case getPort p => exact req _ _ _ fun b u hn hm hu h1 => L.reply h1 _ _ _
  case revoke p => exact req _ _ _ fun b u hn hm hu h1 => L.takeRevoke h1 _ _ _
  case purge p =>
    refine req _ _ _ fun b u hn hm hu h1 => L.takePurge h1 _ _ ?_
    rw [hu, lock_handOn]
    exact (hs _).2.2.1.1
  case dropSession p => exact req _ _ _ fun b u hn hm hu h1 => L.takeDrop h1 _ _ _ (by
    rw [hu, supervisor_handOn]
    exact supervisor_of_messageCheck s hm rfl)
  case restart p =>
    refine req _ _ _ fun b u hn hm hu h1 => L.takeRestart h1 (b := b) ?_
    rw [hu]; exact handedOn_handOn s hn
  case restartComplete => exact L.completeRestart h
  case traceSetup p =>
    refine req _ _ _ fun b u hn hm hu h1 => L.reply (L.traceSetup _ _ _ h1 ?_) _ _ _
    rw [hu, supervisor_handOn]
    exact supervisor_of_messageCheck s hm rfl
  case traceStatus p => exact req _ _ _ fun b u hn hm hu h1 => L.reply h1 _ _ _
  case traceRead p => exact req _ _ _ fun b u hn hm hu h1 => L.reply (L.traceRead _ _ h1) _ _ _
  case unknownKind p => exact L.refuseUnknown h p
  case leaseExpiry p l => exact L.takeLeaseExpiry h p l
  case waitExpiry p l => exact L.takeWaitExpiry h p l
  case silenceExpiry p => exact L.takeSilenceExpiry h p
  case sessionEndWithdrawal p l => exact L.takeEndWithdrawal h p l _ fun _ _ ht hd => L.finishEnd ht hd
  case sessionEndRelease p l => exact L.takeEndRelease h p l _ fun _ _ ht hd => L.finishEnd ht hd
  case leaseClockAdvance => exact L.advance _ h
  case validFrame p b =>
    split
    · rename_i hc
      simp only [Bool.and_eq_true, State.receives] at hc
      exact L.completeFrame h _ _ hc.1.1.1
    · exact h
  case frameCheck p b c =>
    split
    · rename_i hc
      simp only [Bool.and_eq_true, State.receives] at hc
      exact L.discardFrame h _ _ hc.1.1.1.1
    · exact h
  case frameShape p n =>
    split
    · rename_i hc
      simp only [Bool.and_eq_true, State.receives] at hc
      exact L.discardFrame h _ _ hc.1.1.1
    · exact h
  case charError p b => exact L.takeCharError h p b
  case breakEnd p => exact L.endBreak h p
  case receiveGap p =>
    split
    · rename_i hc
      simp only [Bool.and_eq_true, State.receives] at hc
      exact L.discardFrame h _ _ hc.1.1
    · exact h
  case standingNotice p => exact L.standingNotice _ _ h
  case faultNotice p =>
    unfold State.formFault
    split
    · rename_i hx
      exact L.notice' h _ _ hx (by simp)
    · exact h
  case traceNotice p =>
    unfold State.formTrace
    split
    · rename_i hx
      exact L.notice' h _ _ hx (by simp)
    · exact h
  case replySent p => exact L.replyGone _ _ h
  case noticeSent p => exact L.noticeGone _ _ h
  case timeWrapped =>
    unfold State.wrapTimer
    split
    · exact L.timer _ h
    · exact h
  case pinReset => exact L.pinReset _ h
  case characterReceived p c =>
    split
    · rename_i hc; exact L.takeCharacter h p c hc
    · exact h
  case traceTimerAdvance => exact L.timer _ h
  case resetReleased b u =>
    split
    · rename_i hc; exact hr _ _ hc
    · exact h

end StepLaw

end Sys2Proof.Machine
end

