-- ==== Sys2Proof/WellFormed.lean ====
section
/-! DEFINITION. Which commands are well formed: the operands describe an event that can happen on the
line at all. Ports, locks and straps are well formed by their types. -/

namespace Sys2Proof

/-- A well-formed command: a completed frame has a body of 2 to 60 bytes (R164), a frame refused by
its check has check bytes that differ from the computed ones (R152), and a refused length byte is
outside 2 to 60 (R152). -/
def WellFormed : Instr → Bool
  | .validFrame _ body => Machine.goodBody body
  | .frameCheck _ body check => Machine.goodBody body && check != Machine.frameCheckOf body
  | .frameShape _ n => !Machine.goodLength n
  | .openSession _ | .reattachHolding _ | .closeSession _ | .ping _ | .credit _ | .faultAck _
  | .acquire _ | .release _ | .withdraw _ | .renew _ | .convert _ | .query _
  | .setLock _ | .getLock _ | .setPort _ | .getPort _ | .revoke _ | .purge _ | .dropSession _
  | .restart _ | .restartComplete | .traceSetup _ | .traceStatus _ | .traceRead _ | .unknownKind _
  | .leaseExpiry _ _ | .waitExpiry _ _ | .silenceExpiry _ | .sessionEndWithdrawal _ _
  | .sessionEndRelease _ _ | .leaseClockAdvance | .charError _ _ | .breakEnd _ | .receiveGap _
  | .standingNotice _ | .faultNotice _ | .traceNotice _ | .replySent _ | .noticeSent _
  | .timeWrapped | .pinReset | .characterReceived _ _ | .traceTimerAdvance
  | .resetReleased _ _ => true

end Sys2Proof
end

