-- ==== Sys2Proof/Tests/Slice0.lean ====
section
/-! SUPPORT. Tests of single commands on small states, their expected values taken from the worked sequences of
spec/ (each test names its section) or worked out by hand from a rule; and, for every obligation with
hypotheses, a theorem that shows a state and operands that meet them. -/

namespace Sys2Proof.Tests

open Sys2Proof.Machine

set_option Elab.async false

/-! ### Small states -/

/-- P5 is supervisor and every port has an OPEN session with number 1, no limit, credit 0; no trace. -/
def ready : State :=
  { State.reset with supsel := 5, sessions := Vector.replicate 6 { state := .opened, number := 1 } }

/-- The state after a command. -/
def after (c : Instr) (s : State) : State :=
  match exec c s with
  | .next t => t
  | .fault _ => s
  | .refused _ => s

/-- The state with a request waiting in a port's window. -/
def asks (p : Port) (b : Body) (s : State) : State :=
  s.setLink p { s.link p with window := (s.link p).window ++ [{ body := b, cond := .waiting }] }

/-- The state after a port's request has been taken. -/
def ask (p : Port) (b : Body) (s : State) : State :=
  match kindOf b with
  | some k => after (k.request p) (asks p b s)
  | none => after (.unknownKind p) (asks p b s)

/-- The body of the frame a port's transmitter is sending. -/
def sent (p : Port) (s : State) : Body :=
  match (s.link p).transmitter with
  | .sendingReply f => (f.drop 2).take (f.length - 4)
  | .sendingNotice f => (f.drop 2).take (f.length - 4)
  | .free => []

/-- A clock value. -/
def at_ (now : Clock) (s : State) : State := { s with clock := now }

/-- A port's holding of a lock, everywhere the part keeps it. -/
def holds (p : Port) (l : LockId) (m : Mode) (g : Grant) (d : Option Clock) (s : State) : State :=
  ((s.setLock l { (s.lock l).hold p { mode := m, grant := g, deadline := d } with last := g }).setStanding p l
    { s.standing p l with standing := m.held, grant := g, deadline := d }).setCount p (s.count p).addHolding

/-- A port's wait for a lock, everywhere the part keeps it. -/
def waits (p : Port) (l : LockId) (m : Mode) (lease : Half) (d : Option Clock) (s : State) : State :=
  (((s.setLock l ((s.lock l).join { port := p, lock := l, mode := m, lease := lease, deadline := d })).setStanding
    p l { s.standing p l with standing := .waiting }).setCount p (s.count p).addWait).setPool (s.poolInUse + 1)

/-- A port's session entry changed. -/
def session (p : Port) (f : Session → Session) (s : State) : State := s.setSession p (f (s.session p))

/-- A port's link changed. -/
def link (p : Port) (f : LinkPort → LinkPort) (s : State) : State := s.setLink p (f (s.link p))

/-- A lock's configuration. -/
def configured (l : LockId) (c : LockConfig) (last : Grant) (s : State) : State :=
  s.setLock l { s.lock l with config := c, last := last }

/-! ### Well-formed commands -/

theorem test_short_body_ill_formed : WellFormed (.validFrame 0 [0x03]) = false := by decide

theorem test_long_body_ill_formed : WellFormed (.validFrame 0 (List.replicate 61 0)) = false := by decide

theorem test_frame_check_with_long_body_ill_formed :
    WellFormed (.frameCheck 0 (List.replicate 61 0) 0) = false := by decide

theorem test_frame_check_that_matches_ill_formed :
    WellFormed (.frameCheck 0 [0x03, 0x01] (frameCheckOf [0x03, 0x01])) = false := by decide +kernel

theorem test_good_length_no_frame_shape : WellFormed (.frameShape 0 60) = false := by decide

theorem test_well_formed : WellFormed (.validFrame 0 [0x03, 0x01]) = true ∧
    WellFormed (.frameShape 0 61) = true ∧ WellFormed (.frameCheck 0 [0x03, 0x01] 0) = true := by decide +kernel

/-! ### The check of R150 -/

/-- The check of "123456789" under R150's parameters; the expected value is the published one for this CRC, not
the spec's. -/
theorem test_crc : crc16 [0x31, 0x32, 0x33, 0x34, 0x35, 0x36, 0x37, 0x38, 0x39] = 0x29B1 := by decide +kernel

/-! ### Sections 1.6, 2.7, 3.6: acquiring, releasing, withdrawing, converting -/

/-- L5 of section 1.6 before step 1. -/
def drive : State :=
  at_ 50000 (configured 5 { group := 2 } 41 ready)

/-- L5 of section 1.6 after step 1. -/
def driven : State :=
  at_ 50410 (holds 1 5 .exclusive 42 (some 52000) drive)

/-- 1.6 step 1: P1 ACQUIRE L5 EXCLUSIVE TRY, lease 2,000. -/
theorem test_acquire_granted :
    sent 1 (ask 1 [0x10, 0xA1, 5, 2, 0, 0x07, 0xD0, 0, 0] drive) =
        [0x90, 0xA1, 0x01, 3, 0, 0, 0, 42, 0x07, 0xD0] ∧
      ((ask 1 [0x10, 0xA1, 5, 2, 0, 0x07, 0xD0, 0, 0] drive).lock 5).holding 1 =
        some { mode := .exclusive, grant := 42, deadline := some 52000 } := by
  decide +kernel

/-- 1.6 step 3: P3 ACQUIRE L5 EXCLUSIVE WAIT joins the queue. -/
theorem test_acquire_queued :
    sent 3 (ask 3 [0x10, 0xA2, 5, 2, 1, 0, 0, 0, 0] driven) = [0x90, 0xA2, 0x02, 1, 0, 0, 0, 0, 0, 1] ∧
      (ask 3 [0x10, 0xA2, 5, 2, 1, 0, 0, 0, 0] driven).poolInUse = 1 := by
  decide +kernel

/-- 1.6 step 2: P3 QUERY L5. -/
theorem test_query :
    sent 3 (ask 3 [0x15, 0xA3, 5] driven) =
      [0x95, 0xA3, 0x00, 1, 2, 1, 0, 0xFF, 0xFF, 2, 0x02, 0, 0, 0, 0, 0, 42, 0, 0, 0, 0, 0, 0, 0, 0] := by
  decide +kernel

/-- L9 of section 2.7 after step 1, at 21,000: P0 holds it EXCLUSIVE, and P1 S, P2 S, P4 E, P5 S wait. -/
def table9 : State :=
  at_ 21000 (waits 5 9 .shared 0 none (waits 4 9 .exclusive 0 (some 25100) (waits 2 9 .shared 1500 none
    (waits 1 9 .shared 0 none (holds 0 9 .exclusive 100 none (configured 9 { group := 1 } 100 ready))))))

/-- 2.7 step 2: P0 RELEASE L9 #100; the shared run of P1 and P2 is granted. -/
theorem test_release_hands_off :
    sent 0 (ask 0 [0x11, 0xA4, 9, 0, 0, 0, 100] table9) = [0x91, 0xA4, 0x00, 0, 0, 0, 0, 100, 0, 0] ∧
      allPorts.map (fun p => ((ask 0 [0x11, 0xA4, 9, 0, 0, 0, 100] table9).lock 9).holding p) =
        [none, some { mode := .shared, grant := 101, deadline := none },
         some { mode := .shared, grant := 102, deadline := some 22500 }, none, none, none] := by
  decide +kernel

/-- L9 of section 2.7 in its variation, at 21,600: P2 holds it SHARED, and P4 E, P5 S, P3 S wait. -/
def readers9 : State :=
  at_ 21600 (waits 3 9 .shared 0 none (waits 5 9 .shared 0 none (waits 4 9 .exclusive 0 (some 25100)
    (holds 2 9 .shared 102 (some 22500) (configured 9 { group := 1 } 102 ready)))))

/-- 2.7, variation: P4 WITHDRAW L9; P5 and P3 are granted with 103 and 104. -/
theorem test_withdraw_first :
    sent 4 (ask 4 [0x12, 0xA5, 9] readers9) = [0x92, 0xA5, 0x00, 0, 0, 0, 0, 0, 0, 0] ∧
      allPorts.map (fun p => (((ask 4 [0x12, 0xA5, 9] readers9).lock 9).holding p).map Holding.grant) =
        [none, none, some 102, some 104, none, some 103] := by
  decide +kernel

/-- L9 of section 3.6, at 30,500: P1 S #106 with deadline 40,000, P2 S #107. -/
def readers : State :=
  at_ 30500 (holds 2 9 .shared 107 none (holds 1 9 .shared 106 (some 40000) (configured 9 { group := 1 } 105 ready)))

/-- 3.6: P1 CONVERT L9 #106 to E while P2 holds it too. -/
theorem test_convert_denied :
    sent 1 (ask 1 [0x14, 0xA6, 9, 0, 0, 0, 106, 2] readers) = [0x94, 0xA6, 0x2E, 2, 0, 0, 0, 106, 0x25, 0x1C] := by
  decide +kernel

/-- 3.6: P1 CONVERT L9 #106 to E as the sole holder, at 30,820 with 107 issued last. -/
theorem test_convert_up :
    sent 1 (ask 1 [0x14, 0xA7, 9, 0, 0, 0, 106, 2] (at_ 30820 (configured 9 { group := 1 } 107
        (holds 1 9 .shared 106 (some 40000) ready)))) = [0x94, 0xA7, 0x00, 3, 0, 0, 0, 108, 0x23, 0xDC] := by
  decide +kernel

/-! ### Section 4.8: leases -/

/-- L12 of section 4.8 after step 1, at 67,500: P2 E #17, and P4 E waits with lease 3,000. -/
def flash : State :=
  at_ 67500 (waits 4 12 .exclusive 3000 none (holds 2 12 .exclusive 17 (some 69000)
    (configured 12 { group := 3, sharedAllowed := false, policy := .required, maxLease := 5000 } 17 ready)))

/-- 4.8 step 2: P2 RENEW L12 #17, lease 3,000. -/
theorem test_renew :
    sent 2 (ask 2 [0x13, 0xA8, 12, 0, 0, 0, 17, 0x0B, 0xB8] flash) = [0x93, 0xA8, 0x00, 3, 0, 0, 0, 17, 0x0B, 0xB8] ∧
      (((ask 2 [0x13, 0xA8, 12, 0, 0, 0, 17, 0x0B, 0xB8] flash).lock 12).holding 2).bind Holding.deadline =
        some 70500 := by
  decide +kernel

/-- 4.8 step 2: P2 RENEW L12 #17, lease 8,000, at 67,600 with deadline 70,500. -/
theorem test_renew_too_long :
    sent 2 (ask 2 [0x13, 0xA9, 12, 0, 0, 0, 17, 0x1F, 0x40] (at_ 67600 (holds 2 12 .exclusive 17 (some 70500)
        flash))) = [0x93, 0xA9, 0x2A, 3, 0, 0, 0, 17, 0x0B, 0x54] := by
  decide +kernel

/-- 4.8 step 3, order B: the expiry at 69,000 ends P2's holding and grants P4 with 18. -/
theorem test_lease_expiry :
    ((after (.leaseExpiry 2 12) (at_ 69000 flash)).lock 12).holding 4 =
        some { mode := .exclusive, grant := 18, deadline := some 72000 } ∧
      (after (.leaseExpiry 2 12) (at_ 69000 flash)).standing 2 12 =
        { standing := .none, grant := 17, deadline := none, count := 1, cause := some .leaseExpired } := by
  decide +kernel

/-- 4.8 step 3, order A: an expiry that finds its deadline gone does nothing. -/
theorem test_lease_expiry_late :
    after (.leaseExpiry 2 12) (at_ 68999 flash) = at_ 68999 flash := by
  decide +kernel

/-! ### Section 5.8: notices -/

/-- L21 of section 5.8 at 41,050: P1 holds it and P3 waits to 41,050; P3's notice number is 4. -/
def channel : State :=
  at_ 41050 (session 3 (fun x => { x with noticeNumber := 4 }) (waits 3 21 .exclusive 0 (some 41050)
    (holds 1 21 .exclusive 1 none ready)))

/-- 5.8 step 3: P3's wait for L21 runs out. -/
theorem test_wait_expiry :
    (after (.waitExpiry 3 21) channel).standing 3 21 =
        { standing := .none, grant := 0, deadline := none, count := 1, cause := some .waitExpired } ∧
      ((after (.waitExpiry 3 21) channel).session 3).notices = [.lock 21] ∧
      ((after (.waitExpiry 3 21) channel).lock 21).queue = [] := by
  decide +kernel

/-- P3 of section 5.8 after step 4: two changes on L20, the last a revoke, and L21 behind. -/
def revoked : State :=
  at_ 41300 (session 3 (fun x => { x with noticeNumber := 4, notices := [.lock 20, .lock 21] })
    ((ready.setStanding 3 20 { grant := 8, count := 2, cause := some .revoked }).setStanding 3 21
      { count := 1, cause := some .waitExpired }))

/-- 5.8 step 5: P3 CREDIT 1. -/
theorem test_credit :
    sent 3 (ask 3 [0x04, 0xAA, 1] revoked) = [0x84, 0xAA, 0x00, 1] ∧
      ((ask 3 [0x04, 0xAA, 1] revoked).session 3).notices = [.lock 20, .lock 21] := by
  decide +kernel

/-- 5.8 step 5: STANDING #4 for L20. -/
theorem test_standing_notice :
    sent 3 (after (.standingNotice 3) (session 3 (fun x => { x with credit := 1 }) revoked)) =
        [0xE0, 4, 20, 0, 0, 0, 0, 8, 0, 0, 4, 2] ∧
      (after (.standingNotice 3) (session 3 (fun x => { x with credit := 1 }) revoked)).session 3 =
        { ready.session 3 with noticeNumber := 5, notices := [.lock 21] } := by
  decide +kernel

/-- R92: no notice is formed with credit 0. -/
theorem test_no_notice_without_credit :
    after (.standingNotice 3) revoked = revoked := by
  decide +kernel

/-! ### Section 6.7: sessions -/

/-- P2 of section 6.7 at 100,500: OPEN under RETAIN with session 6 and silence deadline 100,500; it holds L30, L31
and L33 and waits for L32. -/
def away : State :=
  at_ 100500 (session 2 (fun x => { x with
      number := 6, credit := 4, silenceLimit := 500, silenceDeadline := some 100500
      config := { lossPolicy := .retain, silenceCeiling := 2000 } })
    (holds 2 33 .exclusive 3 (some 101200) (waits 2 32 .exclusive 0 none (holds 0 32 .exclusive 1 none
      (holds 2 31 .shared 12 none (holds 0 31 .shared 11 none
        (waits 4 30 .exclusive 0 none (holds 2 30 .exclusive 51 (some 108000) ready))))))))

/-- P2 of section 6.7 at 101,910, after steps 1 and 2. -/
def lost : State :=
  at_ 101910 (session 2 (fun x => { x with
      state := .lost, number := 6, config := { lossPolicy := .retain, silenceCeiling := 2000 } })
    (holds 2 31 .shared 12 none (holds 0 31 .shared 11 none
      (waits 4 30 .exclusive 0 none (holds 2 30 .exclusive 51 (some 108000) ready)))))

/-- 6.7 step 1: the silence expiry loses the session, and its withdrawal on L32 is due. -/
theorem test_silence_expiry :
    ((after (.silenceExpiry 2) away).session 2).state = .lost ∧
      ((after (.silenceExpiry 2) away).session 2).number = 6 ∧
      ((after (.silenceExpiry 2) away).session 2).ending =
        some { disposition := .retain, work := .withdrawing [32], sequel := .nothing } := by
  decide +kernel

/-- 6.7 step 1: the withdrawal on L32; the kept holdings stay. -/
theorem test_session_end_withdrawal :
    ((after (.sessionEndWithdrawal 2 32) (after (.silenceExpiry 2) away)).lock 32).queue = [] ∧
      (after (.sessionEndWithdrawal 2 32) (after (.silenceExpiry 2) away)).count 2 = { holdings := 3, waits := 0 } ∧
      ((after (.sessionEndWithdrawal 2 32) (after (.silenceExpiry 2) away)).session 2).ending = none := by
  decide +kernel

/-- 6.7, variation: under RELEASE the release on L30 grants P4 with 52. -/
theorem test_session_end_release :
    ((after (.sessionEndRelease 2 30) (session 2 (fun x => { x with
        ending := some { disposition := .release, work := .releasing [30, 31], sequel := .nothing } }) lost)).lock
          30).holding 4 = some { mode := .exclusive, grant := 52, deadline := none } := by
  decide +kernel

/-- 6.7 step 3: P2 OPEN credit 8, silence 0: session 7, limit 2,000, deadline 103,910; two holdings to reattach. -/
theorem test_open_waits_for_reattachment :
    (ask 2 [0x01, 0xAB, 8, 0, 0] lost).session 2 =
      { state := .opened, number := 7, silenceLimit := 2000, silenceDeadline := some 103910, credit := 8,
        notices := [], noticeNumber := 0, config := { lossPolicy := .retain, silenceCeiling := 2000 },
        ending := none, opening := some { locks := [30, 31], retained := 0, superseded := none },
        deferred := [] } := by
  decide +kernel

/-- 6.7 step 3: after both reattachments the reply says session 7, limit 2,000, credit 8, retained 2. -/
theorem test_reattachment :
    sent 2 (after (.reattachHolding 2) (after (.reattachHolding 2) (ask 2 [0x01, 0xAB, 8, 0, 0] lost))) =
        [0x81, 0xAB, 0x00, 7, 0x07, 0xD0, 8, 0, 0, 2] ∧
      ((after (.reattachHolding 2) (ask 2 [0x01, 0xAB, 8, 0, 0] lost)).standing 2 30).cause = some .retained := by
  decide +kernel

/-- R102, R120: an OPEN asking 9,000 ms over an OPEN session, taken at ceiling 2,000; a SET_PORT to ceiling 500 comes
before the old session's last withdrawal. -/
theorem test_superseding_open_keeps_its_limit :
    ((after (.sessionEndWithdrawal 2 32) (ask 5 [0x22, 0xB2, 2, 0xFF, 1, 0x01, 0xF4]
        (ask 2 [0x01, 0xAB, 8, 0x23, 0x28] away))).session 2).silenceLimit = 2000 := by
  decide +kernel

/-- R130: a DROP_SESSION with RETAIN taken while P2's OPEN is in progress; after the OPEN's reply the new session
is dropped and the answer is ENDED. -/
theorem test_drop_session_waits_for_open :
    sent 5 (ask 5 [0x26, 0xB6, 2, 2] (ask 2 [0x01, 0xAB, 8, 0, 0] lost)) = [] ∧
      sent 5 (after (.reattachHolding 2) (after (.reattachHolding 2)
        (ask 5 [0x26, 0xB6, 2, 2] (ask 2 [0x01, 0xAB, 8, 0, 0] lost)))) = [0xA6, 0xB6, 0x00, 0, 2] ∧
      ((after (.reattachHolding 2) (after (.reattachHolding 2)
        (ask 5 [0x26, 0xB6, 2, 2] (ask 2 [0x01, 0xAB, 8, 0, 0] lost)))).session 2).state = .lost := by
  decide +kernel

/-- 6.7 step 3: a PING in a LOST session. -/
theorem test_ping_refused :
    sent 2 (ask 2 [0x03, 0xAC] lost) = [0x83, 0xAC, 0x14] := by
  decide +kernel

/-- R108: lease clock, restart count, session number. -/
theorem test_ping :
    sent 0 (ask 0 [0x03, 0xAD] (at_ 0x01020304 ready)) = [0x83, 0xAD, 0x00, 1, 2, 3, 4, 0, 0, 1] := by
  decide +kernel

/-- R107: a CLOSE with nothing held is answered at once and leaves the session CLOSED. -/
theorem test_close :
    sent 0 (ask 0 [0x02, 0xAE] ready) = [0x82, 0xAE, 0x00] ∧
      ((ask 0 [0x02, 0xAE] ready).session 0).state = .closed := by
  decide +kernel

/-! ### Section 7.8: supervision -/

/-- L40 of section 7.8 at 200,000: P1, LOST, holds it with 9, and P3 waits. -/
def segment : State :=
  at_ 200000 (session 1 (fun x => { x with state := .lost, config := { x.config with lossPolicy := .retain } })
    (waits 3 40 .exclusive 0 none (holds 1 40 .exclusive 9 none
      (configured 40 { group := 4, sharedAllowed := false } 9 ready))))

/-- 7.8 step 1: SET_LOCK that would disable L40. -/
theorem test_set_lock_in_use :
    sent 5 (ask 5 [0x20, 0xB0, 40, 0, 4, 0, 0, 0xFF, 0xFF] segment) = [0xA0, 0xB0, 0x30] ∧
      (ask 5 [0x20, 0xB0, 40, 0, 4, 0, 0, 0xFF, 0xFF] segment).lock 40 = segment.lock 40 := by
  decide +kernel

/-- 7.8 step 2: REVOKE L40 target P1; P3 is granted with 10. -/
theorem test_revoke :
    sent 5 (ask 5 [0x24, 0xB1, 40, 1] segment) = [0xA4, 0xB1, 0x00, 1] ∧
      ((ask 5 [0x24, 0xB1, 40, 1] segment).lock 40).holding 3 =
        some { mode := .exclusive, grant := 10, deadline := none } ∧
      (ask 5 [0x24, 0xB1, 40, 1] segment).standing 1 40 = { grant := 9 } := by
  decide +kernel

/-- 7.8 step 2: SET_PORT P1. -/
theorem test_set_port :
    ((ask 5 [0x22, 0xB2, 1, 0xFF, 0, 0x07, 0xD0] segment).session 1) =
      { segment.session 1 with config := { groupMask := 0xFF, lossPolicy := .release, silenceCeiling := 2000 } } := by
  decide +kernel

/-- 7.8 step 3: PURGE L40, held by P3 with 10. -/
theorem test_purge :
    sent 5 (ask 5 [0x25, 0xB3, 40] (holds 3 40 .exclusive 10 none ready)) = [0xA5, 0xB3, 0x00, 1, 0] ∧
      (ask 5 [0x25, 0xB3, 40] (holds 3 40 .exclusive 10 none ready)).lock 40 = { last := 10 } := by
  decide +kernel

/-- R124: GET_LOCK of L40. -/
theorem test_get_lock :
    sent 5 (ask 5 [0x21, 0xB4, 40] segment) = [0xA1, 0xB4, 0x00, 1, 4, 0, 0, 0xFF, 0xFF] := by
  decide +kernel

/-- R121: GET_PORT of P1 in section 7.8. -/
theorem test_get_port :
    sent 5 (ask 5 [0x23, 0xB5, 1] segment) =
      [0xA3, 0xB5, 0x00, 0xFF, 1, 0, 0, 2, 1, 0, 0, 1, 0, 0, 0, 0, 0, 0, 0] := by
  decide +kernel

/-- R129: DROP_SESSION of a port with nothing held, disposition RELEASE, and of one that is not OPEN. -/
theorem test_drop_session :
    sent 5 (ask 5 [0x26, 0xB6, 0, 1] ready) = [0xA6, 0xB6, 0x00, 0, 1] ∧
      sent 5 (ask 5 [0x26, 0xB6, 1, 1] segment) = [0xA6, 0xB6, 0x00, 1, 0] := by
  decide +kernel

/-- R131: RESTART clears holdings, keeps last grant numbers and configurations, raises the count. -/
theorem test_restart :
    (ask 5 [0x27, 0xB7] segment).lock 40 = { config := (segment.lock 40).config, last := 9 } ∧
      (ask 5 [0x27, 0xB7] segment).restartCount = 1 ∧ sent 5 (ask 5 [0x27, 0xB7] segment) = [] := by
  decide +kernel

/-- R114: a RESTART taken after P2's session end of section 6.7 under RELEASE: the release on L30 still grants P4 with
52, and the restart removes that holding. -/
theorem test_restart_after_a_session_end :
    (ask 5 [0x27, 0xB7] (session 2 (fun x => { x with
        ending := some { disposition := .release, work := .releasing [30, 31], sequel := .nothing } }) lost)).lock 30 =
      { last := 52 } := by
  decide +kernel

/-- R133: the reply of a RESTART comes with its completion. -/
theorem test_restart_complete :
    sent 5 (after .restartComplete (ask 5 [0x27, 0xB7] segment)) = [0xA7, 0xB7, 0x00, 0, 1] := by
  decide +kernel

/-- R165: a supervisor request at another port, and a request of unknown kind. -/
theorem test_not_supervisor :
    sent 0 (ask 0 [0x27, 0xB8] ready) = [0xA7, 0xB8, 0x15] ∧
      sent 0 (ask 0 [0x77, 0xB9] ready) = [0xFF, 0xB9, 0x10, 0x77] := by
  decide +kernel

/-! ### Section 8.7: trace -/

/-- The capture setup of section 8.7 at P5. -/
def window87 : State :=
  ask 5 [0x30, 0xC0, 1, 1, 10, 1, 10, 1, 0x04, 0xA0, 0x14] ready

/-- 8.7 step 1: the unit is ARMED with an empty buffer. -/
theorem test_trace_setup :
    sent 5 window87 = [0xB0, 0xC0, 0x00] ∧ window87.trace.state = .armed ∧ window87.trace.buffer = [] ∧
      window87.trace.setup.classFilter = 0x04A0 := by
  decide +kernel

/-- 8.7 steps 2 and 3: the start event is the first entry and does not stop the capture; one outside the port filter
does nothing. -/
theorem test_trace_start :
    (window87.report { cls := .leaseExpired, port := 0, lock := some 50, grant := some 1 }).trace = window87.trace ∧
      (window87.report { cls := .leaseExpired, port := 2, lock := some 12, grant := some 20 }).trace.state =
        .running := by
  decide +kernel

/-- The unit of section 8.7 after step 5, with one entry left. -/
def stopped87 : State :=
  { ready with trace := { setup := window87.trace.setup, state := .stopped, stopCause := .stopClass, timer := 80000
                          buffer := [{ report := { cls := .leaseExpired, port := 2, lock := some 12, grant := some 22 },
                                       stamp := 80000, lostAfter := false }] } }

/-- 8.7 step 6: TRACE_READ 4 returns entry 4, in the layout of R170. -/
theorem test_trace_read :
    sent 5 (ask 5 [0x32, 0xC1, 4] stopped87) = [0xB2, 0xC1, 0x00, 1, 3, 1, 0, 0] ++
      [10, 7, 2, 12, 0, 0, 0, 0, 22, 0x01, 0x38, 0x80] := by
  decide +kernel

/-- 8.7 step 6: TRACE_STATUS once the buffer is empty. -/
theorem test_trace_status :
    sent 5 (ask 5 [0x31, 0xC2] { stopped87 with trace := { stopped87.trace with buffer := [] } }) =
      [0xB1, 0xC2, 0x00, 3, 1, 0, 0, 0x01, 0x38, 0x80, 1, 1, 10, 1, 10, 1, 0x04, 0xA0, 0x14] := by
  decide +kernel

/-- 8.7 step 6: TRACE #9 with one entry. -/
theorem test_trace_notice :
    sent 5 (after (.traceNotice 5) (session 5 (fun x => { x with
        credit := 2, noticeNumber := 9, notices := [.trace] }) stopped87)) = [0xE2, 9, 3, 1, 1, 0] := by
  decide +kernel

/-- R142: the advance past 16,777,215 sets TIME_WRAPPED. -/
theorem test_time_wrapped :
    after .timeWrapped { stopped87 with trace := { state := .running, timer := 0xFFFFFF } } =
        { stopped87 with trace := { state := .running, timer := 0, timeWrapped := true } } ∧
      after .traceTimerAdvance { stopped87 with trace := { state := .running, timer := 7 } } =
        { stopped87 with trace := { state := .running, timer := 8 } } := by
  decide +kernel

/-! ### Section 9.8: link ports -/

/-- P5 of section 9.8 at 400,000. -/
def reader : State :=
  at_ 400000 (session 5 (fun x => { x with
    silenceLimit := 1000, silenceDeadline := some 400900, credit := 2, noticeNumber := 12 }) ready)

/-- 9.8 step 1: a frame that fails its check latches FRAME_CHECK, appends FAULT, and leaves the silence deadline. -/
theorem test_frame_check :
    ((after (.frameCheck 5 [0x32, 0x21, 5] 0) reader).link 5).fault =
        { code := some .frameCheck, clock := 400000, further := 0 } ∧
      ((after (.frameCheck 5 [0x32, 0x21, 5] 0) reader).session 5).notices = [.fault] ∧
      ((after (.frameCheck 5 [0x32, 0x21, 5] 0) reader).session 5).silenceDeadline = some 400900 := by
  decide +kernel

/-- 9.8 step 1: FAULT #12. -/
theorem test_fault_notice :
    sent 5 (after (.faultNotice 5) (after (.frameCheck 5 [0x32, 0x21, 5] 0) reader)) =
      [0xE1, 12, 4, 0x00, 0x06, 0x1A, 0x80, 0] := by
  decide +kernel

/-- P5's window with four answered requests, one reply on the line, at 400,023, and the record latched. -/
def full : State :=
  at_ 400023 (link 5 (fun x => { x with
    window := [0x22, 0x23, 0x24, 0x25].map fun t => { body := [0x32, t, 4], cond := .answered }
    transmitter := .sendingReply [0xB7], replies := [[0xB2, 0x23, 0], [0xB2, 0x24, 0], [0xB2, 0x25, 0]]
    fault := { code := some .frameCheck, clock := 400000, further := 0 } }) reader)

/-- 9.8 step 2: the fifth request is dropped, raises the further-count and restarts the silence timer. -/
theorem test_window_overrun :
    ((after (.validFrame 5 [0x32, 0x26, 4]) full).link 5) = { full.link 5 with
        fault := { code := some .frameCheck, clock := 400000, further := 1 } } ∧
      ((after (.validFrame 5 [0x32, 0x26, 4]) full).session 5).silenceDeadline = some 401023 := by
  decide +kernel

/-- 9.8 step 2: a valid frame with room in the window is admitted. -/
theorem test_valid_frame :
    ((after (.validFrame 5 [0x32, 0x22, 4]) reader).link 5).window =
      [{ body := [0x32, 0x22, 4], cond := .waiting }] := by
  decide +kernel

/-- 9.8 step 3: the slot is freed and the next reply goes. -/
theorem test_reply_sent :
    sent 5 (after (.replySent 5) full) = [0xB2, 0x23, 0] ∧
      ((after (.replySent 5) full).link 5).window.length = 3 := by
  decide +kernel

/-- 9.8 step 4: FAULT_ACK. -/
theorem test_fault_ack :
    sent 5 (ask 5 [0x05, 0x27] (link 5 (fun x => { x with
        fault := { code := some .frameCheck, clock := 400000, further := 1 } }) reader)) =
      [0x85, 0x27, 0x00, 4, 0x00, 0x06, 0x1A, 0x80, 1] := by
  decide +kernel

/-- R157: once a notice has gone, a waiting reply goes. -/
theorem test_notice_sent :
    sent 5 (after (.noticeSent 5) (link 5 (fun x => { x with
      transmitter := .sendingNotice [0xB7], replies := [[0xB2, 0x23, 0]] }) reader)) = [0xB2, 0x23, 0] := by
  decide +kernel

/-- R151: lead and length bytes, and a length outside 2 to 60. -/
theorem test_characters :
    ((after (.characterReceived 5 60) (after (.characterReceived 5 0xB7) reader)).link 5).receiver = .body 60 [] ∧
      ((after (.characterReceived 5 61) (after (.characterReceived 5 0xB7) reader)).link 5).fault.code =
        some .frameShape := by
  decide +kernel

/-- R153: the lead byte sets a gap deadline 4 ms on; before it RECEIVE_GAP does nothing. -/
theorem test_gap_deadline :
    ((after (.characterReceived 5 0xB7) reader).link 5).gapDeadline = some 400004 ∧
      after (.receiveGap 5) (at_ 400003 (after (.characterReceived 5 0xB7) reader)) =
        at_ 400003 (after (.characterReceived 5 0xB7) reader) := by
  decide +kernel

/-- R151, R155: with a high check byte kept that is not the check's, no valid frame can end; the frame [03, 01] has
check 0xE78E. -/
theorem test_wrong_high_check_byte :
    after (.validFrame 5 [0x03, 0x01]) (link 5 (fun x => { x with receiver := .check [0x03, 0x01] (some 0xE6) }) reader) =
      link 5 (fun x => { x with receiver := .check [0x03, 0x01] (some 0xE6) }) reader := by
  decide +kernel

/-- R153, R154: a gap within a frame; a bad stop bit that begins a break; the end of the break. -/
theorem test_gap_and_break :
    ((after (.receiveGap 5) (at_ 400004 (after (.characterReceived 5 0xB7) reader))).link 5).fault.code =
        some .receiveGap ∧
      ((after (.charError 5 true) reader).link 5).inBreak = true ∧
      ((after (.breakEnd 5) (after (.charError 5 true) reader)).link 5).inBreak = false ∧
      ((after (.frameShape 5 1) reader).link 5).fault.code = some .frameShape := by
  decide +kernel

/-- R162: the straps are read when RESET is released. -/
theorem test_reset_pin :
    (after (.resetReleased 3 7) (after .pinReset reader)).lineRate = 3000000 ∧
      (after (.resetReleased 3 7) (after .pinReset reader)).supervisor = none ∧
      (after .leaseClockAdvance (after .pinReset reader)).clock = 0 := by
  decide +kernel

/-- R61: the lease clock wraps. -/
theorem test_clock :
    (after .leaseClockAdvance (at_ 0xFFFFFFFF ready)).clock = 0 := by
  decide +kernel

/-! ### States and operands that meet the hypotheses of each obligation, clause by clause, at the ends of the
ranges its clauses name -/

theorem sound_ready : ready.LocksSound := by decide +kernel

theorem sound_table9 : table9.LocksSound := by decide +kernel

theorem sound_flash : flash.LocksSound := by decide +kernel

theorem sound_lost : lost.LocksSound := by decide +kernel

theorem sound_segment : segment.LocksSound := by decide +kernel

theorem witness_CommandsLeaveTheQueueAlone :
    exec .leaseClockAdvance ready = .next (after .leaseClockAdvance ready) :=
  rfl

theorem witness_IdleAndAbsentCommandsChangeNothing :
    ready.pending = [] ∧ (ready.nextRequest 0).bind kindOf ≠ some .ping ∧
      ((asks 5 [0x32, 1, 1] ready).nextRequest 5).bind kindOf ≠ some .ping ∧
      ((asks 5 [0x32, 1, 1] ready).nextRequest 5).all (fun b => (kindOf b).isSome) = true :=
  by decide +kernel

theorem witness_ChecksRefuseRequests :
    (asks 0 [0x03, 1, 0] ready).nextRequest 0 = some [0x03, 1, 0] ∧ kindOf [0x03, 1, 0] = some .ping ∧
      (asks 0 [0x03, 1, 0] ready).messageCheck 0 .ping [0x03, 1, 0] = some .badLength ∧
      (asks 5 [0x15, 1, 64] ready).nextRequest 5 = some [0x15, 1, 64] ∧ kindOf [0x15, 1, 64] = some .query ∧
      (asks 5 [0x15, 1, 64] ready).messageCheck 5 .query [0x15, 1, 64] = some .noSuchLock ∧
      (asks 0 [0x00, 1] ready).nextRequest 0 = some [0x00, 1] ∧ (∀ k ∈ allKinds, k.code ≠ byteAt [0x00, 1] 0) ∧
      (asks 0 [0xFF, 1] ready).nextRequest 0 = some [0xFF, 1] ∧ ∀ k ∈ allKinds, k.code ≠ byteAt [0xFF, 1] 0 :=
  by decide +kernel

theorem witness_ChecksStandInOrder :
    ([0x03, 1, 0] : Body).length ≠ Kind.ping.bodyLength ∧
      (([0x03, 1] : Body).length = Kind.ping.bodyLength ∧ (State.reset.session 0).state = .closed ∧
        (lost.session 2).state = .lost ∧ ready.isOpen 0 = true) ∧
      (([0x27, 1] : Body).length = Kind.restart.bodyLength ∧ ready.supervisor ≠ some 4 ∧ ready.supervisor = some 5) ∧
      (([0x15, 1, 64] : Body).length = Kind.query.bodyLength ∧ 64 ≤ (byteAt [0x15, 1, 64] 2).toNat ∧
        64 ≤ (byteAt [0x15, 1, 255] 2).toNat) ∧
      (([0x01, 1, 0, 0xEA, 0x60] : Body).length = Kind.openSession.bodyLength ∧
        (halfAt [0x01, 1, 0, 0xEA, 0x60] 3).toNat = 60000 ∧ (halfAt [0x01, 1, 0, 0xEA, 0x61] 3).toNat = 60001) :=
  by decide +kernel

theorem witness_ReadingRequestsOnlyReply :
    (asks 0 [0x03, 1] ready).Takes 0 .ping [0x03, 1] ∧
      (asks 5 [0x21, 1, 0] ready).Takes 5 .getLock [0x21, 1, 0] ∧
      (asks 5 [0x21, 1, 63] ready).Takes 5 .getLock [0x21, 1, 63] ∧
      (asks 5 [0x23, 1, 5] ready).Takes 5 .getPort [0x23, 1, 5] ∧
      (asks 5 [0x31, 1] ready).Takes 5 .traceStatus [0x31, 1] :=
  by decide +kernel

theorem witness_QueryReportsTheLock :
    (asks 0 [0x15, 1, 0] ready).Takes 0 .query [0x15, 1, 0] ∧
      (asks 2 [0x15, 1, 9] table9).Takes 2 .query [0x15, 1, 9] ∧
      (asks 2 [0x15, 1, 63] table9).Takes 2 .query [0x15, 1, 63] :=
  by decide +kernel

/-- The hypotheses of the ACQUIRE statements up to the judgement. -/
abbrev Judged (s : State) (p : Port) (b : Body) (st : Option Status) : Prop :=
  (asks p b s).Takes p .acquire b ∧
    firstFailure ((asks p b s).acquireTests p (lockAt b 2) (modeAt b 3) (flagAt b 4) (halfAt b 5)) = st

theorem witness_AcquireGrants :
    Judged drive 1 [0x10, 1, 5, 2, 0, 0, 0, 0, 0] none ∧ (drive.lock 5).AtOnce .exclusive ∧
      Judged drive 1 [0x10, 1, 5, 2, 0, 0xFF, 0xFF, 0, 0] none ∧
      Judged readers 3 [0x10, 1, 9, 1, 1, 0, 1, 0xFF, 0xFF] none ∧ (readers.lock 9).AtOnce .shared :=
  by decide +kernel

theorem witness_AcquireQueues :
    Judged driven 3 [0x10, 1, 5, 2, 1, 0, 0, 0, 0] none ∧ ¬ (driven.lock 5).AtOnce .exclusive ∧
      Judged readers9 1 [0x10, 1, 9, 1, 1, 0, 0, 0xFF, 0xFF] none ∧ ¬ (readers9.lock 9).AtOnce .shared :=
  by decide +kernel

theorem witness_AcquireRefusals :
    Judged (configured 5 { enabled := false } 0 ready) 1 [0x10, 1, 5, 2, 1, 0, 0, 0, 0] (some .lockDisabled) ∧
      Judged (session 1 (fun x => { x with config := { groupMask := 0xFB } }) drive) 1 [0x10, 1, 5, 2, 1, 0, 0, 0, 0]
        (some .notPermitted) ∧
      Judged segment 4 [0x10, 1, 40, 1, 1, 0, 0, 0, 0] (some .sharedNotAllowed) ∧
      Judged driven 1 [0x10, 1, 5, 1, 1, 0, 0, 0, 0] (some .alreadyHolder) ∧
      Judged table9 1 [0x10, 1, 9, 1, 1, 0, 0, 0, 0] (some .alreadyWaiting) ∧
      Judged flash 0 [0x10, 1, 12, 2, 1, 0, 0, 0, 0] (some .leaseRequired) ∧
      Judged flash 0 [0x10, 1, 12, 2, 1, 0x13, 0x89, 0, 0] (some .leaseTooLong) :=
  by decide +kernel

theorem witness_AcquireRefusals_limits :
    Judged (ready.setCount 1 { holdings := 16, waits := 0 }) 1 [0x10, 1, 5, 2, 1, 0, 0, 0, 0] (some .portLimit) ∧
      Judged driven 3 [0x10, 1, 5, 2, 0, 0, 0, 0, 0] (some .busy) ∧
      Judged (driven.setCount 3 { waits := 8 }) 3 [0x10, 1, 5, 2, 1, 0, 0, 0, 0] (some .portWaitLimit) ∧
      Judged (driven.setPool 48) 3 [0x10, 1, 5, 2, 1, 0, 0, 0, 0] (some .poolFull) :=
  by decide +kernel

/-- The hypotheses of the statements about a request on the caller's own holding. -/
abbrev OnHolding (s : State) (p : Port) (k : Kind) (b : Body) (h : Holding) : Prop :=
  (asks p b s).Takes p k b ∧ ((asks p b s).lock (lockAt b 2)).holding p = some h ∧ h.grant = wordAt b 3

theorem witness_ReleaseEndsTheHolding :
    table9.LocksSound ∧ OnHolding table9 0 .release [0x11, 1, 9, 0, 0, 0, 100]
      { mode := .exclusive, grant := 100, deadline := none } :=
  ⟨sound_table9, by decide +kernel⟩

theorem witness_WithdrawEndsTheWait :
    table9.LocksSound ∧
      ((asks 1 [0x12, 1, 9] table9).Takes 1 .withdraw [0x12, 1, 9] ∧ (table9.lock 9).waits 1 = true) ∧
      ((asks 5 [0x12, 1, 9] table9).Takes 5 .withdraw [0x12, 1, 9] ∧ (table9.lock 9).waits 5 = true ∧
        (table9.lock 9).isFirst 5 = false) :=
  ⟨sound_table9, by decide +kernel⟩

theorem witness_RequestsOnNothingOfTheCallersAreRefused :
    ((asks 1 [0x11, 1, 9, 0, 0, 0, 1] table9).Takes 1 .release [0x11, 1, 9, 0, 0, 0, 1] ∧
        (table9.lock 9).holding 1 = none) ∧
      ((asks 0 [0x11, 1, 9, 0, 0, 0, 99] table9).Takes 0 .release [0x11, 1, 9, 0, 0, 0, 99] ∧
        ((table9.lock 9).holding 0).any (fun h => h.grant != 99) = true) ∧
      (asks 0 [0x13, 1, 9, 0, 0, 0, 99, 0, 1] table9).Takes 0 .renew [0x13, 1, 9, 0, 0, 0, 99, 0, 1] ∧
      (asks 0 [0x14, 1, 9, 0, 0, 0, 99, 2] table9).Takes 0 .convert [0x14, 1, 9, 0, 0, 0, 99, 2] ∧
      ((asks 0 [0x12, 1, 9] table9).Takes 0 .withdraw [0x12, 1, 9] ∧ (table9.lock 9).waits 0 = false) :=
  by decide +kernel

theorem witness_RenewSetsTheLease :
    OnHolding flash 2 .renew [0x13, 1, 12, 0, 0, 0, 17, 0, 0]
        { mode := .exclusive, grant := 17, deadline := some 69000 } ∧ (flash.lock 12).config.policy = .required ∧
      OnHolding flash 2 .renew [0x13, 1, 12, 0, 0, 0, 17, 0x13, 0x88]
        { mode := .exclusive, grant := 17, deadline := some 69000 } ∧
      (flash.lock 12).config.maxLease.toNat = (halfAt [0x13, 1, 12, 0, 0, 0, 17, 0x13, 0x88] 7).toNat ∧
      OnHolding flash 2 .renew [0x13, 1, 12, 0, 0, 0, 17, 0x13, 0x89]
        { mode := .exclusive, grant := 17, deadline := some 69000 } ∧
      OnHolding readers 1 .renew [0x13, 1, 9, 0, 0, 0, 106, 0, 0]
        { mode := .shared, grant := 106, deadline := some 40000 } :=
  by decide +kernel

theorem witness_ConvertDowngrades :
    table9.LocksSound ∧ OnHolding table9 0 .convert [0x14, 1, 9, 0, 0, 0, 100, 1]
        { mode := .exclusive, grant := 100, deadline := none } ∧
      modeAt [0x14, 1, 9, 0, 0, 0, 100, 1] 7 = .shared ∧ (table9.lock 9).config.sharedAllowed = true :=
  ⟨sound_table9, by decide +kernel⟩

theorem witness_ConvertUpgrades :
    OnHolding (holds 1 9 .shared 106 (some 40000) ready) 1 .convert [0x14, 1, 9, 0, 0, 0, 106, 2]
        { mode := .shared, grant := 106, deadline := some 40000 } ∧
      modeAt [0x14, 1, 9, 0, 0, 0, 106, 2] 7 = .exclusive ∧
      (∀ q : Port, q ≠ 1 → ((holds 1 9 .shared 106 (some 40000) ready).lock 9).holding q = none) ∧
      ((holds 1 9 .shared 106 (some 40000) ready).lock 9).queue = [] :=
  by decide +kernel

theorem witness_ConvertRefusals :
    OnHolding readers 1 .convert [0x14, 1, 9, 0, 0, 0, 106, 1]
        { mode := .shared, grant := 106, deadline := some 40000 } ∧
      modeAt [0x14, 1, 9, 0, 0, 0, 106, 1] 7 = .shared ∧
      OnHolding flash 2 .convert [0x14, 1, 12, 0, 0, 0, 17, 1]
        { mode := .exclusive, grant := 17, deadline := some 69000 } ∧
      (flash.lock 12).config.sharedAllowed = false ∧
      OnHolding readers 1 .convert [0x14, 1, 9, 0, 0, 0, 106, 2]
        { mode := .shared, grant := 106, deadline := some 40000 } ∧
      (readers.lock 9).holding 2 ≠ none ∧ (readers9.lock 9).queue ≠ [] :=
  by decide +kernel

theorem witness_HandOffFollowsItsTable :
    LockEntry.Shape {} ∧ (table9.lock 9).Shape ∧ (table9.lock 9).holdsIn .exclusive 0 = true ∧
      ((table9.lock 9).unhold 0).Shape ∧ (∀ q : Port, ((table9.lock 9).unhold 0).holding q = none) ∧
      (((table9.lock 9).unhold 0).queue.map Waiter.mode) = [.shared, .shared, .exclusive, .shared] ∧
      (readers9.lock 9).Shape ∧ (readers9.lock 9).holdsIn .shared 2 = true ∧
      ((readers9.lock 9).queue.map Waiter.mode) = [.exclusive, .shared, .shared] ∧
      ((segment.lock 40).unhold 1).Shape ∧ (((segment.lock 40).unhold 1).queue.map Waiter.mode) = [.exclusive] :=
  by decide +kernel

theorem witness_LeaseExpiryEndsTheHolding :
    (at_ 69000 flash).LocksSound ∧ (((at_ 69000 flash).lock 12).holding 2) =
        some { mode := .exclusive, grant := 17, deadline := some 69000 } ∧
      (at_ 69000 flash).due (some 69000) = true ∧ (at_ 68999 flash).due (some 69000) = false :=
  ⟨sound_flash, by decide +kernel⟩

theorem witness_LeaseExpiryEndsTheHolding_nothing_due :
    (flash.lock 12).holding 0 = none ∧
      ((flash.lock 12).holding 2).all (fun h => flash.due h.deadline == false) = true ∧
      ((table9.lock 9).holding 0).all (fun h => table9.due h.deadline == false) = true :=
  by decide +kernel

theorem witness_WaitExpiryEndsTheWait :
    channel.LocksSound ∧
      (channel.lock 21).waiter 3 =
        some { port := 3, lock := 21, mode := .exclusive, lease := 0, deadline := some 41050 } ∧
      channel.due (some 41050) = true ∧ (at_ 41049 channel).due (some 41050) = false ∧
      (channel.lock 21).waiter 1 = none :=
  by decide +kernel

theorem witness_DeadlinesAreReachedOnTime :
    (1 : Half) ≠ 0 ∧ 0 ≤ (1 : Half).toNat ∧ 1 ≤ (1 : Half).toNat ∧ (65535 : Half) ≠ 0 ∧ 65535 ≤ (65535 : Half).toNat :=
  by decide

theorem witness_ClocksCount :
    ready.resetAsserted = false ∧ ready.trace.state ≠ .running ∧
      ({ ready with trace := { state := .running, timer := 0xFFFFFE } } : State).trace.state = .running ∧
      ({ ready with trace := { state := .running, timer := 0xFFFFFF } } : State).trace.timer = 0xFFFFFF :=
  by decide +kernel

theorem witness_OpenBeginsASession :
    ((asks 2 [0x01, 1, 16, 0, 9] lost).Takes 2 .openSession [0x01, 1, 16, 0, 9] ∧ lost.isOpen 2 = false ∧
        (asks 2 [0x01, 1, 16, 0, 9] lost).WaitingEndsSound ∧ lost.heldLocks 2 = [30, 31]) ∧
      ((asks 0 [0x01, 1, 255, 0xEA, 0x60] State.reset).Takes 0 .openSession [0x01, 1, 255, 0xEA, 0x60] ∧
        State.reset.isOpen 0 = false ∧ (asks 0 [0x01, 1, 255, 0xEA, 0x60] State.reset).WaitingEndsSound ∧
        State.reset.heldLocks 0 = []) ∧
      (asks 0 [0x01, 1, 0, 0, 10] State.reset).Takes 0 .openSession [0x01, 1, 0, 0, 10] ∧
      (asks 0 [0x01, 1, 0, 0, 0] State.reset).Takes 0 .openSession [0x01, 1, 0, 0, 0] :=
  by decide +kernel

theorem witness_OpenSupersedesAnOpenSession :
    (asks 2 [0x01, 1, 8, 0, 0] away).Takes 2 .openSession [0x01, 1, 8, 0, 0] ∧ away.isOpen 2 = true ∧
      (asks 2 [0x01, 1, 8, 0, 0] away).WaitingEndsSound ∧
      limitInForce (halfAt [0x01, 1, 8, 0, 0] 3) (away.session 2).config.silenceCeiling = 2000 ∧
      (asks 2 [0x01, 1, 8, 0, 0] away).endWork 2 .retain (.reopen 8 2000) =
        some { disposition := .retain, work := .withdrawing [32], sequel := .reopen 8 2000 } ∧
      (asks 0 [0x01, 1, 8, 0, 0] ready).Takes 0 .openSession [0x01, 1, 8, 0, 0] ∧ ready.isOpen 0 = true ∧
      (asks 0 [0x01, 1, 8, 0, 0] ready).endWork 0 .release (.reopen 8 0) = none ∧
      (asks 0 [0x01, 1, 8, 0, 0] ready).WaitingEndsSound :=
  by decide +kernel

theorem witness_ReattachmentRecordsRetained :
    (ask 2 [0x01, 1, 8, 0, 0] lost).isOpen 2 = true ∧
      ((ask 2 [0x01, 1, 8, 0, 0] lost).session 2).opening =
        some { locks := [30, 31], retained := 0, superseded := none } ∧
      ((ask 2 [0x01, 1, 8, 0, 0] lost).lock 30).holding 2 ≠ none ∧
      ((after (.leaseExpiry 2 30) (at_ 108000 (ask 2 [0x01, 1, 8, 0, 0] lost))).lock 30).holding 2 = none ∧
      ((after (.reattachHolding 2) (ask 2 [0x01, 1, 8, 0, 0] lost)).session 2).opening =
        some { locks := [31], retained := 1, superseded := none } ∧
      ((after (.reattachHolding 2) (ask 2 [0x01, 1, 8, 0, 0] lost)).link 2).handedOn = some [0x01, 1, 8, 0, 0] :=
  by decide +kernel

theorem witness_CloseEndsTheSession :
    ((asks 0 [0x02, 1] ready).Takes 0 .closeSession [0x02, 1] ∧ (asks 0 [0x02, 1] ready).WaitingEndsSound ∧
        ready.endWork 0 .release .replyClose = none) ∧
      (asks 2 [0x02, 1] away).Takes 2 .closeSession [0x02, 1] ∧ (asks 2 [0x02, 1] away).WaitingEndsSound ∧
      away.endWork 2 .release .replyClose ≠ none :=
  by decide +kernel

theorem witness_CreditAndFaultAckDoTheirOneThing :
    (asks 0 [0x04, 1, 0] ready).Takes 0 .credit [0x04, 1, 0] ∧
      (asks 0 [0x04, 1, 255] ready).Takes 0 .credit [0x04, 1, 255] ∧
      (asks 0 [0x05, 1] ready).Takes 0 .faultAck [0x05, 1] :=
  by decide +kernel

theorem witness_SilenceEndsTheSession :
    (away.isOpen 2 = true ∧ away.due (away.session 2).silenceDeadline = true ∧ (away.link 2).handedOn = none) ∧
      ((link 2 (fun x => { x with window := [{ body := [0x02, 1], cond := .handedOn }] }) away).link 2).handedOn ≠ none ∧
      .silence ∉ (away.session 2).deferred ∧ lost.isOpen 2 = false ∧
      (at_ 100499 away).due (away.session 2).silenceDeadline = false :=
  by decide +kernel

/-- P2 of section 6.7 with a request handed on and session ends waiting for its reply; the supervisor P5 waits for
the reply of its DROP_SESSION. -/
def waiting (ends : List DeferredEnd) (own : List DeferredEnd) (s : State) : State :=
  link 5 (fun x => { x with window := [{ body := [0x26, 1, 2, 0], cond := .handedOn }] })
    (link 2 (fun x => { x with window := [{ body := [0x03, 1], cond := .handedOn }] })
      (session 5 (fun x => { x with deferred := own }) (session 2 (fun x => { x with deferred := ends }) s)))

theorem witness_WaitingSessionEndsAreTaken :
    ((waiting [.silence] [] away).session 2).deferred = .silence :: [] ∧ (waiting [.silence] [] away).isOpen 2 = true ∧
      (waiting [.silence] [] away).due ((waiting [.silence] [] away).session 2).silenceDeadline = true ∧
      (waiting [.silence] [] (at_ 100499 away)).due (away.session 2).silenceDeadline = false ∧
      ((waiting [.drop none, .silence] [.silence] away).session 2).deferred = .drop none :: [.silence] ∧
      (waiting [.drop none, .silence] [.silence] away).supervisor = some 5 ∧
      ((waiting [.drop none, .silence] [.silence] away).link 5).handedOn = some [0x26, 1, 2, 0] ∧
      (∀ x ∈ ((waiting [.drop none, .silence] [.silence] away).session 5).deferred, x = .silence) ∧
      (waiting [.drop none, .silence] [.silence] away).endWork 2 .retain .replyDrop ≠ none ∧
      (waiting [.drop (some .retain)] [] (session 2 (fun x => { x with state := .opened }) lost)).isOpen 2 = true ∧
      (waiting [.drop (some .retain)] [] (session 2 (fun x => { x with state := .opened }) lost)).endWork 2 .retain
        .replyDrop = none ∧ (waiting [.drop none] [] lost).isOpen 2 = false :=
  by decide +kernel

/-- P4's LOST session with the withdrawal on L30 still to be taken. -/
def withdrawing : State :=
  session 4 (fun x => { x with
    state := .lost, ending := some { disposition := .release, work := .withdrawing [30], sequel := .nothing } }) lost

/-- P2's LOST session with the releases on L30 and L31 still to be taken. -/
def releasing : State :=
  session 2 (fun x => { x with
    ending := some { disposition := .release, work := .releasing [30, 31], sequel := .nothing } }) lost

/-- P2 of section 6.7, its session ended, with these locks' withdrawals still to be taken. -/
def ending (ls : List LockId) (d : Disposition) (q : EndSequel) : State :=
  session 2 (fun x => { x with
    state := .lost, ending := some { disposition := d, work := .withdrawing ls, sequel := q } }) away

theorem sound_away : away.LocksSound := by decide +kernel

theorem witness_SessionEndWithdrawsTheWait_work_left :
    (∀ ls d q, (ending ls d q).LocksSound ∧ (ending ls d q).isOpen 2 = false ∧
        ((ending ls d q).session 2).ending = some { disposition := d, work := .withdrawing ls, sequel := q }) ∧
      ([32, 40] : List LockId).filter (fun k => k != 32) ≠ [] ∧ ([32] : List LockId).filter (fun k => k != 32) = [] ∧
      (away.lock 32).waits 2 = true ∧ away.heldLocks 2 = [30, 31, 33] :=
  ⟨fun _ _ _ => ⟨sound_away, rfl, rfl⟩, by decide +kernel⟩

theorem witness_SessionEndWithdrawsTheWait :
    withdrawing.LocksSound ∧ withdrawing.isOpen 4 = false ∧
      (withdrawing.session 4).ending =
        some { disposition := .release, work := .withdrawing [30], sequel := .nothing } ∧
      (withdrawing.lock 30).waits 4 = true ∧ (withdrawing.lock 31).waits 4 = false :=
  ⟨sound_lost, by decide +kernel⟩

theorem witness_SessionEndReleasesTheHolding :
    releasing.LocksSound ∧ releasing.isOpen 2 = false ∧
      (releasing.session 2).ending =
        some { disposition := .release, work := .releasing [30, 31], sequel := .nothing } ∧
      (releasing.lock 30).holding 2 ≠ none ∧ (releasing.lock 33).holding 2 = none :=
  ⟨sound_lost, by decide +kernel⟩

/-- P2's session end with one piece of lock work left, a request of P2 and P5 handed on, and what follows it. -/
def lastPiece (w : EndWork) (d : Disposition) (q : EndSequel) : State :=
  let handed : LinkPort → LinkPort := fun x => { x with window := [{ body := [0x02, 1], cond := .handedOn }] }
  link 5 handed (link 2 handed (session 2 (fun x => { x with
    ending := some { disposition := d, work := w, sequel := q } }) lost))

theorem sound_lastPiece (w : EndWork) (d : Disposition) (q : EndSequel) : (lastPiece w d q).LocksSound := sound_lost

theorem witness_SessionEndsAreFollowedThrough :
    (lastPiece (.releasing [30]) .release .replyClose).LocksSound ∧
      (∀ w d q, (lastPiece w d q).isOpen 2 = false ∧ 
        ((lastPiece w d q).session 2).ending = some { disposition := d, work := w, sequel := q } ∧
        ((lastPiece w d q).link 2).handedOn = some [0x02, 1] ∧
        ((lastPiece w d q).link 5).handedOn = some [0x02, 1] ∧ (lastPiece w d q).supervisor = some 5 ∧
        ∀ x ∈ ((lastPiece w d q).session 5).deferred, x = .silence) ∧
      (lost.lock 30).holding 2 ≠ none ∧ (lost.lock 33).holding 2 = none ∧ (lost.lock 33).waits 2 = false :=
  ⟨sound_lost, fun _ _ _ => ⟨rfl, rfl, rfl, rfl, (by decide +kernel : lost.supervisor = some 5), fun _ h => nomatch h⟩,
    by decide +kernel⟩

theorem witness_ConfigurationIsReplacedWhole :
    (asks 5 [0x22, 1, 5, 0, 1, 0, 10] ready).Takes 5 .setPort [0x22, 1, 5, 0, 1, 0, 10] ∧
      (asks 5 [0x22, 1, 0, 0xFF, 0, 0xEA, 0x60] ready).Takes 5 .setPort [0x22, 1, 0, 0xFF, 0, 0xEA, 0x60] ∧
      (asks 5 [0x20, 1, 63, 1, 7, 0, 1, 0, 1] ready).Takes 5 .setLock [0x20, 1, 63, 1, 7, 0, 1, 0, 1] ∧
      ((asks 5 [0x20, 1, 0, 0, 0, 1, 0, 0xFF, 0xFF] ready).Takes 5 .setLock [0x20, 1, 0, 0, 0, 1, 0, 0xFF, 0xFF] ∧
        (∀ q : Port, (ready.lock 0).holding q = none) ∧ (ready.lock 0).queue = []) :=
  by decide +kernel

theorem witness_OwnersRefuseSupervisorRequests :
    ((asks 5 [0x20, 1, 40, 0, 0, 0, 0, 0, 1] segment).Takes 5 .setLock [0x20, 1, 40, 0, 0, 0, 0, 0, 1] ∧
        (segment.lock 40).holding 1 ≠ none ∧ (segment.lock 40).queue ≠ []) ∧
      ((asks 5 [0x24, 1, 40, 5] segment).Takes 5 .revoke [0x24, 1, 40, 5] ∧ (segment.lock 40).holding 5 = none) ∧
      ((asks 5 [0x24, 1, 0, 0xFF] segment).Takes 5 .revoke [0x24, 1, 0, 0xFF] ∧
        ∀ q : Port, (segment.lock 0).holding q = none) ∧
      (asks 5 [0x26, 1, 5, 0] ready).Takes 5 .dropSession [0x26, 1, 5, 0] ∧ portAt [0x26, 1, 5, 0] 2 = 5 :=
  by decide +kernel

theorem witness_RevokeRemovesHolders :
    segment.LocksSound ∧ (asks 5 [0x24, 1, 40, 1] segment).Takes 5 .revoke [0x24, 1, 40, 1] ∧
      (asks 5 [0x24, 1, 40, 0xFF] segment).Takes 5 .revoke [0x24, 1, 40, 0xFF] ∧
      allPorts.filter (fun q => (byteAt [0x24, 1, 40, 1] 3 == 0xFF || q.val == (byteAt [0x24, 1, 40, 1] 3).toNat) &&
        ((segment.lock 40).holding q).isSome) = [1] ∧
      allPorts.filter (fun q => (byteAt [0x24, 1, 40, 0xFF] 3 == 0xFF ||
        q.val == (byteAt [0x24, 1, 40, 0xFF] 3).toNat) && ((segment.lock 40).holding q).isSome) = [1] :=
  ⟨sound_segment, by decide +kernel⟩

theorem witness_PurgeEmptiesTheLock :
    segment.LocksSound ∧ (asks 5 [0x25, 1, 40] segment).Takes 5 .purge [0x25, 1, 40] ∧
      (asks 5 [0x25, 1, 0] segment).Takes 5 .purge [0x25, 1, 0] :=
  ⟨sound_segment, by decide +kernel⟩

theorem witness_DropSessionEndsTheSession :
    ((asks 5 [0x26, 1, 0, 2] ready).Takes 5 .dropSession [0x26, 1, 0, 2] ∧ portAt [0x26, 1, 0, 2] 2 ≠ 5 ∧
        (asks 5 [0x26, 1, 0, 2] ready).WaitingEndsSound ∧ ready.isOpen 0 = true ∧ (ready.link 0).handedOn = none) ∧
      ((asks 5 [0x26, 1, 1, 0] segment).Takes 5 .dropSession [0x26, 1, 1, 0] ∧ segment.isOpen 1 = false ∧
        (segment.link 1).handedOn.bind kindOf ≠ some .openSession) ∧
      ((asks 5 [0x26, 1, 0, 1] (link 0 (fun x => { x with window := [{ body := [0x01, 1, 0, 0, 0], cond := .handedOn }] })
        ready)).Takes 5 .dropSession [0x26, 1, 0, 1] ∧
        ((link 0 (fun x => { x with window := [{ body := [0x01, 1, 0, 0, 0], cond := .handedOn }] }) ready).link
          0).handedOn ≠ none) :=
  by decide +kernel

theorem witness_RestartClearsAndKeeps :
    (asks 5 [0x27, 1] segment).Takes 5 .restart [0x27, 1] ∧ window87.trace.state = .armed ∧
      stopped87.trace.state = .stopped ∧ ready.trace.state = .off ∧
      ({ stopped87 with trace := { stopped87.trace with state := .running } } : State).trace.buffer.length < 128 ∧
      (ready.session 0).ending = none :=
  by decide +kernel

/-- A RUNNING capture with a full buffer, and P2's session end of section 6.7 with its releases to take. -/
def busyRestart : State :=
  { releasing with trace :=
      { setup := { enable := true }, state := .running,
        buffer := List.replicate 128 { report := { cls := .opened, port := 0 }, stamp := 0, lostAfter := false } } }

theorem witness_RestartClearsAndKeeps_full :
    (asks 5 [0x27, 1] busyRestart).Takes 5 .restart [0x27, 1] ∧ busyRestart.trace.state = .running ∧
      128 ≤ busyRestart.trace.buffer.length ∧ (busyRestart.session 2).ending ≠ none :=
  by decide +kernel

theorem witness_RestartCompletesWithItsReply :
    (ask 5 [0x27, 1] segment).restarting = true ∧ (ask 5 [0x27, 1] segment).supervisor = some 5 ∧
      ((ask 5 [0x27, 1] segment).link 5).handedOn = some [0x27, 1] ∧ ready.restarting = false :=
  by decide +kernel

theorem witness_TraceSetupBeginsAWindow :
    (asks 5 [0x30, 1, 1, 1, 15, 1, 15, 1, 0xFF, 0xFF, 63] ready).Takes 5 .traceSetup
        [0x30, 1, 1, 1, 15, 1, 15, 1, 0xFF, 0xFF, 63] ∧
      (asks 5 [0x30, 1, 0, 0, 0, 0, 0, 0, 0, 0, 0] ready).Takes 5 .traceSetup [0x30, 1, 0, 0, 0, 0, 0, 0, 0, 0, 0] :=
  by decide +kernel

theorem witness_TraceReadDrainsTheHead :
    (asks 5 [0x32, 1, 1] stopped87).Takes 5 .traceRead [0x32, 1, 1] ∧
      (asks 5 [0x32, 1, 4] stopped87).Takes 5 .traceRead [0x32, 1, 4] :=
  by decide +kernel

theorem witness_ReportsReachTheCapture :
    ready.trace.state = .off ∧ stopped87.trace.state = .stopped ∧ window87.trace.state = .armed ∧
      window87.trace.buffer = [] ∧ window87.trace.setup.startClass = .leaseExpired ∧
      window87.trace.setup.portFilter.getLsbD 2 = true ∧ window87.trace.setup.portFilter.getLsbD 0 = false ∧
      ({ window87 with trace := { window87.trace with state := .running } } : State).trace.state = .running :=
  by decide +kernel

theorem witness_ReceiverFollowsItsTable :
    reader.receives 5 = true ∧ (reader.link 5).receiver = .hunt ∧ (2 : Byte).toNat = 2 ∧ (60 : Byte).toNat = 60 ∧
      (1 : Byte).toNat < 2 ∧ 60 < (61 : Byte).toNat ∧
      (link 5 (fun x => { x with receiver := .length }) reader).receives 5 = true ∧
      (link 5 (fun x => { x with receiver := .body 2 [3] }) reader).receives 5 = true ∧
      (link 5 (fun x => { x with receiver := .check [3, 1] none }) reader).receives 5 = true ∧
      (link 5 (fun x => { x with receiver := .check [3, 1] (some 0) }) reader).receives 5 = true :=
  by decide +kernel

theorem witness_ValidFrameIsAdmitted :
    reader.receives 5 = true ∧ (reader.link 5).receiver = .hunt ∧ ([3, 1] : Body).length = 2 ∧
      (List.replicate 60 (7 : Byte)).length = 60 ∧ (reader.link 5).window.length < 4 ∧
      full.receives 5 = true ∧ 4 ≤ (full.link 5).window.length ∧
      (crc16 (BitVec.ofNat 8 ([3, 1] : Body).length :: [3, 1])).extractLsb' 8 8 = 0xE7 ∧
      ((link 5 (fun x => { x with receiver := .check [3, 1] (some 0xE7) }) reader).link 5).receiver =
        .check [3, 1] (some 0xE7) ∧ (0 : Byte) ≠ 0xE7 :=
  by decide +kernel

theorem witness_LineFaultsAreRecorded :
    reader.receives 5 = true ∧ (reader.link 5).receiver = .hunt ∧
      (0 : Half) ≠ crc16 (BitVec.ofNat 8 ([3, 1] : Body).length :: [3, 1]) ∧ (1 : Byte).toNat < 2 ∧
      60 < (61 : Byte).toNat ∧ reader.due ((after (.characterReceived 5 0xB7) reader).link 5).gapDeadline = false ∧
      (at_ 400004 reader).due ((after (.characterReceived 5 0xB7) reader).link 5).gapDeadline = true ∧
      ((link 5 (fun x => { x with inBreak := true }) reader).link 5).inBreak = true :=
  by decide +kernel

theorem witness_TransmitterSendsRepliesInOrder :
    (full.link 5).transmitter = .sendingReply [0xB7] ∧
      ((link 5 (fun x => { x with transmitter := .sendingNotice [0xB7] }) reader).link 5).transmitter =
        .sendingNotice [0xB7] :=
  by decide +kernel

/-- P3 of section 5.8 with a credit of 1. -/
def credited (subjects : List Subject) : State :=
  session 3 (fun x => { x with credit := 1, notices := subjects }) revoked

theorem witness_NoticesReportTheOldestSubject :
    ((credited [.lock 20, .lock 21]).link 3).transmitter = .free ∧
      ((credited [.lock 20, .lock 21]).link 3).replies = [] ∧ 0 < ((credited [.lock 20, .lock 21]).session 3).credit ∧
      (credited [.lock 20, .lock 21]).isOpen 3 = true ∧ ((credited [.lock 20, .lock 21]).link 3).handedOn = none ∧
      ((credited [.lock 20, .lock 21]).session 3).notices = .lock 20 :: [.lock 21] ∧
      ((credited [.fault]).session 3).notices = .fault :: [] ∧ ((credited [.trace]).session 3).notices = .trace :: [] ∧
      (revoked.session 3).credit = 0 ∧ (∀ l : LockId, ((credited [.fault]).session 3).notices.head? ≠ some (.lock l)) ∧
      ((credited [.lock 20]).session 3).notices.head? ≠ some .fault ∧
      ((credited [.lock 20]).session 3).notices.head? ≠ some .trace :=
  by decide +kernel

theorem witness_StandingReportsLastField :
    table9.LocksSound ∧ table9.StandingsAgree ∧
      (table9.lock 9).holding 0 = some { mode := .exclusive, grant := 100, deadline := none } ∧
      ((table9.lock 9).queue.map Waiter.port) = [1, 2, 4, 5] ∧ (table9.lock 9).holding 3 = none ∧
      (table9.lock 9).waits 3 = false :=
  ⟨sound_table9, by decide +kernel, by decide +kernel⟩

theorem witness_PinResetStartsAfresh :
    (after .pinReset reader).resetAsserted = true :=
  by decide +kernel

theorem witness_FramesAreMadeOfCharacters :
    reader.receives 5 = true ∧ (reader.link 5).receiver = .hunt ∧ 2 ≤ ([3, 1] : Body).length ∧
      (List.replicate 60 (7 : Byte)).length ≤ 60 ∧ (0 : Half) ≠ frameCheckOf [3, 1] :=
  by decide +kernel

/-- `table9` with a command waiting keeps every law: the premises of the statements about steps. -/
theorem inv_table9 : ({ table9 with pending := [.leaseClockAdvance] } : State).Inv := by
  have hend : ∀ p : Port, (table9.session p).ending = none := by decide +kernel
  refine ⟨sound_table9, by decide +kernel, by decide +kernel, by decide +kernel, by decide +kernel, by decide +kernel,
    by decide +kernel, by decide +kernel, by decide +kernel, fun p => ?_, by decide +kernel, fun h => absurd h (by decide +kernel)⟩
  show table9.EndSound p
  unfold State.EndSound
  rw [hend p]
  have ho : ∀ q : Port, table9.isOpen q = true := by decide +kernel
  have hc : ∀ q : Port, (table9.session q).state ≠ .closed := by decide +kernel
  exact ⟨fun h => by simp [ho p] at h, fun h => absurd h (hc p)⟩

/-- `table9` with the clock's advance waiting. -/
def ticking : State := { table9 with pending := [.leaseClockAdvance] }

theorem step_ticking : step ticking = .next (after .leaseClockAdvance table9) := rfl

theorem witness_StepsKeepTheLocksSound :
    ticking.LocksSound ∧ step ticking = .next (after .leaseClockAdvance table9) :=
  ⟨inv_table9.1, step_ticking⟩

theorem witness_StepsKeepTheStandingsInStep :
    ticking.LocksSound ∧ ticking.StandingsAgree ∧
      step ticking = .next (after .leaseClockAdvance table9) :=
  ⟨inv_table9.1, inv_table9.2.1, step_ticking⟩

theorem witness_StepsKeepTheCountsAndLimits :
    ticking.LocksSound ∧ ticking.CountsAgree ∧ ticking.WithinLimits ∧
      step ticking = .next (after .leaseClockAdvance table9) :=
  ⟨inv_table9.1, inv_table9.2.2.1, inv_table9.2.2.2.1, step_ticking⟩

theorem witness_StepsKeepTheNoticeLists :
    ticking.LocksSound ∧ ticking.HeldInReset ∧ ticking.ChangesAgree ∧ ticking.NoticesAgree ∧
      step ticking = .next (after .leaseClockAdvance table9) :=
  ⟨inv_table9.1, inv_table9.2.2.2.2.2.2.2.2.2.2.2, inv_table9.2.2.2.2.1, inv_table9.2.2.2.2.2.1, step_ticking⟩

theorem witness_StepsKeepSessionsLinksAndTrace :
    ticking.LocksSound ∧ ticking.SessionsSound ∧ ticking.LinksSound ∧ ticking.trace.Sound ∧
      step ticking = .next (after .leaseClockAdvance table9) :=
  ⟨inv_table9.1, inv_table9.2.2.2.2.2.2.1, inv_table9.2.2.2.2.2.2.2.1, inv_table9.2.2.2.2.2.2.2.2.1,
    step_ticking⟩

theorem witness_StepsKeepSessionEndsAndReset :
    ticking.Inv ∧ step ticking = .next (after .leaseClockAdvance table9) :=
  ⟨inv_table9, step_ticking⟩

theorem witness_GrantNumbersMoveForward :
    table9.LocksSound ∧ Instr.leaseClockAdvance ≠ .pinReset ∧
      exec .leaseClockAdvance table9 = .next (after .leaseClockAdvance table9) :=
  ⟨sound_table9, by decide, rfl⟩

theorem witness_OnlyNamedCommandsWriteWhatLasts :
    exec (.ping 0) ready = .next (after (.ping 0) ready) ∧ Instr.ping 0 ≠ .pinReset ∧
      ∀ b v, Instr.ping 0 ≠ .resetReleased b v :=
  ⟨rfl, by decide, by decide⟩

end Sys2Proof.Tests
end

section
/-! PROOFS. Locks and grants: QUERY, the refusals of ACQUIRE, RELEASE, and the requests on nothing of the
caller's own (Chapters 1 to 4). -/

namespace Sys2Proof.Machine

/-! ### A set of ports as a byte -/

/-- The fold behind `portSetByte`: the bits given at the start, and one for each member met. -/
theorem getLsbD_foldl_portSet (member : Port → Bool) (i : Nat) : ∀ (ports : List Port) (b : Byte),
    (ports.foldl (fun b p => if member p then b ||| BitVec.twoPow 8 p.val else b) b).getLsbD i =
      (b.getLsbD i || ports.any fun p => member p && decide (p.val = i))
  | [], b => by simp
  | p :: ports, b => by
    rw [List.foldl_cons, getLsbD_foldl_portSet member i ports, List.any_cons]
    cases hm : member p with
    | false => simp
    | true =>
      have hp : p.val < 8 := by omega
      simp [BitVec.getLsbD_twoPow, hp, Bool.or_assoc]

theorem getLsbD_portSetByte (member : Port → Bool) (q : Port) :
    (portSetByte member).getLsbD q.val = member q := by
  unfold portSetByte
  rw [getLsbD_foldl_portSet, Bool.eq_iff_iff]
  simp [List.any_eq_true, Fin.val_inj]

/-- A set of the six ports uses the six low bits alone. -/
theorem portSetByte_toNat_lt (member : Port → Bool) : (portSetByte member).toNat < 64 := by
  refine Nat.lt_pow_two_of_testBit (n := 6) _ fun i hi => ?_
  rw [BitVec.testBit_toNat]
  unfold portSetByte
  rw [getLsbD_foldl_portSet, Bool.or_eq_false_iff, List.any_eq_false]
  refine ⟨by simp, fun p _ => ?_⟩
  have hp : p.val ≠ i := by omega
  simp [hp]

variable {s t : State} {p : Port} {b : Body} {l : LockId}

/-! ### The lock requests, taken -/

theorem takeRequest_of_takes {k : Kind} (owner : Body → State → State) (h : s.Takes p k b) :
    s.takeRequest k p owner = owner b (s.handOn p) := by
  obtain ⟨hnext, hkind, hcheck⟩ := h
  exact takeRequest_of_taken s owner hnext hkind hcheck

theorem exec_acquire_of_takes (h : s.Takes p .acquire b) : exec (.acquire p) s = .next
    ((s.handOn p).takeAcquire p (lockAt b 2) (modeAt b 3) (flagAt b 4) (halfAt b 5) (halfAt b 7)) :=
  congrArg Host.Outcome.next (takeRequest_of_takes _ h)

theorem exec_release_of_takes (h : s.Takes p .release b) : exec (.release p) s = .next
    ((s.handOn p).takeRelease p (lockAt b 2) (wordAt b 3)) :=
  congrArg Host.Outcome.next (takeRequest_of_takes _ h)

theorem exec_withdraw_of_takes (h : s.Takes p .withdraw b) : exec (.withdraw p) s = .next
    ((s.handOn p).takeWithdraw p (lockAt b 2)) :=
  congrArg Host.Outcome.next (takeRequest_of_takes _ h)

theorem exec_renew_of_takes (h : s.Takes p .renew b) : exec (.renew p) s = .next
    ((s.handOn p).takeRenew p (lockAt b 2) (wordAt b 3) (halfAt b 7)) :=
  congrArg Host.Outcome.next (takeRequest_of_takes _ h)

theorem exec_convert_of_takes (h : s.Takes p .convert b) : exec (.convert p) s = .next
    ((s.handOn p).takeConvert p (lockAt b 2) (wordAt b 3) (modeAt b 7)) :=
  congrArg Host.Outcome.next (takeRequest_of_takes _ h)

theorem exec_query_of_takes (h : s.Takes p .query b) : exec (.query p) s = .next
    ((s.handOn p).reply p .ok ((s.handOn p).queryResults p (lockAt b 2))) :=
  congrArg Host.Outcome.next (takeRequest_of_takes _ h)

/-! ### A reply to a request just handed on -/

/-- The standing report of a port that does not stand on the lock. -/
theorem standingReport_of_none (h : (s.standing p l).standing = .none) :
    s.standingReport p l = Standing.none.code :: wordBytes (s.standing p l).grant ++ halfBytes 0 := by
  simp [State.standingReport, State.standingDetail, h]

/-- Clearing the unreported change does not show in the standing report (R16, R84). -/
@[simp] theorem standingReport_clearChange (s : State) (p : Port) (l : LockId) :
    (s.clearChange p l).standingReport p l = s.standingReport p l := by
  have hc : (s.clearChange p l).clock = s.clock := (lockWork_clearChange s p l).clock
  unfold State.standingReport State.standingDetail
  rw [standing_clearChange, if_pos ⟨rfl, rfl⟩, lock_clearChange, hc]
  rfl

/-- The reply with the standing report, after any work of the lock engine on the request handed on. -/
theorem replied_replyStanding (h : s.nextRequest p = some b) (hw : (s.handOn p).LockWork t) (l : LockId)
    (st : Status) :
    s.Replied (t.replyStanding p l st) p .waiting (replyTo b st (t.standingReport p l)) := by
  rw [← standingReport_clearChange]
  exact replied_taken st _ h fun q => (hw.trans (lockWork_clearChange t p l)).link q

/-- Lock work that touches only the caller's own record and counts, once the caller is answered (R16, R84). -/
theorem ownWork_replyStanding {reports : List Report} (hf : s.LockFrame t l)
    (ho : ∀ q : Port, q ≠ p → t.standing q l = s.standing q l ∧ t.count q = s.count q)
    (hh : s.Hears t reports) (hg : s.ListsGrow t l (fun _ => false) none) (st : Status) :
    s.OwnWork (t.replyStanding p l st) p l (t.lock l) (t.standing p l).clear (t.count p) t.poolInUse
      reports := by
  refine ⟨lockFrame_replyStanding hf p st, lock_replyStanding t p l st l, ?_, count_replyStanding t p l st p,
    fun q hq => ?_, poolInUse_replyStanding t p l st, ?_, listsGrow_replyStanding hg p st⟩
  · rw [standing_replyStanding, if_pos ⟨rfl, rfl⟩]
  · rw [standing_replyStanding, if_neg fun e => hq e.1.symm, count_replyStanding]
    exact ho q hq
  · rw [State.Hears, trace_replyStanding]
    exact hh

/-- Work of the lock engine on lock `l` alone, in the terms of Safety.lean. -/
theorem lockFrame_of_lockWork (hw : s.LockWork t) (hk : ∀ k : LockId, k ≠ l → t.lock k = s.lock k)
    (hr : ∀ (q : Port) (k : LockId), k ≠ l → t.standing q k = s.standing q k) : s.LockFrame t l := by
  refine ⟨?_, hk, hr, hw.sessions⟩
  have := hw.fixed
  rw [this]

/-- A request that the lock engine only reports and answers is refused, whatever the report. -/
theorem refusedOn_report (h : s.nextRequest p = some b) (l : LockId) (st : Status) (r : Report) :
    s.RefusedOn (((s.handOn p).report r).replyStanding p l st) p l b st r := by
  have hw := lockWork_report (s.handOn p) r
  have hf : (s.handOn p).LockFrame ((s.handOn p).report r) l :=
    lockFrame_of_lockWork hw (fun k _ => lock_report _ _ k) fun q k _ => standing_report _ _ q k
  have ht : (s.handOn p).Told ((s.handOn p).report r) l (fun _ => false) :=
    told_report (told_refl _ l) (fun _ => rfl) rfl id r
  have hown := ownWork_replyStanding (p := p) (reports := [r]) hf
    (fun q _ => ⟨standing_report _ _ q l, count_report _ _ q⟩) (trace_report _ r) (listsGrow_of_told ht) st
  have hrep := replied_replyStanding h hw l st
  have hsame : ((s.handOn p).report r).standingReport p l = s.standingReport p l := by
    simp [State.standingReport, State.standingDetail]
  rw [lock_report, standing_report, count_report, poolInUse_report] at hown
  rw [hsame] at hrep
  exact ⟨ownWork_of_handOn hown, hrep⟩

/-! ### QUERY -/

/-- What a QUERY is answered does not depend on the links. -/
@[simp] theorem queryResults_handOn (s : State) (p q : Port) (l : LockId) :
    (s.handOn q).queryResults p l = s.queryResults p l := rfl

/-- Settles O8: a QUERY is handed on and replied to, with the results of the state as it stands. -/
theorem queryReportsTheLock : Obligations.QueryReportsTheLock := by
  intro s p b h
  refine ⟨_, exec_query_of_takes h, fixed_reply (s.handOn p) p .ok _,
    portSetByte fun q => ((s.lock (lockAt b 2)).holding q).isSome, fun q => getLsbD_portSetByte _ q,
    portSetByte_toNat_lt _, ?_⟩
  rw [queryResults_handOn]
  exact replied_taken .ok _ h.1 fun _ => rfl

/-! ### The judgement of an ACQUIRE -/

/-- The model's test of R7 is the one the statements speak of. -/
theorem grantable_iff (e : LockEntry) (m : Mode) : e.grantable m = true ↔ e.AtOnce m := by
  unfold LockEntry.grantable
  cases hm : e.mode with
  | none => simp [LockEntry.AtOnce, (mode_eq_none_iff e).mp hm]
  | some held =>
    have hsome : ¬ ∀ q : Port, e.holding q = none := fun h => by
      simp [(mode_eq_none_iff e).mpr h] at hm
    cases held with
    | exclusive =>
      obtain ⟨q, hq⟩ := (mode_eq_exclusive_iff e).mp hm
      obtain ⟨x, hx, hxm⟩ := (holdsIn_iff e _ q).mp hq
      have hnot : ¬ ∀ q : Port, (e.holding q).all (fun h => h.mode == .shared) = true := fun h => by
        simpa [hx, hxm] using h q
      simp only [LockEntry.AtOnce, hsome, hnot, Bool.false_eq_true, and_false, or_self]
    | shared =>
      have hall : ∀ q : Port, (e.holding q).all (fun h => h.mode == .shared) = true := by
        intro q
        have hq := ((mode_eq_shared_iff e).mp hm).2 q
        cases hx : e.holding q with
        | none => rfl
        | some x =>
          cases hxm : x.mode <;> simp [LockEntry.holdsIn, hx, hxm] at hq ⊢
      simp only [LockEntry.AtOnce, hsome, hall, false_or, implies_true, and_true, Bool.and_eq_true,
        beq_iff_eq, List.isEmpty_iff]

theorem decide_le_eq_not_lt (n k : Nat) : decide (n ≤ k) = !decide (k < n) := by
  rw [← decide_not, decide_eq_decide, Nat.not_lt]

theorem decide_lt_eq_not_le (n k : Nat) : decide (n < k) = !decide (k ≤ n) := by
  rw [← decide_not, decide_eq_decide, Nat.not_le]

/-- One row of R14's table: the model's condition `c` for the refusal is the failure of the row's test `a`. -/
theorem ite_eq_firstFailure_getD {c a : Bool} {st d x : Status} {rest : List (Bool × Status)} (hc : c = !a)
    (hx : x = (firstFailure rest).getD d) :
    (if c = true then st else x) = (firstFailure ((a, st) :: rest)).getD d := by
  subst hc hx
  cases a <;> rfl

/-- The lock engine's judgement of an ACQUIRE is that of the first test that fails in R14's table; when none
fails, the lock is granted if it is grantable at once, and the request queued otherwise. -/
theorem judgeAcquire_eq (s : State) (p : Port) (l : LockId) (m : Mode) (wait : Bool) (lease : Half) :
    s.judgeAcquire p l m wait lease =
      (firstFailure (s.acquireTests p l m wait lease)).getD
        (if (s.lock l).AtOnce m then .granted else .queued) := by
  have hmode : (m == .shared && !(s.lock l).config.sharedAllowed) =
      !(m == .exclusive || (s.lock l).config.sharedAllowed) := by cases m <;> simp
  have hwaits : (s.lock l).waits p = !((s.lock l).queue.all fun w => w.port != p) := by
    rw [Bool.eq_iff_iff, waits_iff]
    simp
  have hholder : ((s.lock l).holding p).isSome = !((s.lock l).holding p).isNone := by simp
  have hpolicy : ((s.lock l).config.policy == .required && lease == 0) =
      !((s.lock l).config.policy == .optional || lease != 0) := by
    unfold bne
    generalize (lease == 0) = unlimited
    cases (s.lock l).config.policy <;> cases unlimited <;> rfl
  have hlimit := decide_le_eq_not_lt maxStandings ((s.count p).holdings + (s.count p).waits)
  unfold State.judgeAcquire State.acquireTests
  refine ite_eq_firstFailure_getD rfl <| ite_eq_firstFailure_getD rfl <|
    ite_eq_firstFailure_getD hmode <| ite_eq_firstFailure_getD hholder <|
    ite_eq_firstFailure_getD hwaits <| ite_eq_firstFailure_getD hpolicy <|
    ite_eq_firstFailure_getD (decide_lt_eq_not_le _ _) ?_
  by_cases hg : (s.lock l).AtOnce m
  · rw [if_pos ((grantable_iff _ m).mpr hg), if_pos hg, if_pos hg]
    exact ite_eq_firstFailure_getD hlimit rfl
  · rw [if_neg fun h => hg ((grantable_iff _ m).mp h), if_neg hg, if_neg hg]
    exact ite_eq_firstFailure_getD rfl <| ite_eq_firstFailure_getD (decide_le_eq_not_lt maxWaits _) <|
      ite_eq_firstFailure_getD hlimit <| ite_eq_firstFailure_getD (decide_le_eq_not_lt poolSize _) rfl

/-- A first failure is the status of one of the tests. -/
theorem mem_of_firstFailure {st : Status} {tests : List (Bool × Status)}
    (h : firstFailure tests = some st) : (false, st) ∈ tests := by
  induction tests with
  | nil => simp [firstFailure] at h
  | cons test rest ih =>
    obtain ⟨passed, other⟩ := test
    cases passed with
    | false =>
      obtain rfl : other = st := by simpa [firstFailure] using h
      exact List.mem_cons_self
    | true => exact List.mem_cons_of_mem _ (ih h)

/-- No test of an ACQUIRE fails with a status of success. -/
theorem ne_success_of_mem_acquireTests {m : Mode} {wait passed : Bool} {lease : Half} {st : Status}
    (h : (passed, st) ∈ s.acquireTests p l m wait lease) : st ≠ .granted ∧ st ≠ .queued := by
  have hcodes : ∀ test ∈ s.acquireTests p l m wait lease, test.2 ≠ .granted ∧ test.2 ≠ .queued := by
    by_cases hg : (s.lock l).AtOnce m <;> simp [State.acquireTests, hg]
  exact hcodes _ h

/-- The report of an ACQUIRE that is not granted and does not wait (R17). -/
def acquireReport (p : Port) (l : LockId) (st : Status) : Report :=
  if st = .busy then { cls := .busy, port := p, lock := some l } else refusedReport p l st

/-- An ACQUIRE judged neither granted nor queued is reported and answered, and that is all. -/
theorem takeAcquire_of_refused {m : Mode} {wait : Bool} {lease limit : Half} {st : Status}
    (h : s.judgeAcquire p l m wait lease = st) (hg : st ≠ .granted) (hq : st ≠ .queued) :
    s.takeAcquire p l m wait lease limit = (s.report (acquireReport p l st)).replyStanding p l st := by
  unfold State.takeAcquire
  rw [h]
  cases st with
  | granted => exact absurd rfl hg
  | queued => exact absurd rfl hq
  | _ => rfl

/-- The tests of an ACQUIRE do not depend on the links. -/
@[simp] theorem acquireTests_handOn (s : State) (q p : Port) (l : LockId) (m : Mode) (wait : Bool) (lease : Half) :
    (s.handOn q).acquireTests p l m wait lease = s.acquireTests p l m wait lease := rfl

/-- Settles O11: the judgement is the first failure of R14's table, and every judgement but GRANTED and QUEUED
is reported and answered alone. -/
theorem acquireRefusals : Obligations.AcquireRefusals := by
  intro s p b h st hst
  obtain ⟨hg, hq⟩ := ne_success_of_mem_acquireTests (mem_of_firstFailure hst)
  have hjudge : (s.handOn p).judgeAcquire p (lockAt b 2) (modeAt b 3) (flagAt b 4) (halfAt b 5) = st := by
    rw [judgeAcquire_eq, acquireTests_handOn, hst, Option.getD_some]
  have hexec := exec_acquire_of_takes h
  rw [takeAcquire_of_refused hjudge hg hq] at hexec
  exact ⟨_, hexec, refusedOn_report h.1 _ st _⟩

/-! ### Giving a holding back -/

/-- A waiter does not hold the lock: a port is once among holders and waiters (R10, R29). -/
theorem port_ne_of_holding {e : LockEntry} {h : Holding} (he : e.PortOnce) (hh : e.holding p = some h) :
    ∀ w ∈ e.queue, w.port ≠ p :=
  (waits_eq_false_iff e p).mp (he.2 p (by simp [hh]))

/-- A port that does not wait is not granted by a hand-off. -/
theorem not_mem_runPorts {e : LockEntry} (h : ∀ w ∈ e.queue, w.port ≠ p) : p ∉ e.runPorts := by
  intro hp
  obtain ⟨w, hw, hwp⟩ := List.mem_map.mp hp
  exact h w ((handOffRun_isPrefix e).subset hw) hwp

/-- The report of a holding given up (R19, R111). -/
def releasedReport (p : Port) (l : LockId) (h : Holding) (detail : Byte) : Report :=
  { cls := .released, port := p, lock := some l, detail := detail, grant := some h.grant }

/-- A holding ended and reported as given up: RELEASED short of its hand-off (R19, R111). -/
def State.giveUp (s : State) (p : Port) (l : LockId) (h : Holding) (detail : Byte) : State :=
  (s.endHolding p l h).report (releasedReport p l h detail)

theorem releaseHolding_eq (s : State) (p : Port) (l : LockId) (h : Holding) (d : Byte) :
    s.releaseHolding p l h d = (s.giveUp p l h d).handOff l := rfl

theorem lockWork_giveUp (s : State) (p : Port) (l : LockId) (h : Holding) (d : Byte) :
    s.LockWork (s.giveUp p l h d) :=
  (lockWork_endHolding s p l h).trans (lockWork_report _ _)

theorem lock_giveUp (s : State) (p : Port) (l : LockId) (h : Holding) (d : Byte) (k : LockId) :
    (s.giveUp p l h d).lock k = if l = k then (s.lock l).unhold p else s.lock k := by
  rw [State.giveUp, lock_report, lock_endHolding]

theorem standing_giveUp (s : State) (p : Port) (l : LockId) (h : Holding) (d : Byte) (q : Port) (k : LockId) :
    (s.giveUp p l h d).standing q k =
      if p = q ∧ l = k then (s.standing p l).unhold h else s.standing q k := by
  rw [State.giveUp, standing_report, standing_endHolding]

theorem count_giveUp (s : State) (p : Port) (l : LockId) (h : Holding) (d : Byte) (q : Port) :
    (s.giveUp p l h d).count q = if p = q then (s.count p).dropHolding else s.count q := by
  rw [State.giveUp, count_report, count_endHolding]

@[simp] theorem poolInUse_giveUp (s : State) (p : Port) (l : LockId) (h : Holding) (d : Byte) :
    (s.giveUp p l h d).poolInUse = s.poolInUse := by
  rw [State.giveUp, poolInUse_report, poolInUse_endHolding]

/-- Giving a holding up tells no port but the supervisor of a stopped capture. -/
theorem told_giveUp (s : State) (p : Port) (l : LockId) (h : Holding) (d : Byte) :
    s.Told (s.giveUp p l h d) l (fun _ => false) :=
  told_report (t := s.endHolding p l h) (told_refl s l) (lockWork_endHolding s p l h).isOpen
    (lockWork_endHolding s p l h).supervisor id _

/-- A holding given up, by its port or by its session's end: it ends, is reported and the lock handed off; the
port's own record and counts are those of the ending, since hand-off grants waiters alone (R19, R34, R111). -/
theorem handsOff_releaseHolding {h : Holding} (he : (s.lock l).PortOnce) (hh : (s.lock l).holding p = some h)
    (d : Byte) :
    s.HandsOff (s.releaseHolding p l h d) l ((s.lock l).unhold p) [p] (fun _ => false) none
        [releasedReport p l h d] ∧
      (s.releaseHolding p l h d).poolInUse = s.poolInUse - ((s.lock l).unhold p).handOffRun.length ∧
      (s.releaseHolding p l h d).standing p l = (s.standing p l).unhold h ∧
      (s.releaseHolding p l h d).count p = (s.count p).dropHolding := by
  have hentry : (s.giveUp p l h d).lock l = (s.lock l).unhold p := by rw [lock_giveUp, if_pos rfl]
  obtain ⟨hoff, hpool, hcaller⟩ := handsOff_handOff (ended := [p]) (reports := [releasedReport p l h d])
    (lockWork_giveUp s p l h d)
    (fun k hk => by rw [lock_giveUp, if_neg (Ne.symm hk)])
    (fun q k hk => by rw [standing_giveUp, if_neg fun e => hk e.2.symm])
    (fun q hq => by
      have hne : p ≠ q := fun e => hq (by simp [e])
      rw [standing_giveUp, if_neg fun e => hne e.1, count_giveUp, if_neg hne]
      exact ⟨rfl, rfl⟩)
    (by rw [hentry]; exact he.1)
    (by rw [hentry]; simpa using port_ne_of_holding he hh)
    (trace_report _ _) (told_giveUp s p l h d)
  obtain ⟨hstanding, hcount⟩ := hcaller p (by simp)
  rw [hentry] at hoff hpool
  rw [poolInUse_giveUp] at hpool
  rw [standing_giveUp, if_pos ⟨rfl, rfl⟩] at hstanding
  rw [count_giveUp, if_pos rfl] at hcount
  rw [releaseHolding_eq]
  exact ⟨hoff, hpool, hstanding, hcount⟩

/-! ### The holder test -/

/-- The caller holds the lock under the number given. -/
theorem holderTest_of_holding {e : LockEntry} {h : Holding} {g : Grant} (hh : e.holding p = some h)
    (hg : h.grant = g) : e.holderTest p g = .ok h := by simp [LockEntry.holderTest, hh, hg]

/-- The caller does not hold the lock (R20, R51, R67). -/
theorem holderTest_of_not_holding {e : LockEntry} {g : Grant} (hh : e.holding p = none) :
    e.holderTest p g = .error .notHolder := by simp [LockEntry.holderTest, hh]

/-- The caller holds the lock under another number (R20, R51, R67). -/
theorem holderTest_of_other_grant {e : LockEntry} {h : Holding} {g : Grant} (hh : e.holding p = some h)
    (hg : h.grant ≠ g) : e.holderTest p g = .error .staleGrant := by simp [LockEntry.holderTest, hh, hg]

theorem takeRelease_of_ok {g : Grant} {h : Holding} (hh : (s.lock l).holderTest p g = .ok h) :
    s.takeRelease p l g = (s.releaseHolding p l h byRequest).replyStanding p l .ok := by
  simp only [State.takeRelease, hh]

theorem takeRelease_of_error {g : Grant} {st : Status} (hh : (s.lock l).holderTest p g = .error st) :
    s.takeRelease p l g = s.refuseStanding p l st := by
  simp only [State.takeRelease, hh]

theorem takeRenew_of_error {g : Grant} {st : Status} (lease : Half)
    (hh : (s.lock l).holderTest p g = .error st) : s.takeRenew p l g lease = s.refuseStanding p l st := by
  simp only [State.takeRenew, hh]

theorem takeConvert_of_error {g : Grant} {st : Status} (target : Mode)
    (hh : (s.lock l).holderTest p g = .error st) : s.takeConvert p l g target = s.refuseStanding p l st := by
  simp only [State.takeConvert, hh]

theorem takeWithdraw_of_not_waiting (h : (s.lock l).waits p = false) :
    s.takeWithdraw p l = s.refuseStanding p l .notWaiting := by
  simp [State.takeWithdraw, h]

/-- Settles O12: the holding is given up and the lock handed off, and the caller, whom no hand-off grants, is
answered with the record that the ending left. -/
theorem releaseEndsTheHolding : Obligations.ReleaseEndsTheHolding := by
  intro s p b hsound htakes h hh hgrant
  have honce : (s.lock (lockAt b 2)).PortOnce := (hsound (lockAt b 2)).fit.once
  have hrun : p ∉ ((s.lock (lockAt b 2)).unhold p).runPorts :=
    not_mem_runPorts (e := (s.lock (lockAt b 2)).unhold p) (port_ne_of_holding honce hh :)
  have hexec := exec_release_of_takes htakes
  rw [takeRelease_of_ok (s := s.handOn p) (holderTest_of_holding hh hgrant)] at hexec
  obtain ⟨hoff, hpool, hstanding, hcount⟩ := handsOff_releaseHolding (s := s.handOn p) honce hh byRequest
  have hrep := replied_replyStanding htakes.1
    (lockWork_releaseHolding (s.handOn p) p (lockAt b 2) h byRequest) (lockAt b 2) .ok
  rw [standingReport_of_none (by rw [hstanding]; rfl), hstanding] at hrep
  refine ⟨_, hexec, handsOff_of_handOn (handsOff_replyStanding hoff (by simp) hrun .ok), ?_, ?_, ?_, hrep⟩
  · rw [standing_replyStanding, if_pos ⟨rfl, rfl⟩, hstanding]
    rfl
  · rw [count_replyStanding, hcount]
    rfl
  · rw [poolInUse_replyStanding, hpool]
    rfl

/-! ### Requests on nothing of the caller's own -/

/-- A RELEASE, RENEW or CONVERT that fails the holder test is refused with its status and does nothing else
(R20, R51, R67). -/
theorem refusedOn_of_holderTest {k : Kind} (hk : k ∈ [Kind.release, .renew, .convert]) (h : s.Takes p k b)
    {st : Status} (ht : (s.lock (lockAt b 2)).holderTest p (wordAt b 3) = .error st) :
    ∃ t : State, exec (k.request p) s = .next t ∧
      s.RefusedOn t p (lockAt b 2) b st (refusedReport p (lockAt b 2) st) := by
  have ht' : ((s.handOn p).lock (lockAt b 2)).holderTest p (wordAt b 3) = .error st := ht
  refine ⟨(s.handOn p).refuseStanding p (lockAt b 2) st, ?_, refusedOn_refuseStanding h.1 _ st⟩
  simp only [List.mem_cons, List.not_mem_nil, or_false] at hk
  obtain rfl | rfl | rfl := hk
  · exact (exec_release_of_takes h).trans (congrArg _ (takeRelease_of_error ht'))
  · exact (exec_renew_of_takes h).trans (congrArg _ (takeRenew_of_error _ ht'))
  · exact (exec_convert_of_takes h).trans (congrArg _ (takeConvert_of_error _ ht'))

/-- Settles O14: the three kinds fail the holder test, each way with its own status, and the WITHDRAW finds no
wait. -/
theorem requestsOnNothingOfTheCallersAreRefused : Obligations.RequestsOnNothingOfTheCallersAreRefused := by
  refine fun s p b => ⟨fun k hk h => ⟨fun hnone => ?_, fun x hx hne => ?_⟩, fun h hwaits => ?_⟩
  · exact refusedOn_of_holderTest hk h (holderTest_of_not_holding hnone)
  · exact refusedOn_of_holderTest hk h (holderTest_of_other_grant hx hne)
  · exact ⟨(s.handOn p).refuseStanding p (lockAt b 2) .notWaiting,
      (exec_withdraw_of_takes h).trans (congrArg _ (takeWithdraw_of_not_waiting hwaits)),
      refusedOn_refuseStanding h.1 _ _⟩

end Sys2Proof.Machine
end

section
/-! PROOFS. The waiter queue: an ACQUIRE that waits, WITHDRAW, and the wait expiry (Chapter 3). -/

namespace Sys2Proof.Machine

variable {s t : State} {p : Port} {l : LockId} {e : LockEntry} {w : Waiter} {r : Report} {gets : Port → Bool}

/-! ### Joining the queue -/

/-- A record at the tail of a queue in which its port had none stands behind all the others (R28, R29). -/
theorem position_join (h : e.waits w.port = false) :
    (e.join w).position w.port = e.queue.length + 1 := by
  have hwaits : (e.join w).waits w.port = true := by simp [waits_join]
  have hbefore : ∀ x ∈ e.queue, (x.port == w.port) = false := fun x hx =>
    beq_false_of_ne ((waits_eq_false_iff e w.port).mp h x hx)
  have hindex : (e.queue ++ [w]).findIdx (fun x => x.port == w.port) = e.queue.length := by
    rw [List.findIdx_append, List.findIdx_eq_length_of_false hbefore]
    simp
  rw [LockEntry.position, if_pos hwaits, queue_join, hindex]

/-- An ACQUIRE that passes every test but is not grantable at once is judged to wait, and its caller has no
record in the queue yet (R10, R14). -/
theorem judgeAcquire_queued {m : Mode} {wait : Bool} {lease : Half}
    (htests : firstFailure (s.acquireTests p l m wait lease) = none) (hlater : ¬ (s.lock l).AtOnce m) :
    s.judgeAcquire p l m wait lease = .queued ∧ (s.lock l).waits p = false := by
  have hjudge : s.judgeAcquire p l m wait lease = .queued := by
    rw [judgeAcquire_eq, htests, Option.getD_none, if_neg hlater]
  obtain ⟨-, -, hwaits, -⟩ := judgeAcquire_stands s hjudge (.inr rfl)
  exact ⟨hjudge, hwaits⟩

theorem takeAcquire_of_queued {m : Mode} {wait : Bool} {lease limit : Half}
    (h : s.judgeAcquire p l m wait lease = .queued) :
    s.takeAcquire p l m wait lease limit = (s.joinQueue p l m lease limit).replyStanding p l .queued := by
  simp only [State.takeAcquire, h]

/-- The report of a WAIT that has joined a queue, with its position (R17). -/
def queuedReport (p : Port) (l : LockId) (position : Nat) : Report :=
  { cls := .queued, port := p, lock := some l, detail := countByte position }

section
variable (s p l) (m : Mode) (lease limit : Half)

theorem joinQueue_eq : s.joinQueue p l m lease limit =
    (s.enqueue p l m lease limit).report (queuedReport p l ((s.lock l).queue.length + 1)) := rfl

theorem lockWork_joinQueue : s.LockWork (s.joinQueue p l m lease limit) :=
  (lockWork_enqueue s p l m lease limit).trans (lockWork_report _ _)

theorem lock_joinQueue (k : LockId) : (s.joinQueue p l m lease limit).lock k =
    if l = k then (s.lock l).join (newWaiter s.clock p l m lease limit) else s.lock k := by
  rw [joinQueue_eq, lock_report, lock_enqueue]

theorem standing_joinQueue (q : Port) (k : LockId) : (s.joinQueue p l m lease limit).standing q k =
    if p = q ∧ l = k then (s.standing p l).join else s.standing q k := by
  rw [joinQueue_eq, standing_report, standing_enqueue]

theorem count_joinQueue (q : Port) : (s.joinQueue p l m lease limit).count q =
    if p = q then (s.count p).addWait else s.count q := by
  rw [joinQueue_eq, count_report, count_enqueue]

@[simp] theorem poolInUse_joinQueue : (s.joinQueue p l m lease limit).poolInUse = s.poolInUse + 1 := by
  rw [joinQueue_eq, poolInUse_report, poolInUse_enqueue]

theorem hears_joinQueue : s.Hears (s.joinQueue p l m lease limit)
    [queuedReport p l ((s.lock l).queue.length + 1)] := trace_report _ _

/-- Joining a queue tells no port but the supervisor of a stopped capture. -/
theorem told_joinQueue : s.Told (s.joinQueue p l m lease limit) l (fun _ => false) :=
  told_report (t := s.enqueue p l m lease limit) (told_refl s l)
    (lockWork_enqueue s p l m lease limit).isOpen (lockWork_enqueue s p l m lease limit).supervisor id _

/-- The work of a WAIT that joins a queue, once its caller is answered (R16, R28). -/
theorem ownWork_joinQueue (st : Status) :
    s.OwnWork ((s.joinQueue p l m lease limit).replyStanding p l st) p l
      ((s.lock l).join (newWaiter s.clock p l m lease limit)) (s.standing p l).join.clear (s.count p).addWait
      (s.poolInUse + 1) [queuedReport p l ((s.lock l).queue.length + 1)] := by
  have hframe : s.LockFrame (s.joinQueue p l m lease limit) l :=
    lockFrame_of_lockWork (lockWork_joinQueue s p l m lease limit)
      (fun k hk => by rw [lock_joinQueue, if_neg (Ne.symm hk)])
      (fun q k hk => by rw [standing_joinQueue, if_neg fun e => hk e.2.symm])
  have hothers : ∀ q : Port, q ≠ p → (s.joinQueue p l m lease limit).standing q l = s.standing q l ∧
      (s.joinQueue p l m lease limit).count q = s.count q := fun q hq => by
    rw [standing_joinQueue, if_neg fun e => hq e.1.symm, count_joinQueue, if_neg (Ne.symm hq)]
    exact ⟨rfl, rfl⟩
  have hown := ownWork_replyStanding hframe hothers (hears_joinQueue s p l m lease limit)
    (listsGrow_of_told (told_joinQueue s p l m lease limit)) st
  rwa [lock_joinQueue, if_pos rfl, standing_joinQueue, if_pos ⟨rfl, rfl⟩, count_joinQueue, if_pos rfl,
    poolInUse_joinQueue] at hown

end

/-- The standing report of a port that has just joined a queue (R16, R28). -/
theorem standingReport_joinQueue (h : (s.lock l).waits p = false) (m : Mode) (lease limit : Half) :
    (s.joinQueue p l m lease limit).standingReport p l =
      Standing.waiting.code :: wordBytes (s.standing p l).grant ++
        halfBytes (BitVec.ofNat 16 ((s.lock l).queue.length + 1)) := by
  have hposition : ((s.joinQueue p l m lease limit).lock l).position p = (s.lock l).queue.length + 1 := by
    rw [lock_joinQueue, if_pos rfl]
    exact position_join (w := newWaiter s.clock p l m lease limit) h
  unfold State.standingReport State.standingDetail
  rw [hposition, standing_joinQueue, if_pos ⟨rfl, rfl⟩]
  rfl

/-- Settles O10: the request is judged to wait, joins the queue, and is answered with its new standing, whose
position is the last since the caller had no record before. -/
theorem acquireQueues : Obligations.AcquireQueues := by
  intro s p b htakes htests hlater
  obtain ⟨hjudge, hwaits⟩ := judgeAcquire_queued (s := s.handOn p) htests hlater
  have hexec := exec_acquire_of_takes htakes
  rw [takeAcquire_of_queued hjudge] at hexec
  have hrep := replied_replyStanding htakes.1 (lockWork_joinQueue (s.handOn p) p (lockAt b 2) (modeAt b 3)
    (halfAt b 5) (halfAt b 7)) (lockAt b 2) .queued
  rw [standingReport_joinQueue hwaits] at hrep
  exact ⟨_, hexec, ownWork_of_handOn (ownWork_joinQueue _ _ _ _ _ _ _), hrep⟩

/-! ### A lock entry that a record leaves -/

/-- A first waiter that conflicts with the holders is not granted, nor is anyone behind it (R34). -/
theorem handOffRun_of_headConflicts (h : e.HeadConflicts) : e.handOffRun = [] := by
  rcases handOffRun_cases e with ⟨hrun, -⟩ | ⟨w, rest, hq, -, hm, -⟩ | ⟨w, rest, hq, hw, hm, -⟩
  · exact hrun
  · simp [LockEntry.HeadConflicts, hq, hm] at h
  · obtain ⟨m, hheld, hconflict⟩ : ∃ m, e.mode = some m ∧ w.mode.conflicts m = true := by
      simpa [LockEntry.HeadConflicts, hq, Option.any_eq_true] using h
    cases m with
    | shared => simp [hw, Mode.conflicts] at hconflict
    | exclusive => exact absurd hheld hm

/-- A record that leaves from behind the first waiter leaves the first waiter in its place (R38). -/
theorem head?_leave (h : e.isFirst p = false) : (e.leave p).queue.head? = e.queue.head? := by
  unfold LockEntry.isFirst at h
  rw [queue_leave]
  cases hq : e.queue with
  | nil => rfl
  | cons w rest =>
    have hw : (w.port != p) = true := by simpa [hq] using h
    rw [List.filter_cons, if_pos hw]
    rfl

@[simp] theorem mode_leave (e : LockEntry) (p : Port) : (e.leave p).mode = e.mode := (rfl)

/-- Hand-off has nobody to grant when a record leaves from behind the first waiter (R34, R39). -/
theorem handOffRun_leave_of_not_first (hhead : e.HeadConflicts) (h : e.isFirst p = false) :
    (e.leave p).handOffRun = [] := by
  refine handOffRun_of_headConflicts ?_
  rw [LockEntry.HeadConflicts, head?_leave h, mode_leave]
  exact hhead

theorem port_ne_of_mem_leave (h : w ∈ (e.leave p).queue) : w.port ≠ p := by
  simpa using (List.mem_filter.mp h).2

theorem nodup_ports_leave (h : e.PortOnce) (p : Port) : ((e.leave p).queue.map Waiter.port).Nodup :=
  h.1.sublist (List.filter_sublist.map _)

/-! ### A record leaves its queue -/

/-- The head re-examination is a hand-off: when the departed record was not the first, there is nobody to grant
(R39). -/
theorem reexamine_eq_handOff (ht : t.lock l = e.leave p) (hhead : e.HeadConflicts) :
    t.reexamine l (e.isFirst p) = t.handOff l := by
  unfold State.reexamine
  cases hf : e.isFirst p with
  | true => rfl
  | false =>
    rw [if_neg (by simp), State.handOff, ht, handOffRun_leave_of_not_first hhead hf]
    rfl

/-- What the departure of port `p`'s record from lock `l`'s queue has done to a state, short of the hand-off: the
record is gone from the queue, the pool and the count, `r` is reported, and the ports that `gets` names are told
of a change. What becomes of the port's own standing record is not said here. -/
structure State.Departed (s t : State) (p : Port) (l : LockId) (gets : Port → Bool) (r : Report) : Prop where
  work : s.LockWork t
  locks : ∀ k : LockId, t.lock k = if l = k then (s.lock l).leave p else s.lock k
  others : ∀ (q : Port) (k : LockId), ¬(p = q ∧ l = k) → t.standing q k = s.standing q k
  counts : ∀ q : Port, t.count q = if p = q then (s.count p).dropWait else s.count q
  pool : t.poolInUse = s.poolInUse - 1
  heard : s.Hears t [r]
  told : s.Told t l gets

/-- A record's departure with its head re-examination is a piece of lock work with its hand-off, and the hand-off
leaves the departed port alone (R38, R39). -/
theorem State.Departed.handsOff (h : s.Departed t p l gets r) (hsound : (s.lock l).Sound l) :
    s.HandsOff (t.reexamine l ((s.lock l).isFirst p)) l ((s.lock l).leave p) [p] gets none [r] ∧
      (t.reexamine l ((s.lock l).isFirst p)).poolInUse =
        s.poolInUse - 1 - ((s.lock l).leave p).handOffRun.length ∧
      (t.reexamine l ((s.lock l).isFirst p)).standing p l = t.standing p l ∧
      (t.reexamine l ((s.lock l).isFirst p)).count p = (s.count p).dropWait := by
  obtain ⟨-, hhead, honce, -⟩ := hsound
  have hentry : t.lock l = (s.lock l).leave p := by rw [h.locks, if_pos rfl]
  have hothers : ∀ q : Port, q ∉ [p] → t.standing q l = s.standing q l ∧ t.count q = s.count q := by
    intro q hq
    have hne : p ≠ q := fun e => hq (by simp [e])
    rw [h.counts, if_neg hne]
    exact ⟨h.others q l fun e => hne e.1, rfl⟩
  obtain ⟨hoff, hpool, hcaller⟩ := handsOff_handOff (ended := [p]) h.work
    (fun k hk => by rw [h.locks, if_neg (Ne.symm hk)])
    (fun q k hk => h.others q k fun e => hk e.2.symm) hothers
    (by rw [hentry]; exact nodup_ports_leave honce p)
    (by rw [hentry]; intro x hx; simpa using port_ne_of_mem_leave hx) h.heard h.told
  obtain ⟨hstanding, hcount⟩ := hcaller p (by simp)
  rw [hentry] at hoff hpool
  rw [h.pool] at hpool
  rw [h.counts, if_pos rfl] at hcount
  rw [reexamine_eq_handOff hentry hhead]
  exact ⟨hoff, hpool, hstanding, hcount⟩

/-- A record that leaves with a report alone: WITHDRAWN (R40, R48). -/
theorem departed_report (s : State) (p : Port) (l : LockId) (r : Report) :
    s.Departed ((s.leaveQueue p l).report r) p l (fun _ => false) r where
  work := (lockWork_leaveQueue s p l).trans (lockWork_report _ _)
  locks k := by rw [lock_report, lock_leaveQueue]
  others q k hne := by rw [standing_report, standing_leaveQueue, if_neg hne]
  counts q := by rw [count_report, count_leaveQueue]
  pool := by rw [poolInUse_report, poolInUse_leaveQueue]
  heard := trace_report _ _
  told := told_report (t := s.leaveQueue p l) (told_refl s l) (lockWork_leaveQueue s p l).isOpen
    (lockWork_leaveQueue s p l).supervisor id _

/-- A record that leaves with an unreported change for its port and a report: WAIT_EXPIRED (R43). -/
theorem departed_recordChange (s : State) (p : Port) (l : LockId) (c : Cause) (r : Report) :
    s.Departed (((s.leaveQueue p l).recordChange p l c).report r) p l (fun q => decide (q = p)) r := by
  have hleave := lockWork_leaveQueue s p l
  have hchange := hleave.trans (lockWork_recordChange _ p l c)
  have htold : s.Told ((s.leaveQueue p l).recordChange p l c) l (fun q => decide (q = p)) :=
    told_recordChange (t := s.leaveQueue p l) (told_refl s l) hleave.isOpen p c
  exact {
    work := hchange.trans (lockWork_report _ _)
    locks := fun k => by rw [lock_report, lock_recordChange, lock_leaveQueue]
    others := fun q k hne => by
      rw [standing_report, standing_recordChange, if_neg fun e => hne e.2, standing_leaveQueue, if_neg hne]
    counts := fun q => by rw [count_report, count_recordChange, count_leaveQueue]
    pool := by rw [poolInUse_report, poolInUse_recordChange, poolInUse_leaveQueue]
    heard := by rw [State.Hears, trace_report, trace_recordChange]; rfl
    told := told_report htold hchange.isOpen hchange.supervisor
      (by rw [trace_recordChange]; exact id) _ }

/-! ### WITHDRAW -/

/-- The report of a wait given up (R40, R48). -/
def withdrawnReport (p : Port) (l : LockId) (detail : Byte) : Report :=
  { cls := .withdrawn, port := p, lock := some l, detail := detail }

theorem withdrawWait_eq (s : State) (p : Port) (l : LockId) (d : Byte) : s.withdrawWait p l d =
    ((s.leaveQueue p l).report (withdrawnReport p l d)).reexamine l ((s.lock l).isFirst p) := rfl

/-- A wait given up, by its port or by its session's end: the record leaves, is reported, and the lock is handed
off (R40, R48, R38, R39). -/
theorem handsOff_withdrawWait (hsound : (s.lock l).Sound l) (d : Byte) :
    s.HandsOff (s.withdrawWait p l d) l ((s.lock l).leave p) [p] (fun _ => false) none
        [withdrawnReport p l d] ∧
      (s.withdrawWait p l d).poolInUse = s.poolInUse - 1 - ((s.lock l).leave p).handOffRun.length ∧
      (s.withdrawWait p l d).standing p l = (s.standing p l).leave ∧
      (s.withdrawWait p l d).count p = (s.count p).dropWait := by
  obtain ⟨hoff, hpool, hstanding, hcount⟩ := (departed_report s p l (withdrawnReport p l d)).handsOff hsound
  rw [standing_report, standing_leaveQueue, if_pos ⟨rfl, rfl⟩] at hstanding
  rw [withdrawWait_eq]
  exact ⟨hoff, hpool, hstanding, hcount⟩

theorem takeWithdraw_of_waiting (h : (s.lock l).waits p = true) :
    s.takeWithdraw p l = (s.withdrawWait p l byRequest).replyStanding p l .ok := by
  rw [State.takeWithdraw, if_pos h]

/-- Settles O13: the record leaves and the lock is handed off, and the caller, whom no hand-off grants, is
answered with the record that the departure left. -/
theorem withdrawEndsTheWait : Obligations.WithdrawEndsTheWait := by
  intro s p b hsound htakes hwaits
  obtain ⟨-, hhead, -⟩ := hsound (lockAt b 2)
  have hrun : p ∉ ((s.lock (lockAt b 2)).leave p).runPorts :=
    not_mem_runPorts fun _ hx => port_ne_of_mem_leave hx
  have hexec := exec_withdraw_of_takes htakes
  rw [takeWithdraw_of_waiting (s := s.handOn p) hwaits] at hexec
  obtain ⟨hoff, hpool, hstanding, hcount⟩ :=
    handsOff_withdrawWait (s := s.handOn p) (p := p) (hsound (lockAt b 2)) byRequest
  have hrep := replied_replyStanding htakes.1
    (lockWork_withdrawWait (s.handOn p) p (lockAt b 2) byRequest) (lockAt b 2) .ok
  rw [standingReport_of_none (by rw [hstanding]; rfl), hstanding] at hrep
  refine ⟨_, hexec, handsOff_of_handOn (handsOff_replyStanding hoff (by simp) hrun .ok),
    handOffRun_leave_of_not_first hhead, ?_, ?_, ?_, hrep⟩
  · rw [standing_replyStanding, if_pos ⟨rfl, rfl⟩, hstanding]
    rfl
  · rw [count_replyStanding, hcount]
    rfl
  · rw [poolInUse_replyStanding, hpool]
    rfl

/-! ### The wait expiry -/

theorem exec_waitExpiry (s : State) (p : Port) (l : LockId) :
    exec (.waitExpiry p l) s = .next (s.takeWaitExpiry p l) := rfl

theorem takeWaitExpiry_of_due (hw : (s.lock l).waiter p = some w) (h : s.due w.deadline = true) :
    s.takeWaitExpiry p l = s.expireWait p l := by
  simp only [State.takeWaitExpiry, hw, h, if_true]

theorem takeWaitExpiry_of_not_due (h : ∀ w ∈ (s.lock l).waiter p, s.due w.deadline = false) :
    s.takeWaitExpiry p l = s := by
  unfold State.takeWaitExpiry
  cases hw : (s.lock l).waiter p with
  | none => rfl
  | some w => simp only [h w hw, Bool.false_eq_true, if_false]

/-- The report of a wait ended by its limit (R43). -/
def waitExpiredReport (p : Port) (l : LockId) : Report := { cls := .waitExpired, port := p, lock := some l }

theorem expireWait_eq (s : State) (p : Port) (l : LockId) : s.expireWait p l =
    (((s.leaveQueue p l).recordChange p l .waitExpired).report (waitExpiredReport p l)).reexamine l
      ((s.lock l).isFirst p) := rfl

theorem lockWork_expireWait (s : State) (p : Port) (l : LockId) : s.LockWork (s.expireWait p l) :=
  (departed_recordChange s p l .waitExpired (waitExpiredReport p l)).work.trans (lockWork_reexamine _ _ _)

/-- The standing record of a port whose record has left a queue with an unreported change (R38, R43, R81). -/
theorem standing_leaveQueue_recordChange (s : State) (p : Port) (l : LockId) (c : Cause) :
    ((s.leaveQueue p l).recordChange p l c).standing p l = s.changed p c (s.standing p l).leave := by
  have hopen : (s.leaveQueue p l).isOpen p = s.isOpen p := (lockWork_leaveQueue s p l).isOpen p
  rw [standing_recordChange, hopen, standing_leaveQueue, if_pos (⟨rfl, rfl⟩ : p = p ∧ l = l), State.changed]
  simp only [and_self, and_true]
  rfl

/-- A wait ended by its limit: the record leaves, its port gets an unreported change, and the lock is handed off
(R43, R38, R39). -/
theorem handsOff_expireWait (hsound : (s.lock l).Sound l) :
    s.HandsOff (s.expireWait p l) l ((s.lock l).leave p) [p] (fun q => decide (q = p)) none
        [waitExpiredReport p l] ∧
      (s.expireWait p l).poolInUse = s.poolInUse - 1 - ((s.lock l).leave p).handOffRun.length ∧
      (s.expireWait p l).standing p l = s.changed p .waitExpired (s.standing p l).leave ∧
      (s.expireWait p l).count p = (s.count p).dropWait := by
  obtain ⟨hoff, hpool, hstanding, hcount⟩ :=
    (departed_recordChange s p l .waitExpired (waitExpiredReport p l)).handsOff hsound
  rw [standing_report, standing_leaveQueue_recordChange] at hstanding
  rw [expireWait_eq]
  exact ⟨hoff, hpool, hstanding, hcount⟩

/-- Settles O21: a due record leaves and the lock is handed off; without one the command finds nothing to do. -/
theorem waitExpiryEndsTheWait : Obligations.WaitExpiryEndsTheWait := by
  refine fun s p l hsound => ⟨fun w hw hdue => ?_, fun h => ?_⟩
  · obtain ⟨-, hhead, -⟩ := hsound l
    obtain ⟨hoff, hpool, hstanding, hcount⟩ := handsOff_expireWait (p := p) (hsound l)
    refine ⟨s.expireWait p l, ?_, hoff, handOffRun_leave_of_not_first hhead, hstanding, hcount, hpool, ?_⟩
    · rw [exec_waitExpiry, takeWaitExpiry_of_due hw hdue]
    · rw [(lockWork_expireWait s p l).fixed]
  · rw [exec_waitExpiry, takeWaitExpiry_of_not_due h]

end Sys2Proof.Machine
end

section
/-! PROOFS. Mode conversion: a CONVERT that downgrades, and the refusals of CONVERT (Chapter 3). -/

namespace Sys2Proof.Machine

variable {s : State} {p : Port} {b : Body} {l : LockId} {e : LockEntry} {h : Holding} {g : Grant}

/-! ### The tests of a CONVERT -/

/-- The target is the mode the caller has (R52). -/
theorem takeConvert_of_same_mode {target : Mode} (hok : (s.lock l).holderTest p g = .ok h)
    (hm : h.mode = target) : s.takeConvert p l g target = s.refuseStanding p l .sameMode := by
  simp only [State.takeConvert, hok, hm, if_true]

/-- A downgrade on a lock that allows sharing (R54). -/
theorem takeConvert_of_downgrade (hok : (s.lock l).holderTest p g = .ok h) (hm : h.mode = .exclusive)
    (hshared : (s.lock l).config.sharedAllowed = true) :
    s.takeConvert p l g .shared = (s.downgrade p l h).replyStanding p l .ok := by
  simp only [State.takeConvert, hok, hm, hshared, reduceCtorEq, if_true, if_false]

/-- A downgrade on a lock that does not allow sharing (R53). -/
theorem takeConvert_of_shared_not_allowed (hok : (s.lock l).holderTest p g = .ok h)
    (hm : h.mode = .exclusive) (hshared : (s.lock l).config.sharedAllowed = false) :
    s.takeConvert p l g .shared = s.refuseStanding p l .sharedNotAllowed := by
  simp only [State.takeConvert, hok, hm, hshared, reduceCtorEq, Bool.false_eq_true, if_false]

/-- An upgrade that the other holders or the waiters stand against (R55). -/
theorem takeConvert_of_not_upgradable (hok : (s.lock l).holderTest p g = .ok h) (hm : h.mode = .shared)
    (hup : (s.lock l).upgradable p = false) :
    s.takeConvert p l g .exclusive = s.refuseStanding p l .convertDenied := by
  simp only [State.takeConvert, hok, hm, hup, reduceCtorEq, Bool.false_eq_true, if_false]

/-- Another holder or any waiter stands against an upgrade (R55). -/
theorem upgradable_eq_false (hother : (∃ q : Port, q ≠ p ∧ e.holding q ≠ none) ∨ e.queue ≠ []) :
    e.upgradable p = false := by
  rw [← Bool.not_eq_true]
  intro hup
  obtain ⟨hports, hqueue⟩ : e.holderPorts = [p] ∧ e.queue = [] := by
    simpa [LockEntry.upgradable] using hup
  obtain ⟨q, hne, hq⟩ | hwaiters := hother
  · have hmem : q ∈ e.holderPorts := (mem_holderPorts e q).mpr (Option.isSome_iff_ne_none.mpr hq)
    exact hne (by simpa [hports] using hmem)
  · exact hwaiters hqueue

/-- A CONVERT that the lock engine answers with a refusal alone. -/
theorem convert_refusedOn {st : Status} (htakes : s.Takes p .convert b)
    (hrefuse : (s.handOn p).takeConvert p (lockAt b 2) (wordAt b 3) (modeAt b 7) =
      (s.handOn p).refuseStanding p (lockAt b 2) st) :
    ∃ t : State, exec (.convert p) s = .next t ∧
      s.RefusedOn t p (lockAt b 2) b st (refusedReport p (lockAt b 2) st) :=
  ⟨_, (exec_convert_of_takes htakes).trans (congrArg _ hrefuse), refusedOn_refuseStanding htakes.1 _ st⟩

/-- Settles O18: the caller passes the holder test, and each of the three tests after it fails with its own
status. -/
theorem convertRefusals : Obligations.ConvertRefusals := by
  intro s p b htakes h hh hgrant
  have hok : ((s.handOn p).lock (lockAt b 2)).holderTest p (wordAt b 3) = .ok h :=
    holderTest_of_holding hh hgrant
  refine ⟨fun hm => ?_, fun hm htarget hshared => ?_, fun hm htarget hother => ?_⟩
  · exact convert_refusedOn htakes (takeConvert_of_same_mode hok hm)
  · refine convert_refusedOn htakes ?_
    rw [htarget]
    exact takeConvert_of_shared_not_allowed hok hm hshared
  · refine convert_refusedOn htakes ?_
    rw [htarget]
    exact takeConvert_of_not_upgradable hok hm (upgradable_eq_false hother)

/-! ### Turning a holding SHARED -/

/-- The holding turned SHARED in place, number and lease kept (R54). -/
def Holding.lower (h : Holding) : Holding := { h with mode := .shared }

/-- The report of a holding turned SHARED (R54). -/
def loweredReport (p : Port) (l : LockId) (h : Holding) : Report :=
  { cls := .converted, port := p, lock := some l, detail := Mode.shared.code, grant := some h.grant }

/-- A holding turned SHARED and reported: the downgrade short of its hand-off (R54). -/
def State.lowerHolding (s : State) (p : Port) (l : LockId) (h : Holding) : State :=
  (s.alterHolding p l h.lower).report (loweredReport p l h)

theorem downgrade_eq (s : State) (p : Port) (l : LockId) (h : Holding) :
    s.downgrade p l h = (s.lowerHolding p l h).handOff l := rfl

theorem lockWork_lowerHolding (s : State) (p : Port) (l : LockId) (h : Holding) :
    s.LockWork (s.lowerHolding p l h) :=
  (lockWork_alterHolding s p l h.lower).trans (lockWork_report _ _)

theorem lockWork_downgrade (s : State) (p : Port) (l : LockId) (h : Holding) :
    s.LockWork (s.downgrade p l h) :=
  (lockWork_lowerHolding s p l h).trans (lockWork_handOff _ l)

theorem lock_lowerHolding (s : State) (p : Port) (l : LockId) (h : Holding) (k : LockId) :
    (s.lowerHolding p l h).lock k = if l = k then (s.lock l).hold p h.lower else s.lock k := by
  rw [State.lowerHolding, lock_report, lock_alterHolding]

theorem standing_lowerHolding (s : State) (p : Port) (l : LockId) (h : Holding) (q : Port) (k : LockId) :
    (s.lowerHolding p l h).standing q k =
      if p = q ∧ l = k then (s.standing p l).hold h.lower else s.standing q k := by
  rw [State.lowerHolding, standing_report, standing_alterHolding]

@[simp] theorem count_lowerHolding (s : State) (p : Port) (l : LockId) (h : Holding) (q : Port) :
    (s.lowerHolding p l h).count q = s.count q := by
  rw [State.lowerHolding, count_report, count_alterHolding]

@[simp] theorem poolInUse_lowerHolding (s : State) (p : Port) (l : LockId) (h : Holding) :
    (s.lowerHolding p l h).poolInUse = s.poolInUse := by
  rw [State.lowerHolding, poolInUse_report, poolInUse_alterHolding]

/-- Turning a holding SHARED tells no port but the supervisor of a stopped capture. -/
theorem told_lowerHolding (s : State) (p : Port) (l : LockId) (h : Holding) :
    s.Told (s.lowerHolding p l h) l (fun _ => false) :=
  told_report (t := s.alterHolding p l h.lower) (told_refl s l) (lockWork_alterHolding s p l h.lower).isOpen
    (lockWork_alterHolding s p l h.lower).supervisor id _

/-- A downgrade is a piece of lock work with its hand-off, and hand-off, which grants waiters alone, leaves the
downgraded port's record and counts as the change of mode left them (R54, R34). -/
theorem handsOff_downgrade (he : (s.lock l).PortOnce) (hh : (s.lock l).holding p = some h) :
    s.HandsOff (s.downgrade p l h) l ((s.lock l).hold p h.lower) [p] (fun _ => false) none
        [loweredReport p l h] ∧
      (s.downgrade p l h).poolInUse = s.poolInUse - ((s.lock l).hold p h.lower).handOffRun.length ∧
      (s.downgrade p l h).standing p l = (s.standing p l).hold h.lower ∧
      (s.downgrade p l h).count p = s.count p := by
  have hentry : (s.lowerHolding p l h).lock l = (s.lock l).hold p h.lower := by
    rw [lock_lowerHolding, if_pos rfl]
  obtain ⟨hoff, hpool, hcaller⟩ := handsOff_handOff (ended := [p]) (reports := [loweredReport p l h])
    (lockWork_lowerHolding s p l h)
    (fun k hk => by rw [lock_lowerHolding, if_neg (Ne.symm hk)])
    (fun q k hk => by rw [standing_lowerHolding, if_neg fun heq => hk heq.2.symm])
    (fun q hq => by
      have hne : p ≠ q := fun heq => hq (by simp [heq])
      rw [standing_lowerHolding, if_neg fun heq => hne heq.1, count_lowerHolding]
      exact ⟨rfl, rfl⟩)
    (by rw [hentry]; exact he.1)
    (by rw [hentry]; simpa using port_ne_of_holding he hh)
    (trace_report _ _) (told_lowerHolding s p l h)
  obtain ⟨hstanding, hcount⟩ := hcaller p (by simp)
  rw [hentry] at hoff hpool
  rw [poolInUse_lowerHolding] at hpool
  rw [standing_lowerHolding, if_pos ⟨rfl, rfl⟩] at hstanding
  rw [count_lowerHolding] at hcount
  rw [downgrade_eq]
  exact ⟨hoff, hpool, hstanding, hcount⟩

/-- The standing report of a port whose record is that of a holding (R16). -/
theorem standingReport_of_hold {r : StandingRecord} (hr : s.standing p l = r.hold h) :
    s.standingReport p l =
      h.mode.held.code :: wordBytes h.grant ++ halfBytes (leaseRemaining s.clock h.deadline) := by
  unfold State.standingReport State.standingDetail
  rw [hr]
  unfold StandingRecord.hold
  cases h.mode <;> rfl

/-- Settles O16: the holding is turned SHARED and the lock handed off, and the caller, whom no hand-off grants,
is answered with the record that the change of mode left. -/
theorem convertDowngrades : Obligations.ConvertDowngrades := by
  intro s p b hsound htakes h hh hgrant hm htarget hshared
  have honce : (s.lock (lockAt b 2)).PortOnce := (hsound (lockAt b 2)).fit.once
  have hrun : p ∉ ((s.lock (lockAt b 2)).hold p h.lower).runPorts :=
    not_mem_runPorts (e := (s.lock (lockAt b 2)).hold p h.lower) (port_ne_of_holding honce hh :)
  have hwork := lockWork_downgrade (s.handOn p) p (lockAt b 2) h
  have hexec := exec_convert_of_takes htakes
  rw [htarget, takeConvert_of_downgrade (s := s.handOn p) (holderTest_of_holding hh hgrant) hm hshared] at hexec
  obtain ⟨hoff, hpool, hstanding, hcount⟩ := handsOff_downgrade (s := s.handOn p) honce hh
  have hrep := replied_replyStanding htakes.1 hwork (lockAt b 2) .ok
  rw [standingReport_of_hold hstanding, hwork.clock] at hrep
  refine ⟨_, hexec, handsOff_of_handOn (handsOff_replyStanding hoff (by simp) hrun .ok), ?_, ?_, ?_, hrep⟩
  · rw [standing_replyStanding, if_pos ⟨rfl, rfl⟩, hstanding]
    rfl
  · rw [count_replyStanding, hcount]
    rfl
  · rw [poolInUse_replyStanding, hpool]
    rfl

end Sys2Proof.Machine
end

section
/-! PROOFS. Leases: RENEW and the lease expiry (Chapter 4). -/

namespace Sys2Proof.Machine

variable {s : State} {p : Port} {b : Body} {l : LockId} {h : Holding} {g : Grant}

/-! ### A lease from now -/

/-- A deadline set `n` milliseconds ahead is that far away when it is set (R62). -/
theorem distance_deadlineAfter (now : Clock) (n : Half) : distance now (deadlineAfter now n) = n.toNat := by
  have hround : deadlineAfter now n - now = n.setWidth 32 := by
    rw [deadlineAfter, BitVec.add_comm, BitVec.add_sub_cancel]
  rw [distance, hround, BitVec.toNat_setWidth_of_le (by decide)]

/-- The lease remaining at the moment a lease is set is its whole length, 0 for no lease (R16, R69). -/
theorem leaseRemaining_optionalDeadline (now : Clock) (n : Half) :
    leaseRemaining now (optionalDeadline now n) = n := by
  by_cases hn : n = 0
  · rw [optionalDeadline, if_pos hn, hn]
    rfl
  · have hpos : n.toNat ≠ 0 := fun hz => hn (BitVec.eq_of_toNat_eq hz)
    have hahead : ¬ maxAhead < n.toNat := by
      have := n.isLt
      unfold maxAhead
      omega
    have hnot : reached now (deadlineAfter now n) = false := by
      rw [reached, distance_deadlineAfter, beq_false_of_ne hpos, decide_eq_false hahead]
      rfl
    rw [optionalDeadline, if_neg hn, leaseRemaining, hnot, distance_deadlineAfter, BitVec.ofNat_toNat]
    simp

/-! ### RENEW -/

/-- The holding with its lease set from now, or without one for length 0 (R69). -/
def Holding.renew (h : Holding) (now : Clock) (lease : Half) : Holding :=
  { h with deadline := optionalDeadline now lease }

/-- A RENEW that passes the holder test: the tests of R68 in order, then R69. -/
theorem takeRenew_of_ok (hok : (s.lock l).holderTest p g = .ok h) (lease : Half) :
    s.takeRenew p l g lease =
      if (s.lock l).config.policy = .required ∧ lease = 0 then s.refuseStanding p l .leaseRequired
      else if (s.lock l).config.maxLease.toNat < lease.toNat then s.refuseStanding p l .leaseTooLong
      else (s.alterHolding p l (h.renew s.clock lease)).replyStanding p l .ok := by
  simp only [State.takeRenew, hok, Bool.and_eq_true, beq_iff_eq, decide_eq_true_eq]
  rfl

/-- The work of a request that puts a holding in place of the caller's and reports nothing, once the caller is
answered (R16, R69). -/
theorem ownWork_alterHolding (s : State) (p : Port) (l : LockId) (h : Holding) (st : Status) :
    s.OwnWork ((s.alterHolding p l h).replyStanding p l st) p l ((s.lock l).hold p h)
      ((s.standing p l).hold h).clear (s.count p) s.poolInUse [] := by
  have hframe : s.LockFrame (s.alterHolding p l h) l :=
    lockFrame_of_lockWork (lockWork_alterHolding s p l h)
      (fun k hk => by rw [lock_alterHolding, if_neg (Ne.symm hk)])
      (fun q k hk => by rw [standing_alterHolding, if_neg fun e => hk e.2.symm])
  have hothers : ∀ q : Port, q ≠ p → (s.alterHolding p l h).standing q l = s.standing q l ∧
      (s.alterHolding p l h).count q = s.count q := fun q hq => by
    rw [standing_alterHolding, if_neg fun e => hq e.1.symm, count_alterHolding]
    exact ⟨rfl, rfl⟩
  have htold : s.Told (s.alterHolding p l h) l (fun _ => false) := told_refl s l
  have hown := ownWork_replyStanding (reports := []) hframe hothers (trace_alterHolding s p l h)
    (listsGrow_of_told htold) st
  rwa [lock_alterHolding, if_pos rfl, standing_alterHolding, if_pos ⟨rfl, rfl⟩, count_alterHolding,
    poolInUse_alterHolding] at hown

/-- A granted RENEW is answered with the holding's mode and number and with the length just set (R16, R69). -/
theorem replied_renew (hnext : s.nextRequest p = some b) (l : LockId) (h : Holding) (lease : Half) :
    s.Replied (((s.handOn p).alterHolding p l (h.renew s.clock lease)).replyStanding p l .ok) p .waiting
      (replyTo b .ok (h.mode.held.code :: wordBytes h.grant ++ halfBytes lease)) := by
  have hwork := lockWork_alterHolding (s.handOn p) p l (h.renew s.clock lease)
  have hrep := replied_replyStanding hnext hwork l .ok
  have hrecord : ((s.handOn p).alterHolding p l (h.renew s.clock lease)).standing p l =
      (s.standing p l).hold (h.renew s.clock lease) := by
    rw [standing_alterHolding, if_pos ⟨rfl, rfl⟩, standing_handOn]
  have hleft : leaseRemaining s.clock (h.renew s.clock lease).deadline = lease :=
    leaseRemaining_optionalDeadline s.clock lease
  rwa [standingReport_of_hold hrecord, hwork.clock, clock_handOn, hleft] at hrep

/-- Settles O15: the caller passes the holder test, the two tests of the length refuse it each with its own
status, and what passes both puts the renewed holding in place and is answered with the length set. -/
theorem renewSetsTheLease : Obligations.RenewSetsTheLease := by
  intro s p b htakes h hh hgrant
  have hexec := exec_renew_of_takes htakes
  rw [takeRenew_of_ok (s := s.handOn p) (holderTest_of_holding hh hgrant), lock_handOn, clock_handOn] at hexec
  refine ⟨_, hexec, ?_⟩
  by_cases hrequired : (s.lock (lockAt b 2)).config.policy = .required ∧ halfAt b 7 = 0
  · rw [if_pos hrequired, if_pos hrequired]
    exact refusedOn_refuseStanding htakes.1 _ _
  rw [if_neg hrequired, if_neg hrequired]
  by_cases hlong : (s.lock (lockAt b 2)).config.maxLease.toNat < (halfAt b 7).toNat
  · rw [if_pos hlong, if_pos hlong]
    exact refusedOn_refuseStanding htakes.1 _ _
  rw [if_neg hlong, if_neg hlong]
  exact ⟨ownWork_of_handOn (ownWork_alterHolding (s.handOn p) _ _ _ _), replied_renew htakes.1 _ h _⟩

/-! ### A holding taken from its port -/

/-- A holding ended for a cause its port is told of, and reported: an expiry or a revocation short of its
hand-off (R70, R125). -/
def State.takeAway (s : State) (p : Port) (l : LockId) (h : Holding) (c : Cause) (r : Report) : State :=
  ((s.endHolding p l h).recordChange p l c).report r

section
variable (s p l h) (c : Cause) (r : Report)

theorem lockWork_endHolding_recordChange : s.LockWork ((s.endHolding p l h).recordChange p l c) :=
  (lockWork_endHolding s p l h).trans (lockWork_recordChange _ p l c)

theorem lockWork_takeAway : s.LockWork (s.takeAway p l h c r) :=
  (lockWork_endHolding_recordChange s p l h c).trans (lockWork_report _ _)

theorem lock_takeAway (k : LockId) :
    (s.takeAway p l h c r).lock k = if l = k then (s.lock l).unhold p else s.lock k := by
  rw [State.takeAway, lock_report, lock_recordChange, lock_endHolding]

/-- The port's own record is NONE with its number, and has the change while its session is OPEN (R81, R82). -/
theorem standing_takeAway (q : Port) (k : LockId) :
    (s.takeAway p l h c r).standing q k =
      if p = q ∧ l = k then s.changed p c ((s.standing p l).unhold h) else s.standing q k := by
  have hopen : (s.endHolding p l h).isOpen p = s.isOpen p := (lockWork_endHolding s p l h).isOpen p
  rw [State.takeAway, standing_report, standing_recordChange, hopen, standing_endHolding]
  by_cases hown : p = q ∧ l = k
  · rw [if_pos hown, if_pos hown, State.changed]
    simp only [hown, and_true]
    rfl
  · rw [if_neg fun e => hown e.2, if_neg hown, if_neg hown]

theorem count_takeAway (q : Port) :
    (s.takeAway p l h c r).count q = if p = q then (s.count p).dropHolding else s.count q := by
  rw [State.takeAway, count_report, count_recordChange, count_endHolding]

@[simp] theorem poolInUse_takeAway : (s.takeAway p l h c r).poolInUse = s.poolInUse := by
  rw [State.takeAway, poolInUse_report, poolInUse_recordChange, poolInUse_endHolding]

theorem hears_takeAway : s.Hears (s.takeAway p l h c r) [r] := by
  rw [State.Hears, State.takeAway, trace_report, trace_recordChange, trace_endHolding]
  rfl

/-- The port is told of its change, and beyond that only the supervisor of a stopped capture. -/
theorem told_takeAway : s.Told (s.takeAway p l h c r) l (fun q => decide (q = p)) := by
  have hwork := lockWork_endHolding_recordChange s p l h c
  have hchange : s.Told ((s.endHolding p l h).recordChange p l c) l (fun q => decide (q = p)) :=
    told_recordChange (t := s.endHolding p l h) (told_refl s l) (lockWork_endHolding s p l h).isOpen p c
  exact told_report hchange hwork.isOpen hwork.supervisor
    (by rw [trace_recordChange, trace_endHolding]; exact id) r

end

/-- A holding taken from its port, with its hand-off; the port's own record and counts are those of the ending,
since hand-off grants waiters alone (R70, R34). -/
theorem handsOff_takeAway (he : (s.lock l).PortOnce) (hh : (s.lock l).holding p = some h) (c : Cause)
    (r : Report) :
    s.HandsOff ((s.takeAway p l h c r).handOff l) l ((s.lock l).unhold p) [p] (fun q => decide (q = p)) none
        [r] ∧
      ((s.takeAway p l h c r).handOff l).poolInUse =
        s.poolInUse - ((s.lock l).unhold p).handOffRun.length ∧
      ((s.takeAway p l h c r).handOff l).standing p l = s.changed p c ((s.standing p l).unhold h) ∧
      ((s.takeAway p l h c r).handOff l).count p = (s.count p).dropHolding := by
  have hentry : (s.takeAway p l h c r).lock l = (s.lock l).unhold p := by rw [lock_takeAway, if_pos rfl]
  obtain ⟨hoff, hpool, hcaller⟩ := handsOff_handOff (ended := [p]) (lockWork_takeAway s p l h c r)
    (fun k hk => by rw [lock_takeAway, if_neg (Ne.symm hk)])
    (fun q k hk => by rw [standing_takeAway, if_neg fun e => hk e.2.symm])
    (fun q hq => by
      have hne : p ≠ q := fun e => hq (by simp [e])
      rw [standing_takeAway, if_neg fun e => hne e.1, count_takeAway, if_neg hne]
      exact ⟨rfl, rfl⟩)
    (by rw [hentry]; exact he.1)
    (by rw [hentry]; simpa using port_ne_of_holding he hh)
    (hears_takeAway s p l h c r) (told_takeAway s p l h c r)
  obtain ⟨hstanding, hcount⟩ := hcaller p (by simp)
  rw [hentry] at hoff hpool
  rw [poolInUse_takeAway] at hpool
  rw [standing_takeAway, if_pos ⟨rfl, rfl⟩] at hstanding
  rw [count_takeAway, if_pos rfl] at hcount
  exact ⟨hoff, hpool, hstanding, hcount⟩

/-! ### The lease expiry -/

theorem exec_leaseExpiry (s : State) (p : Port) (l : LockId) :
    exec (.leaseExpiry p l) s = .next (s.takeLeaseExpiry p l) := rfl

theorem takeLeaseExpiry_of_due (hh : (s.lock l).holding p = some h) (hdue : s.due h.deadline = true) :
    s.takeLeaseExpiry p l = s.expireLease p l h := by
  simp only [State.takeLeaseExpiry, hh, hdue, if_true]

/-- An expiry that finds no holding whose deadline the clock has reached does nothing (R71). -/
theorem takeLeaseExpiry_of_not_due (hnot : ∀ h ∈ (s.lock l).holding p, s.due h.deadline = false) :
    s.takeLeaseExpiry p l = s := by
  unfold State.takeLeaseExpiry
  cases hh : (s.lock l).holding p with
  | none => rfl
  | some h => simp only [hnot h hh, Bool.false_eq_true, if_false]

/-- The report of a holding ended by its lease (R70). -/
def leaseExpiredReport (p : Port) (l : LockId) (h : Holding) : Report :=
  { cls := .leaseExpired, port := p, lock := some l, grant := some h.grant }

theorem expireLease_eq (s : State) (p : Port) (l : LockId) (h : Holding) : s.expireLease p l h =
    (s.takeAway p l h .leaseExpired (leaseExpiredReport p l h)).handOff l := rfl

theorem lockWork_expireLease (s : State) (p : Port) (l : LockId) (h : Holding) :
    s.LockWork (s.expireLease p l h) :=
  (lockWork_takeAway s p l h .leaseExpired (leaseExpiredReport p l h)).trans (lockWork_handOff _ l)

/-- Settles O20: a due holding is taken from its port and the lock handed off; without one the command finds
nothing to do. -/
theorem leaseExpiryEndsTheHolding : Obligations.LeaseExpiryEndsTheHolding := by
  refine fun s p l => ⟨fun hsound h hh hdue => ?_, fun hnot => ?_⟩
  · obtain ⟨hoff, hpool, hstanding, hcount⟩ :=
      handsOff_takeAway (hsound l).fit.once hh .leaseExpired (leaseExpiredReport p l h)
    rw [← expireLease_eq] at hoff hpool hstanding hcount
    refine ⟨s.expireLease p l h, ?_, hoff, hstanding, hcount, hpool, ?_⟩
    · rw [exec_leaseExpiry, takeLeaseExpiry_of_due hh hdue]
    · rw [(lockWork_expireLease s p l h).fixed]
  · rw [exec_leaseExpiry, takeLeaseExpiry_of_not_due hnot]

end Sys2Proof.Machine
end

section
/-! PROOFS. Trace capture: the requests that only read, TRACE_STATUS among them, and what a report does in each
capture state (Chapter 8). -/

namespace Sys2Proof.Machine

variable {s : State} {p : Port} {b : Body}

/-! ### Requests that only read -/

/-- A request whose owner answers it OK and does no more changes its link port alone; the results are those of the
state in which it was handed on. -/
theorem answered_of_takes {i : Instr} {k : Kind} {results : Body → State → List Byte} {res : List Byte}
    (hexec : exec i s = .next (s.takeRequest k p fun b t => t.reply p .ok (results b t)))
    (hres : results b (s.handOn p) = res) (h : s.Takes p k b) :
    ∃ t : State, exec i s = .next t ∧ t = { s with links := t.links } ∧
      s.Replied t p .waiting (replyTo b .ok res) := by
  rw [takeRequest_of_takes _ h, hres] at hexec
  exact ⟨_, hexec, fixed_reply (s.handOn p) p .ok res, replied_taken .ok res h.1 fun _ => rfl⟩

theorem exec_ping (s : State) (p : Port) : exec (.ping p) s = .next (s.takeRequest .ping p fun _ t =>
    t.reply p .ok (wordBytes t.clock ++ halfBytes t.restartCount ++ [(t.session p).number])) := rfl

theorem exec_getLock (s : State) (p : Port) : exec (.getLock p) s = .next (s.takeRequest .getLock p fun b t =>
    t.reply p .ok (t.lock (lockAt b 2)).config.bytes) := rfl

theorem exec_getPort (s : State) (p : Port) : exec (.getPort p) s = .next (s.takeRequest .getPort p fun b t =>
    t.reply p .ok (t.portResults (portAt b 2))) := rfl

theorem exec_traceStatus (s : State) (p : Port) : exec (.traceStatus p) s =
    .next (s.takeRequest .traceStatus p fun _ t =>
      t.reply p .ok (t.trace.statusBytes ++ stampBytes t.trace.timer ++ t.trace.setup.bytes)) := rfl

/-- Handing a request on leaves every fault record as it is. -/
@[simp] theorem fault_link_handOn (s : State) (p q : Port) :
    ((s.handOn p).link q).fault = (s.link q).fault := by
  rw [link_handOn]
  split
  · next hpq => rw [hpq]
  · rfl

/-- What a GET_PORT is answered does not depend on the request windows. -/
@[simp] theorem portResults_handOn (s : State) (p q : Port) :
    (s.handOn p).portResults q = s.portResults q := by
  simp [State.portResults]

/-- Settles O7: each of the four is handed on and replied to, with results that handing on does not touch. -/
theorem readingRequestsOnlyReply : Obligations.ReadingRequestsOnlyReply := by
  intro s p b
  refine ⟨answered_of_takes (exec_ping s p) ?_, answered_of_takes (exec_getLock s p) ?_,
    answered_of_takes (exec_getPort s p) ?_, answered_of_takes (exec_traceStatus s p) ?_⟩
  · rw [clock_handOn, restartCount_handOn, session_handOn]
  · rw [lock_handOn]
  · rw [portResults_handOn]
    simp [State.portResults, FaultRecord.bytes]
  · rw [trace_handOn]
    rfl

/-! ### A report to be recorded -/

theorem markTail_eq_modify : ∀ buffer : List TraceEntry,
    markTail buffer = buffer.modify (buffer.length - 1) fun x => { x with lostAfter := true }
  | [] => rfl
  | [_] => rfl
  | _ :: f :: rest => congrArg _ (markTail_eq_modify (f :: rest))

variable {t : TraceUnit}

/-- A report to be recorded joins the tail when there is room; otherwise it marks the tail and sets
ENTRIES_LOST (R139, R141). -/
theorem record_eq (t : TraceUnit) (r : Report) : t.record r =
    { t with
      buffer :=
        if t.hasRoom then t.buffer ++ [{ report := r, stamp := t.timer, lostAfter := false }]
        else t.buffer.modify (t.buffer.length - 1) fun x => { x with lostAfter := true }
      entriesLost := t.entriesLost || !t.hasRoom } := by
  unfold TraceUnit.record
  cases t.hasRoom with
  | true => simp [TraceUnit.store]
  | false => simp [TraceUnit.lose, markTail_eq_modify]

/-! ### What the capture hears in each state -/

/-- The report that starts an ARMED capture is its first entry, at timer 0 (R138). -/
theorem hear_of_starts {r : Report} (harmed : t.state = .armed) (hempty : t.buffer = [])
    (hstarts : t.starts r = true) : t.hear r =
      { t with state := .running, timer := 0, buffer := [{ report := r, stamp := 0, lostAfter := false }] } := by
  have hroom : ({ t with state := .running, timer := 0 } : TraceUnit).hasRoom = true := by
    simp [TraceUnit.hasRoom, hempty, traceSize]
  simp only [TraceUnit.hear, harmed, hstarts, if_true, TraceUnit.record, hroom]
  simp [TraceUnit.store, hempty]

/-- Any other report is discarded by an ARMED capture (R138). -/
theorem hear_of_not_starts {r : Report} (harmed : t.state = .armed) (hnot : t.starts r = false) :
    t.hear r = t := by
  simp [TraceUnit.hear, harmed, hnot]

/-- A RUNNING capture records what stops it and what passes its filters, and stops at the stop class or, with
stop-on-full, for want of room (R139 to R141). -/
theorem hear_of_running (r : Report) (hrun : t.state = .running) : t.hear r =
    if t.stops r then (t.record r).stop .stopClass
    else if t.passes r then
      if !t.hasRoom && t.setup.stopOnFull then (t.record r).stop .full else t.record r
    else t := by
  simp only [TraceUnit.hear, hrun]
  cases hroom : t.hasRoom <;> simp [TraceUnit.record, hroom]

/-- A report that leaves the capture as it is leaves the part as it is. -/
theorem report_of_hear_eq {r : Report} (h : s.trace.hear r = s.trace) : s.report r = s := by
  rcases report_cases s r with e | ⟨q, ⟨hrun, hstop⟩, -⟩
  · rw [e, h]
    rfl
  · rw [h, hrun] at hstop
    contradiction

/-- A report touches no session entry but for the TRACE subject of a stop (R89). -/
theorem onlyTraceTold_report (s : State) (r : Report) : s.OnlyTraceTold (s.report r) :=
  onlyTraceTold_of_told (told_report (told_refl s 0) (fun _ => rfl) rfl id r) (sameButNotices_report s r)

/-- Settles O43, by the capture state in which the report arrives. -/
theorem reportsReachTheCapture : Obligations.ReportsReachTheCapture := by
  refine fun s r => ⟨fixed_report s r, onlyTraceTold_report s r, fun hidle => ?_,
    fun harmed hempty => ⟨fun hcls hport => ?_, fun hother => ?_⟩, ?_⟩
  · exact report_of_hear_eq (hear_of_idle r hidle)
  · have hstarts : s.trace.starts r = true := by simp [TraceUnit.starts, TraceSetup.hearsPort, hcls, hport]
    rw [trace_report, hear_of_starts harmed hempty hstarts]
  · have hnot : s.trace.starts r = false := by
      rw [TraceUnit.starts, Bool.and_eq_false_iff, beq_eq_false_iff_ne]
      exact hother
    exact report_of_hear_eq (hear_of_not_starts harmed hnot)
  · intro hrun stops passes room hstops hpasses hroom
    replace hstops : s.trace.stops r = stops := hstops.symm
    replace hpasses : s.trace.passes r = passes := hpasses.symm
    replace hroom : s.trace.hasRoom = room := hroom.symm
    rw [trace_report, hear_of_running r hrun, record_eq, hstops, hpasses, hroom]
    cases stops with
    | true => simp [TraceUnit.stop]
    | false =>
      cases passes with
      | false => simp
      | true => cases !room && s.trace.setup.stopOnFull <;> simp [TraceUnit.stop, hrun]

end Sys2Proof.Machine
end

section
/-! PROOFS. The laws of the lock engine's tables: what every step keeps of locks, standing records, counts and the
pool (Chapters 1, 2 and 5). Most steps leave those tables alone; `EngineLaw` asks for the few that do not. -/

namespace Sys2Proof.Machine

/-! ### Steps that leave the lock engine's tables alone -/

/-- The lock engine's tables are the same but for the unreported changes of the standing records. -/
structure State.SameTables (s t : State) : Prop where
  locks : ∀ l : LockId, t.lock l = s.lock l
  standings : ∀ (p : Port) (l : LockId), (t.standing p l).clear = (s.standing p l).clear
  counts : ∀ p : Port, t.count p = s.count p
  pool : t.poolInUse = s.poolInUse

namespace State.SameTables

variable {s t u : State}

theorem refl (s : State) : s.SameTables s := ⟨fun _ => rfl, fun _ _ => rfl, fun _ => rfl, rfl⟩

theorem trans (h : s.SameTables t) (k : t.SameTables u) : s.SameTables u :=
  ⟨fun l => (k.locks l).trans (h.locks l), fun p l => (k.standings p l).trans (h.standings p l),
    fun p => (k.counts p).trans (h.counts p), k.pool.trans h.pool⟩

/-- Records that agree but for their unreported changes agree in everything else. -/
theorem standing_eq (h : s.SameTables t) (p : Port) (l : LockId) :
    (t.standing p l).standing = (s.standing p l).standing ∧ (t.standing p l).grant = (s.standing p l).grant ∧
      (t.standing p l).deadline = (s.standing p l).deadline := by
  have hclear := h.standings p l
  simp only [StandingRecord.clear, StandingRecord.mk.injEq, and_true] at hclear
  exact hclear

theorem heldLocks (h : s.SameTables t) (p : Port) : t.heldLocks p = s.heldLocks p := by
  simp only [State.heldLocks, h.locks]

theorem waitedLocks (h : s.SameTables t) (p : Port) : t.waitedLocks p = s.waitedLocks p := by
  simp only [State.waitedLocks, h.locks]

theorem queuedRecords (h : s.SameTables t) : t.queuedRecords = s.queuedRecords := by
  simp only [State.queuedRecords, h.locks]

end State.SameTables

section
variable (s : State)

theorem sameTables_report (r : Report) : s.SameTables (s.report r) :=
  ⟨fun _ => by simp, fun _ _ => by simp, fun _ => by simp, by simp⟩

theorem sameTables_recordChange (p : Port) (l : LockId) (c : Cause) : s.SameTables (s.recordChange p l c) := by
  refine ⟨fun _ => by simp, fun q k => ?_, fun _ => by simp, by simp⟩
  rw [standing_recordChange]
  split <;> rfl

theorem sameTables_clearChange (p : Port) (l : LockId) : s.SameTables (s.clearChange p l) := by
  refine ⟨fun _ => by simp, fun q k => ?_, fun _ => by simp, by simp⟩
  rw [standing_clearChange]
  split <;> rfl

theorem sameTables_setSession (p : Port) (x : Session) : s.SameTables (s.setSession p x) :=
  ⟨fun _ => rfl, fun _ _ => rfl, fun _ => rfl, rfl⟩

theorem sameTables_setLink (p : Port) (x : LinkPort) : s.SameTables (s.setLink p x) :=
  ⟨fun _ => rfl, fun _ _ => rfl, fun _ => rfl, rfl⟩

theorem sameTables_setTrace (t : TraceUnit) : s.SameTables (s.setTrace t) :=
  ⟨fun _ => rfl, fun _ _ => rfl, fun _ => rfl, rfl⟩

theorem sameTables_clearAllChanges (p : Port) : s.SameTables (s.clearAllChanges p) := by
  refine ⟨fun _ => rfl, fun q k => ?_, fun _ => rfl, rfl⟩
  rw [standing_clearAllChanges]
  split <;> rfl

theorem sameTables_closeOut (p : Port) (c : EndCause) : s.SameTables (s.closeOut p c) :=
  ((sameTables_setSession s p _).trans (sameTables_clearAllChanges _ p)).trans (sameTables_report _ _)

theorem sameTables_linkFault (p : Port) (c : FaultCode) : s.SameTables (s.linkFault p c) :=
  ⟨fun _ => by simp, fun _ _ => by simp, fun _ => by simp, by simp⟩

theorem sameTables_replyGone (p : Port) : s.SameTables (s.replyGone p) := by
  unfold State.replyGone
  dsimp only
  split
  · exact sameTables_setLink s p _
  · exact .refl s
  · exact .refl s

theorem sameTables_noticeGone (p : Port) : s.SameTables (s.noticeGone p) := by
  unfold State.noticeGone
  dsimp only
  split
  · exact sameTables_setLink s p _
  · exact .refl s
  · exact .refl s

theorem sameTables_sendNotice (p : Port) (b : Body) : s.SameTables (s.sendNotice p b) :=
  (sameTables_setSession s p _).trans (sameTables_setLink _ p _)

theorem sameTables_formStanding (p : Port) : s.SameTables (s.formStanding p) := by
  unfold State.formStanding
  split
  · next l _ =>
    have hsent := sameTables_sendNotice s p (s.noticeBody p 0xE0 (s.standingFields p l))
    refine hsent.trans ⟨fun _ => rfl, fun q k => ?_, fun _ => rfl, rfl⟩
    rw [standing_setStanding]
    split
    · next h => obtain ⟨rfl, rfl⟩ := h; rfl
    · rfl
  · exact .refl s

theorem sameTables_advanceClock : s.SameTables s.advanceClock := by
  unfold State.advanceClock
  split
  · exact .refl s
  · exact ⟨fun _ => rfl, fun _ _ => rfl, fun _ => rfl, rfl⟩

end

/-- Nobody stands on any lock: the tables as a reset or a RESTART leaves them. -/
structure State.Unused (t : State) : Prop where
  holding : ∀ (l : LockId) (p : Port), (t.lock l).holding p = none
  queue : ∀ l : LockId, (t.lock l).queue = []
  standing : ∀ (p : Port) (l : LockId), t.standing p l = {}
  count : ∀ p : Port, t.count p = {}
  pool : t.poolInUse = 0

theorem unused_of_pinReset (s : State) : State.Unused { State.reset with
    pending := s.pending, resetAsserted := true, baud := s.baud, supsel := s.supsel } := by
  refine ⟨fun l p => ?_, fun l => ?_, fun p l => ?_, fun p => ?_, rfl⟩ <;>
    simp [State.lock, State.standing, State.count, State.reset, LockEntry.holding]

theorem unused_beginRestart (s : State) (p : Port) : (s.beginRestart p).Unused := by
  unfold State.beginRestart State.clearForRestart
  refine ⟨fun l q => ?_, fun l => ?_, fun q l => ?_, fun q => ?_, rfl⟩ <;>
    simp [State.lock, State.standing, State.count, State.reset, LockEntry.restarted, LockEntry.holding]

/-! ### Laws of the tables -/

/-- What a law `P` of the lock engine's tables has to be kept by. `mid l` is what holds of it between an ending on
lock `l` and the hand-off that follows. -/
structure EngineLaw (P : State → Prop) (mid : LockId → State → Prop) : Prop where
  congr : ∀ {s t : State}, s.SameTables t → P s → P t
  midCongr : ∀ {s t : State} {l : LockId}, s.SameTables t → mid l s → mid l t
  unused : ∀ t : State, t.Unused → P t
  enter : ∀ s l, P s → mid l s
  endHolding : ∀ s p l h, mid l s → (s.lock l).holding p = some h → mid l (s.endHolding p l h)
  leaveQueue : ∀ s p l, mid l s → (s.lock l).waits p = true → mid l (s.leaveQueue p l)
  lower : ∀ s p l h, P s → (s.lock l).holding p = some h → h.mode = .exclusive →
    mid l (s.alterHolding p l { h with mode := .shared })
  handOff : ∀ s l, mid l s → P (s.handOff l)
  leaveBehind : ∀ s p l, P s → (s.lock l).waits p = true → (s.lock l).isFirst p = false →
    P (s.leaveQueue p l)
  grantTo : ∀ s p l m lease, P s → (s.lock l).config.enabled = true → (s.lock l).holding p = none →
    (s.lock l).waits p = false → (s.lock l).grantable m = true →
    (s.count p).holdings + (s.count p).waits < maxStandings → P (s.grantTo p l m lease)
  enqueue : ∀ s p l m lease limit, P s → (s.lock l).config.enabled = true → (s.lock l).holding p = none →
    (s.lock l).waits p = false → (s.lock l).grantable m = false →
    (s.count p).holdings + (s.count p).waits < maxStandings → (s.count p).waits < maxWaits →
    s.poolInUse < poolSize → P (s.enqueue p l m lease limit)
  renew : ∀ s p l h d, P s → (s.lock l).holding p = some h → P (s.alterHolding p l { h with deadline := d })
  raise : ∀ s p l h, P s → (s.lock l).holding p = some h → (s.lock l).upgradable p = true →
    P (s.raiseHolding p l h)
  lockConfig : ∀ s l c, P s → (c.enabled = true ∨ (s.lock l).inUse = false) →
    P (s.setLock l { s.lock l with config := c })

/-- A law of the tables is kept by every kind of step: the others leave the tables alone, or nobody on them. -/
theorem EngineLaw.stepLaw {P : State → Prop} {mid : LockId → State → Prop} (L : EngineLaw P mid) :
    StepLaw P mid where
  enter := L.enter
  midReport s _ r h := L.midCongr (sameTables_report s r) h
  midChange s l p c h := L.midCongr (sameTables_recordChange s p l c) h
  endHolding := L.endHolding
  leaveQueue := L.leaveQueue
  lower := L.lower
  handOff := L.handOff
  leaveBehind := L.leaveBehind
  report s r h := L.congr (sameTables_report s r) h
  change s p l c h := L.congr (sameTables_recordChange s p l c) h
  clear s p l h := L.congr (sameTables_clearChange s p l) h
  grantTo s p l m lease h _ := L.grantTo s p l m lease h
  enqueue s p l m lease limit h _ := L.enqueue s p l m lease limit h
  renew := L.renew
  raise := L.raise
  lockConfig := L.lockConfig
  portConfig s p _ h _ := L.congr (sameTables_setSession s p _) h
  credit s p _ h _ _ := L.congr (sameTables_setSession s p _) h
  clearFault s p h := L.congr ((sameTables_setLink s p _).trans (sameTables_setSession _ p _)) h
  beginEnd s p c _ _ h _ _ := L.congr ((sameTables_closeOut s p c).trans (sameTables_setSession _ p _)) h
  withdrawn _ t p _ _ _ _ h _ _ _ _ := L.congr (sameTables_setSession t p _) h
  released _ t p _ _ _ _ h _ _ _ _ := L.congr (sameTables_setSession t p _) h
  stage s p e h := L.congr (s := s.setEnding p (some e)) ⟨fun _ => rfl, fun _ _ => rfl, fun _ => rfl, rfl⟩ h
  endDone s p e h _ := L.congr (s := s.setEnding p (some e)) ⟨fun _ => rfl, fun _ _ => rfl, fun _ => rfl, rfl⟩ h
  undefer s p h := L.congr (sameTables_setSession s p _) h
  deferSilence s p h _ := L.congr (sameTables_setSession s p _) h
  deferDrop s p _ h _ _ := L.congr (sameTables_setSession s p _) h
  opening s p _ h _ := L.congr (sameTables_setSession s p _) h
  notifyFault s p h _ _ := L.congr ((sameTables_setSession s p _).trans (sameTables_setSession _ p _)) h
  startOpen s p _ _ h _ _ := L.congr (sameTables_setSession s p _) h
  reopen s p e _ _ h _ _ :=
    L.congr (s := s.setEnding p (some e)) ⟨fun _ => rfl, fun _ _ => rfl, fun _ => rfl, rfl⟩ h
  handOn s p _ h _ := L.congr (sameTables_setLink s p _) h
  answer s p _ _ h _ := L.congr (sameTables_setLink s p _) h
  traceSetup s p _ h _ := L.congr ((sameTables_setTrace s _).trans (sameTables_setSession _ p _)) h
  traceRead s _ h := L.congr (sameTables_setTrace s _) h
  restart s p _ _ _ := L.unused _ (unused_beginRestart s p)
  restarted s h := L.congr (s := s) ⟨fun _ => rfl, fun _ _ => rfl, fun _ => rfl, rfl⟩ h
  advance s h := L.congr (sameTables_advanceClock s) h
  timer s h := L.congr (sameTables_setTrace s _) h
  receiver s p _ h _ := L.congr (sameTables_setLink s p _) h
  fault s p c h _ := L.congr (sameTables_linkFault s p c) h
  silence s p h _ _ := L.congr (sameTables_setSession s p _) h
  admitted s p _ h _ _ := L.congr (sameTables_setLink s p _) h
  breakLevel s p _ h _ := L.congr (sameTables_setLink s p _) h
  replyGone s p h := L.congr (sameTables_replyGone s p) h
  noticeGone s p h := L.congr (sameTables_noticeGone s p) h
  notice s p _ b h _ _ := L.congr (sameTables_sendNotice s p b) h
  standingNotice s p h := L.congr (sameTables_formStanding s p) h
  pinReset s _ := L.unused _ (unused_of_pinReset s)

/-- A property kept by every command, whatever commands wait, is kept by every step (log entry 2). -/
theorem keeps_step {P : State → Prop} (hp : ∀ (s : State) (waiting : List Instr), P s → P { s with pending := waiting })
    (hexec : ∀ (c : Instr) {s t : State}, P s → exec c s = .next t → P t) {s t : State} (h : P s)
    (hs : step s = .next t) : P t := by
  unfold step at hs
  split at hs
  · cases hs; exact h
  · exact hexec _ (hp s _ h) hs

/-- A law of the tables that says the locks are sound is kept by every step. -/
theorem EngineLaw.step {P : State → Prop} {mid : LockId → State → Prop} (L : EngineLaw P mid)
    (hsound : ∀ s : State, P s → s.LocksSound) {s t : State} (h : P s) (hs : step s = .next t) : P t := by
  have same (s : State) (c : List Instr) (r : Bool) (b : BitVec 2) (v : BitVec 3) : s.SameTables
      { s with pending := c, resetAsserted := r, baud := b, supsel := v } :=
    ⟨fun _ => rfl, fun _ _ => rfl, fun _ => rfl, rfl⟩
  refine keeps_step (P := P) (fun s w h => L.congr (same s w s.resetAsserted s.baud s.supsel) h)
    (fun c s t h hc => ?_) h hs
  exact L.stepLaw.exec (hsound s h) h c (fun b v _ => L.congr (same s s.pending false b v) h) hc

end Sys2Proof.Machine
end

section
/-! PROOFS. Every step keeps the laws of the lock table (Chapters 1 and 2). -/

namespace Sys2Proof.Machine

variable {e : LockEntry} {l : LockId} {p : Port} {h x : Holding}

/-! ### Entries that keep the laws but for the head of the queue -/

theorem LockEntry.Fit.unhold (he : e.Fit l) (p : Port) : (e.unhold p).Fit l := by
  have hsub {q : Port} {y : Holding} (hq : (e.unhold p).holding q = some y) : e.holding q = some y := by
    rw [holding_unhold] at hq
    split at hq
    · contradiction
    · exact hq
  refine ⟨fun q r hqr hx => ?_, ⟨he.once.1, fun q hq => ?_⟩, he.named, fun q => ?_, ?_⟩
  · obtain ⟨y, hy, hym⟩ := (holdsIn_iff _ _ _).mp hx
    rw [holding_unhold, he.shape q r hqr ((holdsIn_iff _ _ _).mpr ⟨y, hsub hy, hym⟩), ite_self]
  · obtain ⟨y, hy⟩ := Option.isSome_iff_exists.mp hq
    exact he.once.2 q (by rw [hsub hy]; rfl)
  · rw [holding_unhold]
    split
    · rfl
    · exact he.numbered q
  · refine he.enabled.imp id fun hunused => ?_
    rw [inUse_eq_false_iff] at hunused ⊢
    exact ⟨fun q => by rw [holding_unhold, hunused.1 q, ite_self], hunused.2⟩

theorem LockEntry.Fit.leave (he : e.Fit l) (p : Port) : (e.leave p).Fit l := by
  refine ⟨he.shape, ⟨nodup_ports_leave he.once p, fun q hq => ?_⟩,
    fun w hw => he.named w (List.mem_filter.mp hw).1, he.numbered, he.enabled.imp id fun hunused => ?_⟩
  · rw [waits_leave, he.once.2 q hq, Bool.false_and]
  · rw [inUse_eq_false_iff] at hunused ⊢
    exact ⟨hunused.1, by rw [queue_leave, hunused.2]; rfl⟩

/-- A holding put in place of the port's own; it may be EXCLUSIVE where the old one was, or on a sole holder. -/
theorem LockEntry.Fit.hold (he : e.Fit l) (hh : e.holding p = some h) (hg : x.grant ≠ 0)
    (hm : x.mode = .exclusive → h.mode = .exclusive ∨ ∀ q : Port, q ≠ p → e.holding q = none) :
    (e.hold p x).Fit l := by
  have hsome {q : Port} (hq : ((e.hold p x).holding q).isSome = true) : (e.holding q).isSome = true := by
    rw [holding_hold] at hq
    split at hq
    · next hpq => rw [← hpq, hh]; rfl
    · exact hq
  refine ⟨fun q r hqr hx => ?_, ⟨he.once.1, fun q hq => he.once.2 q (hsome hq)⟩, he.named, fun q => ?_,
    .inl (he.enabled_of_holding (p := p) (by simp [hh]))⟩
  · obtain ⟨y, hy, hym⟩ := (holdsIn_iff _ _ _).mp hx
    have hother : e.holding r = none := by
      rw [holding_hold] at hy
      split at hy
      · next hpq =>
        subst hpq
        obtain rfl : x = y := Option.some.inj hy
        obtain hexc | hsole := hm hym
        · exact he.shape p r hqr ((holdsIn_iff _ _ _).mpr ⟨h, hh, hexc⟩)
        · exact hsole r (Ne.symm hqr)
      · exact he.shape q r hqr ((holdsIn_iff _ _ _).mpr ⟨y, hy, hym⟩)
    have hpr : p ≠ r := fun hpr => by rw [← hpr, hh] at hother; contradiction
    rw [holding_hold, if_neg hpr, hother]
  · rw [holding_hold]
    split
    · simpa using hg
    · exact he.numbered q

theorem LockEntry.Fit.grant_ne_zero (he : e.Fit l) (hh : e.holding p = some h) : h.grant ≠ 0 := by
  simpa [hh] using he.numbered p

/-! ### Sound entries -/

theorem LockEntry.Sound.leave_behind (he : e.Sound l) (hf : e.isFirst p = false) : (e.leave p).Sound l := by
  obtain ⟨-, hhead, -⟩ := id he
  refine (he.fit.leave p).sound ?_
  rw [LockEntry.HeadConflicts, head?_leave hf, mode_leave]
  exact hhead

/-- A holding that changes neither mode nor number keeps the laws, its deadline whatever it is. -/
theorem LockEntry.Sound.renew (he : e.Sound l) (hh : e.holding p = some h) (d : Option Clock) :
    (e.hold p { h with deadline := d }).Sound l := by
  obtain ⟨-, hhead, -⟩ := id he
  have hholds (m : Mode) (q : Port) : (e.hold p { h with deadline := d }).holdsIn m q = e.holdsIn m q := by
    unfold LockEntry.holdsIn
    rw [holding_hold]
    split
    · next hpq => rw [← hpq, hh]; rfl
    · rfl
  have hmode : (e.hold p { h with deadline := d }).mode = e.mode := by
    unfold LockEntry.mode
    rw [funext (hholds .exclusive), funext (hholds .shared)]
  have hgrant : h.grant ≠ 0 := he.fit.grant_ne_zero hh
  refine (he.fit.hold hh (x := { h with deadline := d }) hgrant Or.inl).sound ?_
  rw [LockEntry.HeadConflicts, hmode]
  exact hhead

/-- An immediate grant: on a free lock, or SHARED beside SHARED holders with nobody waiting (R7). -/
theorem LockEntry.Sound.grant (he : e.Sound l) (now : Clock) (m : Mode) (lease : Half)
    (hen : e.config.enabled = true) (hg : e.AtOnce m) :
    (e.grant now p m lease).Sound l := by
  obtain ⟨hshape, hhead, honce, hnamed, hnumbered, -⟩ := he
  have hempty : e.queue = [] := by
    obtain hfree | ⟨-, hempty, -⟩ := hg
    · cases hq : e.queue with
      | nil => rfl
      | cons w rest => simp [LockEntry.HeadConflicts, hq, (mode_eq_none_iff e).mpr hfree] at hhead
    · exact hempty
  refine ⟨fun q r hqr hx => ?_, by simp [LockEntry.HeadConflicts, hempty], ⟨honce.1, fun q hq => ?_⟩, hnamed,
    fun q => ?_, .inl hen⟩
  · obtain ⟨y, hy, hym⟩ := (holdsIn_iff _ _ _).mp hx
    rw [holding_grant] at hy ⊢
    obtain hfree | ⟨hm, -, hall⟩ := hg
    · split at hy
      · next hpq => rw [if_neg fun hpr => hqr (hpq.symm.trans hpr), hfree r]
      · rw [hfree q] at hy; contradiction
    · split at hy
      · obtain rfl := Option.some.inj hy
        rw [hm] at hym
        contradiction
      · have := hall q
        simp [hy, hym] at this
  · rw [waits_grant, waits_eq_false_iff, hempty]
    simp
  · rw [holding_grant]
    split
    · simpa using nextGrant_ne_zero e.last
    · exact hnumbered q

/-- A record that joins the queue of a lock that cannot be granted at once: the first waiter conflicts with the
holders, whether it is the new one or not (R34). -/
theorem LockEntry.Sound.join (he : e.Sound l) {w : Waiter} (hw : w.lock = l) (hen : e.config.enabled = true)
    (hheld : e.holding w.port = none) (hwaits : e.waits w.port = false) (hg : ¬ e.AtOnce w.mode) :
    (e.join w).Sound l := by
  obtain ⟨hshape, hhead, honce, hnamed, hnumbered, -⟩ := he
  refine ⟨hshape, ?_, ⟨?_, fun q hq => ?_⟩, fun y hy => ?_, hnumbered, .inl hen⟩
  · show ((e.queue ++ [w]).head?.all fun y => e.mode.any fun m => y.mode.conflicts m) = true
    cases hq : e.queue with
    | cons v rest => simpa [LockEntry.HeadConflicts, hq] using hhead
    | nil =>
      rw [← grantable_iff] at hg
      cases hm : e.mode with
      | none => simp [LockEntry.grantable, hm] at hg
      | some m => cases m <;> simp_all [LockEntry.grantable, Mode.conflicts]
  · rw [queue_join, List.map_append, List.map_singleton, List.nodup_append]
    refine ⟨honce.1, by simp, fun a ha b hb => ?_⟩
    obtain ⟨y, hy, rfl⟩ := List.mem_map.mp ha
    obtain rfl : b = w.port := by simpa using hb
    exact (waits_eq_false_iff e w.port).mp hwaits y hy
  · rw [holding_join] at hq
    have hne : w.port ≠ q := fun heq => by simp [← heq, hheld] at hq
    rw [waits_join, honce.2 q hq, decide_eq_false hne, Bool.or_self]
  · obtain hy | hy := List.mem_append.mp hy
    · exact hnamed y hy
    · obtain rfl : y = w := by simpa using hy
      exact hw

/-- A sole holder turned EXCLUSIVE under the next number, with nobody waiting (R56). -/
theorem LockEntry.Sound.raise (he : e.Sound l) (hh : e.holding p = some h) (hup : e.upgradable p = true) :
    (e.issue.hold p { h with mode := .exclusive, grant := nextGrant e.last }).Sound l := by
  obtain ⟨hports, hempty⟩ : e.holderPorts = [p] ∧ e.queue = [] := by simpa [LockEntry.upgradable] using hup
  have hissue : e.issue.Fit l :=
    ⟨he.fit.shape, he.fit.once, he.fit.named, he.fit.numbered, he.fit.enabled⟩
  refine (hissue.hold (x := { h with mode := .exclusive, grant := nextGrant e.last }) hh
    (nextGrant_ne_zero e.last) fun _ => .inr fun q hq => ?_).sound (by simp [LockEntry.HeadConflicts, hempty])
  have hnot : q ∉ e.holderPorts := by rw [hports]; simpa using hq
  rw [mem_holderPorts] at hnot
  simpa using hnot

theorem LockEntry.Sound.withConfig (he : e.Sound l) (c : LockConfig)
    (hc : c.enabled = true ∨ e.inUse = false) : LockEntry.Sound { e with config := c } l := by
  obtain ⟨hshape, hhead, honce, hnamed, hnumbered, -⟩ := he
  exact ⟨hshape, hhead, honce, hnamed, hnumbered, hc⟩

/-! ### The lock table -/

variable {s t : State}

/-- Every lock keeps its laws but lock `l`, which keeps those that do not concern the head of its queue. -/
structure State.SoundBut (l : LockId) (s : State) : Prop where
  others : ∀ k : LockId, k ≠ l → (s.lock k).Sound k
  here : (s.lock l).Fit l

theorem soundBut_of_locksSound (h : s.LocksSound) (l : LockId) : s.SoundBut l := ⟨fun k _ => h k, (h l).fit⟩

/-- Work on lock `l` alone keeps the laws of the table when it keeps those of the lock. -/
theorem locksSound_of_lock {f : LockEntry} (h : s.LocksSound)
    (hlock : ∀ k : LockId, t.lock k = if l = k then f else s.lock k) (hf : f.Sound l) : t.LocksSound := by
  intro k
  rw [hlock]
  split
  · next hlk => rw [← hlk]; exact hf
  · exact h k

theorem soundBut_of_lock {f : LockEntry} (h : s.SoundBut l)
    (hlock : ∀ k : LockId, t.lock k = if l = k then f else s.lock k) (hf : f.Fit l) : t.SoundBut l := by
  refine ⟨fun k hk => ?_, ?_⟩
  · rw [hlock, if_neg (Ne.symm hk)]
    exact h.others k hk
  · rw [hlock, if_pos rfl]
    exact hf

theorem locksSound_of_unused (h : s.Unused) : s.LocksSound := by
  intro l
  refine ⟨fun p q _ hp => ?_, by simp [LockEntry.HeadConflicts, h.queue l], ⟨by simp [h.queue l], fun p hp => ?_⟩,
    by simp [h.queue l], fun p => by simp [h.holding l p],
    .inr ((inUse_eq_false_iff _).mpr ⟨h.holding l, h.queue l⟩)⟩
  · exact h.holding l q
  · simp [h.holding l p] at hp

theorem locksSound_congr (h : s.SameTables t) (hs : s.LocksSound) : t.LocksSound := by
  intro l
  rw [h.locks]
  exact hs l

/-- Hand-off restores the law of R34 on the lock that it serves. -/
theorem locksSound_handOff (h : s.SoundBut l) : (s.handOff l).LocksSound := by
  intro k
  rw [lock_handOff]
  split
  · next hlk => rw [← hlk]; exact h.here.handedOff s.clock
  · next hlk => exact h.others k (Ne.symm hlk)

theorem locksLaw : EngineLaw State.LocksSound State.SoundBut where
  congr := locksSound_congr
  midCongr h hm := ⟨fun k hk => by rw [h.locks]; exact hm.others k hk, by rw [h.locks]; exact hm.here⟩
  unused _ h := locksSound_of_unused h
  enter s l h := soundBut_of_locksSound h l
  endHolding s p l x h _ := soundBut_of_lock h (lock_endHolding s p l x) (h.here.unhold p)
  leaveQueue s p l h _ := soundBut_of_lock h (lock_leaveQueue s p l) (h.here.leave p)
  lower s p l x h hx _ := soundBut_of_lock (soundBut_of_locksSound h l) (lock_alterHolding s p l _)
    ((h l).fit.hold hx ((h l).fit.grant_ne_zero hx :) (by simp))
  handOff _ _ h := locksSound_handOff h
  leaveBehind s p l h _ hf := locksSound_of_lock h (lock_leaveQueue s p l) ((h l).leave_behind hf)
  grantTo s p l m lease h hen _ _ hg _ := locksSound_of_lock h (lock_grantTo s p l m lease)
    ((h l).grant s.clock m lease hen ((grantable_iff _ m).mp hg))
  enqueue s p l m lease limit h hen hheld hwaits hg _ _ _ :=
    locksSound_of_lock h (lock_enqueue s p l m lease limit)
      ((h l).join rfl hen hheld hwaits (by rw [← grantable_iff]; exact Bool.not_eq_true _ ▸ hg))
  renew s p l x d h hx := locksSound_of_lock h (lock_alterHolding s p l _) ((h l).renew hx d)
  raise s p l x h hx hup := locksSound_of_lock h (lock_raiseHolding s p l x) ((h l).raise hx hup)
  lockConfig s l c h hc := locksSound_of_lock h (lock_setLock s l _) ((h l).withConfig c hc)

/-- Settles O53: each kind of step keeps the laws of the lock it works on, and hand-off restores that of the head of
the queue. -/
theorem stepsKeepTheLocksSound : Obligations.StepsKeepTheLocksSound :=
  fun _ _ h hs => locksLaw.step (fun _ hs => hs) h hs

end Sys2Proof.Machine
end

section
/-! PROOFS. Every step keeps the standing table in step with the lock table (Chapter 5). -/

namespace Sys2Proof.Machine

variable {s t : State} {p : Port} {l : LockId} {e f : LockEntry} {r : StandingRecord} {h : Holding}

/-! ### Records in step with an entry -/

theorem view_of_holding (hh : e.holding p = some h) : e.view p = (h.mode.held, h.deadline) := by
  simp [LockEntry.view, hh]

theorem view_of_not_holding (hh : e.holding p = none) :
    e.view p = if e.waits p then (.waiting, none) else (.none, none) := by
  simp [LockEntry.view, hh]

theorem agrees_hold (hh : e.holding p = some h) (r : StandingRecord) : (r.hold h).Agrees e p := by
  simp [StandingRecord.Agrees, view_of_holding hh, StandingRecord.hold, hh]

/-- A record of a port that neither holds nor waits. -/
theorem agrees_of_none (hh : e.holding p = none) (hw : e.waits p = false) (hs : r.standing = .none)
    (hd : r.deadline = none) : r.Agrees e p := by
  simp [StandingRecord.Agrees, view_of_not_holding hh, hw, hs, hd, hh]

theorem agrees_join (hh : e.holding p = none) (hw : e.waits p = true) (r : StandingRecord) :
    r.join.Agrees e p := by
  simp [StandingRecord.Agrees, view_of_not_holding hh, hw, StandingRecord.join, hh]

/-- What a record has to agree with is the holding and the wait of its port. -/
theorem agrees_congr {r' : StandingRecord} (h : r.Agrees e p) (hr : r'.clear = r.clear)
    (hh : f.holding p = e.holding p) (hw : f.waits p = e.waits p) : r'.Agrees f p := by
  simp only [StandingRecord.clear, StandingRecord.mk.injEq, and_true] at hr
  obtain ⟨hs, hg, hd⟩ := hr
  simp only [StandingRecord.Agrees, LockEntry.view, hs, hg, hd, hh, hw]
  exact h

/-! ### The standing table -/

/-- Work on port `p` and lock `l` alone keeps the table in step when it leaves that one record in step. -/
theorem standingsAgree_of_lock (h : s.StandingsAgree)
    (hlock : ∀ k : LockId, t.lock k = if l = k then f else s.lock k)
    (hothers : ∀ (q : Port) (k : LockId), ¬(p = q ∧ l = k) → t.standing q k = s.standing q k)
    (hports : ∀ q : Port, p ≠ q → f.holding q = (s.lock l).holding q ∧ f.waits q = (s.lock l).waits q)
    (hown : (t.standing p l).Agrees f p) : t.StandingsAgree := by
  intro q k
  by_cases hqk : p = q ∧ l = k
  · obtain ⟨rfl, rfl⟩ := hqk
    rw [hlock, if_pos rfl]
    exact hown
  · rw [hothers q k hqk, hlock]
    split
    · next hlk =>
      subst hlk
      obtain ⟨hh, hw⟩ := hports q fun hpq => hqk ⟨hpq, rfl⟩
      exact agrees_congr (h q l) rfl hh hw
    · exact h q k

theorem standingsAgree_congr (h : s.SameTables t) (hs : s.StandingsAgree) : t.StandingsAgree := fun p l =>
  agrees_congr (hs p l) (h.standings p l) (by rw [h.locks]) (by rw [h.locks])

/-- A grant by hand-off puts the waiter's record in step with its new holding. -/
theorem standingsAgree_grantHead {w : Waiter} {rest : List Waiter} (h : s.StandingsAgree)
    (hn : ((s.lock l).queue.map Waiter.port).Nodup) (hq : (s.lock l).queue = w :: rest) :
    (s.grantHead l w).StandingsAgree := by
  refine standingsAgree_of_lock (p := w.port) h (lock_grantHead s l w)
    (fun q k hne => by rw [standing_grantHead, if_neg hne]) (fun q hne => ⟨?_, ?_⟩) ?_
  · rw [holding_grant, if_neg hne, holding_popHead]
  · rw [waits_grant, waits_popHead _ hq hn, decide_eq_true hne, Bool.and_true]
  · have hown := agrees_hold (r := s.standing w.port l) (h := s.grantOf l w.mode w.lease)
      (e := (s.lock l).popHead.grant s.clock w.port w.mode w.lease) (p := w.port)
      (by rw [holding_grant, if_pos rfl]; rfl)
    rw [standing_grantHead, if_pos ⟨rfl, rfl⟩]
    split <;> exact hown

/-- A lock entry with a holding of port `p` put in: a grant, a renewal, a conversion. -/
theorem standingsAgree_hold (hs : s.StandingsAgree)
    (hlock : ∀ k : LockId, t.lock k = if l = k then f else s.lock k)
    (hstanding : ∀ (q : Port) (k : LockId),
      t.standing q k = if p = q ∧ l = k then (s.standing p l).hold h else s.standing q k)
    (hholding : ∀ q : Port, f.holding q = if p = q then some h else (s.lock l).holding q)
    (hwaits : ∀ q : Port, f.waits q = (s.lock l).waits q) : t.StandingsAgree := by
  refine standingsAgree_of_lock (p := p) hs hlock (fun q k hne => by rw [hstanding, if_neg hne])
    (fun q hne => ⟨by rw [hholding, if_neg hne], hwaits q⟩) ?_
  rw [hstanding, if_pos ⟨rfl, rfl⟩]
  exact agrees_hold (by rw [hholding, if_pos rfl]) _

theorem standingsAgree_endHolding (hs : s.StandingsAgree) (honce : (s.lock l).PortOnce)
    (hh : (s.lock l).holding p = some h) : (s.endHolding p l h).StandingsAgree := by
  refine standingsAgree_of_lock (p := p) hs (lock_endHolding s p l h)
    (fun q k hne => by rw [standing_endHolding, if_neg hne])
    (fun q hne => ⟨by rw [holding_unhold, if_neg hne], waits_unhold _ p q⟩) ?_
  rw [standing_endHolding, if_pos ⟨rfl, rfl⟩]
  exact agrees_of_none (by rw [holding_unhold, if_pos rfl])
    (by rw [waits_unhold]; exact honce.2 p (by simp [hh])) rfl rfl

theorem standingsAgree_leaveQueue (hs : s.StandingsAgree) (honce : (s.lock l).PortOnce)
    (hw : (s.lock l).waits p = true) : (s.leaveQueue p l).StandingsAgree := by
  have hnone : (s.lock l).holding p = none := by
    cases hh : (s.lock l).holding p with
    | none => rfl
    | some x =>
      have hnot := honce.2 p (by simp [hh])
      rw [hw] at hnot
      contradiction
  refine standingsAgree_of_lock (p := p) hs (lock_leaveQueue s p l)
    (fun q k hne => by rw [standing_leaveQueue, if_neg hne])
    (fun q hne => ⟨holding_leave _ p q, by rw [waits_leave, decide_eq_true hne, Bool.and_true]⟩) ?_
  rw [standing_leaveQueue, if_pos ⟨rfl, rfl⟩]
  exact agrees_of_none (by rw [holding_leave, hnone]) (by rw [waits_leave]; simp) rfl rfl

theorem standingsAgree_enqueue (hs : s.StandingsAgree) (hnone : (s.lock l).holding p = none) (m : Mode)
    (lease limit : Half) : (s.enqueue p l m lease limit).StandingsAgree := by
  refine standingsAgree_of_lock (p := p) hs (lock_enqueue s p l m lease limit)
    (fun q k hne => by rw [standing_enqueue, if_neg hne])
    (fun q hne => ⟨holding_join _ _ q, ?_⟩) ?_
  · rw [waits_join, decide_eq_false (show ¬(newWaiter s.clock p l m lease limit).port = q from hne), Bool.or_false]
  · rw [standing_enqueue, if_pos ⟨rfl, rfl⟩]
    exact agrees_join (by rw [holding_join, hnone]) (by rw [waits_join]; simp [newWaiter]) _

theorem standingsAgree_of_unused (h : s.Unused) : s.StandingsAgree := fun p l => by
  rw [h.standing]
  exact agrees_of_none (h.holding l p) (by rw [waits_eq_false_iff, h.queue]; simp) rfl rfl

theorem standingsAgree_setConfig (hs : s.StandingsAgree) (c : LockConfig) :
    (s.setLock l { s.lock l with config := c }).StandingsAgree := fun q k => by
  rw [standing_setLock, lock_setLock]
  split
  · next hlk => subst hlk; exact hs q l
  · exact hs q k

/-- A law of the locks with one lock served by hand-off, and of whatever else each grant keeps. -/
theorem soundBut_grantHead {w : Waiter} {rest : List Waiter} (h : s.SoundBut l)
    (hq : (s.lock l).queue = w :: rest)
    (hm : (∀ p, (s.lock l).holding p = none) ∨
      (w.mode = .shared ∧ ∀ p, (s.lock l).holdsIn .exclusive p = false)) : (s.grantHead l w).SoundBut l :=
  soundBut_of_lock h (lock_grantHead s l w) (h.here.grantHead hq s.clock hm)

theorem standingsAgree_handOff (h : s.SoundBut l) (hs : s.StandingsAgree) : (s.handOff l).StandingsAgree :=
  (handOff_induct s (P := fun t => t.SoundBut l ∧ t.StandingsAgree)
    (fun _ _ _ hq hm ht => ⟨soundBut_grantHead ht.1 hq hm, standingsAgree_grantHead ht.2 ht.1.here.once.1 hq⟩)
    ⟨h, hs⟩).2

theorem standingsLaw : EngineLaw (fun s => s.LocksSound ∧ s.StandingsAgree)
    (fun l s => s.SoundBut l ∧ s.StandingsAgree) where
  congr hst h := ⟨locksLaw.congr hst h.1, standingsAgree_congr hst h.2⟩
  midCongr hst h := ⟨locksLaw.midCongr hst h.1, standingsAgree_congr hst h.2⟩
  unused t ht := ⟨locksLaw.unused t ht, standingsAgree_of_unused ht⟩
  enter s l h := ⟨locksLaw.enter s l h.1, h.2⟩
  endHolding s p l x h hx := ⟨locksLaw.endHolding s p l x h.1 hx, standingsAgree_endHolding h.2 h.1.here.once hx⟩
  leaveQueue s p l h hw := ⟨locksLaw.leaveQueue s p l h.1 hw, standingsAgree_leaveQueue h.2 h.1.here.once hw⟩
  lower s p l x h hx hm := ⟨locksLaw.lower s p l x h.1 hx hm, standingsAgree_hold h.2 (lock_alterHolding s p l _)
    (standing_alterHolding s p l _) (holding_hold _ p _) (waits_hold _ p _)⟩
  handOff s l h := ⟨locksLaw.handOff s l h.1, standingsAgree_handOff h.1 h.2⟩
  leaveBehind s p l h hw hf :=
    ⟨locksLaw.leaveBehind s p l h.1 hw hf, standingsAgree_leaveQueue h.2 (h.1 l).fit.once hw⟩
  grantTo s p l m lease h hen hheld hwaits hg hroom :=
    ⟨locksLaw.grantTo s p l m lease h.1 hen hheld hwaits hg hroom,
      standingsAgree_hold h.2 (lock_grantTo s p l m lease) (standing_grantTo s p l m lease)
        (holding_grant _ s.clock p m lease) (waits_grant _ s.clock p m lease)⟩
  enqueue s p l m lease limit h hen hheld hwaits hg hroom hw hpool :=
    ⟨locksLaw.enqueue s p l m lease limit h.1 hen hheld hwaits hg hroom hw hpool,
      standingsAgree_enqueue h.2 hheld m lease limit⟩
  renew s p l x d h hx := ⟨locksLaw.renew s p l x d h.1 hx, standingsAgree_hold h.2 (lock_alterHolding s p l _)
    (standing_alterHolding s p l _) (holding_hold _ p _) (waits_hold _ p _)⟩
  raise s p l x h hx hup := ⟨locksLaw.raise s p l x h.1 hx hup, standingsAgree_hold h.2 (lock_raiseHolding s p l x)
    (standing_raiseHolding s p l x) (holding_hold _ p _) (waits_hold _ p _)⟩
  lockConfig s l c h hc := ⟨locksLaw.lockConfig s l c h.1 hc, standingsAgree_setConfig h.2 c⟩

/-- Settles O54: each kind of step leaves the one record it concerns in step with the entry that it leaves. -/
theorem stepsKeepTheStandingsInStep : Obligations.StepsKeepTheStandingsInStep :=
  fun _ _ hsound hagree hs => (standingsLaw.step (fun _ h => h.1) ⟨hsound, hagree⟩ hs).2

end Sys2Proof.Machine
end

section
/-! PROOFS. Every step keeps the counts and the pool true to the lock table and within their limits (Chapters 1
and 2). -/

namespace Sys2Proof.Machine

variable {s t : State} {p : Port} {l : LockId} {e f : LockEntry} {h : Holding}

/-! ### Sums over the locks -/

theorem length_filter_eq_sum {α : Type} (g : α → Bool) :
    ∀ xs : List α, (xs.filter g).length = (xs.map fun x => (g x).toNat).sum
  | [] => rfl
  | x :: xs => by
    rw [List.filter_cons, List.map_cons, List.sum_cons, ← length_filter_eq_sum g xs]
    cases g x
    · simp
    · simp [Nat.add_comm]

theorem sum_allLocks (g : LockId → Nat) : (allLocks.map g).sum = ∑ k, g k := (Fin.sum_univ_def g).symm

/-- Sums over the locks that differ at one lock alone differ by what they differ there. -/
theorem sum_allLocks_add {g g' : LockId → Nat} (hg : ∀ k : LockId, k ≠ l → g' k = g k) :
    (allLocks.map g').sum + g l = (allLocks.map g).sum + g' l := by
  have hrest : ∑ k ∈ Finset.univ.erase l, g' k = ∑ k ∈ Finset.univ.erase l, g k :=
    Finset.sum_congr rfl fun k hk => hg k (Finset.ne_of_mem_erase hk)
  rw [sum_allLocks, sum_allLocks, ← Finset.add_sum_erase _ g (Finset.mem_univ l),
    ← Finset.add_sum_erase _ g' (Finset.mem_univ l), hrest]
  omega

section
variable (hlock : ∀ k : LockId, t.lock k = if l = k then f else s.lock k)
include hlock

theorem length_heldLocks_add (p : Port) :
    (t.heldLocks p).length + ((s.lock l).holding p).isSome.toNat =
      (s.heldLocks p).length + (f.holding p).isSome.toNat := by
  unfold State.heldLocks
  rw [length_filter_eq_sum, length_filter_eq_sum]
  have := sum_allLocks_add (l := l) (g := fun k => ((s.lock k).holding p).isSome.toNat)
    (g' := fun k => ((t.lock k).holding p).isSome.toNat) fun k hk => by rw [hlock, if_neg (Ne.symm hk)]
  simpa only [hlock l, if_true] using this

theorem length_waitedLocks_add (p : Port) :
    (t.waitedLocks p).length + ((s.lock l).waits p).toNat = (s.waitedLocks p).length + (f.waits p).toNat := by
  unfold State.waitedLocks
  rw [length_filter_eq_sum, length_filter_eq_sum]
  have := sum_allLocks_add (l := l) (g := fun k => ((s.lock k).waits p).toNat)
    (g' := fun k => ((t.lock k).waits p).toNat) fun k hk => by rw [hlock, if_neg (Ne.symm hk)]
  simpa only [hlock l, if_true] using this

theorem queuedRecords_add :
    t.queuedRecords + (s.lock l).queue.length = s.queuedRecords + f.queue.length := by
  unfold State.queuedRecords
  have := sum_allLocks_add (l := l) (g := fun k => (s.lock k).queue.length)
    (g' := fun k => (t.lock k).queue.length) fun k hk => by rw [hlock, if_neg (Ne.symm hk)]
  simpa only [hlock l, if_true] using this

/-- Work on one lock keeps the counts true when they move with its holders and waiters. -/
theorem countsAgree_of_lock (h : s.CountsAgree)
    (hheld : ∀ q : Port, (t.count q).holdings + ((s.lock l).holding q).isSome.toNat =
      (s.count q).holdings + (f.holding q).isSome.toNat)
    (hwait : ∀ q : Port, (t.count q).waits + ((s.lock l).waits q).toNat = (s.count q).waits + (f.waits q).toNat)
    (hpool : t.poolInUse + (s.lock l).queue.length = s.poolInUse + f.queue.length) : t.CountsAgree := by
  refine ⟨fun q => ⟨?_, ?_⟩, ?_⟩
  · have := length_heldLocks_add hlock q
    have := hheld q
    have := (h.1 q).1
    omega
  · have := length_waitedLocks_add hlock q
    have := hwait q
    have := (h.1 q).2
    omega
  · have := queuedRecords_add hlock
    have := h.2
    omega

end

/-! ### What is counted is there -/

theorem holdings_pos (hc : s.CountsAgree) (hh : (s.lock l).holding p = some h) : 0 < (s.count p).holdings := by
  rw [(hc.1 p).1]
  exact List.length_pos_of_mem (a := l) (by simp [State.heldLocks, hh])

theorem waits_pos (hc : s.CountsAgree) (hw : (s.lock l).waits p = true) : 0 < (s.count p).waits := by
  rw [(hc.1 p).2]
  exact List.length_pos_of_mem (a := l) (by simp [State.waitedLocks, hw])

theorem length_queue_le_pool (hc : s.CountsAgree) (l : LockId) : (s.lock l).queue.length ≤ s.poolInUse := by
  rw [hc.2]
  exact List.single_le_sum (by simp) _ (List.mem_map_of_mem (mem_allLocks l))

/-- A port that waits has exactly one record in the queue, which its departure takes away (R10, R38). -/
theorem length_queue_leave (hn : (e.queue.map Waiter.port).Nodup) (hw : e.waits p = true) :
    (e.leave p).queue.length + 1 = e.queue.length := by
  have hcount : (e.queue.filter fun w => w.port == p).length = 1 := by
    have hone := List.count_eq_one_of_mem hn (a := p) (by
      obtain ⟨w, hmem, rfl⟩ := (waits_iff e p).mp hw
      exact List.mem_map_of_mem hmem)
    rwa [List.count, List.countP_map, List.countP_eq_length_filter] at hone
  have hsplit := List.length_eq_length_filter_add (l := e.queue) fun w => w.port == p
  rw [queue_leave]
  have hbne : (fun w : Waiter => w.port != p) = fun w => !(w.port == p) := rfl
  rw [hbne]
  omega

/-! ### Each kind of step -/

/-- The counts and the pool are true to the lock table and within their limits. -/
def State.Tallied (s : State) : Prop := s.CountsAgree ∧ s.WithinLimits

theorem tallied_congr (h : s.SameTables t) (hs : s.Tallied) : t.Tallied := by
  obtain ⟨⟨hports, hpool⟩, hlimits, hpoolLimit⟩ := hs
  refine ⟨⟨fun q => ?_, ?_⟩, fun q => ?_, ?_⟩
  · rw [h.counts, h.heldLocks, h.waitedLocks]
    exact hports q
  · rw [h.pool, h.queuedRecords]
    exact hpool
  · rw [h.counts]
    exact hlimits q
  · rw [h.pool]
    exact hpoolLimit

theorem tallied_of_unused (h : s.Unused) : s.Tallied := by
  have hheld (q : Port) : s.heldLocks q = [] := by simp [State.heldLocks, h.holding]
  have hwaited (q : Port) : s.waitedLocks q = [] := by
    simp [State.waitedLocks, waits_eq_false_iff, h.queue]
  refine ⟨⟨fun q => ?_, ?_⟩, fun q => ?_, ?_⟩
  · rw [hheld, hwaited, h.count]
    exact ⟨rfl, rfl⟩
  · rw [h.pool, State.queuedRecords, sum_allLocks]
    simp [h.queue]
  · rw [h.count]
    exact ⟨Nat.zero_le _, Nat.zero_le _⟩
  · rw [h.pool]
    exact Nat.zero_le _

/-- A holding put in place of the port's own: nothing is counted anew. -/
theorem tallied_hold (hs : s.Tallied) (hh : (s.lock l).holding p = some h)
    (hlock : ∀ k : LockId, t.lock k = if l = k then f else s.lock k)
    (hholding : ∀ q : Port, (f.holding q).isSome = if p = q then true else ((s.lock l).holding q).isSome)
    (hqueue : f.queue = (s.lock l).queue) (hcount : ∀ q : Port, t.count q = s.count q)
    (hpool : t.poolInUse = s.poolInUse) : t.Tallied := by
  refine ⟨countsAgree_of_lock hlock hs.1 (fun q => ?_) (fun q => ?_) (by rw [hpool, hqueue]), fun q => ?_, ?_⟩
  · rw [hcount, hholding]
    split
    · next hpq => rw [← hpq, hh]; rfl
    · rfl
  · rw [hcount, waits_congr hqueue]
  · rw [hcount]
    exact hs.2.1 q
  · rw [hpool]
    exact hs.2.2

theorem tallied_endHolding (hs : s.Tallied) (hh : (s.lock l).holding p = some h) :
    (s.endHolding p l h).Tallied := by
  have hpos := holdings_pos hs.1 hh
  have hlimit := hs.2.1
  refine ⟨countsAgree_of_lock (lock_endHolding s p l h) hs.1 (fun q => ?_) (fun q => ?_) rfl, fun q => ?_, hs.2.2⟩ <;>
    rw [count_endHolding]
  · rw [holding_unhold]
    split
    · next hpq =>
      subst hpq
      simp only [hh, PortCounts.dropHolding, Option.isSome_some, Option.isSome_none, Bool.toNat_true,
        Bool.toNat_false]
      omega
    · rfl
  · rw [waits_unhold]
    split
    · next hpq => rw [← hpq]; rfl
    · rfl
  · split
    · have := hlimit p
      exact ⟨this.1, by simp only [PortCounts.dropHolding]; omega⟩
    · exact hlimit q

theorem tallied_leaveQueue (hs : s.Tallied) (hn : ((s.lock l).queue.map Waiter.port).Nodup)
    (hw : (s.lock l).waits p = true) : (s.leaveQueue p l).Tallied := by
  have hpos := waits_pos hs.1 hw
  have hlimit := hs.2.1
  have hlength := length_queue_leave hn hw
  have hpool := length_queue_le_pool hs.1 l
  refine ⟨countsAgree_of_lock (lock_leaveQueue s p l) hs.1 (fun q => ?_) (fun q => ?_) ?_, fun q => ?_, ?_⟩
  · rw [count_leaveQueue, holding_leave]
    split
    · next hpq => rw [← hpq]; rfl
    · rfl
  · rw [count_leaveQueue, waits_leave]
    split
    · next hpq =>
      subst hpq
      simp only [hw, PortCounts.dropWait, ne_eq, not_true, decide_false, Bool.and_false, Bool.toNat_true,
        Bool.toNat_false]
      omega
    · next hpq => rw [decide_eq_true hpq, Bool.and_true]
  · rw [poolInUse_leaveQueue]
    omega
  · rw [count_leaveQueue]
    split
    · have := hlimit p
      simp only [PortCounts.dropWait]
      omega
    · exact hlimit q
  · rw [poolInUse_leaveQueue]
    exact (Nat.sub_le _ _).trans hs.2.2

theorem tallied_grantTo (hs : s.Tallied) (hnone : (s.lock l).holding p = none)
    (hroom : (s.count p).holdings + (s.count p).waits < maxStandings) (m : Mode) (lease : Half) :
    (s.grantTo p l m lease).Tallied := by
  have hlimit := hs.2.1
  refine ⟨countsAgree_of_lock (lock_grantTo s p l m lease) hs.1 (fun q => ?_) (fun q => ?_) rfl, fun q => ?_,
    hs.2.2⟩ <;> rw [count_grantTo]
  · rw [holding_grant]
    split
    · next hpq =>
      subst hpq
      simp only [hnone, PortCounts.addHolding, Option.isSome_some, Option.isSome_none, Bool.toNat_true,
        Bool.toNat_false]
    · rfl
  · rw [waits_grant]
    split
    · next hpq => rw [← hpq]; rfl
    · rfl
  · split
    · have := hlimit p
      exact ⟨this.1, by simp only [PortCounts.addHolding]; omega⟩
    · exact hlimit q

theorem tallied_enqueue (hs : s.Tallied) (hnot : (s.lock l).waits p = false)
    (hroom : (s.count p).holdings + (s.count p).waits < maxStandings) (hwaits : (s.count p).waits < maxWaits)
    (hpool : s.poolInUse < poolSize) (m : Mode) (lease limit : Half) :
    (s.enqueue p l m lease limit).Tallied := by
  have hlimit := hs.2.1
  refine ⟨countsAgree_of_lock (lock_enqueue s p l m lease limit) hs.1 (fun q => ?_) (fun q => ?_) ?_,
    fun q => ?_, by rw [poolInUse_enqueue]; exact hpool⟩
  · rw [count_enqueue, holding_join]
    split
    · next hpq => rw [← hpq]; rfl
    · rfl
  · rw [count_enqueue, waits_join]
    show _ = (s.count q).waits + ((s.lock l).waits q || decide (p = q)).toNat
    split
    · next hpq =>
      subst hpq
      simp only [hnot, PortCounts.addWait, decide_true, Bool.or_true, Bool.toNat_true, Bool.toNat_false]
    · next hpq => rw [decide_eq_false hpq, Bool.or_false]
  · rw [poolInUse_enqueue, queue_join, List.length_append, List.length_singleton]
    omega
  · rw [count_enqueue]
    split
    · simp only [PortCounts.addWait]
      omega
    · exact hlimit q

/-- A first waiter granted turns its wait into a holding and gives its record back to the pool (R35). -/
theorem tallied_grantHead {w : Waiter} {rest : List Waiter} (hs : s.Tallied) (honce : (s.lock l).PortOnce)
    (hq : (s.lock l).queue = w :: rest) : (s.grantHead l w).Tallied := by
  have hwaits : (s.lock l).waits w.port = true := (waits_iff _ _).mpr ⟨w, by simp [hq], rfl⟩
  have hnone : (s.lock l).holding w.port = none := by
    cases hh : (s.lock l).holding w.port with
    | none => rfl
    | some x =>
      have hnot := honce.2 w.port (by simp [hh])
      rw [hwaits] at hnot
      contradiction
  have hpos := waits_pos hs.1 hwaits
  have hlimit := hs.2.1
  have hpool := length_queue_le_pool hs.1 l
  refine ⟨countsAgree_of_lock (lock_grantHead s l w) hs.1 (fun q => ?_) (fun q => ?_) ?_, fun q => ?_, ?_⟩
  · rw [count_grantHead, holding_grant, holding_popHead]
    split
    · next hpq =>
      subst hpq
      simp only [hnone, PortCounts.addHolding, PortCounts.dropWait, Option.isSome_some, Option.isSome_none,
        Bool.toNat_true, Bool.toNat_false]
    · rfl
  · rw [count_grantHead, waits_grant, waits_popHead _ hq honce.1]
    split
    · next hpq =>
      subst hpq
      simp only [hwaits, PortCounts.addHolding, PortCounts.dropWait, ne_eq, not_true, decide_false,
        Bool.and_false, Bool.toNat_true, Bool.toNat_false]
      omega
    · next hpq => rw [decide_eq_true hpq, Bool.and_true]
  · rw [hq, List.length_cons] at hpool
    rw [poolInUse_grantHead, queue_grant, queue_popHead, hq, List.tail_cons, List.length_cons]
    omega
  · rw [count_grantHead]
    split
    · have := hlimit q
      simp only [PortCounts.addHolding, PortCounts.dropWait]
      subst_vars
      omega
    · exact hlimit q
  · rw [poolInUse_grantHead]
    exact (Nat.sub_le _ _).trans hs.2.2

theorem tallied_handOff (h : s.SoundBut l) (hs : s.Tallied) : (s.handOff l).Tallied :=
  (handOff_induct s (P := fun t => t.SoundBut l ∧ t.Tallied)
    (fun _ _ _ hq hm ht => ⟨soundBut_grantHead ht.1 hq hm, tallied_grantHead ht.2 ht.1.here.once hq⟩) ⟨h, hs⟩).2

theorem tallied_setConfig (hs : s.Tallied) (c : LockConfig) :
    (s.setLock l { s.lock l with config := c }).Tallied :=
  ⟨countsAgree_of_lock (lock_setLock s l _) hs.1 (fun _ => rfl) (fun _ => rfl) rfl, hs.2⟩

theorem isSome_holding_hold (e : LockEntry) (p : Port) (h : Holding) (q : Port) :
    ((e.hold p h).holding q).isSome = if p = q then true else (e.holding q).isSome := by
  rw [holding_hold]
  split <;> rfl

theorem talliesLaw : EngineLaw (fun s => s.LocksSound ∧ s.Tallied) (fun l s => s.SoundBut l ∧ s.Tallied) where
  congr hst h := ⟨locksLaw.congr hst h.1, tallied_congr hst h.2⟩
  midCongr hst h := ⟨locksLaw.midCongr hst h.1, tallied_congr hst h.2⟩
  unused t ht := ⟨locksLaw.unused t ht, tallied_of_unused ht⟩
  enter s l h := ⟨locksLaw.enter s l h.1, h.2⟩
  endHolding s p l x h hx := ⟨locksLaw.endHolding s p l x h.1 hx, tallied_endHolding h.2 hx⟩
  leaveQueue s p l h hw := ⟨locksLaw.leaveQueue s p l h.1 hw, tallied_leaveQueue h.2 h.1.here.once.1 hw⟩
  lower s p l x h hx hm := ⟨locksLaw.lower s p l x h.1 hx hm, tallied_hold h.2 hx (lock_alterHolding s p l _)
    (isSome_holding_hold _ p _) rfl (fun _ => rfl) rfl⟩
  handOff s l h := ⟨locksLaw.handOff s l h.1, tallied_handOff h.1 h.2⟩
  leaveBehind s p l h hw hf :=
    ⟨locksLaw.leaveBehind s p l h.1 hw hf, tallied_leaveQueue h.2 (h.1 l).fit.once.1 hw⟩
  grantTo s p l m lease h hen hheld hwaits hg hroom :=
    ⟨locksLaw.grantTo s p l m lease h.1 hen hheld hwaits hg hroom, tallied_grantTo h.2 hheld hroom m lease⟩
  enqueue s p l m lease limit h hen hheld hwaits hg hroom hw hpool :=
    ⟨locksLaw.enqueue s p l m lease limit h.1 hen hheld hwaits hg hroom hw hpool,
      tallied_enqueue h.2 hwaits hroom hw hpool m lease limit⟩
  renew s p l x d h hx := ⟨locksLaw.renew s p l x d h.1 hx, tallied_hold h.2 hx (lock_alterHolding s p l _)
    (isSome_holding_hold _ p _) rfl (fun _ => rfl) rfl⟩
  raise s p l x h hx hup := ⟨locksLaw.raise s p l x h.1 hx hup, tallied_hold h.2 hx (lock_raiseHolding s p l x)
    (isSome_holding_hold _ p _) rfl (fun _ => rfl) rfl⟩
  lockConfig s l c h hc := ⟨locksLaw.lockConfig s l c h.1 hc, tallied_setConfig h.2 c⟩

/-- Settles O55: each kind of step moves the counts and the pool with the holders and waiters of the lock it works
on, and a port or the pool gains one only below its limit. -/
theorem stepsKeepTheCountsAndLimits : Obligations.StepsKeepTheCountsAndLimits :=
  fun _ _ hsound hagree hlimits hs => (talliesLaw.step (fun _ h => h.1) ⟨hsound, hagree, hlimits⟩ hs).2

end Sys2Proof.Machine
end

section
/-! PROOFS. Every step keeps the notice lists what they should be (Chapter 5). -/

namespace Sys2Proof.Machine

variable {s t u : State} {p q : Port} {l : LockId}

/-! ### One port's notice list -/

/-- The laws of port `p`'s notice list and of the unreported changes behind it (R79, R86, R103, R145, R160). -/
structure State.ListSound (s : State) (p : Port) : Prop where
  changes : ∀ l : LockId, (s.standing p l).count ≤ maxChangeCount ∧
    ((s.standing p l).cause = none ↔ (s.standing p l).count = 0)
  nodup : (s.session p).notices.Nodup
  locks : ∀ l : LockId, .lock l ∈ (s.session p).notices ↔ 0 < (s.standing p l).count
  fault : .fault ∈ (s.session p).notices → (s.link p).fault.code.isSome = true
  trace : .trace ∈ (s.session p).notices → s.supervisor = some p ∧ s.trace.state = .stopped ∧
    (s.trace.stopCause = .stopClass ∨ s.trace.stopCause = .full)
  empty : s.isOpen p = false → (s.session p).notices = []
  opening : (s.session p).opening.isSome = true → s.isOpen p = true

/-- Every port's notice list keeps its laws. -/
def State.ListsSound (s : State) : Prop := ∀ p : Port, s.ListSound p

theorem listsSound_iff : s.ListsSound ↔ s.ChangesAgree ∧ s.NoticesAgree := by
  constructor
  · intro h
    exact ⟨fun p => (h p).changes, fun p => ⟨(h p).nodup, (h p).locks, (h p).fault, (h p).trace, (h p).empty,
      (h p).opening⟩⟩
  · rintro ⟨hc, hn⟩ p
    obtain ⟨h1, h2, h3, h4, h5, h6⟩ := hn p
    exact ⟨hc p, h1, h2, h3, h4, h5, h6⟩

/-- What the laws of port `p`'s list speak of is the same: a fault record may have latched, and a capture that ran
may have done anything. -/
structure State.SameList (s t : State) (p : Port) : Prop where
  notices : (t.session p).notices = (s.session p).notices
  state : (t.session p).state = (s.session p).state
  opening : (t.session p).opening = (s.session p).opening
  changes : ∀ l : LockId,
    (t.standing p l).count = (s.standing p l).count ∧ (t.standing p l).cause = (s.standing p l).cause
  fault : (s.link p).fault.code.isSome = true → (t.link p).fault.code.isSome = true
  supervisor : t.supervisor = s.supervisor
  trace : s.trace.state = .stopped → t.trace.state = .stopped ∧ t.trace.stopCause = s.trace.stopCause

theorem State.SameList.isOpen (h : s.SameList t p) : t.isOpen p = s.isOpen p := by
  rw [State.isOpen, State.isOpen, h.state]

theorem listSound_congr (h : s.SameList t p) (hs : s.ListSound p) : t.ListSound p where
  changes l := by rw [(h.changes l).1, (h.changes l).2]; exact hs.changes l
  nodup := by rw [h.notices]; exact hs.nodup
  locks l := by rw [h.notices, (h.changes l).1]; exact hs.locks l
  fault hf := h.fault (hs.fault (by rwa [h.notices] at hf))
  trace ht := by
    rw [h.notices] at ht
    obtain ⟨hv, hstop, hcause⟩ := hs.trace ht
    obtain ⟨hstop', hcause'⟩ := h.trace hstop
    exact ⟨by rw [h.supervisor, hv], hstop', by rw [hcause']; exact hcause⟩
  empty ho := by rw [h.notices]; exact hs.empty (by rwa [h.isOpen] at ho)
  opening ho := by rw [h.isOpen]; exact hs.opening (by rwa [h.opening] at ho)

theorem listsSound_congr (h : ∀ p : Port, s.SameList t p) (hs : s.ListsSound) : t.ListsSound :=
  fun p => listSound_congr (h p) (hs p)

/-- A port whose session is not OPEN has no unreported changes (R82, R83). -/
theorem State.ListSound.count_eq_zero (h : s.ListSound p) (ho : s.isOpen p = false) (l : LockId) :
    (s.standing p l).count = 0 := by
  have hnot : Subject.lock l ∉ (s.session p).notices := by rw [h.empty ho]; simp
  rw [h.locks l] at hnot
  omega

/-! ### Subjects that join and leave -/

/-- A subject joins the list of an OPEN port for which there is something to report. -/
theorem listSound_notify (h : s.ListSound p) (ho : s.isOpen p = true) {x : Subject}
    (hx : (∃ l, x = .lock l ∧ 0 < (s.standing p l).count) ∨
      (x = .fault ∧ (s.link p).fault.code.isSome = true) ∨
      (x = .trace ∧ s.supervisor = some p ∧ s.trace.state = .stopped ∧
        (s.trace.stopCause = .stopClass ∨ s.trace.stopCause = .full))) : (s.notify p x).ListSound p where
  changes := h.changes
  nodup := by rw [session_notify, if_pos rfl]; exact nodup_appendSubject x h.nodup
  locks l := by
    rw [session_notify, if_pos rfl, standing_notify, mem_appendSubject, h.locks l, or_iff_left_iff_imp]
    rintro rfl
    obtain ⟨k, hk, hpos⟩ | ⟨hk, -⟩ | ⟨hk, -⟩ := hx
    · cases hk; exact hpos
    · contradiction
    · contradiction
  fault hf := by
    rw [session_notify, if_pos rfl, mem_appendSubject] at hf
    obtain hf | rfl := hf
    · exact h.fault hf
    · obtain ⟨k, hk, -⟩ | ⟨-, hcode⟩ | ⟨hk, -⟩ := hx
      · contradiction
      · exact hcode
      · contradiction
  trace ht := by
    rw [session_notify, if_pos rfl, mem_appendSubject] at ht
    obtain ht | rfl := ht
    · exact h.trace ht
    · obtain ⟨k, hk, -⟩ | ⟨hk, -⟩ | ⟨-, hstop⟩ := hx
      · contradiction
      · contradiction
      · exact hstop
  empty hc := by rw [isOpen_notify, ho] at hc; contradiction
  opening _ := by rw [isOpen_notify]; exact ho

theorem listsSound_notify (h : s.ListsSound) (ho : s.isOpen p = true) {x : Subject}
    (hx : (∃ l, x = .lock l ∧ 0 < (s.standing p l).count) ∨
      (x = .fault ∧ (s.link p).fault.code.isSome = true) ∨
      (x = .trace ∧ s.supervisor = some p ∧ s.trace.state = .stopped ∧
        (s.trace.stopCause = .stopClass ∨ s.trace.stopCause = .full))) : (s.notify p x).ListsSound := by
  intro q
  by_cases hpq : p = q
  · subst hpq
    exact listSound_notify (h p) ho hx
  · have hsame : (s.notify p x).session q = s.session q := by rw [session_notify, if_neg hpq]
    exact listSound_congr (s := s) ⟨by rw [hsame], by rw [hsame], by rw [hsame], fun _ => ⟨rfl, rfl⟩, id, rfl,
      fun ht => ⟨ht, rfl⟩⟩ (h q)

/-! ### Reports and changes -/

theorem sameList_setTrace_hear (s : State) (r : Report) (p : Port) :
    s.SameList (s.setTrace (s.trace.hear r)) p :=
  ⟨rfl, rfl, rfl, fun _ => ⟨rfl, rfl⟩, id, rfl, fun ht => by
    rw [trace_setTrace, hear_of_stopped r ht]
    exact ⟨ht, rfl⟩⟩

theorem listsSound_report (h : s.ListsSound) (r : Report) : (s.report r).ListsSound := by
  have hheard : (s.setTrace (s.trace.hear r)).ListsSound := listsSound_congr (sameList_setTrace_hear s r) h
  rcases report_cases s r with e | ⟨q, hstop, hv, ho, e⟩
  · rw [e]
    exact hheard
  · rw [e]
    exact listsSound_notify hheard ho (.inr (.inr ⟨rfl, hv, hstop.2, stopCause_of_stopsOn s hstop⟩))

/-- A record's count and cause replaced at one lock, with the list that goes with them. -/
theorem listsSound_of_lock {f : List Subject → List Subject} {r : StandingRecord} (h : s.ListsSound)
    (hsession : ∀ q : Port, t.session q =
      if p = q then { s.session q with notices := f (s.session q).notices } else s.session q)
    (hstanding : ∀ (q : Port) (k : LockId), t.standing q k = if p = q ∧ l = k then r else s.standing q k)
    (hlink : ∀ q : Port, t.link q = s.link q) (hv : t.supervisor = s.supervisor) (ht : t.trace = s.trace)
    (hr : r.count ≤ maxChangeCount ∧ (r.cause = none ↔ r.count = 0))
    (hnodup : ∀ n : List Subject, n.Nodup → (f n).Nodup)
    (hmem : ∀ (n : List Subject) (x : Subject), x ≠ .lock l → (x ∈ f n ↔ x ∈ n))
    (hown : .lock l ∈ f (s.session p).notices ↔ 0 < r.count)
    (hclosed : s.isOpen p = false → f [] = []) : t.ListsSound := by
  intro q
  by_cases hpq : p = q
  · subst hpq
    have hx : t.session p = { s.session p with notices := f (s.session p).notices } := by
      rw [hsession, if_pos rfl]
    have hopen : t.isOpen p = s.isOpen p := by rw [State.isOpen, hx]; rfl
    refine ⟨fun k => ?_, ?_, fun k => ?_, fun hf => ?_, fun hf => ?_, fun ho => ?_, fun ho => ?_⟩
    · rw [hstanding]
      split
      · exact hr
      · exact (h p).changes k
    · rw [hx]
      exact hnodup _ (h p).nodup
    · rw [hx, hstanding]
      by_cases hlk : l = k
      · subst hlk
        rw [if_pos ⟨rfl, rfl⟩]
        exact hown
      · rw [if_neg fun e => hlk e.2]
        exact (hmem _ _ (by simpa using Ne.symm hlk)).trans ((h p).locks k)
    · rw [hx] at hf
      rw [hlink]
      exact (h p).fault ((hmem _ _ (by simp)).mp hf)
    · rw [hx] at hf
      rw [hv, ht]
      exact (h p).trace ((hmem _ _ (by simp)).mp hf)
    · rw [hopen] at ho
      rw [hx, (h p).empty ho]
      exact hclosed ho
    · rw [hx] at ho
      rw [hopen]
      exact (h p).opening ho
  · have hsame : t.session q = s.session q := by rw [hsession, if_neg hpq]
    refine listSound_congr ⟨by rw [hsame], by rw [hsame], by rw [hsame], fun k => ?_, fun hc => ?_, hv, fun hs => ?_⟩
      (h q)
    · rw [hstanding, if_neg fun e => hpq e.1]
      exact ⟨rfl, rfl⟩
    · rw [hlink]
      exact hc
    · rw [ht]
      exact ⟨hs, rfl⟩

theorem listsSound_recordChange (h : s.ListsSound) (p : Port) (l : LockId) (c : Cause) :
    (s.recordChange p l c).ListsSound := by
  unfold State.recordChange
  split
  · next ho =>
    refine listsSound_of_lock (p := p) (l := l) (f := appendSubject (.lock l)) h
      (session_notify (s.setStanding p l ((s.standing p l).change c)) p _)
      (standing_setStanding s p l _) (fun _ => rfl) rfl rfl ?_ (fun n hn => nodup_appendSubject _ hn)
      (fun n x hx => by simp [hx]) ?_ fun hc => ?_
    · exact ⟨Nat.min_le_left _ _, by simp [StandingRecord.change, maxChangeCount]⟩
    · simp [StandingRecord.change, maxChangeCount]
    · rw [ho] at hc
      contradiction
  · exact h

theorem listsSound_clearChange (h : s.ListsSound) (p : Port) (l : LockId) : (s.clearChange p l).ListsSound :=
  listsSound_of_lock (p := p) (l := l) (f := removeSubject (.lock l)) h
    (session_unnotify (s.setStanding p l (s.standing p l).clear) p _)
    (standing_setStanding s p l _) (fun _ => rfl) rfl rfl ⟨Nat.zero_le _, by simp [StandingRecord.clear]⟩
    (fun n hn => nodup_removeSubject _ hn) (fun n x hx => by simp [hx]) (by simp [StandingRecord.clear])
    fun _ => rfl

/-! ### Work of the lock engine -/

/-- Work on one lock's tables that leaves the port's unreported changes alone. -/
theorem listsSound_of_record {r : StandingRecord} (h : s.ListsSound)
    (hstanding : ∀ (q : Port) (k : LockId), t.standing q k = if p = q ∧ l = k then r else s.standing q k)
    (hr : r.count = (s.standing p l).count ∧ r.cause = (s.standing p l).cause)
    (hfixed : t = { s with
      locks := t.locks, standings := t.standings, poolInUse := t.poolInUse, counts := t.counts }) :
    t.ListsSound := by
  have hx (q : Port) : t.session q = s.session q := by rw [hfixed]; rfl
  refine listsSound_congr (fun q => ⟨by rw [hx], by rw [hx], by rw [hx], fun k => ?_, ?_, ?_, ?_⟩) h
  · rw [hstanding]
    split
    · next e => obtain ⟨rfl, rfl⟩ := e; exact hr
    · exact ⟨rfl, rfl⟩
  · rw [hfixed]
    exact id
  · rw [hfixed]
    rfl
  · rw [hfixed]
    exact fun ht => ⟨ht, rfl⟩

theorem listsSound_grantTo (h : s.ListsSound) (p : Port) (l : LockId) (m : Mode) (lease : Half) :
    (s.grantTo p l m lease).ListsSound :=
  listsSound_of_record h (standing_grantTo s p l m lease) ⟨rfl, rfl⟩ rfl

theorem listsSound_endHolding (h : s.ListsSound) (p : Port) (l : LockId) (x : Holding) :
    (s.endHolding p l x).ListsSound :=
  listsSound_of_record h (standing_endHolding s p l x) ⟨rfl, rfl⟩ rfl

theorem listsSound_leaveQueue (h : s.ListsSound) (p : Port) (l : LockId) : (s.leaveQueue p l).ListsSound :=
  listsSound_of_record h (standing_leaveQueue s p l) ⟨rfl, rfl⟩ rfl

theorem listsSound_enqueue (h : s.ListsSound) (p : Port) (l : LockId) (m : Mode) (lease limit : Half) :
    (s.enqueue p l m lease limit).ListsSound :=
  listsSound_of_record h (standing_enqueue s p l m lease limit) ⟨rfl, rfl⟩ rfl

theorem listsSound_alterHolding (h : s.ListsSound) (p : Port) (l : LockId) (x : Holding) :
    (s.alterHolding p l x).ListsSound :=
  listsSound_of_record h (standing_alterHolding s p l x) ⟨rfl, rfl⟩ rfl

theorem listsSound_raiseHolding (h : s.ListsSound) (p : Port) (l : LockId) (x : Holding) :
    (s.raiseHolding p l x).ListsSound :=
  listsSound_of_record h (standing_raiseHolding s p l x) ⟨rfl, rfl⟩ rfl

theorem listsSound_takeHead (h : s.ListsSound) (l : LockId) (p : Port) : (s.takeHead l p).ListsSound :=
  listsSound_congr (s := s) (fun _ => ⟨rfl, rfl, rfl, fun _ => ⟨rfl, rfl⟩, id, rfl, fun ht => ⟨ht, rfl⟩⟩) h

theorem listsSound_grantHead (h : s.ListsSound) (l : LockId) (w : Waiter) : (s.grantHead l w).ListsSound :=
  listsSound_report (listsSound_recordChange (listsSound_grantTo (listsSound_takeHead h l w.port) _ _ _ _) _ _ _) _

theorem listsSound_handOff (h : s.ListsSound) (l : LockId) : (s.handOff l).ListsSound :=
  handOff_induct s (P := State.ListsSound) (fun _ w _ _ _ ht => listsSound_grantHead ht l w) h

/-! ### Work of the session unit -/

/-- One port's entry replaced: its list, its session's state and its OPEN in progress are what matters. -/
theorem listsSound_setSession {x : Session} (h : s.ListsSound)
    (hp : x.notices = (s.session p).notices)
    (hstate : (x.state = .opened ↔ (s.session p).state = .opened) ∨ x.state = .opened)
    (ho : x.opening.isSome = true → x.state = .opened) : (s.setSession p x).ListsSound := by
  intro q
  by_cases hpq : p = q
  · subst hpq
    have hx : (s.setSession p x).session p = x := session_setSession_self s p x
    have hclosed : (s.setSession p x).isOpen p = false → s.isOpen p = false := by
      intro hc
      have hne : x.state ≠ .opened := by simpa [State.isOpen, hx] using hc
      obtain hiff | habs := hstate
      · simpa [State.isOpen] using fun e => hne (hiff.mpr e)
      · exact absurd habs hne
    refine ⟨(h p).changes, ?_, fun l => ?_, fun hf => ?_, fun hf => ?_, fun hc => ?_, fun hc => ?_⟩ <;>
      try rw [hx, hp] at *
    · exact (h p).nodup
    · exact (h p).locks l
    · exact (h p).fault hf
    · exact (h p).trace hf
    · exact (h p).empty (hclosed hc)
    · rw [hx] at hc
      simpa [State.isOpen, hx] using ho hc
  · have hx : (s.setSession p x).session q = s.session q := by rw [session_setSession, if_neg hpq]
    exact listSound_congr (s := s) ⟨by rw [hx], by rw [hx], by rw [hx], fun _ => ⟨rfl, rfl⟩, id, rfl,
      fun ht => ⟨ht, rfl⟩⟩ (h q)

/-- A change of one port's entry that its list does not depend on: number, configuration, credit, silence, ends. -/
theorem listsSound_setSession_same {x : Session} (h : s.ListsSound) (hn : x.notices = (s.session p).notices)
    (hs : x.state = (s.session p).state) (ho : x.opening = (s.session p).opening) :
    (s.setSession p x).ListsSound :=
  listsSound_setSession h hn (.inl (by rw [hs])) fun h1 => by
    rw [ho] at h1
    rw [hs]
    simpa [State.isOpen] using (h p).opening h1

theorem State.ListsSound.isOpen_of_opening (h : s.ListsSound)
    (ho : s.isOpen p = true ∨ (s.session p).opening.isSome = true) : s.isOpen p = true :=
  ho.elim id (h p).opening

theorem listsSound_setOpening (h : s.ListsSound) (o : Option Opening)
    (ho : s.isOpen p = true ∨ (s.session p).opening.isSome = true) : (s.setOpening p o).ListsSound := by
  have hopen : (s.session p).state = .opened := by simpa [State.isOpen] using h.isOpen_of_opening ho
  exact listsSound_setSession h rfl (.inl Iff.rfl) fun _ => hopen

theorem listsSound_reopened (h : s.ListsSound) (p : Port) (now : Clock) (credit : Byte) (limit : Half) :
    (s.setSession p ((s.session p).reopened now credit limit)).ListsSound :=
  listsSound_setSession h rfl (.inr rfl) fun _ => rfl

/-- A link port replaced, its fault record kept. -/
theorem listsSound_setLink {x : LinkPort} (h : s.ListsSound)
    (hx : (s.link p).fault.code.isSome = true → x.fault.code.isSome = true) : (s.setLink p x).ListsSound := by
  refine listsSound_congr (s := s) (fun q => ⟨rfl, rfl, rfl, fun _ => ⟨rfl, rfl⟩, fun hc => ?_, rfl,
    fun ht => ⟨ht, rfl⟩⟩) h
  rw [link_setLink]
  split
  · next hpq => subst hpq; exact hx hc
  · exact hc

theorem listsSound_linkFault (h : s.ListsSound) (p : Port) (c : FaultCode) : (s.linkFault p c).ListsSound := by
  have hlatched (now : Clock) : ((s.link p).fault.add c now).code.isSome = true := by
    unfold FaultRecord.add
    split
    · rfl
    · next _ hcode => simp [hcode]
  have hset := listsSound_setLink (p := p) (x := { s.link p with fault := (s.link p).fault.add c s.clock }) h
    fun _ => hlatched s.clock
  unfold State.linkFault
  dsimp only
  refine listsSound_report ?_ _
  split
  · next hc =>
    refine listsSound_notify hset (by simp only [Bool.and_eq_true] at hc; exact hc.2) (.inr (.inl ⟨rfl, ?_⟩))
    rw [link_setLink_self]
    exact hlatched s.clock
  · exact hset

/-- A port with an empty list and no unreported changes. -/
theorem listSound_of_empty (hc : ∀ l : LockId, (t.standing p l).count = 0 ∧ (t.standing p l).cause = none)
    (hn : (t.session p).notices = []) (ho : (t.session p).opening = none) : t.ListSound p where
  changes l := by rw [(hc l).1, (hc l).2]; simp
  nodup := by rw [hn]; exact List.nodup_nil
  locks l := by rw [hn, (hc l).1]; simp
  fault hf := by rw [hn] at hf; contradiction
  trace hf := by rw [hn] at hf; contradiction
  empty _ := hn
  opening h := by rw [ho] at h; contradiction

theorem listsSound_closeOut (h : s.ListsSound) (p : Port) (c : EndCause) : (s.closeOut p c).ListsSound := by
  refine listsSound_report (fun q => ?_) _
  by_cases hpq : p = q
  · subst hpq
    refine listSound_of_empty (fun l => ?_) ?_ ?_
    · rw [standing_clearAllChanges, if_pos rfl]
      exact ⟨rfl, rfl⟩
    · rw [session_clearAllChanges, session_setSession_self]
    · rw [session_clearAllChanges, session_setSession_self]
  · refine listSound_congr (s := s) ⟨?_, ?_, ?_, fun l => ?_, id, rfl, fun ht => ⟨ht, rfl⟩⟩ (h q)
    · rw [session_clearAllChanges, session_setSession, if_neg hpq]
    · rw [session_clearAllChanges, session_setSession, if_neg hpq]
    · rw [session_clearAllChanges, session_setSession, if_neg hpq]
    · rw [standing_clearAllChanges, if_neg hpq]
      exact ⟨rfl, rfl⟩

/-- FAULT or TRACE taken off one port's list; what the subject reported on may be gone with it. -/
theorem listsSound_of_removed {x : Subject} (h : s.ListsSound) (hx : ∀ l, x ≠ .lock l)
    (hsession : ∀ q : Port, t.session q =
      if p = q then { s.session q with notices := removeSubject x (s.session q).notices } else s.session q)
    (hstanding : ∀ (q : Port) (l : LockId), t.standing q l = s.standing q l)
    (hfault : ∀ q : Port, x = .fault ∧ p = q ∨
      ((s.link q).fault.code.isSome = true → (t.link q).fault.code.isSome = true))
    (hv : t.supervisor = s.supervisor)
    (htrace : x = .trace ∧ s.supervisor = some p ∨
      (t.trace.state = s.trace.state ∧ t.trace.stopCause = s.trace.stopCause)) : t.ListsSound := by
  intro q
  have hsub {y : Subject} (hy : y ∈ (t.session q).notices) : y ∈ (s.session q).notices ∧ (p = q → y ≠ x) := by
    rw [hsession] at hy
    split at hy
    · obtain ⟨hmem, hne⟩ := (mem_removeSubject x y _).mp hy
      exact ⟨hmem, fun _ => hne⟩
    · next hpq => exact ⟨hy, fun e => absurd e hpq⟩
  have hopen : t.isOpen q = s.isOpen q := by
    rw [State.isOpen, hsession]
    split <;> rfl
  refine ⟨fun l => ?_, ?_, fun l => ?_, fun hf => ?_, fun hf => ?_, fun ho => ?_, fun ho => ?_⟩
  · rw [hstanding]
    exact (h q).changes l
  · rw [hsession]
    split
    · exact nodup_removeSubject _ (h q).nodup
    · exact (h q).nodup
  · rw [hstanding, ← (h q).locks l, hsession]
    split
    · rw [mem_removeSubject, and_iff_left (hx l).symm]
    · exact Iff.rfl
  · obtain ⟨hmem, hne⟩ := hsub hf
    obtain ⟨rfl, hpq⟩ | hkeep := hfault q
    · exact absurd rfl (hne hpq)
    · exact hkeep ((h q).fault hmem)
  · obtain ⟨hmem, hne⟩ := hsub hf
    obtain ⟨hsup, hstop⟩ := (h q).trace hmem
    obtain ⟨rfl, hp⟩ | ⟨hstate, hcause⟩ := htrace
    · rw [hsup] at hp
      exact absurd rfl (hne (Option.some.inj hp).symm)
    · rw [hv, hstate, hcause]
      exact ⟨hsup, hstop⟩
  · rw [hopen] at ho
    refine List.eq_nil_iff_forall_not_mem.mpr fun y hy => ?_
    rw [(h q).empty ho] at hsub
    simpa using (hsub hy).1
  · rw [hopen]
    refine (h q).opening ?_
    rw [hsession] at ho
    split at ho <;> exact ho

/-! ### Notices -/

theorem noticeSubject_eq_some {x : Subject} (h : s.noticeSubject p = some x) :
    (s.link p).transmitter = .free ∧ (s.link p).replies = [] ∧ 0 < (s.session p).credit ∧ s.isOpen p = true ∧
      (s.link p).handedOn = none ∧ (s.session p).notices.head? = some x := by
  unfold State.noticeSubject at h
  dsimp only at h
  split at h
  · next hc =>
    simp only [Bool.and_eq_true, beq_iff_eq, List.isEmpty_iff, decide_eq_true_eq,
      Option.isNone_iff_eq_none] at hc
    obtain ⟨⟨⟨⟨hfree, hreplies⟩, hcredit⟩, hopen⟩, hnone⟩ := hc
    exact ⟨hfree, hreplies, hcredit, hopen, hnone, h⟩
  · contradiction

/-- The oldest subject of a list without repetitions taken off is that subject removed. -/
theorem tail_eq_removeSubject {x : Subject} {n : List Subject} (hn : n.Nodup) (hx : n.head? = some x) :
    n.tail = removeSubject x n := by
  cases n with
  | nil => contradiction
  | cons y rest =>
    obtain rfl : y = x := by simpa using hx
    rw [List.nodup_cons] at hn
    have hrest : ∀ z ∈ rest, (z != y) = true := fun z hz => by
      simpa using fun e : z = y => hn.1 (e ▸ hz)
    simp [removeSubject, List.filter_eq_self.mpr hrest]

/-- A notice sent takes its subject off the list; the rest of what it changes no list depends on. -/
theorem sameList_sendNotice {x : Subject} (h : s.ListsSound) (hx : s.noticeSubject p = some x) (b : Body)
    (q : Port) : (s.unnotify p x).SameList (s.sendNotice p b) q := by
  obtain ⟨-, -, -, -, -, hhead⟩ := noticeSubject_eq_some hx
  have htail := tail_eq_removeSubject (h p).nodup hhead
  unfold State.sendNotice
  dsimp only
  refine ⟨?_, ?_, ?_, fun _ => ⟨rfl, rfl⟩, fun hc => ?_, rfl, fun ht => ⟨ht, rfl⟩⟩
  · rw [session_setLink, session_setSession, session_unnotify]
    split
    · next hpq => subst hpq; exact htail
    · rfl
  · rw [session_setLink, session_setSession, session_unnotify]
    split
    · next hpq => subst hpq; rfl
    · rfl
  · rw [session_setLink, session_setSession, session_unnotify]
    split
    · next hpq => subst hpq; rfl
    · rfl
  · rw [link_setLink]
    split
    · next hpq => subst hpq; exact hc
    · exact hc

theorem listsSound_sendNotice {x : Subject} (h : s.ListsSound) (hx : s.noticeSubject p = some x)
    (hl : ∀ l, x ≠ .lock l) (b : Body) : (s.sendNotice p b).ListsSound :=
  listsSound_congr (sameList_sendNotice h hx b) (listsSound_of_removed h hl (session_unnotify s p x)
    (fun _ _ => rfl) (fun _ => .inr id) rfl (.inr ⟨rfl, rfl⟩))

theorem listsSound_formStanding (h : s.ListsSound) (p : Port) : (s.formStanding p).ListsSound := by
  unfold State.formStanding
  split
  · next l hx =>
    refine listsSound_congr (fun q => ?_) (listsSound_clearChange h p l)
    have hsame := sameList_sendNotice h hx (s.noticeBody p 0xE0 (s.standingFields p l)) q
    refine ⟨hsame.notices, hsame.state, hsame.opening, fun k => ?_, hsame.fault, rfl, fun ht => ⟨ht, rfl⟩⟩
    rw [standing_setStanding, standing_clearChange]
    split
    · next e => obtain ⟨rfl, rfl⟩ := e; exact ⟨rfl, rfl⟩
    · exact ⟨rfl, rfl⟩
  · exact h

/-! ### Every kind of step -/

theorem listsSound_afresh (ht : ∀ (p : Port) (l : LockId), t.standing p l = {})
    (hs : ∀ p : Port, (t.session p).notices = [] ∧ (t.session p).opening = none) : t.ListsSound := fun p =>
  listSound_of_empty (fun l => by rw [ht]; exact ⟨rfl, rfl⟩) (hs p).1 (hs p).2

theorem listsSound_beginRestart (s : State) (p : Port) : (s.beginRestart p).ListsSound :=
  listsSound_afresh (unused_beginRestart s p).standing fun q => by
    simp [State.beginRestart, State.clearForRestart, State.session, Session.restarted]

theorem listsSound_pinReset (s : State) : State.ListsSound { State.reset with
    pending := s.pending, resetAsserted := true, baud := s.baud, supsel := s.supsel } :=
  listsSound_afresh (unused_of_pinReset s).standing fun q => by simp [State.session, State.reset]

theorem listsSound_replyGone (h : s.ListsSound) (p : Port) : (s.replyGone p).ListsSound := by
  unfold State.replyGone
  dsimp only
  split
  · exact listsSound_setLink (p := p) h fun hc => by rw [fault_kick]; exact hc
  · exact h
  · exact h

theorem listsSound_noticeGone (h : s.ListsSound) (p : Port) : (s.noticeGone p).ListsSound := by
  unfold State.noticeGone
  dsimp only
  split
  · exact listsSound_setLink (p := p) h fun hc => by rw [fault_kick]; exact hc
  · exact h
  · exact h

theorem listsSound_advanceClock (h : s.ListsSound) : s.advanceClock.ListsSound := by
  unfold State.advanceClock
  split
  · exact h
  · exact listsSound_congr (s := s) (fun _ => ⟨rfl, rfl, rfl, fun _ => ⟨rfl, rfl⟩, id, rfl, fun ht => ⟨ht, rfl⟩⟩) h

theorem tick_of_stopped {t : TraceUnit} (h : t.state = .stopped) : t.tick = t := by
  simp [TraceUnit.tick, h]

/-- A change of the trace unit that leaves a stopped capture stopped, with its cause. -/
theorem listsSound_setTrace {t : TraceUnit} (h : s.ListsSound)
    (ht : s.trace.state = .stopped → t.state = .stopped ∧ t.stopCause = s.trace.stopCause) :
    (s.setTrace t).ListsSound :=
  listsSound_congr (s := s) (fun _ => ⟨rfl, rfl, rfl, fun _ => ⟨rfl, rfl⟩, id, rfl, ht⟩) h

/-- A port's entry written again: what the end in progress was does not matter to the lists. -/
theorem listsSound_setEnding_iff (s : State) (p : Port) (e e' : Option SessionEnd)
    (h : (s.setEnding p e).ListsSound) : (s.setEnding p e').ListsSound := by
  have hsame : (s.setEnding p e').session p = { (s.setEnding p e).session p with ending := e' } := by
    simp [State.setEnding]
  have hwrite : s.setEnding p e' =
      (s.setEnding p e).setSession p { (s.setEnding p e).session p with ending := e' } := by
    simp [State.setEnding]
  rw [hwrite]
  exact listsSound_setSession_same h rfl rfl rfl

theorem listsLaw : StepLaw State.ListsSound (fun _ => State.ListsSound) where
  enter _ _ h := h
  midReport _ _ r h := listsSound_report h r
  midChange _ l p c h := listsSound_recordChange h p l c
  endHolding _ p l x h _ := listsSound_endHolding h p l x
  leaveQueue _ p l h _ := listsSound_leaveQueue h p l
  lower _ p l _ h _ _ := listsSound_alterHolding h p l _
  handOff _ l h := listsSound_handOff h l
  leaveBehind _ p l h _ _ := listsSound_leaveQueue h p l
  report _ r h := listsSound_report h r
  change _ p l c h := listsSound_recordChange h p l c
  clear _ p l h := listsSound_clearChange h p l
  grantTo _ p l m lease h _ _ _ _ _ _ := listsSound_grantTo h p l m lease
  enqueue _ p l m lease limit h _ _ _ _ _ _ _ _ := listsSound_enqueue h p l m lease limit
  renew _ p l _ _ h _ := listsSound_alterHolding h p l _
  raise _ p l x h _ _ := listsSound_raiseHolding h p l x
  lockConfig s _ _ h _ := listsSound_congr (s := s)
    (fun _ => ⟨rfl, rfl, rfl, fun _ => ⟨rfl, rfl⟩, id, rfl, fun ht => ⟨ht, rfl⟩⟩) h
  portConfig _ _ _ h _ := listsSound_setSession_same h rfl rfl rfl
  credit _ _ _ h _ _ := listsSound_setSession_same h rfl rfl rfl
  clearFault s p h := listsSound_of_removed (s := s) (x := .fault) h (by simp)
    (session_unnotify (s.setLink p _) p _) (fun _ _ => rfl)
    (fun q => by
      rw [link_unnotify, link_setLink]
      split
      · next hpq => exact .inl ⟨rfl, hpq⟩
      · exact .inr id) rfl (.inr ⟨rfl, rfl⟩)
  beginEnd _ p c _ _ h _ _ := listsSound_setSession_same (listsSound_closeOut h p c) rfl rfl rfl
  withdrawn _ _ _ _ _ _ _ h _ _ _ _ := listsSound_setSession_same h rfl rfl rfl
  released _ _ _ _ _ _ _ h _ _ _ _ := listsSound_setSession_same h rfl rfl rfl
  stage s p _ h := listsSound_setEnding_iff s p _ _ h
  endDone s p _ h _ := listsSound_setEnding_iff s p _ _ h
  undefer _ _ h := listsSound_setSession_same h rfl rfl rfl
  deferSilence _ _ h _ := listsSound_setSession_same h rfl rfl rfl
  deferDrop _ _ _ h _ _ := listsSound_setSession_same h rfl rfl rfl
  opening _ _ o h ho := listsSound_setOpening h o ho
  notifyFault _ p h ho hf := listsSound_notify (listsSound_setOpening h none ho)
    (by simpa [State.setOpening, isOpen_setSession, State.isOpen] using h.isOpen_of_opening ho) (.inr (.inl ⟨rfl, hf⟩))
  startOpen s p c n h _ _ := listsSound_reopened h p s.clock c _
  reopen s p _ c n h _ _ := listsSound_reopened (listsSound_setEnding_iff s p _ none h) p s.clock c n
  handOn _ p _ h _ := listsSound_setLink (p := p) h id
  answer _ p _ _ h _ := listsSound_setLink (p := p) h fun hc => by rw [fault_kick]; exact hc
  traceSetup s p _ h hv := listsSound_of_removed (s := s) (x := .trace) h (by simp)
    (session_unnotify (s.setTrace _) p _) (fun _ _ => rfl) (fun _ => .inr id) rfl (.inl ⟨rfl, hv⟩)
  traceRead _ _ h := listsSound_setTrace h fun ht => ⟨ht, rfl⟩
  restart s p _ _ _ := listsSound_beginRestart s p
  restarted s h := listsSound_congr (s := s) (fun q => ⟨rfl, rfl, rfl, fun _ => ⟨rfl, rfl⟩,
    fun hc => by simpa [State.link, LinkPort.hunting] using hc, rfl, fun ht => ⟨ht, rfl⟩⟩) h
  advance _ h := listsSound_advanceClock h
  timer _ h := listsSound_setTrace h fun ht => by rw [tick_of_stopped ht]; exact ⟨ht, rfl⟩
  receiver _ p _ h _ := listsSound_setLink (p := p) h id
  fault _ p c h _ := listsSound_linkFault h p c
  silence _ _ h _ _ := listsSound_setSession_same h rfl rfl rfl
  admitted _ p _ h _ _ := listsSound_setLink (p := p) h id
  breakLevel _ p _ h _ := listsSound_setLink (p := p) h id
  replyGone _ p h := listsSound_replyGone h p
  noticeGone _ p h := listsSound_noticeGone h p
  notice _ _ _ b h hx hl := listsSound_sendNotice h hx hl b
  standingNotice _ p h := listsSound_formStanding h p
  pinReset s _ := listsSound_pinReset s

/-- A part released from RESET has nothing in any list: whatever port is now supervisor, its laws hold (R162). -/
theorem listsSound_release (h : s.HeldInReset) (hr : s.resetAsserted = true) (b : BitVec 2) (v : BitVec 3) :
    State.ListsSound { s with resetAsserted := false, baud := b, supsel := v } := by
  have hs := h hr
  have hstanding (p : Port) (l : LockId) : s.standing p l = {} := by
    rw [hs]
    exact (unused_of_pinReset s).standing p l
  have hsession (p : Port) : s.session p = {} := by
    rw [hs]
    simp [State.session, State.reset]
  exact listsSound_afresh hstanding fun p => by
    show (s.session p).notices = [] ∧ (s.session p).opening = none
    rw [hsession]
    exact ⟨rfl, rfl⟩

theorem heldInReset_withPending (h : s.HeldInReset) (waiting : List Instr) :
    State.HeldInReset { s with pending := waiting } := fun hr =>
  congrArg (fun x : State => { x with pending := waiting }) (h hr)

theorem listsSound_withPending (h : s.ListsSound) (waiting : List Instr) :
    State.ListsSound { s with pending := waiting } :=
  listsSound_congr (s := s) (fun _ => ⟨rfl, rfl, rfl, fun _ => ⟨rfl, rfl⟩, id, rfl, fun ht => ⟨ht, rfl⟩⟩) h

/-- Settles O56: each kind of step keeps the laws of the lists, and a part held in reset is released with empty
ones. -/
theorem stepsKeepTheNoticeLists : Obligations.StepsKeepTheNoticeLists := by
  intro s t hsound hheld hchanges hnotices hs
  have hlists : s.ListsSound := listsSound_iff.mpr ⟨hchanges, hnotices⟩
  refine listsSound_iff.mp ?_
  unfold step at hs
  split at hs
  · cases hs
    exact hlists
  · next rest _ =>
    exact listsLaw.exec (s := { s with pending := rest }) hsound (listsSound_withPending hlists rest) _
      (fun b v hr => listsSound_release (heldInReset_withPending hheld rest) hr b v) hs

end Sys2Proof.Machine
end

section
/-! PROOFS. Every step keeps sessions, link ports and the trace unit within their tables (Chapters 6, 8 and 9). -/

namespace Sys2Proof.Machine

variable {s t : State} {p q : Port} {l : LockId} {x : LinkPort} {w : List Slot} {n : Nat}

/-! ### A request window -/

/-- A request window within R156 that answers `n` replies still to be sent. -/
structure WindowSound (w : List Slot) (n : Nat) : Prop where
  length : w.length ≤ windowSize
  order : w.Pairwise fun a b => a.cond.rank ≤ b.cond.rank
  handedOn : (w.filter fun c => c.cond == .handedOn).length ≤ 1
  answered : (w.filter fun c => c.cond == .answered).length = n

theorem sound_link_iff : x.Sound ↔ WindowSound x.window x.unsent ∧ (x.transmitter = .free → x.replies = []) ∧
    (x.fault.further ≤ maxFurther ∧ (x.fault.code = none → x.fault = {})) ∧
    (x.gapDeadline = none ↔ x.receiver = .hunt) := by
  constructor
  · rintro ⟨h1, h2, h3, h4, h5, h6, h7, h8⟩
    exact ⟨⟨h1, h2, h3, h4⟩, h5, ⟨h6, h7⟩, h8⟩
  · rintro ⟨⟨h1, h2, h3, h4⟩, h5, ⟨h6, h7⟩, h8⟩
    exact ⟨h1, h2, h3, h4, h5, h6, h7, h8⟩

theorem SlotCond.rank_le_two (c : SlotCond) : c.rank ≤ 2 := by cases c <;> decide

/-- The slots before the oldest one in a condition rank below it, those behind it no lower (R156). -/
theorem ranks_around {pre post : List Slot} {c : Slot}
    (h : (pre ++ c :: post).Pairwise fun a b => a.cond.rank ≤ b.cond.rank) (hpre : ∀ y ∈ pre, y.cond ≠ c.cond) :
    (∀ y ∈ pre, y.cond.rank < c.cond.rank) ∧ ∀ y ∈ post, c.cond.rank ≤ y.cond.rank := by
  rw [List.pairwise_append, List.pairwise_cons] at h
  obtain ⟨-, ⟨hpost, -⟩, hcross⟩ := h
  refine ⟨fun y hy => lt_of_le_of_ne (hcross y hy c (by simp)) fun heq => hpre y hy ?_, hpost⟩
  revert heq
  cases y.cond <;> cases c.cond <;> decide

/-- The oldest slot in a condition raised to the condition next in order keeps the order of the window. -/
theorem order_advance {pre post : List Slot} {c : Slot} {b : SlotCond}
    (h : (pre ++ c :: post).Pairwise fun a b => a.cond.rank ≤ b.cond.rank) (hpre : ∀ y ∈ pre, y.cond ≠ c.cond)
    (hb : b.rank + 1 = c.cond.rank) :
    (pre ++ { c with cond := b } :: post).Pairwise fun a b => a.cond.rank ≤ b.cond.rank := by
  obtain ⟨hbefore, hbehind⟩ := ranks_around h hpre
  rw [List.pairwise_append, List.pairwise_cons] at h ⊢
  obtain ⟨h1, ⟨-, h2⟩, hcross⟩ := h
  refine ⟨h1, ⟨fun y hy => ?_, h2⟩, fun y hy z hz => ?_⟩
  · have := hbehind y hy
    show b.rank ≤ _
    omega
  · obtain rfl | hz := List.mem_cons.mp hz
    · have := hbefore y hy
      show _ ≤ b.rank
      omega
    · exact hcross y hy z (by simp [hz])

/-- Handing the oldest waiting request on, when none is handed on. -/
theorem windowSound_handOn (h : WindowSound w n) (hnone : w.find? (fun c => c.cond == .handedOn) = none) :
    WindowSound (advanceSlot .waiting .handedOn w) n := by
  cases hfind : w.find? fun c => c.cond == .waiting with
  | none => rw [advanceSlot_of_none hfind]; exact h
  | some c =>
    obtain ⟨pre, post, rfl, hc, hpre, hadv⟩ := advanceSlot_of_find (b := .handedOn) hfind
    have hzero : ((pre ++ c :: post).filter fun c => c.cond == .handedOn) = [] :=
      List.filter_eq_nil_iff.mpr fun y hy => by simpa using List.find?_eq_none.mp hnone y hy
    rw [List.filter_append, List.append_eq_nil_iff, List.filter_cons] at hzero
    obtain ⟨hzpre, hzpost⟩ := hzero
    refine ⟨by rw [length_advanceSlot]; exact h.length, ?_, ?_, ?_⟩ <;> rw [hadv]
    · exact order_advance h.order (by rw [hc]; exact hpre) (by rw [hc]; rfl)
    · rw [List.filter_append, List.filter_cons, hzpre]
      rw [hc] at hzpost
      simp only [reduceCtorEq, beq_iff_eq, if_false] at hzpost
      simp [hzpost]
    · rw [← h.answered, List.filter_append, List.filter_append, List.filter_cons, List.filter_cons, hc]
      rfl

/-- Answering the request handed on: one more reply is to be sent. -/
theorem windowSound_answer (h : WindowSound w n) {b : Slot}
    (hb : w.find? (fun c => c.cond == .handedOn) = some b) :
    WindowSound (advanceSlot .handedOn .answered w) (n + 1) := by
  obtain ⟨pre, post, rfl, hc, hpre, hadv⟩ := advanceSlot_of_find (b := .answered) hb
  have hone := h.handedOn
  have hans := h.answered
  rw [List.filter_append, List.filter_cons, hc, List.length_append] at hone hans
  refine ⟨by rw [length_advanceSlot]; exact h.length, ?_, ?_, ?_⟩ <;> rw [hadv]
  · exact order_advance h.order (by rw [hc]; exact hpre) (by rw [hc]; rfl)
  · rw [List.filter_append, List.filter_cons, List.length_append]
    simp at hone ⊢
    omega
  · rw [List.filter_append, List.filter_cons, List.length_append]
    simp at hans ⊢
    omega

/-- While a reply is still to be sent the first slot is that of one (R156). -/
theorem cond_first_answered {c : Slot} (h : WindowSound (c :: w) (n + 1)) : c.cond = .answered := by
  obtain ⟨y, hy⟩ := List.exists_mem_of_length_pos (by rw [h.answered]; exact Nat.succ_pos n)
  obtain ⟨hmem, hcond⟩ := List.mem_filter.mp hy
  have hcond : y.cond = .answered := by simpa using hcond
  obtain rfl | hmem := List.mem_cons.mp hmem
  · exact hcond
  · have hle := (List.pairwise_cons.mp h.order).1 y hmem
    rw [hcond] at hle
    revert hle
    cases c.cond <;> simp [SlotCond.rank]

/-- The slot of a reply that has gone is the first (R156). -/
theorem windowSound_tail (h : WindowSound w (n + 1)) : WindowSound w.tail n := by
  cases w with
  | nil => simpa using h.answered
  | cons c rest =>
    have hfirst := cond_first_answered h
    have hlen := h.length
    have hone := h.handedOn
    have hans := h.answered
    rw [List.filter_cons, hfirst] at hone hans
    simp only [reduceCtorEq, beq_iff_eq, if_false, if_true, beq_self_eq_true, List.length_cons] at hone hans hlen
    refine ⟨by rw [List.tail_cons]; omega, (List.pairwise_cons.mp h.order).2, ?_, ?_⟩
    · simpa using hone
    · simpa using hans

theorem windowSound_admit (h : WindowSound w n) (hroom : w.length < windowSize) (b : Body) :
    WindowSound (w ++ [{ body := b, cond := .waiting }]) n := by
  refine ⟨by simpa using hroom, ?_, ?_, ?_⟩
  · rw [List.pairwise_append]
    refine ⟨h.order, by simp, fun y _ z hz => ?_⟩
    obtain rfl : z = { body := b, cond := .waiting } := by simpa using hz
    exact y.cond.rank_le_two
  · simpa [List.filter_append] using h.handedOn
  · simpa [List.filter_append] using h.answered

/-- The slots that a RESTART keeps: that of the reply on the line, then its own (R132). -/
theorem windowSound_keptSlots (hx : x.Sound) (own : Bool) :
    WindowSound (x.keptSlots own) ({ x with replies := [] } : LinkPort).unsent := by
  obtain ⟨hw, -, -, -⟩ := sound_link_iff.mp hx
  set kept : List Slot := (match x.transmitter with
    | .sendingReply _ => (x.window.filter fun c : Slot => c.cond == .answered).take 1
    | .free => []
    | .sendingNotice _ => []) with hkept
  set handed : List Slot := if own then x.window.filter fun c : Slot => c.cond == .handedOn else [] with hhanded
  have hsplit : x.keptSlots own = kept ++ handed := rfl
  have hkeptCond : ∀ c ∈ kept, c.cond = .answered := by
    intro c hc
    rw [hkept] at hc
    split at hc
    · simpa using (List.mem_filter.mp (List.mem_of_mem_take hc)).2
    · contradiction
    · contradiction
  have hhandedCond : ∀ c ∈ handed, c.cond = .handedOn := by
    intro c hc
    rw [hhanded] at hc
    split at hc
    · simpa using (List.mem_filter.mp hc).2
    · contradiction
  have hkeptLength : kept.length = ({ x with replies := [] } : LinkPort).unsent := by
    have hans := hw.answered
    unfold LinkPort.unsent at hans ⊢
    rw [hkept]
    split <;> simp_all
  have hkeptOne : kept.length ≤ 1 := by
    rw [hkept]
    split <;> simp
  have hhandedOne : handed.length ≤ 1 := by
    rw [hhanded]
    split
    · exact hw.handedOn
    · exact Nat.zero_le _
  have hkeptNone : kept.filter (fun c => c.cond == .handedOn) = [] :=
    List.filter_eq_nil_iff.mpr fun c hc => by simp [hkeptCond c hc]
  have hhandedNone : handed.filter (fun c => c.cond == .answered) = [] :=
    List.filter_eq_nil_iff.mpr fun c hc => by simp [hhandedCond c hc]
  have hkeptAll : kept.filter (fun c => c.cond == .answered) = kept :=
    List.filter_eq_self.mpr fun c hc => by simp [hkeptCond c hc]
  have hhandedAll : handed.filter (fun c => c.cond == .handedOn) = handed :=
    List.filter_eq_self.mpr fun c hc => by simp [hhandedCond c hc]
  rw [hsplit]
  refine ⟨?_, ?_, ?_, ?_⟩
  · rw [List.length_append]
    exact (Nat.add_le_add hkeptOne hhandedOne).trans (by decide)
  · rw [List.pairwise_append]
    refine ⟨?_, ?_, fun a ha b hb => by rw [hkeptCond a ha, hhandedCond b hb]; decide⟩
    · exact List.pairwise_of_forall_mem_list fun a ha b hb => by rw [hkeptCond a ha, hkeptCond b hb]
    · exact List.pairwise_of_forall_mem_list fun a ha b hb => by rw [hhandedCond a ha, hhandedCond b hb]
  · rw [List.filter_append, hkeptNone, hhandedAll, List.nil_append]
    exact hhandedOne
  · rw [List.filter_append, hhandedNone, hkeptAll, List.append_nil]
    exact hkeptLength

/-! ### Link ports -/

theorem sound_kick (hw : WindowSound x.window x.unsent)
    (hf : x.fault.further ≤ maxFurther ∧ (x.fault.code = none → x.fault = {}))
    (hg : x.gapDeadline = none ↔ x.receiver = .hunt) : x.kick.Sound := by
  rw [sound_link_iff, window_kick, unsent_kick, fault_kick, gapDeadline_kick, receiver_kick]
  exact ⟨hw, kick_settled x, hf, hg⟩

theorem find_handedOn_of_handedOn {b : Body} (h : x.handedOn = some b) :
    ∃ c, x.window.find? (fun c => c.cond == .handedOn) = some c ∧ c.body = b := by
  simpa [LinkPort.handedOn] using h

theorem find_handedOn_eq_none (h : x.handedOn = none) : x.window.find? (fun c => c.cond == .handedOn) = none := by
  simpa [LinkPort.handedOn] using h

theorem sound_answered (hx : x.Sound) {b : Body} (h : x.handedOn = some b) (r : Body) :
    ({ x with window := advanceSlot .handedOn .answered x.window, replies := x.replies ++ [r] } :
      LinkPort).kick.Sound := by
  obtain ⟨hw, -, hf, hg⟩ := sound_link_iff.mp hx
  obtain ⟨c, hc, -⟩ := find_handedOn_of_handedOn h
  refine sound_kick ?_ hf hg
  have hunsent : ({ x with window := advanceSlot .handedOn .answered x.window, replies := x.replies ++ [r] } :
      LinkPort).unsent = x.unsent + 1 := by
    simp [LinkPort.unsent, Nat.add_right_comm]
  rw [hunsent]
  exact windowSound_answer hw hc

theorem sound_replyGone (hx : x.Sound) {f : List Byte} (ht : x.transmitter = .sendingReply f) :
    ({ x with window := x.window.tail, transmitter := .free } : LinkPort).kick.Sound := by
  obtain ⟨hw, -, hf, hg⟩ := sound_link_iff.mp hx
  have hunsent : x.unsent = x.replies.length + 1 := by simp [LinkPort.unsent, ht]
  rw [hunsent] at hw
  exact sound_kick (windowSound_tail hw) hf hg

theorem sound_noticeGone (hx : x.Sound) {f : List Byte} (ht : x.transmitter = .sendingNotice f) :
    ({ x with transmitter := .free } : LinkPort).kick.Sound := by
  obtain ⟨hw, -, hf, hg⟩ := sound_link_iff.mp hx
  have hunsent : x.unsent = x.replies.length := by simp [LinkPort.unsent, ht]
  rw [hunsent] at hw
  exact sound_kick hw hf hg

theorem sound_sendingNotice (hx : x.Sound) (hfree : x.transmitter = .free) (f : List Byte) :
    ({ x with transmitter := .sendingNotice f } : LinkPort).Sound := by
  obtain ⟨hw, -, hf, hg⟩ := sound_link_iff.mp hx
  have hunsent : x.unsent = x.replies.length := by simp [LinkPort.unsent, hfree]
  rw [hunsent] at hw
  exact sound_link_iff.mpr ⟨hw, by simp, hf, hg⟩

theorem sound_restarted (hx : x.Sound) (own : Bool) : (x.restarted own).Sound :=
  sound_link_iff.mpr ⟨windowSound_keptSlots hx own, fun _ => rfl, ⟨Nat.zero_le _, fun _ => rfl⟩, by
    simp [LinkPort.restarted]⟩

theorem sound_withWindow (hx : x.Sound) (hw : WindowSound w x.unsent) :
    ({ x with window := w } : LinkPort).Sound := by
  obtain ⟨-, ht, hf, hg⟩ := sound_link_iff.mp hx
  exact sound_link_iff.mpr ⟨hw, ht, hf, hg⟩

theorem sound_withFault (hx : x.Sound) {f : FaultRecord}
    (hf : f.further ≤ maxFurther ∧ (f.code = none → f = {})) : ({ x with fault := f } : LinkPort).Sound := by
  obtain ⟨hw, ht, -, hg⟩ := sound_link_iff.mp hx
  exact sound_link_iff.mpr ⟨hw, ht, hf, hg⟩

theorem sound_faultAdd (f : FaultRecord) (c : FaultCode)
    (now : Clock) : (f.add c now).further ≤ maxFurther ∧ ((f.add c now).code = none → f.add c now = {}) := by
  unfold FaultRecord.add
  split
  · exact ⟨Nat.zero_le _, by simp⟩
  · next _ hcode => exact ⟨Nat.min_le_left _ _, by simp [hcode]⟩

theorem sound_withReceiver (hx : x.Sound) {r : ReceiverState} {d : Option Clock} (hd : d = none ↔ r = .hunt) :
    ({ x with receiver := r, gapDeadline := d } : LinkPort).Sound := by
  obtain ⟨hw, ht, hf, -⟩ := sound_link_iff.mp hx
  exact sound_link_iff.mpr ⟨hw, ht, hf, hd⟩

/-! ### The trace unit -/

theorem sound_hearRestart {u : TraceUnit} (h : u.Sound) (r : Report) : (u.hearRestart r).Sound := by
  obtain ⟨hlen, harmed, hcause, hoff⟩ := id h
  unfold TraceUnit.hearRestart
  split
  · exact h
  · exact h
  · next hs => exact ⟨hlen, by simp [TraceUnit.stop], by simp [TraceUnit.stop], by simp [TraceUnit.stop, ← hoff, hs]⟩
  · next hs =>
    exact ⟨length_record_le u r hlen, by simp [TraceUnit.stop], by simp [TraceUnit.stop],
      by simp [TraceUnit.stop, ← hoff, hs]⟩

theorem sound_tick {u : TraceUnit} (h : u.Sound) : u.tick.Sound := by
  unfold TraceUnit.tick
  split
  · exact h
  · exact h

theorem sound_firstState (u : TraceSetup) : TraceUnit.Sound { setup := u, state := u.firstState } := by
  refine ⟨Nat.zero_le _, fun _ => rfl, ?_, ?_⟩ <;> simp only [TraceSetup.firstState] <;>
    cases u.enable <;> cases u.startOnClass <;> decide

/-! ### The three units -/

/-- Every session entry, every link port and the trace unit is within its table. -/
structure State.UnitsSound (s : State) : Prop where
  sessions : s.SessionsSound
  links : s.LinksSound
  trace : s.trace.Sound

theorem sound_of_sameButNotices {x y : Session} (h : x.SameButNotices y) (hx : x.Sound) : y.Sound := by
  rw [h]
  exact hx

/-- Work of the lock engine touches nothing that the three tables bound but the capture. -/
theorem unitsSound_of_lockWork (h : s.UnitsSound) (hw : s.LockWork t) (ht : t.trace.Sound) : t.UnitsSound :=
  ⟨fun p => sound_of_sameButNotices (hw.sessions p) (h.sessions p), fun p => by rw [hw.link]; exact h.links p, ht⟩

theorem unitsSound_report (h : s.UnitsSound) (r : Report) : (s.report r).UnitsSound :=
  unitsSound_of_lockWork h (lockWork_report s r) (by rw [trace_report]; exact sound_hear r h.trace)

theorem unitsSound_recordChange (h : s.UnitsSound) (p : Port) (l : LockId) (c : Cause) :
    (s.recordChange p l c).UnitsSound :=
  unitsSound_of_lockWork h (lockWork_recordChange s p l c) (by rw [trace_recordChange]; exact h.trace)

theorem unitsSound_handOff (h : s.UnitsSound) (l : LockId) : (s.handOff l).UnitsSound :=
  handOff_induct s (P := State.UnitsSound) (fun t w _ _ _ ht =>
    unitsSound_of_lockWork ht (lockWork_grantHead t l w) (by rw [trace_grantHead]; exact sound_hear _ ht.trace)) h

theorem unitsSound_setSession {x : Session} (h : s.UnitsSound) (hx : x.Sound) : (s.setSession p x).UnitsSound := by
  refine ⟨fun q => ?_, h.links, h.trace⟩
  rw [session_setSession]
  split
  · exact hx
  · exact h.sessions q

theorem unitsSound_setLink (h : s.UnitsSound) (hx : x.Sound) : (s.setLink p x).UnitsSound := by
  refine ⟨h.sessions, fun q => ?_, h.trace⟩
  rw [link_setLink]
  split
  · exact hx
  · exact h.links q

theorem unitsSound_setTrace {u : TraceUnit} (h : s.UnitsSound) (hu : u.Sound) : (s.setTrace u).UnitsSound :=
  ⟨h.sessions, h.links, hu⟩

theorem unitsSound_linkFault (h : s.UnitsSound) (p : Port) (c : FaultCode) : (s.linkFault p c).UnitsSound := by
  refine ⟨fun q => sound_of_sameButNotices (sameButNotices_linkFault s p c q) (h.sessions q), fun q => ?_,
    by rw [trace_linkFault]; exact sound_hear _ h.trace⟩
  rw [link_linkFault]
  split
  · next hpq =>
    subst hpq
    exact sound_withFault (h.links p) (sound_faultAdd _ c s.clock)
  · exact h.links q

/-! ### Session entries -/

/-- The limit that an end's sequel has fixed is in range (R102). -/
abbrev SessionEnd.InRange (e : SessionEnd) : Prop := SilenceRange e.sequel.silence

theorem sound_withEnding {x : Session} (hx : x.Sound) {e : Option SessionEnd}
    (he : ∀ y ∈ e, SessionEnd.InRange y) : ({ x with ending := e } : Session).Sound := by
  obtain ⟨h1, h2, h3, h4, h5, -⟩ := hx
  refine ⟨h1, h2, h3, h4, h5, ?_⟩
  cases e with
  | none => rfl
  | some y => simpa [SessionEnd.InRange, SilenceRange] using he y rfl

theorem Session.Sound.ending_inRange {x : Session} (hx : x.Sound) {e : SessionEnd} (he : x.ending = some e) :
    e.InRange := by
  obtain ⟨-, -, -, -, -, h6⟩ := hx
  simpa [SessionEnd.InRange, SilenceRange, he] using h6

theorem sound_closed {x : Session} (hx : x.Sound) {state : SessionState} (hs : state ≠ .opened)
    (notices : List Subject) : ({ x with
      state := state, silenceDeadline := none, silenceLimit := 0, notices := notices, credit := 0,
      opening := none } : Session).Sound := by
  obtain ⟨-, -, h3, -, -, h6⟩ := hx
  exact ⟨Nat.zero_le _, .inl rfl, h3, fun _ => ⟨rfl, rfl⟩, by simp [hs], h6⟩

theorem sound_reopened {x : Session} (hx : x.Sound) {limit : Half} (hl : SilenceRange limit) (now : Clock)
    (credit : Byte) : (x.reopened now credit limit).Sound := by
  obtain ⟨-, -, h3, -, -, h6⟩ := hx
  refine ⟨Nat.min_le_left _ _, hl, h3, fun h => absurd rfl h, ?_, h6⟩
  simp only [Session.reopened, optionalDeadline, true_and]
  split
  · next h => simp [h]
  · next h => simpa using h

theorem EndCause.state_ne_opened (c : EndCause) : c.state ≠ .opened := by cases c <;> simp [EndCause.state]

theorem unitsSound_closeOut (h : s.UnitsSound) (p : Port) (c : EndCause) : (s.closeOut p c).UnitsSound := by
  refine unitsSound_report ?_ _
  have := unitsSound_setSession (p := p) h (sound_closed (h.sessions p) c.state_ne_opened [])
  exact ⟨this.sessions, this.links, this.trace⟩

/-- The configuration of a port is no part of a session end. -/
theorem unitsSound_setEnding (h : s.UnitsSound) {e : Option SessionEnd} (he : ∀ y ∈ e, SessionEnd.InRange y) :
    (s.setEnding p e).UnitsSound :=
  unitsSound_setSession h (sound_withEnding (h.sessions p) he)

theorem unitsSound_setEnding_again {e : SessionEnd} (h : (s.setEnding p (some e)).UnitsSound)
    {e' : Option SessionEnd} (he : ∀ y ∈ e', y.sequel = e.sequel) : (s.setEnding p e').UnitsSound := by
  have hwrite : s.setEnding p e' = (s.setEnding p (some e)).setEnding p e' := by simp [State.setEnding]
  have hrange : e.InRange := (h.sessions p).ending_inRange (by simp [State.setEnding])
  rw [hwrite]
  refine unitsSound_setEnding h fun y hy => ?_
  rw [SessionEnd.InRange, he y hy]
  exact hrange

theorem sequel_stage (e : SessionEnd) (held : List LockId) : (e.stage held).sequel = e.sequel := by
  unfold SessionEnd.stage
  split <;> rfl

theorem unitsSound_beginRestart (h : s.UnitsSound) (p : Port) : (s.beginRestart p).UnitsSound := by
  refine ⟨fun q => ?_, fun q => ?_, sound_hearRestart h.trace _⟩
  · obtain ⟨-, -, h3, -, -, -⟩ := h.sessions q
    have hx : (s.beginRestart p).session q = (s.session q).restarted := by
      simp [State.beginRestart, State.clearForRestart, State.session]
    rw [hx]
    exact ⟨Nat.zero_le _, .inl rfl, h3, fun _ => ⟨rfl, rfl⟩, by simp [Session.restarted], rfl⟩
  · have hx : (s.beginRestart p).link q = (s.link q).restarted (q == p) := by
      simp [State.beginRestart, State.clearForRestart, State.link]
    rw [hx]
    exact sound_restarted (h.links q) _

theorem unitsSound_pinReset (s : State) : State.UnitsSound { State.reset with
    pending := s.pending, resetAsserted := true, baud := s.baud, supsel := s.supsel } := by
  refine ⟨fun q => ?_, fun q => ?_, (by decide : TraceUnit.Sound {})⟩
  · rw [State.session, State.reset, look_replicate]
    decide
  · rw [State.link, State.reset, look_replicate]
    decide

theorem unitsSound_sendNotice {y : Subject} (h : s.UnitsSound) (hy : s.noticeSubject p = some y) (b : Body) :
    (s.sendNotice p b).UnitsSound := by
  obtain ⟨hfree, -, -, hopen, -, -⟩ := noticeSubject_eq_some hy
  obtain ⟨h1, h2, h3, -, h5, h6⟩ := h.sessions p
  have hstate : (s.session p).state = .opened := by simpa [State.isOpen] using hopen
  refine unitsSound_setLink (unitsSound_setSession h ?_) (sound_sendingNotice (h.links p) hfree _)
  exact ⟨(Nat.sub_le _ _).trans h1, h2, h3, fun hne => absurd hstate hne, h5, h6⟩

theorem unitsSound_formStanding (h : s.UnitsSound) (p : Port) : (s.formStanding p).UnitsSound := by
  unfold State.formStanding
  split
  · next l hl =>
    have hsent := unitsSound_sendNotice h hl (s.noticeBody p 0xE0 (s.standingFields p l))
    exact ⟨hsent.sessions, hsent.links, hsent.trace⟩
  · exact h

theorem unitsSound_replyGone (h : s.UnitsSound) (p : Port) : (s.replyGone p).UnitsSound := by
  unfold State.replyGone
  dsimp only
  split
  · next ht => exact unitsSound_setLink h (sound_replyGone (h.links p) ht)
  · exact h
  · exact h

theorem unitsSound_noticeGone (h : s.UnitsSound) (p : Port) : (s.noticeGone p).UnitsSound := by
  unfold State.noticeGone
  dsimp only
  split
  · next ht => exact unitsSound_setLink h (sound_noticeGone (h.links p) ht)
  · exact h
  · exact h

theorem unitsSound_advanceClock (h : s.UnitsSound) : s.advanceClock.UnitsSound := by
  unfold State.advanceClock
  split
  · exact h
  · exact ⟨h.sessions, h.links, h.trace⟩

/-! ### Every kind of step -/

theorem unitsLaw : StepLaw State.UnitsSound (fun _ => State.UnitsSound) where
  enter _ _ h := h
  midReport _ _ r h := unitsSound_report h r
  midChange _ l p c h := unitsSound_recordChange h p l c
  endHolding s p l x h _ := unitsSound_of_lockWork h (lockWork_endHolding s p l x) h.trace
  leaveQueue s p l h _ := unitsSound_of_lockWork h (lockWork_leaveQueue s p l) h.trace
  lower s p l _ h _ _ := unitsSound_of_lockWork h (lockWork_alterHolding s p l _) h.trace
  handOff _ l h := unitsSound_handOff h l
  leaveBehind s p l h _ _ := unitsSound_of_lockWork h (lockWork_leaveQueue s p l) h.trace
  report _ r h := unitsSound_report h r
  change _ p l c h := unitsSound_recordChange h p l c
  clear s p l h := unitsSound_of_lockWork h (lockWork_clearChange s p l) h.trace
  grantTo s p l m lease h _ _ _ _ _ _ := unitsSound_of_lockWork h (lockWork_grantTo s p l m lease) h.trace
  enqueue s p l m lease limit h _ _ _ _ _ _ _ _ :=
    unitsSound_of_lockWork h (lockWork_enqueue s p l m lease limit) h.trace
  renew s p l _ _ h _ := unitsSound_of_lockWork h (lockWork_alterHolding s p l _) h.trace
  raise s p l x h _ _ := unitsSound_of_lockWork h (lockWork_raiseHolding s p l x) h.trace
  lockConfig s l _ h _ := unitsSound_of_lockWork h (lockWork_setLock s l _) h.trace
  portConfig _ p _ h hc := by
    obtain ⟨h1, h2, -, h4, h5, h6⟩ := h.sessions p
    exact unitsSound_setSession h ⟨h1, h2, hc, h4, h5, h6⟩
  credit _ p _ h ho hn := by
    obtain ⟨-, h2, h3, -, h5, h6⟩ := h.sessions p
    exact unitsSound_setSession h ⟨hn, h2, h3, fun hne => absurd (by simpa [State.isOpen] using ho) hne, h5, h6⟩
  clearFault s p h := unitsSound_of_lockWork
    (unitsSound_setLink h (sound_withFault (h.links p) (f := {}) ⟨Nat.zero_le _, fun _ => rfl⟩))
    (lockWork_unnotify _ p _) h.trace
  beginEnd s p c d q h _ hq := by
    refine unitsSound_setEnding (unitsSound_closeOut h p c) fun y hy => ?_
    obtain rfl : _ = y := Option.some.inj hy
    obtain ⟨-, -, h3, -, -, -⟩ := h.sessions p
    cases q with
    | reopen n m =>
      obtain ⟨a, ha, rfl⟩ := hq n m rfl
      exact silenceRange_silenceLimitFor ha h3
    | _ => exact .inl rfl
  withdrawn s _ p _ e _ hs ht he _ _ _ := unitsSound_setEnding ht fun y hy => by
    have hrange : e.InRange := (hs.sessions p).ending_inRange he
    obtain rfl : _ = y := Option.some.inj hy
    exact hrange
  released s _ p _ e _ hs ht he _ _ _ := unitsSound_setEnding ht fun y hy => by
    have hrange : e.InRange := (hs.sessions p).ending_inRange he
    obtain rfl : _ = y := Option.some.inj hy
    exact hrange
  stage s p e h := unitsSound_setEnding_again h fun y hy => by
    obtain rfl : _ = y := Option.some.inj hy
    exact sequel_stage e _
  endDone s p e h _ := unitsSound_setEnding_again h (by simp)
  undefer _ p h := unitsSound_setSession h (h.sessions p)
  deferSilence _ p h _ := unitsSound_setSession h (h.sessions p)
  deferDrop _ p _ h _ _ := unitsSound_setSession h (h.sessions p)
  opening _ p _ h _ := unitsSound_setSession h (h.sessions p)
  notifyFault s p h _ _ := unitsSound_of_lockWork
    (unitsSound_setSession h (h.sessions p) : (s.setOpening p none).UnitsSound) (lockWork_notify _ p _) h.trace
  startOpen s p c _ h _ hn := by
    obtain ⟨-, -, h3, -, -, -⟩ := h.sessions p
    exact unitsSound_setSession h (sound_reopened (h.sessions p) (silenceRange_silenceLimitFor hn h3) s.clock c)
  reopen s p e c n h _ hq := by
    have hrange : e.InRange := (h.sessions p).ending_inRange (by simp [State.setEnding])
    rw [SessionEnd.InRange, hq] at hrange
    have hended : (s.setEnding p none).UnitsSound := unitsSound_setEnding_again h (by simp)
    exact unitsSound_setSession hended (sound_reopened (hended.sessions p) hrange s.clock c)
  handOn s p _ h hn := unitsSound_setLink h (sound_withWindow (h.links p) (windowSound_handOn
    (sound_link_iff.mp (h.links p)).1 (find_handedOn_eq_none (nextRequest_eq_some s hn).2.1)))
  answer _ p _ r h hb := unitsSound_setLink h (sound_answered (h.links p) hb r)
  traceSetup s p u h _ := unitsSound_of_lockWork (unitsSound_setTrace h (sound_firstState u))
    (lockWork_unnotify _ p _) (sound_firstState u)
  traceRead s n h := by
    obtain ⟨hlen, harmed, hcause, hoff⟩ := h.trace
    refine unitsSound_setTrace h ⟨?_, fun ha => ?_, hcause, hoff⟩
    · rw [List.length_drop]
      exact (Nat.sub_le _ _).trans hlen
    · show List.drop n s.trace.buffer = []
      rw [harmed ha, List.drop_nil]
  restart _ p _ h _ := unitsSound_beginRestart h p
  restarted s h := ⟨h.sessions, fun q => by
    have hx : State.link { s with restarting := false, links := s.links.map LinkPort.hunting } q =
        (s.link q).hunting := by simp [State.link]
    rw [hx]
    exact sound_withReceiver (h.links q) (by simp), h.trace⟩
  advance _ h := unitsSound_advanceClock h
  timer _ h := unitsSound_setTrace h (sound_tick h.trace)
  receiver _ p r h _ := unitsSound_setLink h (sound_withReceiver (h.links p) (by by_cases hr : r = .hunt <;> simp [hr]))
  fault _ p c h _ := unitsSound_linkFault h p c
  silence s p h ho hl := by
    obtain ⟨h1, h2, h3, h4, -, h6⟩ := h.sessions p
    have hstate : (s.session p).state = .opened := by simpa [State.isOpen] using ho
    refine unitsSound_setSession (p := p) h ?_
    exact ⟨h1, h2, h3, h4, by simpa [hstate] using hl, h6⟩
  admitted _ p b h _ hroom := unitsSound_setLink h
    (sound_withWindow (h.links p) (windowSound_admit (sound_link_iff.mp (h.links p)).1 hroom b))
  breakLevel _ p _ h _ := unitsSound_setLink h (h.links p)
  replyGone _ p h := unitsSound_replyGone h p
  noticeGone _ p h := unitsSound_noticeGone h p
  notice _ _ _ b h hx _ := unitsSound_sendNotice h hx b
  standingNotice _ p h := unitsSound_formStanding h p
  pinReset s _ := unitsSound_pinReset s

/-- Settles O57: each kind of step keeps the entry, port or capture that it works on within its table. -/
theorem stepsKeepSessionsLinksAndTrace : Obligations.StepsKeepSessionsLinksAndTrace := by
  intro s t hsound hsessions hlinks htrace hs
  have hkept := keeps_step (P := fun u => u.LocksSound ∧ u.UnitsSound)
    (fun u w h => ⟨h.1, ⟨h.2.sessions, h.2.links, h.2.trace⟩⟩)
    (fun c u v h hc => ⟨locksLaw.stepLaw.exec h.1 h.1 c (fun _ _ _ => h.1) hc,
      unitsLaw.exec h.1 h.2 c (fun _ _ _ => ⟨h.2.sessions, h.2.links, h.2.trace⟩) hc⟩)
    ⟨hsound, ⟨hsessions, hlinks, htrace⟩⟩ hs
  exact ⟨hkept.2.sessions, hkept.2.links, hkept.2.trace⟩

end Sys2Proof.Machine
end

section
/-! PROOFS. What every command leaves as it was: around at most one marking change (a grant to the caller, a new
session, a configuration, a pin) a command does steady work alone. -/

namespace Sys2Proof.Machine

/-! ### Steady work -/

/-- What steady work may do to a lock entry: end holdings and waits, alter a holding under its number, and grant
waiters from the head of the queue. -/
structure LockRule (Q : LockEntry → LockEntry → Prop) : Prop where
  refl : ∀ e, Q e e
  trans : ∀ {e f g}, Q e f → Q f g → Q e g
  unhold : ∀ e p, Q e (e.unhold p)
  leave : ∀ e p, Q e (e.leave p)
  rehold : ∀ (e : LockEntry) p h k, e.holding p = some h → k.grant = h.grant → Q e (e.hold p k)
  grantHead : ∀ (e : LockEntry) now w rest, e.queue = w :: rest →
    Q e (e.popHead.grant now w.port w.mode w.lease)

/-- Work that leaves alone the straps, the clock, the counts and pins, every configuration, every session number and
the capture setup, and changes lock entries as `Q` says. -/
structure State.Steady (Q : LockEntry → LockEntry → Prop) (s t : State) : Prop where
  fixed : t = { s with locks := t.locks, standings := t.standings, poolInUse := t.poolInUse, counts := t.counts,
                       sessions := t.sessions, links := t.links, trace := t.trace }
  locks : ∀ l : LockId, Q (s.lock l) (t.lock l)
  config : ∀ q : Port, (t.session q).config = (s.session q).config
  number : ∀ q : Port, (t.session q).number = (s.session q).number
  setup : t.trace.setup = s.trace.setup

section
variable {Q : LockEntry → LockEntry → Prop} (hQ : LockRule Q) {s t u : State}

theorem State.Steady.clock (h : s.Steady Q t) : t.clock = s.clock := by rw [h.fixed]

theorem State.Steady.restarting (h : s.Steady Q t) : t.restarting = s.restarting := by rw [h.fixed]

theorem State.Steady.resetAsserted (h : s.Steady Q t) : t.resetAsserted = s.resetAsserted := by rw [h.fixed]

theorem State.Steady.restartCount (h : s.Steady Q t) : t.restartCount = s.restartCount := by rw [h.fixed]

theorem State.Steady.baud (h : s.Steady Q t) : t.baud = s.baud := by rw [h.fixed]

theorem State.Steady.supsel (h : s.Steady Q t) : t.supsel = s.supsel := by rw [h.fixed]

theorem State.Steady.pending (h : s.Steady Q t) : t.pending = s.pending := by rw [h.fixed]

/-- Work of the lock engine that changes the entries as `Q` says is steady. -/
theorem steady_of_lockWork (hw : s.LockWork t) (hl : ∀ l : LockId, Q (s.lock l) (t.lock l))
    (hsetup : t.trace.setup = s.trace.setup) : s.Steady Q t := by
  refine ⟨?_, hl, fun q => ?_, fun q => ?_, hsetup⟩
  · have hfixed := hw.fixed
    rw [hfixed]
  · rw [hw.sessions q]
  · rw [hw.sessions q]

include hQ

theorem steady_refl (s : State) : s.Steady Q s := ⟨rfl, fun _ => hQ.refl _, fun _ => rfl, fun _ => rfl, rfl⟩

theorem State.Steady.trans (h : s.Steady Q t) (k : t.Steady Q u) : s.Steady Q u :=
  ⟨by rw [k.fixed, h.fixed], fun l => hQ.trans (h.locks l) (k.locks l),
    fun q => (k.config q).trans (h.config q), fun q => (k.number q).trans (h.number q), k.setup.trans h.setup⟩

theorem steady_of_sameLocks (hw : s.LockWork t) (hl : ∀ l : LockId, t.lock l = s.lock l)
    (hsetup : t.trace.setup = s.trace.setup) : s.Steady Q t :=
  steady_of_lockWork hw (fun l => by rw [hl]; exact hQ.refl _) hsetup

variable (s)

theorem steady_setSession {p : Port} {x : Session} (hc : x.config = (s.session p).config)
    (hn : x.number = (s.session p).number) : s.Steady Q (s.setSession p x) := by
  refine ⟨rfl, fun _ => hQ.refl _, fun q => ?_, fun q => ?_, rfl⟩ <;> rw [session_setSession] <;> split
  · next hpq => rw [hc, hpq]
  · rfl
  · next hpq => rw [hn, hpq]
  · rfl

theorem steady_setLink (p : Port) (x : LinkPort) : s.Steady Q (s.setLink p x) :=
  ⟨rfl, fun _ => hQ.refl _, fun _ => rfl, fun _ => rfl, rfl⟩

theorem steady_setTrace {x : TraceUnit} (hx : x.setup = s.trace.setup) : s.Steady Q (s.setTrace x) :=
  ⟨rfl, fun _ => hQ.refl _, fun _ => rfl, fun _ => rfl, hx⟩

/-! ### Reports, changes and notice lists -/

theorem steady_notify (p : Port) (x : Subject) : s.Steady Q (s.notify p x) := steady_setSession hQ s rfl rfl

theorem steady_unnotify (p : Port) (x : Subject) : s.Steady Q (s.unnotify p x) := steady_setSession hQ s rfl rfl

theorem steady_report (r : Report) : s.Steady Q (s.report r) :=
  steady_of_sameLocks hQ (lockWork_report s r) (fun l => lock_report s r l) (by simp)

theorem steady_recordChange (p : Port) (l : LockId) (c : Cause) : s.Steady Q (s.recordChange p l c) :=
  steady_of_sameLocks hQ (lockWork_recordChange s p l c) (fun k => by simp) (by simp)

theorem steady_clearChange (p : Port) (l : LockId) : s.Steady Q (s.clearChange p l) :=
  steady_of_sameLocks hQ (lockWork_clearChange s p l) (fun _ => rfl) rfl

theorem steady_linkFault (p : Port) (c : FaultCode) : s.Steady Q (s.linkFault p c) := by
  unfold State.linkFault
  dsimp only
  refine .trans hQ ?_ (steady_report hQ _ _)
  split
  · exact (steady_setLink hQ s p _).trans hQ (steady_notify hQ _ p _)
  · exact steady_setLink hQ s p _

/-! ### Replies -/

theorem steady_answer (p : Port) (b : Body) : s.Steady Q (s.answer p b) := steady_setLink hQ s p _

theorem steady_reply (p : Port) (st : Status) (res : List Byte) : s.Steady Q (s.reply p st res) := by
  unfold State.reply
  split
  · exact steady_answer hQ s p _
  · exact steady_refl hQ s

theorem steady_handOn (p : Port) : s.Steady Q (s.handOn p) := steady_setLink hQ s p _

theorem steady_refuse (p : Port) (st : Status) : s.Steady Q (s.refuse p st) :=
  (steady_report hQ s _).trans hQ (steady_reply hQ _ p st [])

theorem steady_replyStanding (p : Port) (l : LockId) (st : Status) : s.Steady Q (s.replyStanding p l st) :=
  (steady_clearChange hQ s p l).trans hQ (steady_reply hQ _ p st _)

theorem steady_refuseStanding (p : Port) (l : LockId) (st : Status) : s.Steady Q (s.refuseStanding p l st) :=
  (steady_report hQ s _).trans hQ (steady_replyStanding hQ _ p l st)

/-! ### Lock work -/

/-- A change of one lock's entry and of the tables that go with it. -/
theorem steady_of_entry {l : LockId} {e : LockEntry} (hw : s.LockWork t)
    (hl : ∀ k : LockId, t.lock k = if l = k then e else s.lock k) (he : Q (s.lock l) e)
    (htrace : t.trace = s.trace) : s.Steady Q t := by
  refine steady_of_lockWork hw (fun k => ?_) (by rw [htrace])
  rw [hl]
  split
  · next hlk => subst hlk; exact he
  · exact hQ.refl _

theorem steady_endHolding (p : Port) (l : LockId) (h : Holding) : s.Steady Q (s.endHolding p l h) :=
  steady_of_entry hQ s (lockWork_endHolding s p l h) (lock_endHolding s p l h) (hQ.unhold _ p) rfl

theorem steady_leaveQueue (p : Port) (l : LockId) : s.Steady Q (s.leaveQueue p l) :=
  steady_of_entry hQ s (lockWork_leaveQueue s p l) (lock_leaveQueue s p l) (hQ.leave _ p) rfl

theorem steady_alterHolding {p : Port} {l : LockId} {h k : Holding} (hh : (s.lock l).holding p = some h)
    (hk : k.grant = h.grant) : s.Steady Q (s.alterHolding p l k) :=
  steady_of_entry hQ s (lockWork_alterHolding s p l k) (lock_alterHolding s p l k) (hQ.rehold _ p h k hh hk) rfl

theorem steady_grantHead {l : LockId} {w : Waiter} {rest : List Waiter} (hq : (s.lock l).queue = w :: rest) :
    s.Steady Q (s.grantHead l w) := by
  refine steady_of_lockWork (lockWork_grantHead s l w) (fun k => ?_) (by simp)
  rw [lock_grantHead]
  split
  · next hlk => subst hlk; exact hQ.grantHead _ s.clock w rest hq
  · exact hQ.refl _

theorem steady_handOff (l : LockId) : s.Steady Q (s.handOff l) :=
  handOff_induct s (P := fun t => s.Steady Q t)
    (fun t _ _ hq _ h => h.trans hQ (steady_grantHead hQ t hq)) (steady_refl hQ s)

theorem steady_reexamine (l : LockId) (b : Bool) : s.Steady Q (s.reexamine l b) := by
  unfold State.reexamine
  split
  · exact steady_handOff hQ s l
  · exact steady_refl hQ s

theorem steady_withdrawWait (p : Port) (l : LockId) (d : Byte) : s.Steady Q (s.withdrawWait p l d) :=
  ((steady_leaveQueue hQ s p l).trans hQ (steady_report hQ _ _)).trans hQ (steady_reexamine hQ _ l _)

theorem steady_releaseHolding (p : Port) (l : LockId) (h : Holding) (d : Byte) :
    s.Steady Q (s.releaseHolding p l h d) :=
  ((steady_endHolding hQ s p l h).trans hQ (steady_report hQ _ _)).trans hQ (steady_handOff hQ _ l)

theorem steady_expireLease (p : Port) (l : LockId) (h : Holding) : s.Steady Q (s.expireLease p l h) :=
  (((steady_endHolding hQ s p l h).trans hQ (steady_recordChange hQ _ p l _)).trans hQ
    (steady_report hQ _ _)).trans hQ (steady_handOff hQ _ l)

theorem steady_expireWait (p : Port) (l : LockId) : s.Steady Q (s.expireWait p l) :=
  (((steady_leaveQueue hQ s p l).trans hQ (steady_recordChange hQ _ p l _)).trans hQ
    (steady_report hQ _ _)).trans hQ (steady_reexamine hQ _ l _)

theorem steady_revokeHolding (l : LockId) (c : Cause) (d : Byte) (q : Port) :
    s.Steady Q (s.revokeHolding l c d q) := by
  unfold State.revokeHolding
  split
  · exact steady_refl hQ s
  · exact ((steady_endHolding hQ s q l _).trans hQ (steady_recordChange hQ _ q l c)).trans hQ (steady_report hQ _ _)

theorem steady_purgeWaiter (l : LockId) (w : Waiter) : s.Steady Q (s.purgeWaiter l w) :=
  ((steady_leaveQueue hQ s w.port l).trans hQ (steady_recordChange hQ _ w.port l _)).trans hQ
    (steady_report hQ _ _)

theorem steady_foldl {α : Type} {f : State → α → State} (hf : ∀ (t : State) (a : α), t.Steady Q (f t a)) (as : List α) :
    s.Steady Q (as.foldl f s) := by
  induction as generalizing s with
  | nil => exact steady_refl hQ s
  | cons a as ih => exact (hf s a).trans hQ (ih (f s a))

/-! ### Session ends -/

theorem steady_setEnding (p : Port) (e : Option SessionEnd) : s.Steady Q (s.setEnding p e) :=
  steady_setSession hQ s rfl rfl

theorem steady_setDeferred (p : Port) (d : List DeferredEnd) : s.Steady Q (s.setDeferred p d) :=
  steady_setSession hQ s rfl rfl

theorem steady_setOpening (p : Port) (o : Option Opening) : s.Steady Q (s.setOpening p o) :=
  steady_setSession hQ s rfl rfl

theorem steady_closeOut (p : Port) (c : EndCause) : s.Steady Q (s.closeOut p c) := by
  refine .trans hQ (.trans hQ (steady_setSession hQ s (p := p) (x := { s.session p with
    state := c.state, silenceDeadline := none, silenceLimit := 0, notices := [], credit := 0, opening := none })
    rfl rfl) ?_) (steady_report hQ _ _)
  exact ⟨rfl, fun _ => hQ.refl _, fun _ => rfl, fun _ => rfl, rfl⟩

/-- A session end goes on by steady work when what follows it is steady. -/
theorem steady_goOnEnding (p : Port) (e : SessionEnd) {finish : SessionEnd → State → State}
    (hf : ∀ (e' : SessionEnd) (u : State), e'.sequel = e.sequel → u.Steady Q (finish e' u)) : s.Steady Q (s.goOnEnding p e finish) := by
  unfold State.goOnEnding
  dsimp only
  split
  · exact (steady_setEnding hQ s p none).trans hQ (hf _ _ (sequel_stage e _))
  · exact steady_setEnding hQ s p _

theorem steady_beginEnd (p : Port) (c : EndCause) (d : Disposition) (q : EndSequel)
    {finish : SessionEnd → State → State} (hf : ∀ (e' : SessionEnd) (u : State), e'.sequel = q → u.Steady Q (finish e' u)) :
    s.Steady Q (s.beginEnd p c d q finish) :=
  (steady_closeOut hQ s p c).trans hQ (steady_goOnEnding hQ _ p _ hf)

theorem steady_loseToSilence (p : Port) : s.Steady Q (s.loseToSilence p) := by
  unfold State.loseToSilence
  split
  · exact steady_beginEnd hQ s p _ _ _ fun _ u _ => steady_refl hQ u
  · exact steady_refl hQ s

theorem steady_replyDrop (ended : Bool) (d : Option Disposition) : s.Steady Q (s.replyDrop ended d) := by
  unfold State.replyDrop
  split
  · exact steady_refl hQ s
  · next q _ =>
    dsimp only
    refine .trans hQ (steady_reply hQ s q .ok [if ended then 0 else 1, dispositionCode d]) ?_
    generalize s.reply q .ok [if ended then 0 else 1, dispositionCode d] = u
    split
    · exact (steady_setDeferred hQ _ q []).trans hQ (steady_loseToSilence hQ _ q)
    · exact steady_refl hQ _

theorem steady_drop (p : Port) (named : Option Disposition) : s.Steady Q (s.drop p named) := by
  unfold State.drop
  split
  · dsimp only
    refine .trans hQ ?_ (steady_beginEnd hQ _ p _ _ _ fun _ u _ => steady_replyDrop hQ u true _)
    split
    · exact steady_report hQ s _
    · exact steady_refl hQ s
  · exact steady_replyDrop hQ s false none

theorem steady_takeDeferred (p : Port) (d : DeferredEnd) : s.Steady Q (s.takeDeferred p d) := by
  cases d with
  | silence => exact steady_loseToSilence hQ s p
  | drop named => exact steady_drop hQ s p named

theorem steady_afterReply (p : Port) : s.Steady Q (s.afterReply p) :=
  (steady_setDeferred hQ s p []).trans hQ (steady_foldl hQ _ (fun t d => steady_takeDeferred hQ t p d) _)

/-! ### OPEN -/

theorem steady_finishOpen (p : Port) (o : Opening) : s.Steady Q (s.finishOpen p o) := by
  unfold State.finishOpen
  dsimp only
  refine .trans hQ (.trans hQ (.trans hQ ?_ (steady_report hQ _ _)) (steady_reply hQ _ p _ _))
    (steady_afterReply hQ _ p)
  split
  · exact (steady_setOpening hQ s p none).trans hQ (steady_notify hQ _ p _)
  · exact steady_setOpening hQ s p none

theorem steady_goOnOpening (p : Port) (o : Opening) : s.Steady Q (s.goOnOpening p o) := by
  unfold State.goOnOpening
  split
  · exact steady_finishOpen hQ s p o
  · exact steady_setOpening hQ s p _

theorem steady_reattachNext (p : Port) : s.Steady Q (s.reattachNext p) := by
  unfold State.reattachNext
  split
  · exact steady_refl hQ s
  · split
    · exact steady_refl hQ s
    · split
      · exact (steady_recordChange hQ s p _ _).trans hQ (steady_goOnOpening hQ _ p _)
      · exact steady_goOnOpening hQ s p _

/-- A session end that no OPEN waits for is followed by steady work. -/
theorem steady_finishEnd (p : Port) (e : SessionEnd) (he : ∀ c n, e.sequel ≠ .reopen c n) :
    s.Steady Q (s.finishEnd p e) := by
  unfold State.finishEnd
  split
  · exact steady_refl hQ s
  · exact (steady_reply hQ s p _ _).trans hQ (steady_afterReply hQ _ p)
  · exact steady_replyDrop hQ s true _
  · next c n hq => exact absurd hq (he c n)

/-! ### The lock work of a session end -/

theorem steady_endWithdrawn (p : Port) (l : LockId) :
    s.Steady Q (if (s.lock l).waits p then s.withdrawWait p l bySessionEnd else s) := by
  split
  · exact steady_withdrawWait hQ s p l _
  · exact steady_refl hQ s

theorem steady_takeEndWithdrawal (p : Port) (l : LockId) {finish : SessionEnd → State → State}
    (hf : ∀ (e : SessionEnd) (u : State), u.Steady Q (finish e u)) : s.Steady Q (s.takeEndWithdrawal p l finish) := by
  unfold State.takeEndWithdrawal
  split
  · exact steady_refl hQ s
  · split
    · exact steady_refl hQ s
    · split
      · exact (steady_endWithdrawn hQ s p l).trans hQ (steady_goOnEnding hQ _ p _ fun e u _ => hf e u)
      · exact steady_refl hQ s

theorem steady_takeEndRelease (p : Port) (l : LockId) {finish : SessionEnd → State → State}
    (hf : ∀ (e : SessionEnd) (u : State), u.Steady Q (finish e u)) : s.Steady Q (s.takeEndRelease p l finish) := by
  unfold State.takeEndRelease
  split
  · exact steady_refl hQ s
  · split
    · exact steady_refl hQ s
    · split
      · refine .trans hQ ?_ (steady_goOnEnding hQ _ p _ fun e u _ => hf e u)
        split
        · exact steady_releaseHolding hQ s p l _ _
        · exact steady_refl hQ s
      · exact steady_refl hQ s

theorem steady_settleEnds : s.Steady Q s.settleEnds :=
  settleEnds_keeps (P := fun t => s.Steady Q t)
    (fun t p l h => h.trans hQ (steady_takeEndWithdrawal hQ t p l fun _ u => steady_refl hQ u))
    (fun t p l h => h.trans hQ (steady_takeEndRelease hQ t p l fun _ u => steady_refl hQ u)) (steady_refl hQ s)

/-! ### Link ports, clock and notices -/

theorem steady_setReceiver (p : Port) (r : ReceiverState) : s.Steady Q (s.setReceiver p r) :=
  steady_setLink hQ s p _

theorem steady_discardFrame (p : Port) (c : FaultCode) : s.Steady Q (s.discardFrame p c) :=
  (steady_setReceiver hQ s p .hunt).trans hQ (steady_linkFault hQ _ p c)

theorem steady_restartSilence (p : Port) : s.Steady Q (s.restartSilence p) := by
  unfold State.restartSilence
  dsimp only
  split
  · exact steady_setSession hQ s rfl rfl
  · exact steady_refl hQ s

theorem steady_completeFrame (p : Port) (b : Body) : s.Steady Q (s.completeFrame p b) := by
  unfold State.completeFrame State.admitFrame
  refine .trans hQ ((steady_setReceiver hQ s p .hunt).trans hQ (steady_restartSilence hQ _ p)) ?_
  dsimp only
  split
  · exact steady_setLink hQ _ p _
  · exact steady_linkFault hQ _ p _

theorem steady_takeCharacter (p : Port) (c : Byte) : s.Steady Q (s.takeCharacter p c) := by
  unfold State.takeCharacter
  split
  · split
    · exact steady_setReceiver hQ s p _
    · exact steady_refl hQ s
  · split
    · exact steady_setReceiver hQ s p _
    · exact steady_discardFrame hQ s p _
  · dsimp only
    split <;> exact steady_setReceiver hQ s p _
  · exact steady_setReceiver hQ s p _
  · split
    · exact steady_completeFrame hQ s p _
    · exact steady_discardFrame hQ s p _

theorem steady_takeCharError (p : Port) (b : Bool) : s.Steady Q (s.takeCharError p b) := by
  unfold State.takeCharError
  split
  · exact steady_refl hQ s
  · dsimp only
    have hs : s.Steady Q (if s.restarting then s else s.discardFrame p .charError) := by
      split
      · exact steady_refl hQ s
      · exact steady_discardFrame hQ s p _
    split
    · exact hs.trans hQ (steady_setLink hQ _ p _)
    · exact hs

theorem steady_endBreak (p : Port) : s.Steady Q (s.endBreak p) := by
  unfold State.endBreak
  split
  · exact (steady_setLink hQ s p _).trans hQ (steady_setReceiver hQ _ p _)
  · exact steady_refl hQ s

theorem steady_replyGone (p : Port) : s.Steady Q (s.replyGone p) := by
  unfold State.replyGone
  dsimp only
  split
  · exact steady_setLink hQ s p _
  · exact steady_refl hQ s
  · exact steady_refl hQ s

theorem steady_noticeGone (p : Port) : s.Steady Q (s.noticeGone p) := by
  unfold State.noticeGone
  dsimp only
  split
  · exact steady_setLink hQ s p _
  · exact steady_refl hQ s
  · exact steady_refl hQ s

theorem steady_sendNotice (p : Port) (b : Body) : s.Steady Q (s.sendNotice p b) :=
  .trans hQ (steady_setSession hQ s (p := p) (x := { s.session p with
    notices := (s.session p).notices.tail, credit := (s.session p).credit - 1,
    noticeNumber := (s.session p).noticeNumber + 1 }) rfl rfl) (steady_setLink hQ _ p _)

theorem steady_formStanding (p : Port) : s.Steady Q (s.formStanding p) := by
  unfold State.formStanding
  split
  · exact (steady_sendNotice hQ s p _).trans hQ ⟨rfl, fun _ => hQ.refl _, fun _ => rfl, fun _ => rfl, rfl⟩
  · exact steady_refl hQ s

theorem steady_formFault (p : Port) : s.Steady Q (s.formFault p) := by
  unfold State.formFault
  split
  · exact steady_sendNotice hQ s p _
  · exact steady_refl hQ s

theorem steady_formTrace (p : Port) : s.Steady Q (s.formTrace p) := by
  unfold State.formTrace
  split
  · exact steady_sendNotice hQ s p _
  · exact steady_refl hQ s

theorem steady_tick : s.Steady Q (s.setTrace s.trace.tick) := by
  refine steady_setTrace hQ s ?_
  unfold TraceUnit.tick
  split <;> rfl

theorem steady_wrapTimer : s.Steady Q s.wrapTimer := by
  unfold State.wrapTimer
  split
  · exact steady_tick hQ s
  · exact steady_refl hQ s

theorem steady_takeSilenceExpiry (p : Port) : s.Steady Q (s.takeSilenceExpiry p) := by
  unfold State.takeSilenceExpiry
  split
  · split
    · split
      · exact steady_refl hQ s
      · exact steady_setDeferred hQ s p _
    · exact steady_loseToSilence hQ s p
  · exact steady_refl hQ s

theorem steady_takeLeaseExpiry (p : Port) (l : LockId) : s.Steady Q (s.takeLeaseExpiry p l) := by
  unfold State.takeLeaseExpiry
  split
  · exact steady_refl hQ s
  · split
    · exact steady_expireLease hQ s p l _
    · exact steady_refl hQ s

theorem steady_takeWaitExpiry (p : Port) (l : LockId) : s.Steady Q (s.takeWaitExpiry p l) := by
  unfold State.takeWaitExpiry
  split
  · exact steady_refl hQ s
  · split
    · exact steady_expireWait hQ s p l
    · exact steady_refl hQ s

theorem steady_refuseUnknown (p : Port) : s.Steady Q (s.refuseUnknown p) := by
  unfold State.refuseUnknown
  split
  · exact steady_refl hQ s
  · split
    · exact ((steady_handOn hQ s p).trans hQ (steady_report hQ _ _)).trans hQ (steady_answer hQ _ p _)
    · exact steady_refl hQ s

/-! ### Requests -/

theorem steady_takeRequest (k : Kind) (p : Port) {owner : Body → State → State}
    (ho : ∀ (b : Body) (u : State), u.Steady Q (owner b u)) : s.Steady Q (s.takeRequest k p owner) := by
  rcases takeRequest_cases s k p owner with e | ⟨b, -, -, ⟨st, -, e⟩ | ⟨-, e⟩⟩ <;> rw [e]
  · exact steady_refl hQ s
  · exact (steady_handOn hQ s p).trans hQ (steady_refuse hQ _ p st)
  · exact (steady_handOn hQ s p).trans hQ (ho b _)

theorem steady_takeRelease (p : Port) (l : LockId) (g : Grant) : s.Steady Q (s.takeRelease p l g) := by
  unfold State.takeRelease
  split
  · exact steady_refuseStanding hQ s p l _
  · exact (steady_releaseHolding hQ s p l _ _).trans hQ (steady_replyStanding hQ _ p l _)

theorem steady_takeWithdraw (p : Port) (l : LockId) : s.Steady Q (s.takeWithdraw p l) := by
  unfold State.takeWithdraw
  split
  · exact (steady_withdrawWait hQ s p l _).trans hQ (steady_replyStanding hQ _ p l _)
  · exact steady_refuseStanding hQ s p l _

theorem steady_takeRenew (p : Port) (l : LockId) (g : Grant) (n : Half) : s.Steady Q (s.takeRenew p l g n) := by
  unfold State.takeRenew
  dsimp only
  split
  · exact steady_refuseStanding hQ s p l _
  · next h hh =>
    split
    · exact steady_refuseStanding hQ s p l _
    · split
      · exact steady_refuseStanding hQ s p l _
      · exact (steady_alterHolding hQ s (holderTest_ok hh).1 
          (k := { h with deadline := optionalDeadline s.clock n }) rfl).trans hQ
          (steady_replyStanding hQ _ p l _)

theorem steady_downgrade {p : Port} {l : LockId} {h : Holding} (hh : (s.lock l).holding p = some h) :
    s.Steady Q (s.downgrade p l h) :=
  ((steady_alterHolding hQ s hh (k := { h with mode := .shared }) rfl).trans hQ (steady_report hQ _ _)).trans hQ
    (steady_handOff hQ _ l)

theorem steady_takeRevoke (p : Port) (l : LockId) (b : Byte) : s.Steady Q (s.takeRevoke p l b) := by
  unfold State.takeRevoke
  split
  · exact (steady_report hQ s _).trans hQ (steady_reply hQ _ p _ _)
  · dsimp only
    exact (((steady_report hQ s _).trans hQ (steady_foldl hQ _
      (fun t q => steady_revokeHolding hQ t l .revoked byRevoke q) _)).trans hQ (steady_handOff hQ _ l)).trans hQ
      (steady_reply hQ _ p _ _)

theorem steady_takePurge (p : Port) (l : LockId) : s.Steady Q (s.takePurge p l) :=
  ((((steady_report hQ s _).trans hQ (steady_foldl hQ _
    (fun t q => steady_revokeHolding hQ t l .purged byPurge q) _)).trans hQ (steady_foldl hQ _
    (fun t w => steady_purgeWaiter hQ t l w) _)).trans hQ (steady_handOff hQ _ l)).trans hQ
    (steady_reply hQ _ p _ _)

theorem steady_takeDrop (p q : Port) (d : Option Disposition) : s.Steady Q (s.takeDrop p q d) := by
  unfold State.takeDrop
  split
  · exact steady_refuse hQ s p _
  · split
    · exact steady_setDeferred hQ s q _
    · exact steady_drop hQ s q d

theorem steady_takeCredit (p : Port) (n : Nat) : s.Steady Q (s.takeCredit p n) :=
  .trans hQ (steady_setSession hQ s (p := p) (x := { s.session p with
    credit := min maxCredit ((s.session p).credit + n) }) rfl rfl) (steady_reply hQ _ p _ _)

theorem steady_takeFaultAck (p : Port) : s.Steady Q (s.takeFaultAck p) :=
  ((steady_setLink hQ s p _).trans hQ (steady_unnotify hQ _ p _)).trans hQ (steady_reply hQ _ p _ _)

theorem steady_takeTraceRead (p : Port) (n : Nat) : s.Steady Q (s.takeTraceRead p n) :=
  (steady_setTrace hQ s (x := { s.trace with buffer := s.trace.buffer.drop n }) rfl).trans hQ
    (steady_reply hQ _ p _ _)

theorem steady_takeClose (p : Port) : s.Steady Q (s.takeClose p) :=
  steady_beginEnd hQ s p _ _ _ fun e u he => steady_finishEnd hQ u p e (by simp [he])

end

/-! ### The one marking change of a command -/

/-- The change that marks a command out, from a state `u` that steady work from `s` has reached: the caller's own
grant, wait or raised holding, a new session, a configuration, the clock, the pins. -/
inductive State.Marks (s : State) : Instr → State → State → Prop where
  | grant (u : State) (p : Port) (l : LockId) (m : Mode) (lease : Half) (hlock : u.lock l = s.lock l)
    (hgrant : (s.lock l).grantable m = true) : Marks s (.acquire p) u (u.grantTo p l m lease)
  | wait (u : State) (p : Port) (l : LockId) (m : Mode) (lease limit : Half) (hlock : u.lock l = s.lock l)
    (hwaits : (s.lock l).waits p = false) : Marks s (.acquire p) u (u.enqueue p l m lease limit)
  | raise (u : State) (p : Port) (l : LockId) (h : Holding) (hlock : u.lock l = s.lock l)
    (hraise : (s.lock l).upgradable p = true) : Marks s (.convert p) u (u.raiseHolding p l h)
  | lockConfig (u : State) (p : Port) (l : LockId) (c : LockConfig) :
    Marks s (.setLock p) u (u.setLock l { u.lock l with config := c })
  | portConfig (u : State) (p q : Port) (c : PortConfig) :
    Marks s (.setPort p) u (u.setSession q { u.session q with config := c })
  | traceSetup (u : State) (p : Port) (x : TraceSetup) :
    Marks s (.traceSetup p) u (u.setTrace { setup := x, state := x.firstState })
  | openSession (u : State) (p : Port) (c : Byte) (n : Half) :
    Marks s (.openSession p) u (u.setSession p ((u.session p).reopened u.clock c n))
  | endWithdrawal (u : State) (p : Port) (l : LockId) (e : SessionEnd) (c : Byte) (n : Half)
    (he : (s.session p).ending = some e) (hq : e.sequel = .reopen c n) :
    Marks s (.sessionEndWithdrawal p l) u (u.setSession p ((u.session p).reopened u.clock c n))
  | endRelease (u : State) (p : Port) (l : LockId) (e : SessionEnd) (c : Byte) (n : Half)
    (he : (s.session p).ending = some e) (hq : e.sequel = .reopen c n) :
    Marks s (.sessionEndRelease p l) u (u.setSession p ((u.session p).reopened u.clock c n))
  | advance : Marks s .leaseClockAdvance s { s with clock := s.clock + 1 }
  | restart (u : State) (p : Port) : Marks s (.restart p) u (u.beginRestart p)
  | restarted : Marks s .restartComplete s { s with restarting := false }
  | pinReset : Marks s .pinReset s
    { State.reset with pending := s.pending, resetAsserted := true, baud := s.baud, supsel := s.supsel }
  | released (b : BitVec 2) (v : BitVec 3) (h : s.resetAsserted = true) :
    Marks s (.resetReleased b v) s { s with resetAsserted := false, baud := b, supsel := v }

/-- A command's work: steady throughout, or steady around its one marking change. -/
def State.Via (Q : LockEntry → LockEntry → Prop) (s : State) (c : Instr) (t : State) : Prop :=
  s.Steady Q t ∨ ∃ u v, s.Steady Q u ∧ s.Marks c u v ∧ v.Steady Q t

section
variable {Q : LockEntry → LockEntry → Prop} (hQ : LockRule Q) {s t u v : State} {c : Instr} {p : Port}

/-- Steady work may come before and after. -/
theorem via_of_marks (hs : s.Steady Q u) (hm : s.Marks c u v) (ht : v.Steady Q t) : s.Via Q c t :=
  .inr ⟨u, v, hs, hm, ht⟩

include hQ

/-- What a request does is that of its owner, once it is handed on. -/
theorem via_takeRequest {k : Kind} {owner : Body → State → State}
    (ho : ∀ b, s.Via Q c (owner b (s.handOn p))) : s.Via Q c (s.takeRequest k p owner) := by
  rcases takeRequest_cases s k p owner with e | ⟨b, -, -, ⟨st, -, e⟩ | ⟨-, e⟩⟩ <;> rw [e]
  · exact .inl (steady_refl hQ s)
  · exact .inl ((steady_handOn hQ s p).trans hQ (steady_refuse hQ _ p st))
  · exact ho b

theorem via_acquire (h : exec (.acquire p) s = .next t) : s.Via Q (.acquire p) t := by
  obtain rfl := Host.Outcome.next.inj h
  refine via_takeRequest hQ fun b => ?_
  have hs := steady_handOn hQ s p
  unfold State.takeAcquire
  split
  · next hj =>
    obtain ⟨-, -, -, -, hgrant, -⟩ := judgeAcquire_stands _ hj (.inl rfl)
    exact via_of_marks hs (.grant _ p _ _ _ rfl (hgrant rfl))
      ((steady_report hQ _ _).trans hQ (steady_replyStanding hQ _ p _ _))
  · next hj =>
    obtain ⟨-, -, hwaits, -⟩ := judgeAcquire_stands _ hj (.inr rfl)
    exact via_of_marks hs (.wait _ p _ _ _ _ rfl hwaits)
      ((steady_report hQ _ _).trans hQ (steady_replyStanding hQ _ p _ _))
  · exact .inl (hs.trans hQ ((steady_report hQ _ _).trans hQ (steady_replyStanding hQ _ p _ _)))
  · exact .inl (hs.trans hQ (steady_refuseStanding hQ _ p _ _))

theorem via_convert (h : exec (.convert p) s = .next t) : s.Via Q (.convert p) t := by
  obtain rfl := Host.Outcome.next.inj h
  refine via_takeRequest hQ fun b => ?_
  have hs := steady_handOn hQ s p
  have refused (st : Status) : s.Via Q (.convert p) ((s.handOn p).refuseStanding p (lockAt b 2) st) :=
    .inl (hs.trans hQ (steady_refuseStanding hQ _ p _ st))
  unfold State.takeConvert
  split
  · exact refused _
  · next x hx =>
    split
    · exact refused _
    · split
      · split
        · exact .inl (hs.trans hQ ((steady_downgrade hQ _ (holderTest_ok hx).1).trans hQ
            (steady_replyStanding hQ _ p _ _)))
        · exact refused _
      · split
        · next hraise =>
          exact via_of_marks hs (.raise _ p _ x rfl hraise)
            ((steady_report hQ _ _).trans hQ (steady_replyStanding hQ _ p _ _))
        · exact refused _

theorem via_setLock (h : exec (.setLock p) s = .next t) : s.Via Q (.setLock p) t := by
  obtain rfl := Host.Outcome.next.inj h
  refine via_takeRequest hQ fun b => ?_
  have hs := steady_handOn hQ s p
  unfold State.takeSetLock
  split
  · exact .inl (hs.trans hQ ((steady_report hQ _ _).trans hQ (steady_reply hQ _ p _ _)))
  · exact via_of_marks hs (.lockConfig _ p _ _) ((steady_report hQ _ _).trans hQ (steady_reply hQ _ p _ _))

theorem via_setPort (h : exec (.setPort p) s = .next t) : s.Via Q (.setPort p) t := by
  obtain rfl := Host.Outcome.next.inj h
  exact via_takeRequest hQ fun b => via_of_marks (steady_handOn hQ s p) (.portConfig _ p _ _)
    ((steady_report hQ _ _).trans hQ (steady_reply hQ _ p _ _))

theorem via_traceSetup (h : exec (.traceSetup p) s = .next t) : s.Via Q (.traceSetup p) t := by
  obtain rfl := Host.Outcome.next.inj h
  exact via_takeRequest hQ fun b => via_of_marks (steady_handOn hQ s p) (.traceSetup _ p _)
    ((steady_unnotify hQ _ p _).trans hQ (steady_reply hQ _ p _ _))

/-- A new session is steady work after its entry is written. -/
theorem steady_startOpen (s : State) (p : Port) (c : Byte) (n : Half) (d : Option Disposition) :
    (s.setSession p ((s.session p).reopened s.clock c n)).Steady Q (s.startOpen p c n d) :=
  steady_goOnOpening hQ _ p _

/-- The work of a session end, once it goes on: steady, or a new session where an OPEN waits for it. -/
theorem via_goOnEnding (hs : s.Steady Q u) (e : SessionEnd)
    (hm : ∀ (v : State) x n, e.sequel = .reopen x n →
      s.Marks c v (v.setSession p ((v.session p).reopened v.clock x n))) :
    s.Via Q c (u.goOnEnding p e fun e t => t.finishEnd p e) := by
  by_cases hq : ∃ x n, e.sequel = .reopen x n
  · obtain ⟨x, n, hq⟩ := hq
    unfold State.goOnEnding
    dsimp only
    split
    · have hq' : (e.stage (u.heldLocks p)).sequel = .reopen x n := by rw [sequel_stage, hq]
      simp only [State.finishEnd, hq']
      exact via_of_marks (hs.trans hQ (steady_setEnding hQ u p none)) (hm _ x n hq) (steady_startOpen hQ _ p x n _)
    · exact .inl (hs.trans hQ (steady_setEnding hQ u p _))
  · push Not at hq
    exact .inl (hs.trans hQ (steady_goOnEnding hQ u p e fun e' v he =>
      steady_finishEnd hQ v p e' (by rw [he]; exact hq)))

theorem via_openSession (h : exec (.openSession p) s = .next t) : s.Via Q (.openSession p) t := by
  obtain rfl := Host.Outcome.next.inj h
  refine via_takeRequest hQ fun b => ?_
  have hs := steady_handOn hQ s p
  unfold State.takeOpen
  dsimp only
  split
  · exact via_goOnEnding hQ (hs.trans hQ (steady_closeOut hQ _ p _)) _ fun v x n _ => .openSession v p x n
  · exact via_of_marks hs (.openSession _ p _ _) (steady_startOpen hQ _ p _ _ _)

theorem via_sessionEndWithdrawal {l : LockId} (h : exec (.sessionEndWithdrawal p l) s = .next t) :
    s.Via Q (.sessionEndWithdrawal p l) t := by
  obtain rfl := Host.Outcome.next.inj h
  unfold State.takeEndWithdrawal
  split
  · exact .inl (steady_refl hQ s)
  · next e he =>
    split
    · exact .inl (steady_refl hQ s)
    · split
      · exact via_goOnEnding hQ (steady_endWithdrawn hQ s p l) _ fun v x n hq => .endWithdrawal v p l e x n he hq
      · exact .inl (steady_refl hQ s)

theorem via_sessionEndRelease {l : LockId} (h : exec (.sessionEndRelease p l) s = .next t) :
    s.Via Q (.sessionEndRelease p l) t := by
  obtain rfl := Host.Outcome.next.inj h
  unfold State.takeEndRelease
  split
  · exact .inl (steady_refl hQ s)
  · next e he =>
    split
    · exact .inl (steady_refl hQ s)
    · split
      · refine via_goOnEnding hQ ?_ _ fun v x n hq => .endRelease v p l e x n he hq
        split
        · exact steady_releaseHolding hQ s p l _ _
        · exact steady_refl hQ s
      · exact .inl (steady_refl hQ s)

theorem via_advance (h : exec .leaseClockAdvance s = .next t) : s.Via Q .leaseClockAdvance t := by
  obtain rfl := Host.Outcome.next.inj h
  unfold State.advanceClock
  split
  · exact .inl (steady_refl hQ s)
  · exact via_of_marks (steady_refl hQ s) .advance (steady_refl hQ _)

theorem via_restart (h : exec (.restart p) s = .next t) : s.Via Q (.restart p) t := by
  obtain rfl := Host.Outcome.next.inj h
  exact via_takeRequest hQ fun _ => via_of_marks ((steady_handOn hQ s p).trans hQ (steady_settleEnds hQ _))
    (.restart _ p) (steady_refl hQ _)

theorem via_restartComplete (h : exec .restartComplete s = .next t) : s.Via Q .restartComplete t := by
  obtain rfl := Host.Outcome.next.inj h
  unfold State.completeRestart
  split
  · have hhunt : State.Steady Q { s with restarting := false }
        { s with restarting := false, links := s.links.map LinkPort.hunting } :=
      ⟨rfl, fun _ => hQ.refl _, fun _ => rfl, fun _ => rfl, rfl⟩
    refine via_of_marks (steady_refl hQ s) .restarted (hhunt.trans hQ ?_)
    dsimp only
    split
    · exact steady_reply hQ _ _ _ _
    · exact steady_refl hQ _
  · exact .inl (steady_refl hQ s)

theorem via_pinReset (h : exec .pinReset s = .next t) : s.Via Q .pinReset t := by
  obtain rfl := Host.Outcome.next.inj h
  exact via_of_marks (steady_refl hQ s) .pinReset (steady_refl hQ _)

theorem via_resetReleased {b : BitVec 2} {x : BitVec 3} (h : exec (.resetReleased b x) s = .next t) :
    s.Via Q (.resetReleased b x) t := by
  obtain rfl := Host.Outcome.next.inj h
  split
  · next hr => exact via_of_marks (steady_refl hQ s) (.released b x hr) (steady_refl hQ _)
  · exact .inl (steady_refl hQ s)

/-- Every command does steady work around at most its one marking change. -/
theorem via_exec (h : exec c s = .next t) : s.Via Q c t := by
  have steady_if {a : Bool} {u : State} (hu : s.Steady Q u) : s.Steady Q (if a then u else s) := by
    split
    · exact hu
    · exact steady_refl hQ s
  cases c with
  | acquire p => exact via_acquire hQ h
  | convert p => exact via_convert hQ h
  | setLock p => exact via_setLock hQ h
  | setPort p => exact via_setPort hQ h
  | traceSetup p => exact via_traceSetup hQ h
  | openSession p => exact via_openSession hQ h
  | sessionEndWithdrawal p l => exact via_sessionEndWithdrawal hQ h
  | sessionEndRelease p l => exact via_sessionEndRelease hQ h
  | leaseClockAdvance => exact via_advance hQ h
  | restart p => exact via_restart hQ h
  | restartComplete => exact via_restartComplete hQ h
  | pinReset => exact via_pinReset hQ h
  | resetReleased b x => exact via_resetReleased hQ h
  | reattachHolding p => cases h; exact .inl (steady_reattachNext hQ s p)
  | closeSession p => cases h; exact .inl (steady_takeRequest hQ s _ p fun _ u => steady_takeClose hQ u p)
  | ping p => cases h; exact .inl (steady_takeRequest hQ s _ p fun _ u => steady_reply hQ u p _ _)
  | credit p => cases h; exact .inl (steady_takeRequest hQ s _ p fun _ u => steady_takeCredit hQ u p _)
  | faultAck p => cases h; exact .inl (steady_takeRequest hQ s _ p fun _ u => steady_takeFaultAck hQ u p)
  | release p => cases h; exact .inl (steady_takeRequest hQ s _ p fun _ u => steady_takeRelease hQ u p _ _)
  | withdraw p => cases h; exact .inl (steady_takeRequest hQ s _ p fun _ u => steady_takeWithdraw hQ u p _)
  | renew p => cases h; exact .inl (steady_takeRequest hQ s _ p fun _ u => steady_takeRenew hQ u p _ _ _)
  | query p => cases h; exact .inl (steady_takeRequest hQ s _ p fun _ u => steady_reply hQ u p _ _)
  | getLock p => cases h; exact .inl (steady_takeRequest hQ s _ p fun _ u => steady_reply hQ u p _ _)
  | getPort p => cases h; exact .inl (steady_takeRequest hQ s _ p fun _ u => steady_reply hQ u p _ _)
  | revoke p => cases h; exact .inl (steady_takeRequest hQ s _ p fun _ u => steady_takeRevoke hQ u p _ _)
  | purge p => cases h; exact .inl (steady_takeRequest hQ s _ p fun _ u => steady_takePurge hQ u p _)
  | dropSession p => cases h; exact .inl (steady_takeRequest hQ s _ p fun _ u => steady_takeDrop hQ u p _ _)
  | traceStatus p => cases h; exact .inl (steady_takeRequest hQ s _ p fun _ u => steady_reply hQ u p _ _)
  | traceRead p => cases h; exact .inl (steady_takeRequest hQ s _ p fun _ u => steady_takeTraceRead hQ u p _)
  | unknownKind p => cases h; exact .inl (steady_refuseUnknown hQ s p)
  | leaseExpiry p l => cases h; exact .inl (steady_takeLeaseExpiry hQ s p l)
  | waitExpiry p l => cases h; exact .inl (steady_takeWaitExpiry hQ s p l)
  | silenceExpiry p => cases h; exact .inl (steady_takeSilenceExpiry hQ s p)
  | validFrame p b => cases h; exact .inl (steady_if (steady_completeFrame hQ s p b))
  | frameCheck p b x => cases h; exact .inl (steady_if (steady_discardFrame hQ s p _))
  | frameShape p n => cases h; exact .inl (steady_if (steady_discardFrame hQ s p _))
  | charError p b => cases h; exact .inl (steady_takeCharError hQ s p b)
  | breakEnd p => cases h; exact .inl (steady_endBreak hQ s p)
  | receiveGap p => cases h; exact .inl (steady_if (steady_discardFrame hQ s p _))
  | standingNotice p => cases h; exact .inl (steady_formStanding hQ s p)
  | faultNotice p => cases h; exact .inl (steady_formFault hQ s p)
  | traceNotice p => cases h; exact .inl (steady_formTrace hQ s p)
  | replySent p => cases h; exact .inl (steady_replyGone hQ s p)
  | noticeSent p => cases h; exact .inl (steady_noticeGone hQ s p)
  | timeWrapped => cases h; exact .inl (steady_wrapTimer hQ s)
  | characterReceived p x => cases h; exact .inl (steady_if (steady_takeCharacter hQ s p x))
  | traceTimerAdvance => cases h; exact .inl (steady_tick hQ s)

end

end Sys2Proof.Machine
end

section
/-! PROOFS. What outlives sessions is written by the named commands alone (Chapters 4, 6, 7 and 8), and grant
numbers move forward (1.2). -/

namespace Sys2Proof.Machine

variable {s t u v : State} {c : Instr} {p : Port} {l : LockId}

/-! ### What outlives sessions -/

/-- Entries with the same configuration. -/
def LockEntry.SameConfig (e f : LockEntry) : Prop := f.config = e.config

theorem sameConfigRule : LockRule LockEntry.SameConfig where
  refl _ := rfl
  trans h k := k.trans h
  unhold _ _ := rfl
  leave _ _ := rfl
  rehold _ _ _ _ _ _ := rfl
  grantHead _ _ _ _ _ := rfl

/-- Command `c` leads from `s` to `t` and writes nothing that outlives sessions but what it is named for; `opens`
are the ports whose session number it may raise. -/
def State.Lasts (c : Instr) (opens : Port → Prop) (s t : State) : Prop :=
  ((∀ b v, c ≠ .resetReleased b v) → t.baud = s.baud ∧ t.supsel = s.supsel) ∧
  (c ≠ .pinReset →
    (c ≠ .leaseClockAdvance → t.clock = s.clock) ∧
    ((∀ p, c ≠ .restart p) → t.restartCount = s.restartCount) ∧
    ((∀ p, c ≠ .setLock p) → ∀ l : LockId, (t.lock l).config = (s.lock l).config) ∧
    ((∀ p, c ≠ .setPort p) → ∀ q : Port, (t.session q).config = (s.session q).config) ∧
    ((∀ p, c ≠ .traceSetup p) → t.trace.setup = s.trace.setup) ∧
    ∀ q : Port, (t.session q).number = (s.session q).number ∨
      (t.session q).number = nextSessionNumber (s.session q).number ∧ opens q)

theorem lasts_of_steady (h : s.Steady LockEntry.SameConfig t) (opens : Port → Prop) : s.Lasts c opens t :=
  ⟨fun _ => ⟨h.baud, h.supsel⟩, fun _ => ⟨fun _ => h.clock, fun _ => h.restartCount, fun _ => h.locks,
    fun _ => h.config, fun _ => h.setup, fun q => .inl (h.number q)⟩⟩

/-- Steady work before and after a change adds nothing to it. -/
theorem lasts_around {opens : Port → Prop} (hs : s.Steady LockEntry.SameConfig u) (hm : u.Lasts c opens v)
    (ht : v.Steady LockEntry.SameConfig t) : s.Lasts c opens t := by
  obtain ⟨hstraps, hrest⟩ := hm
  refine ⟨fun hc => ?_, fun hc => ?_⟩
  · obtain ⟨hb, hv⟩ := hstraps hc
    exact ⟨by rw [ht.baud, hb, hs.baud], by rw [ht.supsel, hv, hs.supsel]⟩
  · obtain ⟨hclock, hcount, hlock, hport, hsetup, hnumber⟩ := hrest hc
    refine ⟨fun k => by rw [ht.clock, hclock k, hs.clock], fun k => by rw [ht.restartCount, hcount k, hs.restartCount],
      fun k l => (ht.locks l).trans ((hlock k l).trans (hs.locks l)),
      fun k q => (ht.config q).trans ((hport k q).trans (hs.config q)),
      fun k => ht.setup.trans ((hsetup k).trans hs.setup), fun q => ?_⟩
    rw [ht.number, ← hs.number]
    exact hnumber q

/-- The session entry that an OPEN writes has the next number, and the configuration stays. -/
theorem lasts_reopened {opens : Port → Prop} (u : State) (x : Byte) (n : Half) (hp : opens p) :
    u.Lasts c opens (u.setSession p ((u.session p).reopened u.clock x n)) := by
  refine ⟨fun _ => ⟨rfl, rfl⟩, fun _ => ⟨fun _ => rfl, fun _ => rfl, fun _ _ => rfl, fun _ q => ?_, fun _ => rfl,
    fun q => ?_⟩⟩ <;> rw [session_setSession] <;> split
  · next hpq => subst hpq; rfl
  · rfl
  · next hpq => subst hpq; exact .inr ⟨rfl, hp⟩
  · exact .inl rfl

/-- A change of the lock table and its counts that keeps the configurations. -/
theorem lasts_of_lockWork {opens : Port → Prop} (hw : u.LockWork v)
    (hl : ∀ k : LockId, (v.lock k).config = (u.lock k).config) (htrace : v.trace = u.trace) :
    u.Lasts c opens v :=
  lasts_of_steady (steady_of_lockWork hw hl (by rw [htrace])) opens

/-- The ports whose session number a command from `s` may raise: that of its own OPEN, or of its own session end
that an OPEN waits for. -/
def State.Opens (s : State) (c : Instr) (q : Port) : Prop :=
  c = .openSession q ∨ ((∃ l, c = .sessionEndWithdrawal q l ∨ c = .sessionEndRelease q l) ∧
    ∃ e ∈ (s.session q).ending, ∃ credit limit, e.sequel = .reopen credit limit)

/-- The one marking change of a command writes only what the command is named for. -/
theorem lasts_of_marks (hm : s.Marks c u v) : u.Lasts c (s.Opens c) v := by
  cases hm with
  | grant _ p l m lease =>
    refine lasts_of_lockWork (lockWork_grantTo u p l m lease) (fun k => ?_) rfl
    rw [lock_grantTo]
    split
    · next hlk => subst hlk; rfl
    · rfl
  | wait _ p l m lease limit =>
    refine lasts_of_lockWork (lockWork_enqueue u p l m lease limit) (fun k => ?_) rfl
    rw [lock_enqueue]
    split
    · next hlk => subst hlk; rfl
    · rfl
  | raise _ p l h =>
    refine lasts_of_lockWork (lockWork_raiseHolding u p l h) (fun k => ?_) rfl
    rw [lock_raiseHolding]
    split
    · next hlk => subst hlk; rfl
    · rfl
  | lockConfig _ p l x =>
    exact ⟨fun _ => ⟨rfl, rfl⟩, fun _ => ⟨fun _ => rfl, fun _ => rfl, fun h => absurd rfl (h p), fun _ _ => rfl,
      fun _ => rfl, fun _ => .inl rfl⟩⟩
  | portConfig _ p q x =>
    refine ⟨fun _ => ⟨rfl, rfl⟩, fun _ => ⟨fun _ => rfl, fun _ => rfl, fun _ _ => rfl, fun h => absurd rfl (h p),
      fun _ => rfl, fun k => .inl ?_⟩⟩
    rw [session_setSession]
    split
    · next hqk => subst hqk; rfl
    · rfl
  | traceSetup _ p x =>
    exact ⟨fun _ => ⟨rfl, rfl⟩, fun _ => ⟨fun _ => rfl, fun _ => rfl, fun _ _ => rfl, fun _ _ => rfl,
      fun h => absurd rfl (h p), fun _ => .inl rfl⟩⟩
  | openSession _ p x n => exact lasts_reopened u x n (.inl rfl)
  | endWithdrawal _ p l e x n he hq =>
    exact lasts_reopened u x n (.inr ⟨⟨l, .inl rfl⟩, e, he, x, n, hq⟩)
  | endRelease _ p l e x n he hq =>
    exact lasts_reopened u x n (.inr ⟨⟨l, .inr rfl⟩, e, he, x, n, hq⟩)
  | advance =>
    exact ⟨fun _ => ⟨rfl, rfl⟩, fun _ => ⟨fun h => absurd rfl h, fun _ => rfl, fun _ _ => rfl, fun _ _ => rfl,
      fun _ => rfl, fun _ => .inl rfl⟩⟩
  | restart _ p =>
    have hsetup (x : TraceUnit) (r : Report) : (x.hearRestart r).setup = x.setup := by
      unfold TraceUnit.hearRestart
      split <;> simp [TraceUnit.stop]
    refine ⟨fun _ => ⟨rfl, rfl⟩, fun _ => ⟨fun _ => rfl, fun h => absurd rfl (h p), fun _ k => ?_, fun _ q => ?_,
      fun _ => hsetup _ _, fun q => .inl ?_⟩⟩ <;>
      simp [State.beginRestart, State.clearForRestart, State.lock, State.session, LockEntry.restarted,
        Session.restarted]
  | restarted => exact lasts_of_steady ⟨rfl, fun _ => rfl, fun _ => rfl, fun _ => rfl, rfl⟩ _
  | pinReset => exact ⟨fun _ => ⟨rfl, rfl⟩, fun h => absurd rfl h⟩
  | released b x =>
    exact ⟨fun h => absurd rfl (h b x), fun _ => ⟨fun _ => rfl, fun _ => rfl, fun _ _ => rfl, fun _ _ => rfl,
      fun _ => rfl, fun _ => .inl rfl⟩⟩

/-- Settles O60: steady work writes nothing that outlives sessions, and a marking change what its command is named
for. -/
theorem onlyNamedCommandsWriteWhatLasts : Obligations.OnlyNamedCommandsWriteWhatLasts := by
  intro c s t h
  have hlasts : s.Lasts c (s.Opens c) t := by
    rcases via_exec sameConfigRule h with hs | ⟨u, v, hs, hm, ht⟩
    · exact lasts_of_steady hs _
    · exact lasts_around hs (lasts_of_marks hm) ht
  exact hlasts

/-! ### Grant numbers -/

/-- Entry `f` is `e` with `n` more grant numbers issued: every holding is an old one or carries one of them. -/
def LockEntry.Issued (e f : LockEntry) (n : Nat) : Prop :=
  f.last = nextGrant^[n] e.last ∧ ∀ p : Port, ∀ h ∈ f.holding p,
    (∃ k ∈ e.holding p, k.grant = h.grant) ∨ ∃ i, 1 ≤ i ∧ i ≤ n ∧ h.grant = nextGrant^[i] e.last

/-- Entry `f` has issued grant numbers to waiters of `e` alone: no more than have left the queue. -/
def LockEntry.Onward (e f : LockEntry) : Prop := ∃ n, n + f.queue.length ≤ e.queue.length ∧ e.Issued f n

section
variable {e f g : LockEntry} {n m : Nat}

theorem LockEntry.Issued.trans (h : e.Issued f n) (k : f.Issued g m) : e.Issued g (n + m) := by
  have hround (i : Nat) : nextGrant^[i] f.last = nextGrant^[n + i] e.last := by
    rw [h.1, Nat.add_comm n i, Function.iterate_add_apply]
  refine ⟨by rw [k.1, hround], fun p x hx => ?_⟩
  obtain ⟨y, hy, hyx⟩ | ⟨i, hi, him, hxi⟩ := k.2 p x hx
  · obtain ⟨z, hz, hzy⟩ | ⟨i, hi, hin, hyi⟩ := h.2 p y hy
    · exact .inl ⟨z, hz, hzy.trans hyx⟩
    · exact .inr ⟨i, hi, by omega, by rw [← hyx, hyi]⟩
  · exact .inr ⟨n + i, by omega, by omega, by rw [hxi, hround]⟩

theorem issued_of_old (hlast : f.last = e.last) (hold : ∀ p, ∀ h ∈ f.holding p, h ∈ e.holding p) :
    e.Issued f 0 :=
  ⟨hlast, fun p h hh => .inl ⟨h, hold p h hh, rfl⟩⟩

/-- A holding of the next number put in place. -/
theorem issued_of_hold (p : Port) (h : Holding) (hg : h.grant = nextGrant e.last)
    (hlast : f.last = nextGrant e.last)
    (hf : ∀ q : Port, f.holding q = if p = q then some h else e.holding q) : e.Issued f 1 := by
  refine ⟨hlast, fun q x hx => ?_⟩
  rw [hf] at hx
  split at hx
  · obtain rfl : h = x := Option.some.inj hx
    exact .inr ⟨1, le_refl 1, le_refl 1, hg⟩
  · exact .inl ⟨x, hx, rfl⟩

theorem onward_of_old (hlast : f.last = e.last) (hold : ∀ p, ∀ h ∈ f.holding p, h ∈ e.holding p)
    (hqueue : f.queue.length ≤ e.queue.length) : e.Onward f :=
  ⟨0, by rwa [Nat.zero_add], issued_of_old hlast hold⟩

end

theorem onwardRule : LockRule LockEntry.Onward where
  refl _ := onward_of_old rfl (fun _ _ h => h) (le_refl _)
  trans := by
    rintro e f g ⟨n, hn, hef⟩ ⟨m, hm, hfg⟩
    exact ⟨n + m, by omega, hef.trans hfg⟩
  unhold e p := by
    refine onward_of_old rfl (fun q h hh => ?_) (le_refl _)
    rw [holding_unhold] at hh
    split at hh
    · cases hh
    · exact hh
  leave e p := onward_of_old rfl (fun _ _ h => h) (List.length_filter_le _ _)
  rehold e p h k hh hk := by
    refine ⟨0, by rw [Nat.zero_add]; exact le_refl _, rfl, fun q x hx => .inl ?_⟩
    rw [holding_hold] at hx
    split at hx
    · next hpq =>
      obtain rfl : k = x := Option.some.inj hx
      exact ⟨h, hpq ▸ hh, hk.symm⟩
    · exact ⟨x, hx, rfl⟩
  grantHead e now w rest hq :=
    ⟨1, by simp [hq, Nat.add_comm], issued_of_hold w.port _ rfl rfl (fun q => holding_grant e.popHead now _ _ _ q)⟩

/-- Six ports, so a queue of six at most (R10). -/
theorem length_queue_le_six {e : LockEntry} (h : e.PortOnce) : e.queue.length ≤ 6 := by
  have hcard := h.1.length_le_card
  rwa [List.length_map, Fintype.card_fin] at hcard

theorem length_queue_le_five {e : LockEntry} (h : e.PortOnce) (hp : e.waits p = false) : e.queue.length ≤ 5 := by
  have hnew : (p :: e.queue.map Waiter.port).Nodup := by
    rw [List.nodup_cons]
    refine ⟨fun hmem => ?_, h.1⟩
    obtain ⟨w, hw, hwp⟩ := List.mem_map.mp hmem
    exact (waits_eq_false_iff e p).mp hp w hw hwp
  have hcard := hnew.length_le_card
  rw [List.length_cons, List.length_map, Fintype.card_fin] at hcard
  omega

/-- Nobody waits where an acquisition is granted at once (R7, R34). -/
theorem queue_eq_nil_of_grantable {e : LockEntry} {m : Mode} (h : e.Sound l) (hg : e.grantable m = true) :
    e.queue = [] := by
  obtain ⟨-, hhead, -⟩ := h
  unfold LockEntry.grantable at hg
  cases hm : e.mode with
  | none =>
    cases hq : e.queue with
    | nil => rfl
    | cons w rest => simp [LockEntry.HeadConflicts, hq, hm] at hhead
  | some x => cases x <;> simp_all

/-- Work that issues at most one number around an empty queue. -/
theorem issued_of_empty {e f g k : LockEntry} {n : Nat} (hef : e.Onward f) (hfg : f.Issued g n)
    (hq : g.queue.length = f.queue.length) (hgk : g.Onward k) (he : e.queue = []) :
    ∃ m ≤ n, e.Issued k m := by
  obtain ⟨i, hi, hi'⟩ := hef
  obtain ⟨j, hj, hj'⟩ := hgk
  rw [he, List.length_nil] at hi
  exact ⟨i + n + j, by omega, (hi'.trans hfg).trans hj'⟩

/-- Work that issues numbers to waiters alone, of a lock whose laws hold. -/
theorem issued_of_onward {e f : LockEntry} (he : e.Sound l) (h : e.Onward f) : ∃ n ≤ 6, e.Issued f n := by
  obtain ⟨n, hn, hi⟩ := h
  have hlen := length_queue_le_six he.fit.once
  exact ⟨n, by omega, hi⟩

/-- Whatever a command but a pin reset does to a lock issues at most six numbers. -/
theorem issued_of_marks (hsound : (s.lock l).Sound l) (hs : s.Steady LockEntry.Onward u) (hm : s.Marks c u v)
    (hc : c ≠ .pinReset) (ht : v.Steady LockEntry.Onward t) : ∃ n ≤ 6, (s.lock l).Issued (t.lock l) n := by
  have around (h : (u.lock l).Onward (v.lock l)) : ∃ n ≤ 6, (s.lock l).Issued (t.lock l) n :=
    issued_of_onward hsound (onwardRule.trans (hs.locks l) (onwardRule.trans h (ht.locks l)))
  have untouched (h : v.lock l = u.lock l) : ∃ n ≤ 6, (s.lock l).Issued (t.lock l) n :=
    around (by rw [h]; exact onwardRule.refl _)
  have htl := ht.locks l
  cases hm with
  | grant _ p k m lease hlock hgrant =>
    rw [lock_grantTo] at htl
    by_cases hk : k = l
    · subst hk
      rw [if_pos rfl] at htl
      obtain ⟨n, hn, hi⟩ := issued_of_empty (hs.locks k)
        (issued_of_hold p _ rfl rfl fun q => holding_grant _ u.clock p m lease q) rfl htl
        (queue_eq_nil_of_grantable hsound hgrant)
      exact ⟨n, by omega, hi⟩
    · exact untouched (by rw [lock_grantTo, if_neg hk])
  | wait _ p k m lease limit hlock hwaits =>
    rw [lock_enqueue] at htl
    by_cases hk : k = l
    · subst hk
      rw [if_pos rfl, hlock] at htl
      obtain ⟨n, hn, hi⟩ := htl
      have hlen := length_queue_le_five hsound.fit.once hwaits
      rw [queue_join, List.length_append, List.length_singleton] at hn
      have hjoin : (s.lock k).Issued ((s.lock k).join (newWaiter u.clock p k m lease limit)) 0 :=
        issued_of_old rfl fun _ _ h => h
      exact ⟨0 + n, by omega, hjoin.trans hi⟩
    · exact untouched (by rw [lock_enqueue, if_neg hk])
  | raise _ p k h hlock hraise =>
    rw [lock_raiseHolding] at htl
    by_cases hk : k = l
    · subst hk
      rw [if_pos rfl] at htl
      have hempty : (s.lock k).queue = [] := by
        simp only [LockEntry.upgradable, Bool.and_eq_true, List.isEmpty_iff] at hraise
        exact hraise.2
      obtain ⟨n, hn, hi⟩ := issued_of_empty (hs.locks k)
        (issued_of_hold p { h with mode := .exclusive, grant := nextGrant (u.lock k).last } rfl rfl
          fun q => holding_hold (u.lock k).issue p _ q) rfl htl hempty
      exact ⟨n, by omega, hi⟩
    · exact untouched (by rw [lock_raiseHolding, if_neg hk])
  | lockConfig _ p k x =>
    refine around ?_
    rw [lock_setLock]
    split
    · next hk => subst hk; exact onward_of_old rfl (fun _ _ h => h) (le_refl _)
    · exact onwardRule.refl _
  | restart _ p =>
    have hl : (u.beginRestart p).lock l = (u.lock l).restarted := by
      simp [State.beginRestart, State.clearForRestart, State.lock]
    refine around ?_
    rw [hl]
    refine onward_of_old rfl (fun q h hh => ?_) (Nat.zero_le _)
    simp [LockEntry.restarted, LockEntry.holding] at hh
  | pinReset => exact absurd rfl hc
  | portConfig | traceSetup | openSession | endWithdrawal | endRelease | advance | restarted | released =>
    exact untouched rfl

/-- Settles O59: steady work issues numbers to waiters that leave the queue, and the marking change of an ACQUIRE
or an upgrade one number where nobody waits. -/
theorem grantNumbersMoveForward : Obligations.GrantNumbersMoveForward := by
  refine ⟨fun _ => rfl, fun c s t l hsound hc h => ?_⟩
  rcases via_exec onwardRule h with hs | ⟨u, v, hs, hm, ht⟩
  · exact issued_of_onward (hsound l) (hs.locks l)
  · exact issued_of_marks (hsound l) hs hm hc ht

end Sys2Proof.Machine
end

section
/-! PROOFS. Every step keeps where a port's session stands toward its locks (Chapter 6), what its waiting session
ends wait for, and the pin-reset state under RESET (9.7). -/

namespace Sys2Proof.Machine

variable {s t u : State} {p q : Port} {l : LockId} {e : SessionEnd} {ls : List LockId}

/-! ### Where a port's session stands toward its locks -/

theorem endSound_of_none (he : (s.session q).ending = none) : s.EndSound q ↔
    (s.isOpen q = false → ∀ l : LockId, (s.lock l).waits q = false) ∧
      ((s.session q).state = .closed → ∀ l : LockId, (s.lock l).holding q = none) := by
  unfold State.EndSound
  rw [he]

theorem endSound_of_withdrawing (he : (s.session q).ending = some e) (hw : e.work = .withdrawing ls) :
    s.EndSound q ↔ s.isOpen q = false ∧ ((s.session q).state = .closed → e.disposition = .release) ∧
      ∀ l : LockId, (s.lock l).waits q = true → l ∈ ls := by
  unfold State.EndSound
  rw [he]
  simp only [hw]

theorem endSound_of_releasing (he : (s.session q).ending = some e) (hw : e.work = .releasing ls) :
    s.EndSound q ↔ s.isOpen q = false ∧ ((s.session q).state = .closed → e.disposition = .release) ∧
      e.disposition = .release ∧ (∀ l : LockId, (s.lock l).waits q = false) ∧
        ∀ l : LockId, ((s.lock l).holding q).isSome = true → l ∈ ls := by
  unfold State.EndSound
  rw [he]
  simp only [hw]

theorem isOpen_eq_of_state (h : (t.session q).state = (s.session q).state) : t.isOpen q = s.isOpen q := by
  rw [State.isOpen, h, State.isOpen]

/-- An OPEN session with no end in progress is free to stand on any lock. -/
theorem endSound_of_open (he : (s.session q).ending = none) (ho : s.isOpen q = true) : s.EndSound q := by
  refine (endSound_of_none he).mpr ⟨fun h => by simp [ho] at h, fun h => ?_⟩
  simp [State.isOpen, h] at ho

/-- An OPEN session has no end in progress. -/
theorem ending_of_open (h : s.EndSound q) (ho : s.isOpen q = true) : (s.session q).ending = none := by
  cases he : (s.session q).ending with
  | none => rfl
  | some e =>
    unfold State.EndSound at h
    simp only [he, ho] at h
    exact absurd h.1 (by simp)

/-- A port that stands on fewer locks keeps its place. -/
theorem endSound_of_fewer (h : s.EndSound q) (hstate : (t.session q).state = (s.session q).state)
    (hend : (t.session q).ending = (s.session q).ending)
    (hwaits : ∀ l : LockId, (t.lock l).waits q = true → (s.lock l).waits q = true)
    (hholds : ∀ l : LockId, ((t.lock l).holding q).isSome = true → ((s.lock l).holding q).isSome = true) :
    t.EndSound q := by
  have hopen := isOpen_eq_of_state hstate
  have nowait (hno : ∀ l : LockId, (s.lock l).waits q = false) (l : LockId) : (t.lock l).waits q = false :=
    Bool.eq_false_iff.mpr fun hw => absurd (hwaits l hw) (by simp [hno l])
  cases he : (s.session q).ending with
  | none =>
    obtain ⟨h1, h2⟩ := (endSound_of_none he).mp h
    refine (endSound_of_none (hend.trans he)).mpr ⟨fun ho => nowait (h1 (hopen ▸ ho)), fun hc l => ?_⟩
    rw [← Option.not_isSome_iff_eq_none]
    exact fun hs => absurd (hholds l hs) (by simp [h2 (hstate ▸ hc) l])
  | some e =>
    cases hw : e.work with
    | withdrawing ls =>
      obtain ⟨h1, h2, h3⟩ := (endSound_of_withdrawing he hw).mp h
      exact (endSound_of_withdrawing (hend.trans he) hw).mpr
        ⟨hopen.trans h1, fun hc => h2 (hstate ▸ hc), fun l hl => h3 l (hwaits l hl)⟩
    | releasing ls =>
      obtain ⟨h1, h2, h3, h4, h5⟩ := (endSound_of_releasing he hw).mp h
      exact (endSound_of_releasing (hend.trans he) hw).mpr
        ⟨hopen.trans h1, fun hc => h2 (hstate ▸ hc), h3, nowait h4, fun l hl => h5 l (hholds l hl)⟩

/-- A port that waits somewhere may come to hold any lock: its session is OPEN, or the withdrawals of its end are
still to come. -/
theorem endSound_of_waiting (h : s.EndSound q) {k : LockId} (hk : (s.lock k).waits q = true)
    (hstate : (t.session q).state = (s.session q).state) (hend : (t.session q).ending = (s.session q).ending)
    (hwaits : ∀ l : LockId, (t.lock l).waits q = true → (s.lock l).waits q = true) : t.EndSound q := by
  have hopen := isOpen_eq_of_state hstate
  cases he : (s.session q).ending with
  | none =>
    obtain ⟨h1, -⟩ := (endSound_of_none he).mp h
    refine endSound_of_open (hend.trans he) (hopen.trans ?_)
    cases ho : s.isOpen q with
    | true => rfl
    | false => simp [h1 ho k] at hk
  | some e =>
    cases hw : e.work with
    | withdrawing ls =>
      obtain ⟨h1, h2, h3⟩ := (endSound_of_withdrawing he hw).mp h
      exact (endSound_of_withdrawing (hend.trans he) hw).mpr
        ⟨hopen.trans h1, fun hc => h2 (hstate ▸ hc), fun l hl => h3 l (hwaits l hl)⟩
    | releasing ls =>
      obtain ⟨-, -, -, h4, -⟩ := (endSound_of_releasing he hw).mp h
      simp [h4 k] at hk

/-- Changes to anything but the sessions' states and ends, and the locks. -/
theorem endsSound_congr (h : s.EndsSound) (hstate : ∀ q, (t.session q).state = (s.session q).state)
    (hend : ∀ q, (t.session q).ending = (s.session q).ending) (hlock : ∀ l : LockId, t.lock l = s.lock l) :
    t.EndsSound := fun q =>
  endSound_of_fewer (h q) (hstate q) (hend q) (fun l => by rw [hlock]; exact id) fun l => by rw [hlock]; exact id

theorem endsSound_of_lockWork (h : s.EndsSound) (hw : s.LockWork t) (hlock : ∀ l : LockId, t.lock l = s.lock l) :
    t.EndsSound :=
  endsSound_congr h (fun q => by rw [hw.sessions q]) (fun q => by rw [hw.sessions q]) hlock

theorem endsSound_setSession {x : Session} (h : s.EndsSound) (hstate : x.state = (s.session p).state)
    (hend : x.ending = (s.session p).ending) : (s.setSession p x).EndsSound := by
  refine endsSound_congr h (fun q => ?_) (fun q => ?_) fun _ => rfl <;> rw [session_setSession] <;> split
  · next hpq => rw [hstate, hpq]
  · rfl
  · next hpq => rw [hend, hpq]
  · rfl

/-- A new entry for port `p`: the other ports' places are as they were. -/
theorem endsSound_setSession_of {x : Session} (h : s.EndsSound) (hx : (s.setSession p x).EndSound p) :
    (s.setSession p x).EndsSound := by
  intro q
  by_cases hq : p = q
  · exact hq ▸ hx
  · have hsession : (s.setSession p x).session q = s.session q := by rw [session_setSession, if_neg hq]
    exact endSound_of_fewer (h q) (by rw [hsession]) (by rw [hsession]) (fun _ => id) fun _ => id

/-- Work of the lock engine after which the ports stand on fewer locks. -/
theorem endsSound_of_fewer (h : s.EndsSound) (hw : s.LockWork t)
    (hwaits : ∀ q (l : LockId), (t.lock l).waits q = true → (s.lock l).waits q = true)
    (hholds : ∀ q (l : LockId), ((t.lock l).holding q).isSome = true → ((s.lock l).holding q).isSome = true) :
    t.EndsSound := fun q =>
  endSound_of_fewer (h q) (by rw [hw.sessions q]) (by rw [hw.sessions q]) (hwaits q) (hholds q)

theorem endsSound_endHolding (h : s.EndsSound) (p : Port) (l : LockId) (x : Holding) :
    (s.endHolding p l x).EndsSound := by
  refine endsSound_of_fewer h (lockWork_endHolding s p l x) (fun q k hk => ?_) fun q k hk => ?_ <;>
    rw [lock_endHolding] at hk <;> split at hk
  · next hlk => subst hlk; exact hk
  · exact hk
  · next hlk =>
    subst hlk
    rw [holding_unhold] at hk
    split at hk
    · cases hk
    · exact hk
  · exact hk

theorem waits_of_leave {e : LockEntry} (h : (e.leave p).waits q = true) : e.waits q = true := by
  rw [waits_leave, Bool.and_eq_true] at h
  exact h.1

theorem endsSound_leaveQueue (h : s.EndsSound) (p : Port) (l : LockId) : (s.leaveQueue p l).EndsSound := by
  refine endsSound_of_fewer h (lockWork_leaveQueue s p l) (fun q k hk => ?_) fun q k hk => ?_ <;>
    rw [lock_leaveQueue] at hk <;> split at hk
  · next hlk => subst hlk; exact waits_of_leave hk
  · exact hk
  · next hlk => subst hlk; exact hk
  · exact hk

theorem endsSound_alterHolding (h : s.EndsSound) {x : Holding} (hx : (s.lock l).holding p = some x) (y : Holding) :
    (s.alterHolding p l y).EndsSound := by
  refine endsSound_of_fewer h (lockWork_alterHolding s p l y) (fun q k hk => ?_) fun q k hk => ?_ <;>
    rw [lock_alterHolding] at hk <;> split at hk
  · next hlk => subst hlk; exact hk
  · exact hk
  · next hlk =>
    subst hlk
    rw [holding_hold] at hk
    split at hk
    · next hpq => subst hpq; simp [hx]
    · exact hk
  · exact hk

theorem waits_of_popHead {e : LockEntry} (h : e.popHead.waits q = true) : e.waits q = true := by
  rw [waits_iff] at h ⊢
  obtain ⟨w, hw, hwq⟩ := h
  exact ⟨w, List.mem_of_mem_tail hw, hwq⟩

/-- A hand-off grants only to a port that waits. -/
theorem endsSound_grantHead (h : s.EndsSound) {w : Waiter} {rest : List Waiter}
    (hq : (s.lock l).queue = w :: rest) : (s.grantHead l w).EndsSound := by
  have hw := lockWork_grantHead s l w
  have hwaits (q : Port) (k : LockId) (hk : ((s.grantHead l w).lock k).waits q = true) :
      (s.lock k).waits q = true := by
    rw [lock_grantHead] at hk
    split at hk
    · next hlk => subst hlk; exact waits_of_popHead hk
    · exact hk
  intro q
  by_cases hwq : w.port = q
  · have hwait : (s.lock l).waits q = true := (waits_iff _ q).mpr ⟨w, by simp [hq], hwq⟩
    exact endSound_of_waiting (h q) hwait (by rw [hw.sessions q]) (by rw [hw.sessions q]) (hwaits q)
  · refine endSound_of_fewer (h q) (by rw [hw.sessions q]) (by rw [hw.sessions q]) (hwaits q) fun k hk => ?_
    rw [lock_grantHead] at hk
    split at hk
    · next hlk =>
      subst hlk
      rwa [holding_grant, if_neg hwq] at hk
    · exact hk

theorem endsSound_handOff (h : s.EndsSound) (l : LockId) : (s.handOff l).EndsSound :=
  handOff_induct s (P := State.EndsSound) (fun _ _ _ hq _ ht => endsSound_grantHead ht hq) h

/-- Work on the locks of a port whose session is OPEN. -/
theorem endsSound_of_open (h : s.EndsSound) (ho : s.isOpen p = true) (hw : s.LockWork t)
    (hwaits : ∀ q (l : LockId), q ≠ p → (t.lock l).waits q = true → (s.lock l).waits q = true)
    (hholds : ∀ q (l : LockId), q ≠ p → ((t.lock l).holding q).isSome = true →
      ((s.lock l).holding q).isSome = true) : t.EndsSound := by
  intro q
  by_cases hq : q = p
  · subst hq
    refine endSound_of_open ?_ ((hw.isOpen q).trans ho)
    rw [hw.sessions q]
    exact ending_of_open (h q) ho
  · exact endSound_of_fewer (h q) (by rw [hw.sessions q]) (by rw [hw.sessions q]) (fun l => hwaits q l hq)
      fun l => hholds q l hq

theorem endsSound_grantTo (h : s.EndsSound) (ho : s.isOpen p = true) (l : LockId) (m : Mode) (lease : Half) :
    (s.grantTo p l m lease).EndsSound := by
  refine endsSound_of_open h ho (lockWork_grantTo s p l m lease) (fun q k hq hk => ?_) fun q k hq hk => ?_ <;>
    rw [lock_grantTo] at hk <;> split at hk
  · next hlk => subst hlk; exact hk
  · exact hk
  · next hlk =>
    subst hlk
    rwa [holding_grant, if_neg (Ne.symm hq)] at hk
  · exact hk

theorem endsSound_enqueue (h : s.EndsSound) (ho : s.isOpen p = true) (l : LockId) (m : Mode) (lease limit : Half) :
    (s.enqueue p l m lease limit).EndsSound := by
  refine endsSound_of_open h ho (lockWork_enqueue s p l m lease limit) (fun q k hq hk => ?_) fun q k hq hk => ?_ <;>
    rw [lock_enqueue] at hk <;> split at hk
  · next hlk =>
    subst hlk
    rw [waits_join] at hk
    simpa [newWaiter, Ne.symm hq] using hk
  · exact hk
  · next hlk => subst hlk; exact hk
  · exact hk

theorem endsSound_raiseHolding (h : s.EndsSound) {x : Holding} (hx : (s.lock l).holding p = some x) :
    (s.raiseHolding p l x).EndsSound := by
  refine endsSound_of_fewer h (lockWork_raiseHolding s p l x) (fun q k hk => ?_) fun q k hk => ?_ <;>
    rw [lock_raiseHolding] at hk <;> split at hk
  · next hlk => subst hlk; exact hk
  · exact hk
  · next hlk =>
    subst hlk
    rw [holding_hold] at hk
    split at hk
    · next hpq => subst hpq; simp [hx]
    · exact hk
  · exact hk

theorem endsSound_setConfig (h : s.EndsSound) (l : LockId) (c : LockConfig) :
    (s.setLock l { s.lock l with config := c }).EndsSound := by
  refine endsSound_of_fewer h (lockWork_setLock s l _) (fun q k hk => ?_) fun q k hk => ?_ <;>
    rw [lock_setLock] at hk <;> split at hk
  · next hlk => subst hlk; exact hk
  · exact hk
  · next hlk => subst hlk; exact hk
  · exact hk

/-! ### A session end's own work -/

theorem endsSound_beginEnd (h : s.EndsSound) (p : Port) (c : EndCause) (d : Disposition) (q : EndSequel)
    (hc : c = .closed → d = .release) : State.EndsSound ((s.closeOut p c).setEnding p (some
      { disposition := d, work := .withdrawing ((s.closeOut p c).waitedLocks p), sequel := q })) := by
  obtain ⟨hfixed, hown, -, hothers, -⟩ := sessionEnded_closeOut s p c (some
    { disposition := d, work := .withdrawing ((s.closeOut p c).waitedLocks p), sequel := q })
  generalize hwork : (s.closeOut p c).waitedLocks p = ls at hfixed hown hothers ⊢
  generalize ht : (s.closeOut p c).setEnding p (some
    { disposition := d, work := .withdrawing ls, sequel := q }) = t at hfixed hown hothers ⊢
  have hlock (l : LockId) : t.lock l = s.lock l := by rw [hfixed]; rfl
  have hclosed (l : LockId) : (s.closeOut p c).lock l = s.lock l := (sameTables_closeOut s p c).locks l
  intro k
  by_cases hk : k = p
  · subst hk
    refine (endSound_of_withdrawing (by rw [hown]; rfl) rfl).mpr ⟨?_, fun hstate => hc ?_, fun l hl => ?_⟩
    · rw [State.isOpen, hown]
      cases c <;> rfl
    · rw [hown] at hstate
      cases c with
      | closed => rfl
      | silence | dropped | superseded => exact absurd hstate (by simp [Session.ended, EndCause.state])
    · rw [← hwork, State.waitedLocks, List.mem_filter, hclosed]
      exact ⟨mem_allLocks l, by rw [← hlock]; exact hl⟩
  · refine endSound_of_fewer (h k) (by rw [hothers k hk]) (by rw [hothers k hk]) (fun l => ?_) fun l => ?_ <;>
      rw [hlock] <;> exact id

/-- Once a port's wait has left the queue no hand-off brings it back. -/
theorem waits_handOff_of_not (h : (s.lock l).waits p = false) : ((s.handOff l).lock l).waits p = false :=
  handOff_induct s (l := l) (P := fun t => (t.lock l).waits p = false) (fun t w rest _ _ ht => by
    rw [lock_grantHead, if_pos rfl, waits_grant]
    exact Bool.eq_false_iff.mpr fun hw => by simp [waits_of_popHead hw] at ht) h

theorem waits_withdrawWait (s : State) (p : Port) (l : LockId) (d : Byte) :
    ((s.withdrawWait p l d).lock l).waits p = false := by
  have hleft : (((s.leaveQueue p l).report { cls := .withdrawn, port := p, lock := some l, detail := d }).lock
      l).waits p = false := by
    rw [lock_report, lock_leaveQueue, if_pos rfl, waits_leave]
    simp
  unfold State.withdrawWait State.reexamine
  dsimp only
  split
  · exact waits_handOff_of_not hleft
  · exact hleft

/-- A port that does not wait is not granted: its holding once ended is gone. -/
theorem holding_releaseHolding (hw : (s.lock l).waits p = false) (h : Holding) (d : Byte) :
    ((s.releaseHolding p l h d).lock l).holding p = none := by
  refine (handOff_induct (l := l) _ (P := fun t => (t.lock l).waits p = false ∧ (t.lock l).holding p = none)
    (fun t w rest hq _ ht => ?_) ⟨?_, ?_⟩).2
  · have hwp : w.port ≠ p := (waits_eq_false_iff _ p).mp ht.1 w (by simp [hq])
    rw [lock_grantHead, if_pos rfl, waits_grant, holding_grant, if_neg hwp]
    exact ⟨Bool.eq_false_iff.mpr fun hpw => by simp [waits_of_popHead hpw] at ht, ht.2⟩
  · rw [lock_report, lock_endHolding, if_pos rfl]
    exact hw
  · rw [lock_report, lock_endHolding, if_pos rfl, holding_unhold, if_pos rfl]

theorem session_setEnding (s : State) (p : Port) (x : Option SessionEnd) :
    (s.setEnding p x).session p = { s.session p with ending := x } := by
  rw [State.setEnding, session_setSession, if_pos rfl]

theorem isOpen_setEnding (s : State) (p : Port) (x : Option SessionEnd) (q : Port) :
    (s.setEnding p x).isOpen q = s.isOpen q := by
  rw [State.setEnding, State.isOpen, session_setSession, State.isOpen]
  split
  · next hpq => subst hpq; rfl
  · rfl

/-- The lock on which the withdrawal has been taken is done. -/
theorem endsSound_withdrawn (ht : t.EndsSound) (he : (s.session p).ending = some e)
    (hw : e.work = .withdrawing ls)
    (htw : t = if (s.lock l).waits p then s.withdrawWait p l bySessionEnd else s) :
    (t.setEnding p (some { e with work := .withdrawing (ls.filter fun k => k != l) })).EndsSound := by
  have hsession : (t.session p).ending = some e := by
    rw [htw]
    split
    · rw [(lockWork_withdrawWait s p l bySessionEnd).sessions p, he]
    · exact he
  have hgone : (t.lock l).waits p = false := by
    rw [htw]
    split
    · exact waits_withdrawWait s p l _
    · next hno => exact Bool.eq_false_iff.mpr hno
  obtain ⟨h1, h2, h3⟩ := (endSound_of_withdrawing hsession hw).mp (ht p)
  refine endsSound_setSession_of ht ((endSound_of_withdrawing
    (e := { e with work := .withdrawing (ls.filter fun k => k != l) }) (by rw [session_setSession_self]) rfl).mpr
    ⟨(isOpen_setEnding t p _ p).trans h1, fun hc => h2 ?_, fun k hk => ?_⟩)
  · simpa [session_setSession] using hc
  · rw [List.mem_filter, bne_iff_ne]
    refine ⟨h3 k hk, fun hkl => ?_⟩
    subst hkl
    exact absurd (hgone.symm.trans hk) (by simp)

/-- The lock on which the release has been taken is done. -/
theorem endsSound_released (hs : s.EndsSound) (ht : t.EndsSound) (he : (s.session p).ending = some e)
    (hw : e.work = .releasing ls)
    (htw : t = match (s.lock l).holding p with
      | some h => s.releaseHolding p l h bySessionEnd
      | none => s) :
    (t.setEnding p (some { e with work := .releasing (ls.filter fun k => k != l) })).EndsSound := by
  obtain ⟨-, -, -, hnone, -⟩ := (endSound_of_releasing he hw).mp (hs p)
  have hsession : (t.session p).ending = some e := by
    rw [htw]
    split
    · next h _ => rw [(lockWork_releaseHolding s p l h bySessionEnd).sessions p, he]
    · exact he
  have hgone : (t.lock l).holding p = none := by
    rw [htw]
    split
    · exact holding_releaseHolding (hnone l) _ _
    · next hno => exact hno
  obtain ⟨h1, h2, h3, h4, h5⟩ := (endSound_of_releasing hsession hw).mp (ht p)
  refine endsSound_setSession_of ht ((endSound_of_releasing
    (e := { e with work := .releasing (ls.filter fun k => k != l) }) (by rw [session_setSession_self]) rfl).mpr
    ⟨(isOpen_setEnding t p _ p).trans h1, fun hc => h2 ?_, h3, h4, fun k hk => ?_⟩)
  · simpa [session_setSession] using hc
  · rw [List.mem_filter, bne_iff_ne]
    refine ⟨h5 k hk, fun hkl => ?_⟩
    subst hkl
    have hk' : ((t.lock k).holding p).isSome = true := hk
    simp [hgone] at hk'

/-- Withdrawals done, the releases are those of the holdings the port then has (R48, R111). -/
theorem endsSound_stage (h : (s.setEnding p (some e)).EndsSound) :
    (s.setEnding p (some (e.stage (s.heldLocks p)))).EndsSound := by
  have hagain (y : SessionEnd) : s.setEnding p (some y) = (s.setEnding p (some e)).setEnding p (some y) := by
    simp [State.setEnding]
  have hend : ((s.setEnding p (some e)).session p).ending = some e := by rw [session_setEnding]
  unfold SessionEnd.stage
  split
  · next hwork hrelease =>
    obtain ⟨h1, h2, h3⟩ := (endSound_of_withdrawing hend hwork).mp (h p)
    rw [hagain]
    refine endsSound_setSession_of h ((endSound_of_releasing
      (e := { e with work := .releasing (s.heldLocks p) }) (by rw [session_setSession_self]) rfl).mpr
      ⟨(isOpen_setEnding _ p _ p).trans h1, fun _ => hrelease, hrelease, fun k => ?_, fun k hk => ?_⟩)
    · exact Bool.eq_false_iff.mpr fun hk => by simpa using h3 k hk
    · rw [State.heldLocks, List.mem_filter]
      exact ⟨mem_allLocks k, hk⟩
  · exact h

/-- Its work done, an end leaves the port without waits, and without holdings unless they are kept (R110 to R112). -/
theorem endSound_of_done (h : s.EndSound p) (he : (s.session p).ending = some e) (hd : e.done = true) :
    (∀ k : LockId, (s.lock k).waits p = false) ∧
      ((s.session p).state = .closed → ∀ k : LockId, (s.lock k).holding p = none) := by
  unfold SessionEnd.done at hd
  split at hd
  · next hwork hretain =>
    obtain ⟨-, h2, h3⟩ := (endSound_of_withdrawing he hwork).mp h
    refine ⟨fun k => Bool.eq_false_iff.mpr fun hk => by simpa using h3 k hk, fun hc => ?_⟩
    exact absurd (hretain.symm.trans (h2 hc)) (by simp)
  · next hwork =>
    obtain ⟨-, -, -, h4, h5⟩ := (endSound_of_releasing he hwork).mp h
    refine ⟨h4, fun _ k => Option.not_isSome_iff_eq_none.mp fun hk => by simpa using h5 k hk⟩
  · cases hd

theorem endsSound_endDone (h : (s.setEnding p (some e)).EndsSound) (hd : e.done = true) :
    (s.setEnding p none).EndsSound := by
  have hagain : s.setEnding p none = (s.setEnding p (some e)).setEnding p none := by simp [State.setEnding]
  obtain ⟨hwaits, hholds⟩ := endSound_of_done (h p) (by rw [session_setEnding]) hd
  rw [hagain]
  refine endsSound_setSession_of h ((endSound_of_none (by rw [session_setSession, if_pos rfl])).mpr
    ⟨fun _ => hwaits, fun hc => hholds ?_⟩)
  simpa [session_setSession] using hc

theorem endsSound_reopened (h : s.EndsSound) (he : (s.session p).ending = none) (c : Byte) (n : Half) :
    (s.setSession p ((s.session p).reopened s.clock c n)).EndsSound :=
  endsSound_setSession_of h (endSound_of_open (by rw [session_setSession, if_pos rfl]; exact he)
    (by rw [State.isOpen, session_setSession, if_pos rfl]; rfl))

theorem endsSound_of_unused (h : t.Unused) (he : ∀ q, (t.session q).ending = none) : t.EndsSound := fun q =>
  (endSound_of_none (he q)).mpr ⟨fun _ l => by rw [waits_eq_false_iff, h.queue]; simp, fun _ l => h.holding l q⟩

theorem endsLaw : StepLaw State.EndsSound (fun _ => State.EndsSound) where
  enter _ _ h := h
  midReport s _ r h := endsSound_of_lockWork h (lockWork_report s r) fun l => lock_report s r l
  midChange s _ p c h := endsSound_of_lockWork h (lockWork_recordChange s p _ c) fun _ => lock_recordChange s p _ c _
  endHolding _ p l x h _ := endsSound_endHolding h p l x
  leaveQueue _ p l h _ := endsSound_leaveQueue h p l
  lower _ _ _ _ h hx _ := endsSound_alterHolding h hx _
  handOff _ l h := endsSound_handOff h l
  leaveBehind _ p l h _ _ := endsSound_leaveQueue h p l
  report s r h := endsSound_of_lockWork h (lockWork_report s r) fun l => lock_report s r l
  change s p l c h := endsSound_of_lockWork h (lockWork_recordChange s p l c) fun _ => lock_recordChange s p l c _
  clear s p l h := endsSound_of_lockWork h (lockWork_clearChange s p l) fun _ => rfl
  grantTo _ _ l m lease h ho _ _ _ _ _ := endsSound_grantTo h ho l m lease
  enqueue _ _ l m lease limit h ho _ _ _ _ _ _ _ := endsSound_enqueue h ho l m lease limit
  renew _ _ _ _ _ h hx := endsSound_alterHolding h hx _
  raise _ _ _ _ h hx _ := endsSound_raiseHolding h hx
  lockConfig _ l c h _ := endsSound_setConfig h l c
  portConfig _ _ _ h _ := endsSound_setSession h rfl rfl
  credit _ _ _ h _ _ := endsSound_setSession h rfl rfl
  clearFault s p h := endsSound_of_lockWork (endsSound_congr (t := s.setLink p { s.link p with fault := {} }) h
    (fun _ => rfl) (fun _ => rfl) fun _ => rfl) (lockWork_unnotify _ p _) fun _ => rfl
  beginEnd _ p c d q h hc _ := endsSound_beginEnd h p c d q hc
  withdrawn _ _ _ _ _ _ _ ht he hw _ htw := endsSound_withdrawn ht he hw htw
  released _ _ _ _ _ _ hs ht he hw _ htw := endsSound_released hs ht he hw htw
  stage _ _ _ h := endsSound_stage h
  endDone _ _ _ h hd := endsSound_endDone h hd
  undefer _ _ h := endsSound_setSession h rfl rfl
  deferSilence _ _ h _ := endsSound_setSession h rfl rfl
  deferDrop _ _ _ h _ _ := endsSound_setSession h rfl rfl
  opening _ _ _ h _ := endsSound_setSession h rfl rfl
  notifyFault s p h _ _ := endsSound_of_lockWork (endsSound_setSession h rfl rfl : (s.setOpening p none).EndsSound)
    (lockWork_notify _ p _) fun _ => rfl
  startOpen _ _ _ _ h he _ := endsSound_reopened h he _ _
  reopen _ _ _ c n h hd _ := endsSound_reopened (endsSound_endDone h hd) (by rw [session_setEnding]) c n
  handOn _ _ _ h _ := endsSound_congr h (fun _ => rfl) (fun _ => rfl) fun _ => rfl
  answer _ _ _ _ h _ := endsSound_congr h (fun _ => rfl) (fun _ => rfl) fun _ => rfl
  traceSetup s p x h _ := endsSound_of_lockWork (endsSound_congr
    (t := s.setTrace { setup := x, state := x.firstState }) h (fun _ => rfl) (fun _ => rfl) fun _ => rfl)
    (lockWork_unnotify _ p _) fun _ => rfl
  traceRead _ _ h := endsSound_congr h (fun _ => rfl) (fun _ => rfl) fun _ => rfl
  restart s p _ _ _ := endsSound_of_unused (unused_beginRestart s p) fun q => by
    simp [State.beginRestart, State.clearForRestart, State.session, Session.restarted]
  restarted _ h := endsSound_congr h (fun _ => rfl) (fun _ => rfl) fun _ => rfl
  advance s h := endsSound_congr h (fun _ => by unfold State.advanceClock; split <;> rfl)
    (fun _ => by unfold State.advanceClock; split <;> rfl) fun _ => by unfold State.advanceClock; split <;> rfl
  timer _ h := endsSound_congr h (fun _ => rfl) (fun _ => rfl) fun _ => rfl
  receiver _ _ _ h _ := endsSound_congr h (fun _ => rfl) (fun _ => rfl) fun _ => rfl
  fault s p c h _ := endsSound_congr h (fun q => by rw [sameButNotices_linkFault s p c q])
    (fun q => by rw [sameButNotices_linkFault s p c q]) fun _ => lock_linkFault s p c _
  silence _ _ h _ _ := endsSound_setSession h rfl rfl
  admitted _ _ _ h _ _ := endsSound_congr h (fun _ => rfl) (fun _ => rfl) fun _ => rfl
  breakLevel _ _ _ h _ := endsSound_congr h (fun _ => rfl) (fun _ => rfl) fun _ => rfl
  replyGone s p h := by
    unfold State.replyGone
    dsimp only
    split
    · exact endsSound_congr h (fun _ => rfl) (fun _ => rfl) fun _ => rfl
    · exact h
    · exact h
  noticeGone s p h := by
    unfold State.noticeGone
    dsimp only
    split
    · exact endsSound_congr h (fun _ => rfl) (fun _ => rfl) fun _ => rfl
    · exact h
    · exact h
  notice s p _ _ h _ _ := endsSound_congr (endsSound_setSession (p := p) (x := { s.session p with
    notices := (s.session p).notices.tail, credit := (s.session p).credit - 1,
    noticeNumber := (s.session p).noticeNumber + 1 }) h rfl rfl) (fun _ => rfl) (fun _ => rfl) fun _ => rfl
  standingNotice s p h := by
    unfold State.formStanding
    split
    · exact endsSound_congr (endsSound_setSession (p := p) (x := { s.session p with
        notices := (s.session p).notices.tail, credit := (s.session p).credit - 1,
        noticeNumber := (s.session p).noticeNumber + 1 }) h rfl rfl) (fun _ => rfl) (fun _ => rfl) fun _ => rfl
    · exact h
  pinReset s _ := endsSound_of_unused (unused_of_pinReset s) fun q => by simp [State.session, State.reset]

end Sys2Proof.Machine
end

section
/-! PROOFS. Session ends wait only for a reply still to come (6.4, 7.6); a part without an active line stands still
(9.7, 7.7). -/

namespace Sys2Proof.Machine

variable {s t u : State} {p q : Port} {l : LockId}

/-! ### What session ends wait for -/

/-- The session ends that wait for replies become no more, and none is left behind by its reply. -/
structure State.Eases (s t : State) : Prop where
  supervisor : t.supervisor = s.supervisor
  ports : ∀ q : Port, (t.session q).deferred = [] ∨ ((t.session q).deferred = (s.session q).deferred ∧
    ((t.link q).handedOn = none → (s.link q).handedOn = none))

/-- No DROP_SESSION waits at the supervisor's own port (R129). -/
def State.DropsElsewhere (s : State) : Prop :=
  ∀ q : Port, s.supervisor = some q → ∀ d ∈ (s.session q).deferred, d = .silence

/-- A session end waits only for a reply of its port that is still to come (R110). -/
def State.WaitsForReplies (s : State) : Prop :=
  ∀ q : Port, (s.link q).handedOn = none → (s.session q).deferred = []

namespace State.Eases

theorem refl (s : State) : s.Eases s := ⟨rfl, fun _ => .inr ⟨rfl, id⟩⟩

theorem trans (h : s.Eases t) (k : t.Eases u) : s.Eases u := by
  refine ⟨k.supervisor.trans h.supervisor, fun q => ?_⟩
  obtain hu | ⟨hu, hu'⟩ := k.ports q
  · exact .inl hu
  · obtain ht | ⟨ht, ht'⟩ := h.ports q
    · exact .inl (hu.trans ht)
    · exact .inr ⟨hu.trans ht, ht' ∘ hu'⟩

theorem dropsElsewhere (h : s.Eases t) (hs : s.DropsElsewhere) : t.DropsElsewhere := by
  intro q hq d hd
  obtain ht | ⟨ht, -⟩ := h.ports q
  · simp [ht] at hd
  · exact hs q (h.supervisor ▸ hq) d (ht ▸ hd)

theorem waitsForReplies (h : s.Eases t) (hs : s.WaitsForReplies) : t.WaitsForReplies := by
  intro q hq
  obtain ht | ⟨ht, hlink⟩ := h.ports q
  · exact ht
  · rw [ht]
    exact hs q (hlink hq)

theorem deferred_nil (h : s.Eases t) (hs : (s.session q).deferred = []) : (t.session q).deferred = [] := by
  obtain ht | ⟨ht, -⟩ := h.ports q
  · exact ht
  · exact ht.trans hs

end State.Eases

theorem eases_of_lockWork (h : s.LockWork t) : s.Eases t :=
  ⟨h.supervisor, fun q => .inr ⟨by rw [h.sessions q], by rw [h.link q]; exact id⟩⟩

theorem eases_setSession (s : State) {p : Port} {x : Session} (hx : x.deferred = (s.session p).deferred) :
    s.Eases (s.setSession p x) := by
  refine ⟨rfl, fun q => .inr ⟨?_, id⟩⟩
  rw [session_setSession]
  split
  · next hpq => rw [hx, hpq]
  · rfl

theorem eases_setLink (s : State) {p : Port} {x : LinkPort} (hx : x.handedOn = none → (s.link p).handedOn = none) :
    s.Eases (s.setLink p x) := by
  refine ⟨rfl, fun q => .inr ⟨rfl, ?_⟩⟩
  rw [link_setLink]
  split
  · next hpq => rw [← hpq]; exact hx
  · exact id

/-- The window alone says which request is handed on. -/
theorem handedOn_congr {x y : LinkPort} (h : y.window = x.window) : y.handedOn = x.handedOn := by
  rw [LinkPort.handedOn, h, LinkPort.handedOn]

/-- The first slot of a window that answers a reply is not that of the request handed on. -/
theorem handedOn_of_tail {x : LinkPort} {n : Nat} (h : WindowSound x.window (n + 1))
    (hy : x.window.tail.find? (fun c => c.cond == .handedOn) = none) : x.handedOn = none := by
  cases hw : x.window with
  | nil => rw [LinkPort.handedOn, hw]; rfl
  | cons c rest =>
    rw [hw] at h hy
    have hfirst := cond_first_answered h
    rw [LinkPort.handedOn, hw, List.find?_cons, hfirst, Option.map_eq_none_iff]
    exact hy

theorem eases_undefer (s : State) (p : Port) : s.Eases (s.setDeferred p []) := by
  refine ⟨rfl, fun q => ?_⟩
  rw [State.setDeferred, session_setSession]
  split
  · exact .inl rfl
  · exact .inr ⟨rfl, id⟩

theorem eases_report (s : State) (r : Report) : s.Eases (s.report r) := eases_of_lockWork (lockWork_report s r)

theorem eases_setTrace (s : State) (x : TraceUnit) : s.Eases (s.setTrace x) := ⟨rfl, fun _ => .inr ⟨rfl, id⟩⟩

/-- A reply at a port where nothing waits for it. -/
theorem eases_answer (h : (s.session p).deferred = []) (b : Body) : s.Eases (s.answer p b) := by
  refine ⟨rfl, fun q => ?_⟩
  by_cases hq : p = q
  · subst hq
    exact .inl h
  · rw [link_answer, if_neg hq]
    exact .inr ⟨rfl, id⟩

theorem eases_reply (h : (s.session p).deferred = []) (st : Status) (res : List Byte) :
    s.Eases (s.reply p st res) := by
  rcases reply_cases s p st res with ⟨-, e⟩ | ⟨b, -, e⟩ <;> rw [e]
  · exact .refl s
  · exact eases_answer h _

/-- A reply whose waiting session ends are taken off the list. -/
theorem eases_reply_undefer (s : State) (p : Port) (st : Status) (res : List Byte) :
    s.Eases ((s.reply p st res).setDeferred p []) := by
  refine ⟨supervisor_reply s p st res, fun q => ?_⟩
  rw [State.setDeferred, session_setSession]
  split
  · exact .inl rfl
  · next hpq =>
    rw [link_setSession, link_reply_ne s st res hpq, session_reply]
    exact .inr ⟨rfl, id⟩

theorem eases_setEnding (s : State) (p : Port) (e : Option SessionEnd) : s.Eases (s.setEnding p e) :=
  eases_setSession s rfl

theorem eases_setOpening (s : State) (p : Port) (o : Option Opening) : s.Eases (s.setOpening p o) :=
  eases_setSession s rfl

theorem eases_closeOut (s : State) (p : Port) (c : EndCause) : s.Eases (s.closeOut p c) := by
  unfold State.closeOut
  dsimp only
  refine .trans ?_ (eases_report _ _)
  refine .trans (t := s.setSession p { s.session p with
    state := c.state, silenceDeadline := none, silenceLimit := 0, notices := [], credit := 0, opening := none })
    (eases_setSession s rfl) ⟨rfl, fun _ => .inr ⟨rfl, id⟩⟩

theorem eases_goOnEnding (s : State) (p : Port) (e : SessionEnd) {finish : SessionEnd → State → State}
    (hf : ∀ e', s.Eases (s.setEnding p none) → (s.setEnding p none).Eases (finish e' (s.setEnding p none))) :
    s.Eases (s.goOnEnding p e finish) := by
  unfold State.goOnEnding
  dsimp only
  split
  · exact (eases_setEnding s p none).trans (hf _ (eases_setEnding s p none))
  · exact eases_setEnding s p _

theorem eases_beginEnd (s : State) (p : Port) (c : EndCause) (d : Disposition) (q : EndSequel)
    {finish : SessionEnd → State → State} (hf : ∀ e' u, s.Eases u → u.Eases (finish e' u)) :
    s.Eases (s.beginEnd p c d q finish) :=
  have hclosed := eases_closeOut s p c
  hclosed.trans (eases_goOnEnding _ p _ fun e' h => hf e' _ (hclosed.trans h))

theorem eases_loseToSilence (s : State) (p : Port) : s.Eases (s.loseToSilence p) := by
  unfold State.loseToSilence
  split
  · exact eases_beginEnd s p _ _ _ fun _ u _ => .refl u
  · exact .refl s

/-- The DROP_SESSION reply takes with it a silence expiry that waits for it, and nothing else can (R110, R129). -/
theorem eases_replyDrop (h : s.DropsElsewhere) (ended : Bool) (d : Option Disposition) :
    s.Eases (s.replyDrop ended d) := by
  unfold State.replyDrop
  split
  · exact .refl s
  · next q hq =>
    dsimp only
    generalize [if ended then 0 else 1, dispositionCode d] = results
    split
    · exact (eases_reply_undefer s q _ _).trans (eases_loseToSilence _ q)
    · next hno =>
      refine eases_reply (List.eq_nil_iff_forall_not_mem.mpr fun x hx => hno ?_) _ _
      rw [session_reply]
      exact h q hq x hx ▸ hx

theorem eases_drop (h : s.DropsElsewhere) (p : Port) (named : Option Disposition) : s.Eases (s.drop p named) := by
  unfold State.drop
  split
  · dsimp only
    have hreport : s.Eases (match s.supervisor with
        | some q => s.report { cls := .supervisor, port := q, detail := Kind.dropSession.code }
        | none => s) := by
      split
      · exact eases_report s _
      · exact .refl s
    exact hreport.trans (eases_beginEnd _ p _ _ _ fun _ u hu =>
      eases_replyDrop ((hreport.trans hu).dropsElsewhere h) true _)
  · exact eases_replyDrop h false none

theorem eases_takeDeferred (h : s.DropsElsewhere) (p : Port) (d : DeferredEnd) : s.Eases (s.takeDeferred p d) := by
  cases d with
  | silence => exact eases_loseToSilence s p
  | drop named => exact eases_drop h p named

/-- Whatever waited for a reply is taken once it is formed (R110, R114). -/
theorem eases_reply_afterReply (h : s.DropsElsewhere) (p : Port) (st : Status) (res : List Byte) :
    s.Eases ((s.reply p st res).afterReply p) := by
  unfold State.afterReply
  have hundefer := eases_reply_undefer s p st res
  generalize ((s.reply p st res).session p).deferred = ds
  generalize (s.reply p st res).setDeferred p [] = t at hundefer
  induction ds generalizing t with
  | nil => exact hundefer
  | cons d ds ih =>
    exact ih _ (hundefer.trans (eases_takeDeferred (hundefer.dropsElsewhere h) p d))

theorem eases_finishOpen (h : s.DropsElsewhere) (p : Port) (o : Opening) : s.Eases (s.finishOpen p o) := by
  unfold State.finishOpen
  dsimp only
  have hopen := eases_setOpening s p none
  have hfault : s.Eases (if ((s.setOpening p none).link p).fault.code.isSome = true then
      (s.setOpening p none).notify p .fault else s.setOpening p none) := by
    split
    · exact hopen.trans (eases_of_lockWork (lockWork_notify _ p _))
    · exact hopen
  have hreport := hfault.trans (eases_report _ { cls := .opened, port := p, detail := dispositionCode o.superseded })
  exact hreport.trans (eases_reply_afterReply (hreport.dropsElsewhere h) p _ _)

theorem eases_goOnOpening (h : s.DropsElsewhere) (p : Port) (o : Opening) : s.Eases (s.goOnOpening p o) := by
  unfold State.goOnOpening
  split
  · exact eases_finishOpen h p o
  · exact eases_setOpening s p _

theorem eases_startOpen (h : s.DropsElsewhere) (p : Port) (c : Byte) (n : Half) (d : Option Disposition) :
    s.Eases (s.startOpen p c n d) :=
  have hbegun := eases_setSession s (p := p) (x := (s.session p).reopened s.clock c n) rfl
  hbegun.trans (eases_goOnOpening (hbegun.dropsElsewhere h) p _)

theorem eases_reattachNext (h : s.DropsElsewhere) (p : Port) : s.Eases (s.reattachNext p) := by
  unfold State.reattachNext
  split
  · exact .refl s
  · split
    · exact .refl s
    · split
      · have hchange := eases_of_lockWork (lockWork_recordChange s p (by assumption) .retained)
        exact hchange.trans (eases_goOnOpening (hchange.dropsElsewhere h) p _)
      · exact eases_goOnOpening h p _

theorem eases_finishEnd (h : s.DropsElsewhere) (p : Port) (e : SessionEnd) : s.Eases (s.finishEnd p e) := by
  unfold State.finishEnd
  split
  · exact .refl s
  · exact eases_reply_afterReply h p _ _
  · exact eases_replyDrop h true _
  · exact eases_startOpen h p _ _ _

theorem eases_takeOpen (h : s.DropsElsewhere) (p : Port) (c : Byte) (n : Half) : s.Eases (s.takeOpen p c n) := by
  unfold State.takeOpen
  dsimp only
  split
  · exact eases_beginEnd s p _ _ _ fun e' u hu => eases_finishEnd (hu.dropsElsewhere h) p e'
  · exact eases_startOpen h p _ _ _

theorem eases_takeEndWithdrawal (h : s.DropsElsewhere) (p : Port) (l : LockId) :
    s.Eases (s.takeEndWithdrawal p l fun e t => t.finishEnd p e) := by
  unfold State.takeEndWithdrawal
  split
  · exact .refl s
  · split
    · exact .refl s
    · split
      · have hwork : s.Eases (if (s.lock l).waits p then s.withdrawWait p l bySessionEnd else s) := by
          split
          · exact eases_of_lockWork (lockWork_withdrawWait s p l _)
          · exact .refl s
        exact hwork.trans (eases_goOnEnding _ p _ fun e' hu =>
          eases_finishEnd ((hwork.trans hu).dropsElsewhere h) p e')
      · exact .refl s

theorem eases_takeEndRelease (h : s.DropsElsewhere) (p : Port) (l : LockId) :
    s.Eases (s.takeEndRelease p l fun e t => t.finishEnd p e) := by
  unfold State.takeEndRelease
  split
  · exact .refl s
  · split
    · exact .refl s
    · split
      · dsimp only
        cases (s.lock l).holding p with
        | none =>
          exact eases_goOnEnding s p _ fun e' hu => eases_finishEnd (hu.dropsElsewhere h) p e'
        | some x =>
          have hwork := eases_of_lockWork (lockWork_releaseHolding s p l x bySessionEnd)
          exact hwork.trans (eases_goOnEnding _ p _ fun e' hu =>
            eases_finishEnd ((hwork.trans hu).dropsElsewhere h) p e')
      · exact .refl s

/-! ### Requests -/

theorem eases_handOn {b : Body} (h : s.nextRequest p = some b) : s.Eases (s.handOn p) := by
  refine ⟨rfl, fun q => .inr ⟨rfl, fun hnone => ?_⟩⟩
  by_cases hq : p = q
  · subst hq
    simp [handedOn_handOn s h] at hnone
  · rwa [link_handOn, if_neg hq] at hnone

/-- A request that its owner answers at once leaves nothing waiting: nothing waited when it was handed on. -/
theorem eases_takeRequest (h : s.WaitsForReplies) {k : Kind} {owner : Body → State → State}
    (ho : ∀ b, ((s.handOn p).session p).deferred = [] →
      (s.handOn p).Eases (owner b (s.handOn p))) : s.Eases (s.takeRequest k p owner) := by
  rcases takeRequest_cases s k p owner with e | ⟨b, hn, -, hrest⟩
  · rw [e]
    exact .refl s
  · obtain ⟨-, hnone, -⟩ := nextRequest_eq_some s hn
    have hnil : ((s.handOn p).session p).deferred = [] := h p hnone
    have hon := eases_handOn hn
    obtain ⟨st, -, e⟩ | ⟨-, e⟩ := hrest <;> rw [e]
    · have hreport := eases_report (s.handOn p) { cls := .refused, port := p, lock := none, detail := st.code }
      exact hon.trans (hreport.trans (eases_reply (hreport.deferred_nil hnil) _ _))
    · exact hon.trans (ho b hnil)

/-- Work followed by the reply. -/
theorem eases_work_reply (h : (s.session p).deferred = []) (hw : s.Eases t) (st : Status) (res : List Byte) :
    s.Eases (t.reply p st res) :=
  hw.trans (eases_reply (hw.deferred_nil h) st res)

theorem eases_work_replyStanding (h : (s.session p).deferred = []) (hw : s.LockWork t) (l : LockId) (st : Status) :
    s.Eases (t.replyStanding p l st) :=
  eases_work_reply h (eases_of_lockWork (hw.trans (lockWork_clearChange t p l))) st _

theorem lockWork_foldl {α : Type} {f : State → α → State} (hf : ∀ (t : State) (a : α), t.LockWork (f t a))
    (as : List α) (t : State) : t.LockWork (as.foldl f t) := by
  induction as generalizing t with
  | nil => exact .refl t
  | cons a as ih => exact (hf t a).trans (ih (f t a))

theorem lockWork_revokeHolding (t : State) (l : LockId) (c : Cause) (d : Byte) (q : Port) :
    t.LockWork (t.revokeHolding l c d q) := by
  unfold State.revokeHolding
  split
  · exact .refl t
  · exact lockWork_takeAway t q l _ c _

theorem lockWork_purgeWaiter (t : State) (l : LockId) (w : Waiter) : t.LockWork (t.purgeWaiter l w) :=
  ((lockWork_leaveQueue t w.port l).trans (lockWork_recordChange _ w.port l _)).trans (lockWork_report _ _)

section
variable (hd : (s.session p).deferred = [])
include hd

theorem eases_refuseStanding (l : LockId) (st : Status) : s.Eases (s.refuseStanding p l st) :=
  eases_work_replyStanding hd (lockWork_report s _) l st

theorem eases_takeAcquire (l : LockId) (m : Mode) (wait : Bool) (lease limit : Half) :
    s.Eases (s.takeAcquire p l m wait lease limit) := by
  unfold State.takeAcquire
  split
  · exact eases_work_replyStanding hd ((lockWork_grantTo s p l m lease).trans (lockWork_report _ _)) l _
  · exact eases_work_replyStanding hd ((lockWork_enqueue s p l m lease limit).trans (lockWork_report _ _)) l _
  · exact eases_work_replyStanding hd (lockWork_report s _) l _
  · exact eases_refuseStanding hd l _

theorem eases_takeRelease (l : LockId) (g : Grant) : s.Eases (s.takeRelease p l g) := by
  unfold State.takeRelease
  split
  · exact eases_refuseStanding hd l _
  · exact eases_work_replyStanding hd (lockWork_releaseHolding s p l _ _) l _

theorem eases_takeWithdraw (l : LockId) : s.Eases (s.takeWithdraw p l) := by
  unfold State.takeWithdraw
  split
  · exact eases_work_replyStanding hd (lockWork_withdrawWait s p l _) l _
  · exact eases_refuseStanding hd l _

theorem eases_takeRenew (l : LockId) (g : Grant) (n : Half) : s.Eases (s.takeRenew p l g n) := by
  unfold State.takeRenew
  dsimp only
  split
  · exact eases_refuseStanding hd l _
  · split
    · exact eases_refuseStanding hd l _
    · split
      · exact eases_refuseStanding hd l _
      · exact eases_work_replyStanding hd (lockWork_alterHolding s p l _) l _

theorem eases_takeConvert (l : LockId) (g : Grant) (m : Mode) : s.Eases (s.takeConvert p l g m) := by
  unfold State.takeConvert
  split
  · exact eases_refuseStanding hd l _
  · split
    · exact eases_refuseStanding hd l _
    · split
      · split
        · exact eases_work_replyStanding hd (((lockWork_alterHolding s p l _).trans (lockWork_report _ _)).trans
            (lockWork_handOff _ l)) l _
        · exact eases_refuseStanding hd l _
      · split
        · exact eases_work_replyStanding hd ((lockWork_raiseHolding s p l _).trans (lockWork_report _ _)) l _
        · exact eases_refuseStanding hd l _

theorem eases_takeSetLock (l : LockId) (c : LockConfig) : s.Eases (s.takeSetLock p l c) := by
  unfold State.takeSetLock
  split
  · exact eases_work_reply hd (eases_report s _) _ _
  · exact eases_work_reply hd (eases_of_lockWork ((lockWork_setLock s l _).trans (lockWork_report _ _))) _ _

theorem eases_takeRevoke (l : LockId) (b : Byte) : s.Eases (s.takeRevoke p l b) := by
  unfold State.takeRevoke
  split
  · exact eases_work_reply hd (eases_report s _) _ _
  · exact eases_work_reply hd (eases_of_lockWork (((lockWork_report s _).trans
      (lockWork_foldl (fun t q => lockWork_revokeHolding t l .revoked byRevoke q) _ _)).trans
      (lockWork_handOff _ l))) _ _

theorem eases_takePurge (l : LockId) : s.Eases (s.takePurge p l) :=
  eases_work_reply hd (eases_of_lockWork ((((lockWork_report s _).trans
    (lockWork_foldl (fun t q => lockWork_revokeHolding t l .purged byPurge q) _ _)).trans
    (lockWork_foldl (fun t w => lockWork_purgeWaiter t l w) _ _)).trans (lockWork_handOff _ l))) _ _

theorem eases_takeCredit (n : Nat) : s.Eases (s.takeCredit p n) :=
  eases_work_reply hd (eases_setSession s (p := p) (x := { s.session p with
    credit := min maxCredit ((s.session p).credit + n) }) rfl) _ _

theorem eases_takeFaultAck : s.Eases (s.takeFaultAck p) :=
  eases_work_reply hd ((eases_setLink s (p := p) (x := { s.link p with fault := {} }) id).trans
    (eases_of_lockWork (lockWork_unnotify _ p _))) _ _

theorem eases_takeSetPort (q : Port) (c : PortConfig) : s.Eases (s.takeSetPort p q c) :=
  eases_work_reply hd ((eases_setSession s (p := q) (x := { s.session q with config := c }) rfl).trans
    (eases_report _ _)) _ _

theorem eases_takeTraceSetup (x : TraceSetup) : s.Eases (s.takeTraceSetup p x) :=
  eases_work_reply hd ((eases_setTrace s _).trans (eases_of_lockWork (lockWork_unnotify _ p _))) _ _

theorem eases_takeTraceRead (n : Nat) : s.Eases (s.takeTraceRead p n) :=
  eases_work_reply hd (eases_setTrace s _) _ _

end

/-! ### The line, the clock and the notices -/

theorem eases_linkFault (s : State) (p : Port) (c : FaultCode) : s.Eases (s.linkFault p c) := by
  refine ⟨supervisor_linkFault s p c, fun q => .inr ⟨by rw [sameButNotices_linkFault s p c q], ?_⟩⟩
  rw [link_linkFault]
  split <;> exact id

theorem eases_setReceiver (s : State) (p : Port) (r : ReceiverState) : s.Eases (s.setReceiver p r) :=
  eases_setLink s id

theorem eases_discardFrame (s : State) (p : Port) (c : FaultCode) : s.Eases (s.discardFrame p c) :=
  (eases_setReceiver s p .hunt).trans (eases_linkFault _ p c)

theorem eases_restartSilence (s : State) (p : Port) : s.Eases (s.restartSilence p) := by
  unfold State.restartSilence
  dsimp only
  split
  · exact eases_setSession s rfl
  · exact .refl s

theorem eases_completeFrame (s : State) (p : Port) (b : Body) : s.Eases (s.completeFrame p b) := by
  unfold State.completeFrame State.admitFrame
  refine .trans ((eases_setReceiver s p .hunt).trans (eases_restartSilence _ p)) ?_
  dsimp only
  split
  · refine eases_setLink _ fun h => ?_
    rw [LinkPort.handedOn, Option.map_eq_none_iff, List.find?_append, Option.or_eq_none_iff] at h
    rw [LinkPort.handedOn, h.1]
    rfl
  · exact eases_linkFault _ p _

theorem eases_takeCharacter (s : State) (p : Port) (c : Byte) : s.Eases (s.takeCharacter p c) := by
  unfold State.takeCharacter
  split
  · split
    · exact eases_setReceiver s p _
    · exact .refl s
  · split
    · exact eases_setReceiver s p _
    · exact eases_discardFrame s p _
  · dsimp only
    split <;> exact eases_setReceiver s p _
  · exact eases_setReceiver s p _
  · split
    · exact eases_completeFrame s p _
    · exact eases_discardFrame s p _

theorem eases_takeCharError (s : State) (p : Port) (b : Bool) : s.Eases (s.takeCharError p b) := by
  unfold State.takeCharError
  split
  · exact .refl s
  · dsimp only
    have hs : s.Eases (if s.restarting then s else s.discardFrame p .charError) := by
      split
      · exact .refl s
      · exact eases_discardFrame s p _
    split
    · exact hs.trans (eases_setLink _ id)
    · exact hs

theorem eases_endBreak (s : State) (p : Port) : s.Eases (s.endBreak p) := by
  unfold State.endBreak
  split
  · exact (eases_setLink s (p := p) (x := { s.link p with inBreak := false }) id).trans (eases_setReceiver _ p _)
  · exact .refl s

/-- The slot freed is that of the reply sent, not of a request handed on (R156). -/
theorem eases_replyGone (h : s.LinksSound) (p : Port) : s.Eases (s.replyGone p) := by
  unfold State.replyGone
  dsimp only
  split
  · next f hf =>
    refine eases_setLink s fun hnone => ?_
    obtain ⟨hw, -⟩ := sound_link_iff.mp (h p)
    have hunsent : (s.link p).unsent = (s.link p).replies.length + 1 := by simp [LinkPort.unsent, hf]
    rw [hunsent] at hw
    rw [LinkPort.handedOn, window_kick, Option.map_eq_none_iff] at hnone
    exact handedOn_of_tail hw hnone
  · exact .refl s
  · exact .refl s

theorem eases_noticeGone (s : State) (p : Port) : s.Eases (s.noticeGone p) := by
  unfold State.noticeGone
  dsimp only
  split
  · exact eases_setLink s fun h => by rwa [handedOn_congr (window_kick _)] at h
  · exact .refl s
  · exact .refl s

theorem eases_sendNotice (s : State) (p : Port) (b : Body) : s.Eases (s.sendNotice p b) :=
  (eases_setSession s (p := p) (x := { s.session p with
    notices := (s.session p).notices.tail, credit := (s.session p).credit - 1,
    noticeNumber := (s.session p).noticeNumber + 1 }) rfl).trans (eases_setLink _ id)

theorem eases_formStanding (s : State) (p : Port) : s.Eases (s.formStanding p) := by
  unfold State.formStanding
  split
  · exact (eases_sendNotice s p _).trans (eases_of_lockWork (lockWork_setStanding _ p _ _))
  · exact .refl s

theorem eases_formFault (s : State) (p : Port) : s.Eases (s.formFault p) := by
  unfold State.formFault
  split
  · exact eases_sendNotice s p _
  · exact .refl s

theorem eases_formTrace (s : State) (p : Port) : s.Eases (s.formTrace p) := by
  unfold State.formTrace
  split
  · exact eases_sendNotice s p _
  · exact .refl s

theorem eases_takeLeaseExpiry (s : State) (p : Port) (l : LockId) : s.Eases (s.takeLeaseExpiry p l) := by
  unfold State.takeLeaseExpiry
  split
  · exact .refl s
  · split
    · exact eases_of_lockWork (lockWork_expireLease s p l _)
    · exact .refl s

theorem eases_takeWaitExpiry (s : State) (p : Port) (l : LockId) : s.Eases (s.takeWaitExpiry p l) := by
  unfold State.takeWaitExpiry
  split
  · exact .refl s
  · split
    · exact eases_of_lockWork (lockWork_expireWait s p l)
    · exact .refl s

end Sys2Proof.Machine
end

section
/-! PROOFS. Every step keeps what a port outside an OPEN session may have, what waiting session ends wait for, and
the pin-reset state under RESET (2.6, 6.3 to 6.5, 7.6, 7.7, 9.7). -/

namespace Sys2Proof.Machine

variable {s t u : State} {p q : Port} {l : LockId} {c : Instr}

/-! ### What session ends wait for, command by command -/

/-- What waits for a reply waits at a port with a request handed on, and no DROP_SESSION at the supervisor's. -/
structure State.EndsWait (s : State) : Prop where
  drops : s.DropsElsewhere
  replies : s.WaitsForReplies

theorem State.Eases.endsWait (h : s.Eases t) (hs : s.EndsWait) : t.EndsWait :=
  ⟨h.dropsElsewhere hs.drops, h.waitsForReplies hs.replies⟩

/-- A session end that a request handed on makes wait. -/
theorem endsWait_defer (h : s.EndsWait) (hon : (s.link p).handedOn.isSome = true) (d : DeferredEnd)
    (hd : s.supervisor = some p → d = .silence) : (s.setDeferred p ((s.session p).deferred ++ [d])).EndsWait := by
  refine ⟨fun q hq x hx => ?_, fun q hq => ?_⟩
  · rw [State.setDeferred, session_setSession] at hx
    split at hx
    · next hpq =>
      subst hpq
      rw [List.mem_append, List.mem_singleton] at hx
      obtain hx | rfl := hx
      · exact h.drops p hq x hx
      · exact hd hq
    · exact h.drops q hq x hx
  · have hq' : (s.link q).handedOn = none := hq
    rw [State.setDeferred, session_setSession]
    split
    · next hpq =>
      subst hpq
      simp [hq'] at hon
    · exact h.replies q hq'

theorem endsWait_takeSilenceExpiry (h : s.EndsWait) (p : Port) : (s.takeSilenceExpiry p).EndsWait := by
  unfold State.takeSilenceExpiry
  split
  · split
    · next hon =>
      split
      · exact h
      · exact endsWait_defer h hon .silence fun _ => rfl
    · exact (eases_loseToSilence s p).endsWait h
  · exact h

theorem endsWait_dropSession (h : s.EndsWait) (ht : exec (.dropSession p) s = .next t) : t.EndsWait := by
  obtain rfl := Host.Outcome.next.inj ht
  rcases takeRequest_cases s .dropSession p fun b t =>
    t.takeDrop p (portAt b 2) (namedDisposition (byteAt b 3)) with e | ⟨b, hn, -, hrest⟩
  · rw [e]
    exact h
  · obtain ⟨-, hnone, -⟩ := nextRequest_eq_some s hn
    have hnil : ((s.handOn p).session p).deferred = [] := h.replies p hnone
    have hon := (eases_handOn hn).endsWait h
    have refused (st : Status) : ((s.handOn p).refuse p st).EndsWait :=
      (eases_work_reply hnil (eases_report _ _) st []).endsWait hon
    obtain ⟨st, -, e⟩ | ⟨hcheck, e⟩ := hrest <;> rw [e]
    · exact refused st
    · have hsup : s.supervisor = some p := supervisor_of_messageCheck s hcheck rfl
      unfold State.takeDrop
      split
      · exact refused _
      · next hne =>
        split
        · next hwaits =>
          rw [State.dropWaits, Bool.and_eq_true] at hwaits
          refine endsWait_defer hon hwaits.1 _ fun hq => absurd ?_ hne
          exact Option.some.inj (hq.symm.trans hsup)
        · exact (eases_drop hon.drops _ _).endsWait hon

theorem eases_takeRequest_of (h : s.EndsWait) {k : Kind} {owner : Body → State → State}
    (ho : ∀ (b : Body) (u : State), (u.session p).deferred = [] → u.Eases (owner b u)) :
    s.Eases (s.takeRequest k p owner) :=
  eases_takeRequest h.replies fun b hnil => ho b _ hnil

theorem eases_restart (h : s.EndsWait) (ht : exec (.restart p) s = .next t) : s.Eases t := by
  obtain rfl := Host.Outcome.next.inj ht
  refine eases_takeRequest h.replies fun b _ => ⟨?_, fun q => .inl ?_⟩
  · have hfixed := (steady_settleEnds onwardRule (s.handOn p)).supsel
    simp [State.takeRestart, State.beginRestart, State.clearForRestart, State.supervisor, hfixed]
  · simp [State.takeRestart, State.beginRestart, State.clearForRestart, State.session, Session.restarted]

theorem eases_restartComplete (hrestart : s.restarting = true → ∀ q : Port, (s.session q).deferred = [])
    (ht : exec .restartComplete s = .next t) : s.Eases t := by
  obtain rfl := Host.Outcome.next.inj ht
  unfold State.completeRestart
  split
  · next hr =>
    have hhunt : s.Eases { s with restarting := false, links := s.links.map LinkPort.hunting } := by
      refine ⟨rfl, fun q => .inr ⟨rfl, ?_⟩⟩
      rw [State.link, look_map]
      exact id
    dsimp only
    split
    · next q _ => exact hhunt.trans (eases_reply
        (s := { s with restarting := false, links := s.links.map LinkPort.hunting }) (hrestart hr q) _ _)
    · exact hhunt
  · exact .refl s

theorem eases_refuseUnknown (h : s.EndsWait) (p : Port) : s.Eases (s.refuseUnknown p) := by
  unfold State.refuseUnknown
  split
  · exact .refl s
  · next b hn =>
    split
    · obtain ⟨-, hnone, -⟩ := nextRequest_eq_some s hn
      have hnil : ((s.handOn p).session p).deferred = [] := h.replies p hnone
      have hreport := eases_report (s.handOn p)
        { cls := .refused, port := p, lock := none, detail := Status.unknownKind.code }
      exact (eases_handOn hn).trans (hreport.trans (eases_answer (hreport.deferred_nil hnil) _))
    · exact .refl s

theorem eases_pinReset (ht : exec .pinReset s = .next t) : s.Eases t := by
  obtain rfl := Host.Outcome.next.inj ht
  exact ⟨rfl, fun q => .inl (by simp [State.session, State.reset])⟩

/-- What waits for replies is kept by every command but a release of RESET. -/
theorem endsWait_exec (h : s.EndsWait) (hlinks : s.LinksSound)
    (hrestart : s.restarting = true → ∀ q : Port, (s.session q).deferred = [])
    (hc : ∀ b v, c ≠ .resetReleased b v) (ht : exec c s = .next t) : t.EndsWait := by
  have eases_if {a : Bool} {u : State} (hu : s.Eases u) : s.Eases (if a then u else s) := by
    split
    · exact hu
    · exact .refl s
  cases c with
  | silenceExpiry p => cases ht; exact endsWait_takeSilenceExpiry h p
  | dropSession p => exact endsWait_dropSession h ht
  | resetReleased b v => exact absurd rfl (hc b v)
  | pinReset => exact (eases_pinReset ht).endsWait h
  | restart p => exact (eases_restart h ht).endsWait h
  | restartComplete => exact (eases_restartComplete hrestart ht).endsWait h
  | openSession p =>
    cases ht
    refine State.Eases.endsWait ?_ h
    exact eases_takeRequest h.replies fun b _ => eases_takeOpen (s := s.handOn p) h.drops p _ _
  | closeSession p =>
    cases ht
    refine State.Eases.endsWait ?_ h
    exact eases_takeRequest h.replies fun b _ => eases_beginEnd (s.handOn p) p _ _ _ fun e' u hu =>
      eases_finishEnd (hu.dropsElsewhere (s := s.handOn p) h.drops) p e'
  | reattachHolding p => cases ht; exact (eases_reattachNext h.drops p).endsWait h
  | ping p => cases ht; exact (eases_takeRequest_of h fun _ u hd => eases_reply hd _ _).endsWait h
  | credit p => cases ht; exact (eases_takeRequest_of h fun _ u hd => eases_takeCredit hd _).endsWait h
  | faultAck p => cases ht; exact (eases_takeRequest_of h fun _ u hd => eases_takeFaultAck hd).endsWait h
  | acquire p => cases ht; exact (eases_takeRequest_of h fun _ u hd => eases_takeAcquire hd _ _ _ _ _).endsWait h
  | release p => cases ht; exact (eases_takeRequest_of h fun _ u hd => eases_takeRelease hd _ _).endsWait h
  | withdraw p => cases ht; exact (eases_takeRequest_of h fun _ u hd => eases_takeWithdraw hd _).endsWait h
  | renew p => cases ht; exact (eases_takeRequest_of h fun _ u hd => eases_takeRenew hd _ _ _).endsWait h
  | convert p => cases ht; exact (eases_takeRequest_of h fun _ u hd => eases_takeConvert hd _ _ _).endsWait h
  | query p => cases ht; exact (eases_takeRequest_of h fun _ u hd => eases_reply hd _ _).endsWait h
  | setLock p => cases ht; exact (eases_takeRequest_of h fun _ u hd => eases_takeSetLock hd _ _).endsWait h
  | getLock p => cases ht; exact (eases_takeRequest_of h fun _ u hd => eases_reply hd _ _).endsWait h
  | setPort p => cases ht; exact (eases_takeRequest_of h fun _ u hd => eases_takeSetPort hd _ _).endsWait h
  | getPort p => cases ht; exact (eases_takeRequest_of h fun _ u hd => eases_reply hd _ _).endsWait h
  | revoke p => cases ht; exact (eases_takeRequest_of h fun _ u hd => eases_takeRevoke hd _ _).endsWait h
  | purge p => cases ht; exact (eases_takeRequest_of h fun _ u hd => eases_takePurge hd _).endsWait h
  | traceSetup p => cases ht; exact (eases_takeRequest_of h fun _ u hd => eases_takeTraceSetup hd _).endsWait h
  | traceStatus p => cases ht; exact (eases_takeRequest_of h fun _ u hd => eases_reply hd _ _).endsWait h
  | traceRead p => cases ht; exact (eases_takeRequest_of h fun _ u hd => eases_takeTraceRead hd _).endsWait h
  | unknownKind p => cases ht; exact (eases_refuseUnknown h p).endsWait h
  | leaseExpiry p l => cases ht; exact (eases_takeLeaseExpiry s p l).endsWait h
  | waitExpiry p l => cases ht; exact (eases_takeWaitExpiry s p l).endsWait h
  | sessionEndWithdrawal p l => cases ht; exact (eases_takeEndWithdrawal h.drops p l).endsWait h
  | sessionEndRelease p l => cases ht; exact (eases_takeEndRelease h.drops p l).endsWait h
  | leaseClockAdvance =>
    cases ht
    unfold State.advanceClock
    split
    · exact h
    · exact ⟨h.drops, h.replies⟩
  | validFrame p b => cases ht; exact (eases_if (eases_completeFrame s p b)).endsWait h
  | frameCheck p b x => cases ht; exact (eases_if (eases_discardFrame s p _)).endsWait h
  | frameShape p n => cases ht; exact (eases_if (eases_discardFrame s p _)).endsWait h
  | charError p b => cases ht; exact (eases_takeCharError s p b).endsWait h
  | breakEnd p => cases ht; exact (eases_endBreak s p).endsWait h
  | receiveGap p => cases ht; exact (eases_if (eases_discardFrame s p _)).endsWait h
  | standingNotice p => cases ht; exact (eases_formStanding s p).endsWait h
  | faultNotice p => cases ht; exact (eases_formFault s p).endsWait h
  | traceNotice p => cases ht; exact (eases_formTrace s p).endsWait h
  | replySent p => cases ht; exact (eases_replyGone hlinks p).endsWait h
  | noticeSent p => cases ht; exact (eases_noticeGone s p).endsWait h
  | timeWrapped =>
    cases ht
    unfold State.wrapTimer
    split
    · exact (eases_setTrace s _).endsWait h
    · exact h
  | characterReceived p x => cases ht; exact (eases_if (eases_takeCharacter s p x)).endsWait h
  | traceTimerAdvance => cases ht; exact (eases_setTrace s _).endsWait h

/-! ### A part whose line is not active -/

/-- The commands that have nothing to do while the line is not active and no session is at work. -/
def needsLine : Instr → Bool
  | .leaseExpiry _ _ | .waitExpiry _ _ | .leaseClockAdvance | .charError _ _ | .breakEnd _ | .replySent _
  | .noticeSent _ | .timeWrapped | .traceTimerAdvance | .restartComplete | .pinReset | .resetReleased _ _ => false
  | _ => true

/-- Every session is CLOSED, with no end and no OPEN in progress. -/
structure State.AllClosed (s : State) : Prop where
  state : ∀ q : Port, (s.session q).state = .closed
  ending : ∀ q : Port, (s.session q).ending = none
  opening : ∀ q : Port, (s.session q).opening = none

theorem nextRequest_of_inactive (h : s.lineActive = false) (p : Port) : s.nextRequest p = none := by
  simp [State.nextRequest, h]

theorem takeRequest_of_none (h : s.nextRequest p = none) (k : Kind) (owner : Body → State → State) :
    s.takeRequest k p owner = s := by
  simp [State.takeRequest, h]

theorem State.AllClosed.isOpen (h : s.AllClosed) (q : Port) : s.isOpen q = false := by
  simp [State.isOpen, h.state q]

theorem noticeSubject_of_not_open (h : s.isOpen p = false) : s.noticeSubject p = none := by
  simp [State.noticeSubject, h]

theorem exec_of_inactive (hl : s.lineActive = false) (hclosed : s.AllClosed) (hc : needsLine c = true) :
    exec c s = .next s := by
  have request (k : Kind) (p : Port) (owner : Body → State → State) : s.takeRequest k p owner = s :=
    takeRequest_of_none (nextRequest_of_inactive hl p) k owner
  have hreceives (p : Port) : s.receives p = false := by simp [State.receives, hl]
  have hnotice (p : Port) := noticeSubject_of_not_open (hclosed.isOpen p)
  have next {u : State} (h : u = s) : (.next u : Host.Outcome State Fault Refusal) = .next s := congrArg _ h
  cases c with
  | reattachHolding p => exact next (by simp only [State.reattachNext, hclosed.opening p])
  | unknownKind p => exact next (by simp only [State.refuseUnknown, nextRequest_of_inactive hl p])
  | silenceExpiry p => exact next (by simp [State.takeSilenceExpiry, hclosed.isOpen p])
  | sessionEndWithdrawal p l => exact next (by simp only [State.takeEndWithdrawal, hclosed.ending p])
  | sessionEndRelease p l => exact next (by simp only [State.takeEndRelease, hclosed.ending p])
  | validFrame p b => exact next (by simp [hreceives p])
  | frameCheck p b x => exact next (by simp [hreceives p])
  | frameShape p n => exact next (by simp [hreceives p])
  | receiveGap p => exact next (by simp [hreceives p])
  | characterReceived p x => exact next (by simp [hreceives p])
  | standingNotice p => exact next (by simp only [State.formStanding, hnotice p])
  | faultNotice p => exact next (by simp only [State.formFault, hnotice p])
  | traceNotice p => exact next (by simp only [State.formTrace, hnotice p])
  | leaseExpiry | waitExpiry | leaseClockAdvance | charError | breakEnd | replySent | noticeSent | timeWrapped
  | traceTimerAdvance | restartComplete | pinReset | resetReleased => cases hc
  | openSession p | closeSession p | ping p | credit p | faultAck p | acquire p | release p | withdraw p | renew p
  | convert p | query p | setLock p | getLock p | setPort p | getPort p | revoke p | purge p | dropSession p
  | restart p | traceSetup p | traceStatus p | traceRead p => exact next (request _ p _)

/-! ### A restart in progress -/

/-- The states of the sessions, their ends and what waits for replies are the same. -/
def State.SessionsStand (s t : State) : Prop :=
  ∀ q : Port, (t.session q).state = (s.session q).state ∧ (t.session q).ending = (s.session q).ending ∧
    (t.session q).deferred = (s.session q).deferred

theorem sessionsStand_of_lockWork (h : s.LockWork t) : s.SessionsStand t := fun q => by
  rw [h.sessions q]
  exact ⟨rfl, rfl, rfl⟩

theorem sessionsStand_of_sessions (h : t.sessions = s.sessions) : s.SessionsStand t := fun q => by
  rw [State.session, h, State.session]
  exact ⟨rfl, rfl, rfl⟩

theorem sessions_replyGone (s : State) (p : Port) : (s.replyGone p).sessions = s.sessions := by
  unfold State.replyGone
  dsimp only
  split <;> rfl

theorem sessions_noticeGone (s : State) (p : Port) : (s.noticeGone p).sessions = s.sessions := by
  unfold State.noticeGone
  dsimp only
  split <;> rfl

/-- While a restart is in progress no command touches a session (R131 to R133). -/
theorem sessionsStand_of_restarting (hr : s.restarting = true) (hclosed : s.AllClosed) (hc : c ≠ .pinReset)
    (hc' : c ≠ .restartComplete) (h : exec c s = .next t) : s.SessionsStand t := by
  have hl : s.lineActive = false := by simp [State.lineActive, hr]
  by_cases hn : needsLine c = true
  · rw [exec_of_inactive hl hclosed hn] at h
    cases h
    exact fun _ => ⟨rfl, rfl, rfl⟩
  · cases c with
    | leaseExpiry p l =>
      cases h
      unfold State.takeLeaseExpiry
      split
      · exact sessionsStand_of_sessions rfl
      · split
        · exact sessionsStand_of_lockWork (lockWork_expireLease s p l _)
        · exact sessionsStand_of_sessions rfl
    | waitExpiry p l =>
      cases h
      unfold State.takeWaitExpiry
      split
      · exact sessionsStand_of_sessions rfl
      · split
        · exact sessionsStand_of_lockWork (lockWork_expireWait s p l)
        · exact sessionsStand_of_sessions rfl
    | leaseClockAdvance =>
      cases h
      unfold State.advanceClock
      split <;> exact sessionsStand_of_sessions rfl
    | charError p b =>
      cases h
      unfold State.takeCharError
      split
      · exact sessionsStand_of_sessions rfl
      · dsimp only
        split <;> exact sessionsStand_of_sessions rfl
    | breakEnd p =>
      cases h
      unfold State.endBreak
      split <;> exact sessionsStand_of_sessions rfl
    | replySent p => cases h; exact sessionsStand_of_sessions (sessions_replyGone s p)
    | noticeSent p => cases h; exact sessionsStand_of_sessions (sessions_noticeGone s p)
    | timeWrapped =>
      cases h
      unfold State.wrapTimer
      split <;> exact sessionsStand_of_sessions rfl
    | traceTimerAdvance => cases h; exact sessionsStand_of_sessions rfl
    | restartComplete => exact absurd rfl hc'
    | pinReset => exact absurd rfl hc
    | resetReleased b v =>
      cases h
      split <;> exact sessionsStand_of_sessions rfl
    | _ => exact absurd rfl hn

/-- While a restart is in progress every session is CLOSED, with nothing in progress and nothing waiting (R131). -/
def State.RestartStands (s : State) : Prop :=
  s.restarting = true → ∀ q : Port,
    (s.session q).state = .closed ∧ (s.session q).ending = none ∧ (s.session q).deferred = []

theorem restartStands_of_marks {v : State} (hm : s.Marks c u v) (hr : u.restarting = false)
    (ht : v.Steady LockEntry.Onward t) (hc : ∀ p, c ≠ .restart p) : t.RestartStands := by
  intro htr
  rw [ht.restarting] at htr
  cases hm with
  | restart _ p => exact absurd rfl (hc p)
  | pinReset => cases htr
  | restarted => cases htr
  | grant | wait | raise | lockConfig | portConfig | traceSetup | openSession | endWithdrawal | endRelease
  | advance | released => exact absurd (htr.symm.trans hr) (by simp)

theorem restartStands_restart (h : exec (.restart p) s = .next t) (hr : s.restarting = false) : t.RestartStands := by
  obtain rfl := Host.Outcome.next.inj h
  intro htr q
  rcases takeRequest_cases s .restart p fun _ t => t.takeRestart p with e | ⟨b, -, -, ⟨st, -, e⟩ | ⟨-, e⟩⟩ <;>
    rw [e] at htr ⊢
  · exact absurd (htr.symm.trans hr) (by simp)
  · have hfixed := ((steady_handOn onwardRule s p).trans onwardRule (steady_refuse onwardRule _ p st)).restarting
    exact absurd (htr.symm.trans (hfixed.trans hr)) (by simp)
  · simp [State.takeRestart, State.beginRestart, State.clearForRestart, State.session, Session.restarted]

theorem restartStands_exec (hs : s.RestartStands) (hopening : s.restarting = true → s.AllClosed)
    (h : exec c s = .next t) : t.RestartStands := by
  cases hr : s.restarting with
  | false =>
    by_cases hc : ∃ p, c = .restart p
    · obtain ⟨p, rfl⟩ := hc
      exact restartStands_restart h hr
    · push Not at hc
      rcases via_exec onwardRule h with ht | ⟨u, v, hu, hm, ht⟩
      · exact fun htr => absurd (htr.symm.trans (ht.restarting.trans hr)) (by simp)
      · exact restartStands_of_marks hm (hu.restarting.trans hr) ht hc
  | true =>
    intro htr q
    by_cases hpin : c = .pinReset
    · subst hpin
      cases h
      cases htr
    · by_cases hdone : c = .restartComplete
      · subst hdone
        cases h
        simp only [State.completeRestart, hr, if_true] at htr
        split at htr
        · simp at htr
        · cases htr
      · obtain ⟨h1, h2, h3⟩ := sessionsStand_of_restarting hr (hopening hr) hpin hdone h q
        rw [h1, h2, h3]
        exact hs hr q

/-! ### RESET -/

/-- Under RESET every command but the pin's own leaves the part as it stands (R162). -/
theorem exec_of_held (hr : s.resetAsserted = true) (hheld : s.HeldInReset) (hc : c ≠ .pinReset)
    (hc' : ∀ b v, c ≠ .resetReleased b v) : exec c s = .next s := by
  have himage := hheld hr
  have hl : s.lineActive = false := by simp [State.lineActive, hr]
  have hsession (q : Port) : s.session q = {} := by
    rw [himage]
    simp [State.session, State.reset]
  have hlink (q : Port) : s.link q = {} := by
    rw [himage]
    simp [State.link, State.reset]
  have hlock (k : LockId) : s.lock k = {} := by
    rw [himage]
    simp [State.lock, State.reset]
  have htrace : s.trace = {} := by rw [himage]; rfl
  have hclosed : s.AllClosed := ⟨fun q => by rw [hsession], fun q => by rw [hsession], fun q => by rw [hsession]⟩
  by_cases hn : needsLine c = true
  · exact exec_of_inactive hl hclosed hn
  · have next {u : State} (h : u = s) : (.next u : Host.Outcome State Fault Refusal) = .next s := congrArg _ h
    cases c with
    | leaseExpiry p k => exact next (by simp [State.takeLeaseExpiry, hlock, LockEntry.holding])
    | waitExpiry p k => exact next (by simp [State.takeWaitExpiry, hlock, LockEntry.waiter])
    | leaseClockAdvance => exact next (by simp [State.advanceClock, hr])
    | charError p b => exact next (by simp [State.takeCharError, hr])
    | breakEnd p => exact next (by simp [State.endBreak, hlink])
    | replySent p => exact next (by simp only [State.replyGone, hlink])
    | noticeSent p => exact next (by simp only [State.noticeGone, hlink])
    | timeWrapped => exact next (by simp [State.wrapTimer, htrace])
    | traceTimerAdvance =>
      have htick : s.trace.tick = s.trace := by rw [htrace]; rfl
      exact next (by rw [htick]; rfl)
    | restartComplete =>
      have hrestarting : s.restarting = false := by rw [himage]; rfl
      exact next (by simp [State.completeRestart, hrestarting])
    | pinReset => exact absurd rfl hc
    | resetReleased b v => exact absurd rfl (hc' b v)
    | _ => exact absurd rfl hn

theorem heldInReset_exec (hheld : s.HeldInReset) (h : exec c s = .next t) : t.HeldInReset := by
  by_cases hpin : c = .pinReset
  · subst hpin
    cases h
    exact fun _ => rfl
  by_cases hrel : ∃ b v, c = .resetReleased b v
  · obtain ⟨b, v, rfl⟩ := hrel
    cases h
    split
    · exact fun hr => by cases hr
    · exact hheld
  push Not at hrel
  cases hr : s.resetAsserted with
  | true =>
    rw [exec_of_held hr hheld hpin hrel] at h
    cases h
    exact hheld
  | false =>
    have hstays : t.resetAsserted = false := by
      rcases via_exec onwardRule h with ht | ⟨u, v, hu, hm, ht⟩
      · rw [ht.resetAsserted, hr]
      · rw [ht.resetAsserted, ← hr, ← hu.resetAsserted]
        cases hm with
        | pinReset => exact absurd rfl hpin
        | released b v => exact absurd rfl (hrel b v)
        | _ => rfl
    intro ht
    rw [hstays] at ht
    cases ht

/-! ### The laws of session ends -/

theorem waitingEndsSound_iff : s.WaitingEndsSound ↔ s.EndsWait ∧ s.RestartStands := by
  constructor
  · intro h
    exact ⟨⟨fun q hq => (h q).2.1 hq, fun q hq => (h q).1 hq⟩, fun hr q => (h q).2.2 hr⟩
  · rintro ⟨⟨h1, h2⟩, h3⟩ q
    exact ⟨h2 q, h1 q, fun hr => h3 hr q⟩

/-- A port that is CLOSED has no OPEN in progress (R103). -/
theorem allClosed_of_restarting (h : s.NoticesAgree) (hs : s.RestartStands) (hr : s.restarting = true) :
    s.AllClosed := by
  refine ⟨fun q => (hs hr q).1, fun q => (hs hr q).2.1, fun q => ?_⟩
  obtain ⟨-, -, -, -, -, hopening⟩ := h q
  refine Option.not_isSome_iff_eq_none.mp fun ho => ?_
  have := hopening ho
  simp [State.isOpen, (hs hr q).1] at this

/-- The three laws and what they rest on, for a command. -/
theorem sessionEnds_exec (hinv : s.Inv) (h : exec c s = .next t) :
    t.EndsSound ∧ t.WaitingEndsSound ∧ t.HeldInReset := by
  obtain ⟨hlocks, -, -, -, -, hnotices, -, hlinks, -, hends, hwaiting, hheld⟩ := hinv
  obtain ⟨hwait, hrestart⟩ := waitingEndsSound_iff.mp hwaiting
  refine ⟨endsLaw.exec hlocks hends c (fun _ _ _ => hends) h, waitingEndsSound_iff.mpr ⟨?_, ?_⟩,
    heldInReset_exec hheld h⟩
  · by_cases hrel : ∃ b v, c = .resetReleased b v
    · obtain ⟨b, v, rfl⟩ := hrel
      cases h
      split
      · next hr =>
        have hnil (q : Port) : (s.session q).deferred = [] := by
          rw [hheld hr]
          simp [State.session, State.reset]
        exact ⟨fun q _ d hd => by
          have hd' : d ∈ (s.session q).deferred := hd
          simp [hnil q] at hd', fun q _ => hnil q⟩
      · exact hwait
    · push Not at hrel
      exact endsWait_exec hwait hlinks (fun hr q => (hrestart hr q).2.2) hrel h
  · exact restartStands_exec hrestart (allClosed_of_restarting hnotices hrestart) h

/-- Settles O58: where the sessions stand is kept by every kind of step, what waits is taken with its reply, and a
part without an active line stands still. -/
theorem stepsKeepSessionEndsAndReset : Obligations.StepsKeepSessionEndsAndReset := by
  intro s t hinv hs
  unfold step at hs
  split at hs
  · cases hs
    obtain ⟨-, -, -, -, -, -, -, -, -, hends, hwaiting, hheld⟩ := hinv
    exact ⟨hends, hwaiting, hheld⟩
  · next c rest _ =>
    have hinv' : State.Inv { s with pending := rest } := by
      obtain ⟨h1, h2, h3, h4, h5, h6, h7, h8, h9, h10, h11, hheld⟩ := hinv
      exact ⟨h1, h2, h3, h4, h5, h6, h7, h8, h9, h10, h11, heldInReset_withPending hheld rest⟩
    exact sessionEnds_exec hinv' hs

end Sys2Proof.Machine
end

section
/-! PROOFS. Steps and messages: what a step takes, the checks before the owner, and configurations read back
(Chapter 10). -/

namespace Sys2Proof.Machine

variable {s t : State} {p : Port} {b : Body} {k : Kind}

/-! ### Steps -/

/-- Settles O1: a step on a queue with a front command is that command's execution. -/
theorem stepTakesTheFrontCommand : Obligations.StepTakesTheFrontCommand := fun _ _ => rfl

/-- A request whose kind is not that of the port's next one does nothing (log entry 3). -/
theorem takeRequest_of_other (h : (s.nextRequest p).bind kindOf ≠ some k) (owner : Body → State → State) :
    s.takeRequest k p owner = s := by
  unfold State.takeRequest
  split
  · rfl
  · next b hb =>
    have hne : kindOf b ≠ some k := by simpa [hb] using h
    rw [if_neg hne]

/-- The command of a request kind hands on and takes the port's next request. -/
theorem exec_request (k : Kind) (p : Port) : ∃ owner : Body → State → State, ∀ s : State,
    exec (k.request p) s = .next (s.takeRequest k p owner) := by
  cases k <;> exact ⟨_, fun _ => rfl⟩

/-- Settles O3: an empty queue has no front command, and a request command finds its kind or leaves the part as it
is. -/
theorem idleAndAbsentCommandsChangeNothing : Obligations.IdleAndAbsentCommandsChangeNothing := by
  refine ⟨fun s h => by rw [step, h], fun s p k h => ?_, fun s p h => ?_⟩
  · obtain ⟨owner, hexec⟩ := exec_request k p
    rw [hexec, takeRequest_of_other h]
  · have hsame : s.refuseUnknown p = s := by
      unfold State.refuseUnknown
      split
      · rfl
      · next b hb =>
        rw [hb] at h
        rw [if_neg (by simpa [Option.isNone_iff_eq_none, ← Option.isSome_iff_ne_none] using h)]
    exact congrArg Host.Outcome.next hsame

/-! ### Requests that fail a check -/

/-- The body answered to a refused request: kind plus 0x80, tag, status (R165). -/
theorem replyTo_refused (b : Body) (st : Status) : replyTo b st [] = [byteAt b 0 + 0x80, byteAt b 1, st.code] := rfl

/-- A report leaves everything but the sessions and the capture. -/
theorem fixed_report_answered {t : State} {r : Report} (ht : t = { (s.handOn p).report r with links := t.links }) :
    t = { s with sessions := t.sessions, links := t.links, trace := t.trace } := by
  have hreport := fixed_report (s.handOn p) r
  rw [ht, hreport]
  rfl

/-- Reporting a request just handed on, and replying to it. -/
theorem refused_of_report (r : Report) (ht : t = { (s.handOn p).report r with links := t.links }) :
    t = { s with sessions := t.sessions, links := t.links, trace := t.trace } ∧ s.OnlyTraceTold t ∧
      s.Hears t [r] := by
  refine ⟨fixed_report_answered ht, ?_, ?_⟩
  · have htold := onlyTraceTold_report (s.handOn p) r
    rw [ht]
    exact htold
  · rw [State.Hears, ht]
    exact trace_report _ _

theorem refuse_replied (h : s.nextRequest p = some b) (st : Status) :
    s.Replied ((s.handOn p).refuse p st) p .waiting [byteAt b 0 + 0x80, byteAt b 1, st.code] :=
  replyTo_refused b st ▸ replied_taken st [] h fun q => link_reportRefused _ p none st q

theorem fixed_answer (s : State) (p : Port) (r : Body) : s.answer p r = { s with links := (s.answer p r).links } := rfl

/-- A reply given its whole body answers the request just handed on. -/
theorem replied_answer (h : s.nextRequest p = some b) (hl : ∀ q : Port, t.link q = (s.handOn p).link q) (r : Body) :
    s.Replied (t.answer p r) p .waiting r := by
  obtain ⟨-, h1, -, -⟩ := nextRequest_eq_some s h
  have hn : (s.link p).window.find? (fun x => x.cond == .handedOn) = none := by
    simpa [LinkPort.handedOn] using h1
  refine ⟨?_, fun q hq => by rw [link_answer, if_neg (Ne.symm hq), hl, link_handOn, if_neg (Ne.symm hq)]⟩
  rw [link_answer, if_pos rfl, hl, link_handOn, if_pos rfl]
  refine ⟨?_, ?_, kick_busy _ (by simp), fun hbusy => kick_keeps _ hbusy, receiver_kick _, gapDeadline_kick _,
    inBreak_kick _, fault_kick _⟩
  · rw [outgoing_kick]
    simp [LinkPort.outgoing]
  · rw [window_kick]
    exact advanceSlot_answer hn

theorem kindOf_eq_none (h : ∀ k ∈ allKinds, k.code ≠ byteAt b 0) : kindOf b = none := by
  rw [kindOf, List.find?_eq_none]
  exact fun k hk => by simpa using h k hk

/-- Settles O4: a request of a known kind is reported and answered with the failed check, one of another kind with
the kind byte received. -/
theorem checksRefuseRequests : Obligations.ChecksRefuseRequests := by
  refine fun s p b hb => ⟨fun k hk st hst => ?_, fun hno => ?_⟩
  · obtain ⟨owner, hexec⟩ := exec_request k p
    refine ⟨(s.handOn p).refuse p st, (hexec s).trans (congrArg _ (takeRequest_of_refused s owner hb hk hst)), ?_⟩
    obtain ⟨hfixed, htold, hhears⟩ := refused_of_report (t := (s.handOn p).refuse p st) _
      (fixed_reply ((s.handOn p).reportRefused p none st) p st [])
    exact ⟨hfixed, htold, hhears, refuse_replied hb st⟩
  · have hunknown : s.refuseUnknown p =
        ((s.handOn p).reportRefused p none .unknownKind).answer p (unknownKindReply b) := by
      have hb' : s.nextRequest p = some b := hb
      simp [State.refuseUnknown, hb', kindOf_eq_none hno]
    refine ⟨_, congrArg Host.Outcome.next hunknown, ?_⟩
    obtain ⟨hfixed, htold, hhears⟩ := refused_of_report _
      (fixed_answer ((s.handOn p).reportRefused p none .unknownKind) p (unknownKindReply b))
    exact ⟨hfixed, htold, hhears, replied_answer hb (fun q => link_reportRefused _ p none _ q) _⟩

/-! ### The order of the checks -/

theorem firstFailure_cons_true (st : Status) (rest : List (Bool × Status)) :
    firstFailure ((true, st) :: rest) = firstFailure rest := rfl

theorem firstFailure_cons_false (st : Status) (rest : List (Bool × Status)) :
    firstFailure ((false, st) :: rest) = some st := rfl

theorem messageCheck_of_length (h : b.length ≠ k.bodyLength) : s.messageCheck p k b = some .badLength := by
  simp [State.messageCheck, h, firstFailure]

theorem messageCheck_of_closed (h : b.length = k.bodyLength) (hk : k ≠ .openSession)
    (hs : (s.session p).state = .closed) : s.messageCheck p k b = some .noSession := by
  simp [State.messageCheck, h, hk, hs, firstFailure]

theorem messageCheck_of_lost (h : b.length = k.bodyLength) (hk : k ≠ .openSession)
    (hs : (s.session p).state = .lost) : s.messageCheck p k b = some .sessionLost := by
  simp [State.messageCheck, h, hk, hs, firstFailure]

/-- Past length and session come the supervisor port and the arguments. -/
theorem messageCheck_of_session (h : b.length = k.bodyLength) (hk : k = .openSession ∨ s.isOpen p = true) :
    s.messageCheck p k b = firstFailure ((!k.isSupervisor || s.supervisor == some p, .notSupervisor) ::
      argumentTests k b) := by
  obtain rfl | ho := hk
  · simp [State.messageCheck, h, firstFailure]
  · have hstate : (s.session p).state = .opened := by simpa [State.isOpen] using ho
    simp [State.messageCheck, h, hstate, firstFailure]

/-- A lock id is the first argument of every kind that has one (R166). -/
theorem firstFailure_of_lock (hk : k ∈ [Kind.acquire, .release, .withdraw, .renew, .convert, .query, .setLock,
    .getLock, .revoke, .purge]) (hb : 64 ≤ (byteAt b 2).toNat) :
    firstFailure (argumentTests k b) = some .noSuchLock := by
  have hbad : lockOk b 2 = false := decide_eq_false (by omega)
  simp only [List.mem_cons, List.not_mem_nil, or_false] at hk
  obtain rfl | rfl | rfl | rfl | rfl | rfl | rfl | rfl | rfl | rfl := hk <;>
    simp only [argumentTests, hbad, firstFailure_cons_false]

theorem argumentTests_eq_nil (hk : k ∈ [Kind.closeSession, .ping, .credit, .faultAck, .restart, .traceStatus]) :
    argumentTests k b = [] := by
  simp only [List.mem_cons, List.not_mem_nil, or_false] at hk
  obtain rfl | rfl | rfl | rfl | rfl | rfl := hk <;> rfl

/-- Settles O5: the checks stand in one list, and the first that fails gives the status. -/
theorem checksStandInOrder : Obligations.ChecksStandInOrder := by
  refine fun s p k b => ⟨messageCheck_of_length, fun hlen => ⟨messageCheck_of_closed hlen, messageCheck_of_lost hlen,
    fun hsession => ⟨fun hk hsup => ?_, fun hsup => ?_⟩⟩⟩
  · rw [messageCheck_of_session hlen hsession]
    have hno : (!k.isSupervisor || s.supervisor == some p) = false := by simp [hk, hsup]
    rw [hno, firstFailure_cons_false]
  · have hyes : (!k.isSupervisor || s.supervisor == some p) = true := by
      cases hk : k.isSupervisor with
      | false => rfl
      | true => simp [hsup hk]
    rw [messageCheck_of_session hlen hsession, hyes, firstFailure_cons_true]
    refine ⟨firstFailure_of_lock, fun hk => by rw [argumentTests_eq_nil hk]; rfl, fun hk => ?_⟩
    subst hk
    by_cases hlimit : 60000 < (halfAt b 3).toNat
    · simp [argumentTests, firstFailure, hlimit]
    · have hle : (halfAt b 3).toNat ≤ 60000 := by omega
      simp [argumentTests, firstFailure, hle]

/-! ### Configurations read back -/

/-- A two-byte field is read from the bytes it was sent as. -/
theorem append_halfBytes (n : Half) : n.extractLsb' 8 8 ++ n.extractLsb' 0 8 = n := by
  ext i hi
  rw [BitVec.getElem_append]
  split
  · rw [BitVec.getElem_extractLsb', Nat.zero_add, BitVec.getLsbD_eq_getElem]
  · simp only [BitVec.getElem_extractLsb']
    rw [Nat.add_sub_cancel' (by omega), BitVec.getLsbD_eq_getElem]

/-- A yes or no field is read as it was sent. -/
theorem flagCode_beq_one (x : Bool) : (flagCode x == 1) = x := by cases x <;> rfl

/-- A trace class is read from its code (R146). -/
theorem classAt_of_code {i : Nat} (c : TraceClass) (h : byteAt b i = countByte c.code) : classAt b i = c := by
  unfold classAt
  rw [h]
  cases c <;> rfl

theorem group_of_code (g : Group) : Fin.ofNat 8 (BitVec.ofNat 8 g.val).toNat = g := by
  revert g
  decide

theorem lockConfigAt_bytes (kind tag lock : Byte) (c : LockConfig) :
    lockConfigAt (kind :: tag :: lock :: c.bytes) = c := by
  obtain ⟨enabled, group, shared, policy, maxLease⟩ := c
  have hpolicy : (if policy.code = 1 then LeasePolicy.required else .optional) = policy := by cases policy <;> rfl
  simp only [lockConfigAt, LockConfig.bytes, flagAt, halfAt, byteAt, halfBytes, List.cons_append, List.nil_append,
    List.getD_cons_succ, List.getD_cons_zero, flagCode_beq_one, group_of_code, append_halfBytes, hpolicy]

theorem portConfigAt_bytes (kind tag port : Byte) (c : PortConfig) : portConfigAt
    ([kind, tag, port, c.groupMask, c.lossPolicy.policyCode] ++ halfBytes c.silenceCeiling) = c := by
  obtain ⟨mask, policy, ceiling⟩ := c
  have hpolicy : (if policy.policyCode = 1 then Disposition.retain else .release) = policy := by cases policy <;> rfl
  simp only [portConfigAt, halfAt, byteAt, halfBytes, List.cons_append, List.nil_append,
    List.getD_cons_succ, List.getD_cons_zero, append_halfBytes, hpolicy]

theorem traceSetupAt_bytes (kind tag : Byte) (c : TraceSetup) : traceSetupAt (kind :: tag :: c.bytes) = c := by
  obtain ⟨enable, start, startClass, stop, stopClass, full, classes, ports⟩ := c
  have hstart := classAt_of_code (b := kind :: tag :: TraceSetup.bytes
    ⟨enable, start, startClass, stop, stopClass, full, classes, ports⟩) (i := 4) startClass rfl
  have hstop := classAt_of_code (b := kind :: tag :: TraceSetup.bytes
    ⟨enable, start, startClass, stop, stopClass, full, classes, ports⟩) (i := 6) stopClass rfl
  unfold traceSetupAt
  rw [hstart, hstop]
  simp only [TraceSetup.bytes, flagAt, halfAt, byteAt, halfBytes, List.cons_append, List.nil_append,
    List.getD_cons_succ, List.getD_cons_zero, flagCode_beq_one, append_halfBytes]

/-- Settles O6: each field is read back from the bytes it was sent as. -/
theorem configurationsReadBack : Obligations.ConfigurationsReadBack :=
  ⟨lockConfigAt_bytes, portConfigAt_bytes, traceSetupAt_bytes⟩

end Sys2Proof.Machine
end

section
/-! PROOFS. An ACQUIRE granted at once, an upgrade, the table of hand-off, deadlines and clocks, and the state after
reset (Chapters 1 to 4, 8, 9). -/

namespace Sys2Proof.Machine

variable {s t : State} {p : Port} {b : Body} {l : LockId} {e : LockEntry} {h : Holding}

/-! ### An ACQUIRE granted at once -/

theorem takeAcquire_of_granted {m : Mode} {wait : Bool} {lease limit : Half}
    (h : s.judgeAcquire p l m wait lease = .granted) :
    s.takeAcquire p l m wait lease limit = (s.grantNow p l m lease).replyStanding p l .granted := by
  simp only [State.takeAcquire, h]

/-- The report of a grant at once (R12). -/
def grantNowReport (p : Port) (l : LockId) (m : Mode) (g : Grant) : Report :=
  { cls := .grantNow, port := p, lock := some l, detail := m.code, grant := some g }

section
variable (s p l) (m : Mode) (lease : Half)

theorem grantNow_eq : s.grantNow p l m lease =
    (s.grantTo p l m lease).report (grantNowReport p l m (nextGrant (s.lock l).last)) := rfl

theorem lockWork_grantNow : s.LockWork (s.grantNow p l m lease) :=
  (lockWork_grantTo s p l m lease).trans (lockWork_report _ _)

theorem lock_grantNow (k : LockId) : (s.grantNow p l m lease).lock k =
    if l = k then (s.lock l).grant s.clock p m lease else s.lock k := by
  rw [grantNow_eq, lock_report, lock_grantTo]

theorem standing_grantNow (q : Port) (k : LockId) : (s.grantNow p l m lease).standing q k =
    if p = q ∧ l = k then (s.standing p l).hold (s.grantOf l m lease) else s.standing q k := by
  rw [grantNow_eq, standing_report, standing_grantTo]

theorem count_grantNow (q : Port) : (s.grantNow p l m lease).count q =
    if p = q then (s.count p).addHolding else s.count q := by
  rw [grantNow_eq, count_report, count_grantTo]

@[simp] theorem poolInUse_grantNow : (s.grantNow p l m lease).poolInUse = s.poolInUse := by
  rw [grantNow_eq, poolInUse_report, poolInUse_grantTo]

/-- The work of an ACQUIRE granted at once, once its caller is answered (R6, R12, R16). -/
theorem ownWork_grantNow (st : Status) :
    s.OwnWork ((s.grantNow p l m lease).replyStanding p l st) p l ((s.lock l).grant s.clock p m lease)
      ((s.standing p l).hold (s.grantOf l m lease)).clear (s.count p).addHolding s.poolInUse
      [grantNowReport p l m (nextGrant (s.lock l).last)] := by
  have hframe : s.LockFrame (s.grantNow p l m lease) l :=
    lockFrame_of_lockWork (lockWork_grantNow s p l m lease)
      (fun k hk => by rw [lock_grantNow, if_neg (Ne.symm hk)])
      (fun q k hk => by rw [standing_grantNow, if_neg fun e => hk e.2.symm])
  have hothers : ∀ q : Port, q ≠ p → (s.grantNow p l m lease).standing q l = s.standing q l ∧
      (s.grantNow p l m lease).count q = s.count q := fun q hq => by
    rw [standing_grantNow, if_neg fun e => hq e.1.symm, count_grantNow, if_neg (Ne.symm hq)]
    exact ⟨rfl, rfl⟩
  have htold : s.Told (s.grantNow p l m lease) l (fun _ => false) :=
    told_report (t := s.grantTo p l m lease) (told_refl s l) (lockWork_grantTo s p l m lease).isOpen
      (lockWork_grantTo s p l m lease).supervisor id _
  have hheard : s.Hears (s.grantNow p l m lease) [grantNowReport p l m (nextGrant (s.lock l).last)] :=
    trace_report (s.grantTo p l m lease) _
  have hown := ownWork_replyStanding hframe hothers hheard (listsGrow_of_told htold) st
  rwa [lock_grantNow, if_pos rfl, standing_grantNow, if_pos ⟨rfl, rfl⟩, count_grantNow, if_pos rfl,
    poolInUse_grantNow] at hown

end

/-- The standing report of a lock just granted shows the full lease (R16). -/
theorem standingReport_grantNow (s : State) (p : Port) (l : LockId) (m : Mode) (lease : Half) :
    (s.grantNow p l m lease).standingReport p l =
      m.held.code :: wordBytes (nextGrant (s.lock l).last) ++ halfBytes lease := by
  have hrecord : (s.grantNow p l m lease).standing p l = (s.standing p l).hold (s.grantOf l m lease) := by
    rw [standing_grantNow, if_pos ⟨rfl, rfl⟩]
  have hleft : leaseRemaining s.clock (s.grantOf l m lease).deadline = lease :=
    leaseRemaining_optionalDeadline s.clock lease
  rw [standingReport_of_hold hrecord, (lockWork_grantNow s p l m lease).clock, hleft]
  rfl

/-- Settles O9: the request is judged to be granted, makes its holding, and is answered with it. -/
theorem acquireGrants : Obligations.AcquireGrants := by
  intro s p b htakes htests honce
  have hjudge : (s.handOn p).judgeAcquire p (lockAt b 2) (modeAt b 3) (flagAt b 4) (halfAt b 5) = .granted := by
    rw [judgeAcquire_eq, acquireTests_handOn, htests, Option.getD_none]
    exact if_pos honce
  have hexec := exec_acquire_of_takes htakes
  rw [takeAcquire_of_granted hjudge] at hexec
  have hrep := replied_replyStanding htakes.1
    (lockWork_grantNow (s.handOn p) p (lockAt b 2) (modeAt b 3) (halfAt b 5)) (lockAt b 2) .granted
  rw [standingReport_grantNow] at hrep
  exact ⟨_, hexec, ownWork_of_handOn (ownWork_grantNow _ _ _ _ _ _), hrep⟩

/-! ### An upgrade -/

theorem takeConvert_of_upgrade {g : Grant} (hok : (s.lock l).holderTest p g = .ok h) (hm : h.mode = .shared)
    (hup : (s.lock l).upgradable p = true) :
    s.takeConvert p l g .exclusive = (s.upgrade p l h).replyStanding p l .ok := by
  simp only [State.takeConvert, hok, hm, hup, reduceCtorEq, if_true, if_false]

theorem filter_allPorts_self : ∀ p : Port, (allPorts.filter fun q => q == p) = [p] := by decide

/-- A sole holder without waiters stands alone on the lock (R55). -/
theorem upgradable_of_sole (hh : e.holding p = some h) (hsole : ∀ q : Port, q ≠ p → e.holding q = none)
    (hq : e.queue = []) : e.upgradable p = true := by
  have hports : e.holderPorts = allPorts.filter fun q => q == p := by
    unfold LockEntry.holderPorts
    congr 1
    funext q
    by_cases hqp : q = p
    · simp [hqp, hh]
    · simp [hsole q hqp, hqp]
  simp [LockEntry.upgradable, hports, filter_allPorts_self, hq]

/-- The holding turned EXCLUSIVE under a number, lease kept (R56). -/
def Holding.raise (h : Holding) (g : Grant) : Holding := { h with mode := .exclusive, grant := g }

/-- The report of an upgrade, with its new number (R56). -/
def raisedReport (p : Port) (l : LockId) (g : Grant) : Report :=
  { cls := .converted, port := p, lock := some l, detail := Mode.exclusive.code, grant := some g }

section
variable (s p l h)

theorem upgrade_eq : s.upgrade p l h =
    (s.raiseHolding p l h).report (raisedReport p l (nextGrant (s.lock l).last)) := rfl

theorem lockWork_upgrade : s.LockWork (s.upgrade p l h) :=
  (lockWork_raiseHolding s p l h).trans (lockWork_report _ _)

theorem lock_upgrade (k : LockId) : (s.upgrade p l h).lock k =
    if l = k then (s.lock l).issue.hold p (h.raise (nextGrant (s.lock l).last)) else s.lock k := by
  rw [upgrade_eq, lock_report, lock_raiseHolding]
  rfl

theorem standing_upgrade (q : Port) (k : LockId) : (s.upgrade p l h).standing q k =
    if p = q ∧ l = k then (s.standing p l).hold (h.raise (nextGrant (s.lock l).last)) else s.standing q k := by
  rw [upgrade_eq, standing_report, standing_raiseHolding]
  rfl

@[simp] theorem count_upgrade (q : Port) : (s.upgrade p l h).count q = s.count q := by
  rw [upgrade_eq, count_report, count_raiseHolding]

@[simp] theorem poolInUse_upgrade : (s.upgrade p l h).poolInUse = s.poolInUse := by
  rw [upgrade_eq, poolInUse_report, poolInUse_raiseHolding]

/-- The work of an upgrade, once its caller is answered (R16, R56). -/
theorem ownWork_upgrade (st : Status) :
    s.OwnWork ((s.upgrade p l h).replyStanding p l st) p l
      ((s.lock l).issue.hold p (h.raise (nextGrant (s.lock l).last)))
      ((s.standing p l).hold (h.raise (nextGrant (s.lock l).last))).clear (s.count p) s.poolInUse
      [raisedReport p l (nextGrant (s.lock l).last)] := by
  have hframe : s.LockFrame (s.upgrade p l h) l :=
    lockFrame_of_lockWork (lockWork_upgrade s p l h)
      (fun k hk => by rw [lock_upgrade, if_neg (Ne.symm hk)])
      (fun q k hk => by rw [standing_upgrade, if_neg fun e => hk e.2.symm])
  have hothers : ∀ q : Port, q ≠ p → (s.upgrade p l h).standing q l = s.standing q l ∧
      (s.upgrade p l h).count q = s.count q := fun q hq => by
    rw [standing_upgrade, if_neg fun e => hq e.1.symm, count_upgrade]
    exact ⟨rfl, rfl⟩
  have htold : s.Told (s.upgrade p l h) l (fun _ => false) :=
    told_report (t := s.raiseHolding p l h) (told_refl s l) (lockWork_raiseHolding s p l h).isOpen
      (lockWork_raiseHolding s p l h).supervisor id _
  have hheard : s.Hears (s.upgrade p l h) [raisedReport p l (nextGrant (s.lock l).last)] :=
    trace_report (s.raiseHolding p l h) _
  have hown := ownWork_replyStanding hframe hothers hheard (listsGrow_of_told htold) st
  rwa [lock_upgrade, if_pos rfl, standing_upgrade, if_pos ⟨rfl, rfl⟩, count_upgrade, poolInUse_upgrade] at hown

theorem standingReport_upgrade : (s.upgrade p l h).standingReport p l =
    Standing.heldExclusive.code :: wordBytes (nextGrant (s.lock l).last) ++
      halfBytes (leaseRemaining s.clock h.deadline) := by
  have hrecord : (s.upgrade p l h).standing p l =
      (s.standing p l).hold (h.raise (nextGrant (s.lock l).last)) := by
    rw [standing_upgrade, if_pos ⟨rfl, rfl⟩]
  rw [standingReport_of_hold hrecord, (lockWork_upgrade s p l h).clock]
  rfl

end

/-- Settles O17: the caller passes the holder test as the sole holder, its holding is raised, and it is answered
with it. -/
theorem convertUpgrades : Obligations.ConvertUpgrades := by
  intro s p b htakes h hh hgrant hm htarget hsole hqueue
  have hok : ((s.handOn p).lock (lockAt b 2)).holderTest p (wordAt b 3) = .ok h :=
    holderTest_of_holding hh hgrant
  have hexec := exec_convert_of_takes htakes
  rw [htarget, takeConvert_of_upgrade hok hm (upgradable_of_sole hh hsole hqueue)] at hexec
  have hrep := replied_replyStanding htakes.1 (lockWork_upgrade (s.handOn p) p (lockAt b 2) h) (lockAt b 2) .ok
  rw [standingReport_upgrade] at hrep
  exact ⟨_, hexec, ownWork_of_handOn (ownWork_upgrade _ _ _ _ _), hrep⟩

/-! ### The table of hand-off -/

theorem handOffRun_of_empty (h : e.queue = []) : e.handOffRun = [] := by
  rw [LockEntry.handOffRun, h]

/-- A lock held SHARED by some port is held EXCLUSIVE by none (R7). -/
theorem mode_eq_shared_of_shape (hshape : e.Shape) {q : Port} (hq : e.holdsIn .shared q = true) :
    e.mode = some .shared := by
  refine (mode_eq_shared_iff e).mpr ⟨⟨q, hq⟩, fun r => Bool.eq_false_iff.mpr fun hr => ?_⟩
  obtain ⟨x, hx, hxm⟩ := (holdsIn_iff e .shared q).mp hq
  by_cases hrq : r = q
  · obtain ⟨y, hy, hym⟩ := (holdsIn_iff e .exclusive r).mp hr
    rw [hrq, hx] at hy
    obtain rfl := Option.some.inj hy
    simp [hxm] at hym
  · simp [hshape r q hrq hr] at hx

/-- The run of SHARED waiters at the head of a queue ends before the first that is not SHARED (R34). -/
theorem sharedRun_spec {w : Waiter} {rest : List Waiter} (hq : e.queue = w :: rest) (hw : w.mode = .shared)
    (hrun : e.handOffRun = e.queue.takeWhile fun x => x.mode == .shared) :
    ∃ behind, e.queue = e.handOffRun ++ behind ∧ e.handOffRun ≠ [] ∧ (∀ x ∈ e.handOffRun, x.mode = .shared) ∧
      ∀ x ∈ behind.head?, x.mode = .exclusive := by
  refine ⟨e.queue.dropWhile fun x => x.mode == .shared, ?_, ?_, fun x hx => ?_, fun x hx => ?_⟩
  · rw [hrun, List.takeWhile_append_dropWhile]
  · rw [hrun, hq, List.takeWhile_cons, if_pos (by simp [hw])]
    exact List.cons_ne_nil _ _
  · rw [hrun] at hx
    simpa using List.mem_takeWhile_imp hx
  · have hnot := List.head?_dropWhile_not (fun x : Waiter => x.mode == .shared) e.queue
    rw [hx] at hnot
    cases hm : x.mode with
    | shared => simp [hm] at hnot
    | exclusive => rfl

/-- Settles O19: each row of the table names the lock's mode and the first waiter's. -/
theorem handOffFollowsItsTable : Obligations.HandOffFollowsItsTable := by
  refine fun e hshape => ⟨handOffRun_of_empty, fun w rest hq => ⟨fun hnone hw => ?_, fun ⟨q, hx⟩ => ?_,
    fun ⟨q, hx⟩ hw => ?_, fun hno hw => sharedRun_spec hq hw ?_⟩⟩
  · simp only [LockEntry.handOffRun, hq, (mode_eq_none_iff e).mpr hnone, hw]
  · simp only [LockEntry.handOffRun, hq, (mode_eq_exclusive_iff e).mpr ⟨q, hx⟩]
  · simp only [LockEntry.handOffRun, hq, mode_eq_shared_of_shape hshape hx, hw]
  · have hmode : e.mode ≠ some .exclusive := fun hm => by
      obtain ⟨q, hx⟩ := (mode_eq_exclusive_iff e).mp hm
      simp [hno q] at hx
    unfold LockEntry.handOffRun
    rw [hq]
    cases hm : e.mode with
    | none => simp only [hw]
    | some m =>
      cases m with
      | shared => simp only [hw]
      | exclusive => exact absurd hm hmode

/-! ### Deadlines -/

/-- Part of the way to a deadline gone, the rest is left (R62). -/
theorem distance_advanced (now : Clock) (n : Half) {k : Nat} (hk : k ≤ n.toNat) :
    distance (now + BitVec.ofNat 32 k) (deadlineAfter now n) = n.toNat - k := by
  have hn := n.isLt
  have hrest : deadlineAfter now n - (now + BitVec.ofNat 32 k) = BitVec.ofNat 32 (n.toNat - k) := by
    apply BitVec.eq_of_toNat_eq
    simp only [deadlineAfter, BitVec.toNat_sub, BitVec.toNat_add, BitVec.toNat_ofNat, BitVec.toNat_setWidth]
    omega
  rw [distance, hrest, BitVec.toNat_ofNat, Nat.mod_eq_of_lt (by omega)]

theorem reached_advanced (now : Clock) (n : Half) {k : Nat} (hk : k ≤ n.toNat) :
    reached (now + BitVec.ofNat 32 k) (deadlineAfter now n) = true ↔ k = n.toNat := by
  have hn := n.isLt
  simp only [reached, distance_advanced now n hk, maxAhead, Bool.or_eq_true, beq_iff_eq, decide_eq_true_eq]
  omega

/-- Settles O22: the distance to the deadline is what is left of its length. -/
theorem deadlinesAreReachedOnTime : Obligations.DeadlinesAreReachedOnTime := by
  intro now n k _ hk
  refine ⟨reached_advanced now n hk, ?_⟩
  rw [leaseRemaining]
  by_cases hr : k = n.toNat
  · rw [if_pos ((reached_advanced now n hk).mpr hr), hr, Nat.sub_self]
    rfl
  · rw [if_neg (mt (reached_advanced now n hk).mp hr), distance_advanced now n hk, Nat.max_eq_right (by omega)]

/-! ### Clocks -/

theorem tick_of_running {u : TraceUnit} (hr : u.state = .running) (ht : u.timer ≠ 0xFFFFFF) :
    u.tick = { u with timer := u.timer + 1 } := by
  rw [TraceUnit.tick, if_pos hr, beq_false_of_ne ht, Bool.or_false]

/-- The advance past 16,777,215 (R142). -/
theorem tick_of_wrap {u : TraceUnit} (hr : u.state = .running) (ht : u.timer = 0xFFFFFF) :
    u.tick = { u with timer := 0, timeWrapped := true } := by
  simp [TraceUnit.tick, hr, ht]

theorem tick_of_not_running {u : TraceUnit} (h : u.state ≠ .running) : u.tick = u := by
  simp [TraceUnit.tick, h]

/-- Settles O23: the clock counts outside RESET, and the timer ticks while the capture runs. -/
theorem clocksCount : Obligations.ClocksCount := by
  refine fun s => ⟨fun hr => ?_, fun hr ht => ?_, fun hr ht => ⟨?_, ?_⟩, fun hn => ⟨?_, ?_⟩⟩
  · exact congrArg Host.Outcome.next (by simp [State.advanceClock, hr])
  · exact congrArg (fun u => Host.Outcome.next (s.setTrace u)) (tick_of_running hr ht)
  · exact congrArg (fun u => Host.Outcome.next (s.setTrace u)) (tick_of_wrap hr ht)
  · refine congrArg Host.Outcome.next ?_
    rw [State.wrapTimer, if_pos ht, tick_of_wrap hr ht]
    rfl
  · exact congrArg (fun u => Host.Outcome.next (s.setTrace u)) (tick_of_not_running hn)
  · refine congrArg Host.Outcome.next ?_
    unfold State.wrapTimer
    rw [tick_of_not_running hn]
    split <;> rfl

/-! ### The state after reset -/

theorem session_reset (p : Port) : State.reset.session p = {} := by
  rw [State.session, State.reset, look_replicate]

theorem link_reset (p : Port) : State.reset.link p = {} := by
  rw [State.link, State.reset, look_replicate]

theorem unused_reset : State.reset.Unused := by
  obtain ⟨hholding, hqueue, hstanding, hcount, hpool⟩ := unused_of_pinReset State.reset
  exact ⟨hholding, hqueue, hstanding, hcount, hpool⟩

/-- Settles O52: nobody stands on a lock, and every session entry, link port and the trace unit is empty. -/
theorem resetKeepsTheLaws : Obligations.ResetKeepsTheLaws := by
  have hlists : State.reset.ListsSound := listsSound_afresh unused_reset.standing fun q => by
    rw [session_reset]
    exact ⟨rfl, rfl⟩
  obtain ⟨hchanges, hnotices⟩ := listsSound_iff.mp hlists
  have htallied := tallied_of_unused unused_reset
  have hends : State.reset.EndsSound := endsSound_of_unused unused_reset fun q => by rw [session_reset]
  refine ⟨locksSound_of_unused unused_reset, standingsAgree_of_unused unused_reset, htallied.1, htallied.2, hchanges,
    hnotices, fun q => ?_, fun q => ?_, (by decide : TraceUnit.Sound {}), hends, fun q => ?_, fun hr => by cases hr⟩
  · rw [session_reset]
    decide
  · rw [link_reset]
    decide
  · rw [session_reset]
    exact ⟨fun _ => rfl, fun _ _ hd => absurd hd List.not_mem_nil, fun _ => ⟨rfl, rfl, rfl⟩⟩

end Sys2Proof.Machine
end

section
/-! PROOFS. The link ports: the receiver's table, valid frames, line faults, and the characters of a whole frame
(Chapter 9). -/

namespace Sys2Proof.Machine

variable {s t : State} {p : Port} {b : Body}

/-! ### The receiver -/

@[simp] theorem setReceiver_setReceiver (s : State) (p : Port) (r r' : ReceiverState) :
    (s.setReceiver p r).setReceiver p r' = s.setReceiver p r' := by
  unfold State.setReceiver
  rw [setLink_setLink, link_setLink_self]
  rfl

theorem receiver_setReceiver (s : State) (p : Port) (r : ReceiverState) :
    ((s.setReceiver p r).link p).receiver = r := by
  rw [link_setReceiver, if_pos rfl]

theorem window_setReceiver (s : State) (p : Port) (r : ReceiverState) :
    ((s.setReceiver p r).link p).window = (s.link p).window := by
  rw [link_setReceiver, if_pos rfl]

theorem receives_setReceiver (s : State) (p : Port) (r : ReceiverState) :
    (s.setReceiver p r).receives p = s.receives p := by
  unfold State.receives
  rw [link_setReceiver, if_pos rfl]
  rfl

/-- Outside HUNT the next character has 4 ms to come (R153). -/
theorem setReceiver_of_frame {r : ReceiverState} (h : r ≠ .hunt) : s.setReceiver p r =
    s.setLink p { s.link p with receiver := r, gapDeadline := some (s.clock + 4) } := by
  rw [State.setReceiver, if_neg h]
  rfl

theorem setReceiver_hunt : s.setReceiver p .hunt =
    s.setLink p { s.link p with receiver := .hunt, gapDeadline := none } := rfl

/-! One equation for each row of the receiver's table (R151). -/

section
variable {c n high : Byte} {got : Body}

theorem takeCharacter_of_hunt (h : (s.link p).receiver = .hunt) :
    s.takeCharacter p c = if c = leadByte then s.setReceiver p .length else s := by
  rw [State.takeCharacter, h]

theorem takeCharacter_of_length (h : (s.link p).receiver = .length) : s.takeCharacter p c =
    if goodLength c then s.setReceiver p (.body c []) else s.discardFrame p .frameShape := by
  rw [State.takeCharacter, h]

theorem takeCharacter_of_body (h : (s.link p).receiver = .body n got) : s.takeCharacter p c =
    if n.toNat ≤ got.length + 1 then s.setReceiver p (.check (got ++ [c]) none)
    else s.setReceiver p (.body n (got ++ [c])) := by
  simp only [State.takeCharacter, h, List.length_append, List.length_singleton]

theorem takeCharacter_of_check (h : (s.link p).receiver = .check got none) :
    s.takeCharacter p c = s.setReceiver p (.check got (some c)) := by
  rw [State.takeCharacter, h]

theorem takeCharacter_of_checked (h : (s.link p).receiver = .check got (some high)) : s.takeCharacter p c =
    if high ++ c = frameCheckOf got then s.completeFrame p got else s.discardFrame p .frameCheck := by
  rw [State.takeCharacter, h]

end

theorem goodLength_iff (c : Byte) : goodLength c = true ↔ 2 ≤ c.toNat ∧ c.toNat ≤ 60 := by
  rw [goodLength, decide_eq_true_eq]
  rfl

theorem goodBody_of_length (h2 : 2 ≤ b.length) (h60 : b.length ≤ 60) : goodBody b = true :=
  decide_eq_true ⟨h2, h60⟩

/-! The frame commands where they apply (R151, R152, R155). -/

theorem exec_character (hr : s.receives p = true) (c : Byte) :
    exec (.characterReceived p c) s = .next (s.takeCharacter p c) :=
  congrArg Host.Outcome.next (if_pos hr)

theorem exec_validFrame (hr : s.receives p = true) (hb : goodBody b = true)
    (hend : (s.link p).receiver.canEnd b (frameCheckOf b) = true) :
    exec (.validFrame p b) s = .next (s.completeFrame p b) :=
  congrArg Host.Outcome.next (if_pos (by rw [hr, hb, hend]; rfl))

theorem exec_frameCheck {check : Half} (hr : s.receives p = true) (hb : goodBody b = true)
    (hc : check ≠ frameCheckOf b) (hend : (s.link p).receiver.canEnd b check = true) :
    exec (.frameCheck p b check) s = .next (s.discardFrame p .frameCheck) :=
  congrArg Host.Outcome.next (if_pos (by simp [hr, hb, hc, hend]))

theorem exec_frameShape {n : Byte} (hr : s.receives p = true) (hn : n.toNat < 2 ∨ 60 < n.toNat)
    (hbegin : (s.link p).receiver.canBegin = true) :
    exec (.frameShape p n) s = .next (s.discardFrame p .frameShape) := by
  have hbad : goodLength n = false := Bool.eq_false_iff.mpr fun h => by
    have := (goodLength_iff n).mp h
    omega
  exact congrArg Host.Outcome.next (if_pos (by rw [hr, hbad, hbegin]; rfl))

theorem extractLsb'_append_high (a c : Byte) : (a ++ c).extractLsb' 8 8 = a := by
  apply BitVec.eq_of_toNat_eq
  have hc := c.isLt
  have ha := a.isLt
  rw [BitVec.extractLsb'_toNat, BitVec.toNat_append, ← Nat.shiftLeft_add_eq_or_of_lt hc, Nat.shiftLeft_eq,
    Nat.shiftRight_eq_div_pow]
  omega

theorem canEnd_of_checked {got : Body} {high c : Byte} (h : (s.link p).receiver = .check got (some high)) :
    (s.link p).receiver.canEnd got (high ++ c) = true := by
  rw [h]
  simp [ReceiverState.canEnd, extractLsb'_append_high]

/-- The second check byte completes a valid frame or a frame with a wrong check (R151). -/
theorem exec_character_of_checked {got : Body} {high : Byte} (hr : s.receives p = true)
    (h : (s.link p).receiver = .check got (some high)) (hb : goodBody got = true) (c : Byte) :
    exec (.characterReceived p c) s = if high ++ c = frameCheckOf got then exec (.validFrame p got) s
      else exec (.frameCheck p got (high ++ c)) s := by
  have hend := canEnd_of_checked (c := c) h
  rw [exec_character hr, takeCharacter_of_checked h]
  split
  · next heq => rw [exec_validFrame hr hb (heq ▸ hend)]
  · next hne => rw [exec_frameCheck hr hb hne hend]

/-- Settles O44: one row of the receiver's table for each clause. -/
theorem receiverFollowsItsTable : Obligations.ReceiverFollowsItsTable := by
  refine fun s p c hr => ⟨fun h => ?_, fun h h2 h60 => ?_, fun h hbad => ?_, fun n got h hlen => ?_, fun got h => ?_,
    fun got high h h2 h60 => exec_character_of_checked hr h (goodBody_of_length h2 h60) c⟩
  · rw [exec_character hr, takeCharacter_of_hunt h, setReceiver_of_frame (by simp)]
    rfl
  · rw [exec_character hr, takeCharacter_of_length h, if_pos ((goodLength_iff c).mpr ⟨h2, h60⟩),
      setReceiver_of_frame (by simp)]
  · have hbegin : (s.link p).receiver.canBegin = true := by rw [h]; rfl
    have hnot : ¬ goodLength c = true := fun hg => by
      have := (goodLength_iff c).mp hg
      omega
    rw [exec_character hr, takeCharacter_of_length h, if_neg hnot, exec_frameShape hr hbad hbegin]
  · rw [exec_character hr, takeCharacter_of_body h]
    by_cases hlast : got.length + 1 = n.toNat
    · rw [if_pos hlast.ge, if_pos hlast, setReceiver_of_frame (by simp)]
    · rw [if_neg (by omega), if_neg hlast, setReceiver_of_frame (by simp)]
  · rw [exec_character hr, takeCharacter_of_check h, setReceiver_of_frame (by simp)]

/-! ### Faults -/

theorem inBreak_of_receives (h : s.receives p = true) : (s.link p).inBreak = false := by
  simp only [State.receives, Bool.and_eq_true, Bool.not_eq_true'] at h
  exact h.2

theorem fixed_linkFault (s : State) (p : Port) (c : FaultCode) : s.linkFault p c =
    { s with sessions := (s.linkFault p c).sessions, links := (s.linkFault p c).links,
             trace := (s.linkFault p c).trace } := by
  unfold State.linkFault
  dsimp only
  split <;> rw [fixed_report] <;> rfl

/-- A fault with the frame in progress discarded (R152). -/
theorem faulted_discardFrame (s : State) (p : Port) (c : FaultCode) :
    s.Faulted (s.discardFrame p c) p c (s.link p).inBreak := by
  have hfixed := fixed_linkFault (s.setReceiver p .hunt) p c
  refine ⟨hfixed, ?_, fun q hq => ?_, trace_linkFault _ p c, fun q => ?_⟩
  · rw [State.discardFrame, link_linkFault, if_pos rfl, link_setReceiver, if_pos rfl]
    unfold FaultRecord.add FaultRecord.after
    cases (s.link p).fault.code <;> rfl
  · rw [State.discardFrame, link_linkFault, if_neg (Ne.symm hq), link_setReceiver, if_neg (Ne.symm hq)]
  · have hcode : ((s.setReceiver p .hunt).link p).fault.code = (s.link p).fault.code := by
      rw [link_setReceiver, if_pos rfl]
    have hsession := session_linkFault (s.setReceiver p .hunt) p c q
    rw [hcode] at hsession
    exact hsession

/-- The break level noted with a fault (R154). -/
theorem faulted_breakLevel {c : FaultCode} {level : Bool} (h : s.Faulted t p c level) (level' : Bool) :
    s.Faulted (t.setLink p { t.link p with inBreak := level' }) p c level' := by
  obtain ⟨hfixed, hlink, hothers, hhears, hsession⟩ := h
  refine ⟨?_, ?_, fun q hq => ?_, hhears, hsession⟩
  · rw [hfixed]
    rfl
  · rw [link_setLink_self, hlink]
  · rw [link_setLink, if_neg (Ne.symm hq), hothers q hq]

theorem faulted_takeCharError (hr : s.receives p = true) (beginsBreak : Bool) :
    s.Faulted (s.takeCharError p beginsBreak) p .charError beginsBreak := by
  have hlevel := inBreak_of_receives hr
  obtain ⟨hreset, hrestart⟩ : s.resetAsserted = false ∧ s.restarting = false := by
    simpa [State.receives, State.lineActive, hlevel] using hr
  have hfault := faulted_discardFrame s p .charError
  rw [hlevel] at hfault
  simp only [State.takeCharError, hreset, hlevel, hrestart, Bool.or_self, Bool.false_eq_true, if_false]
  cases beginsBreak with
  | false => exact hfault
  | true => exact faulted_breakLevel hfault true

/-- Settles O46: each fault discards the frame in progress, and none is taken in a break. -/
theorem lineFaultsAreRecorded : Obligations.LineFaultsAreRecorded := by
  refine fun s p => ⟨fun hr => ?_, fun hbreak => ?_⟩
  · have hfault (c : FaultCode) : s.Faulted (s.discardFrame p c) p c false :=
      inBreak_of_receives hr ▸ faulted_discardFrame s p c
    refine ⟨fun body check h2 h60 hne hat => ⟨_, exec_frameCheck hr (goodBody_of_length h2 h60) hne ?_, hfault _⟩,
      fun n hn hat => ⟨_, exec_frameShape hr hn ?_, hfault _⟩,
      fun hdue => ⟨_, congrArg Host.Outcome.next (if_pos (by rw [hr, hdue]; rfl)), hfault _⟩,
      fun hdue => congrArg Host.Outcome.next (if_neg (by simp [hdue])),
      fun beginsBreak => ⟨_, rfl, faulted_takeCharError hr beginsBreak⟩⟩
    · rcases hat with hat | hat | hat <;> rw [hat] <;> simp [ReceiverState.canEnd]
    · rcases hat with hat | hat <;> rw [hat] <;> rfl
  · have hdeaf : s.receives p = false := by simp [State.receives, hbreak]
    refine ⟨fun c => congrArg Host.Outcome.next (if_neg (by simp [hdeaf])),
      fun body => congrArg Host.Outcome.next (if_neg (by simp [hdeaf])),
      fun again => congrArg Host.Outcome.next (if_pos (by simp [hbreak])),
      congrArg Host.Outcome.next (if_neg (by simp [hdeaf])), congrArg Host.Outcome.next ?_⟩
    rw [State.endBreak, if_pos hbreak, setReceiver_hunt, setLink_setLink, link_setLink_self]

/-! ### Valid frames -/

@[simp] theorem links_restartSilence (s : State) (p : Port) : (s.restartSilence p).links = s.links := by
  unfold State.restartSilence
  dsimp only
  split <;> rfl

@[simp] theorem link_restartSilence (s : State) (p q : Port) : (s.restartSilence p).link q = s.link q := by
  rw [State.link, links_restartSilence, State.link]

theorem restartSilence_eq (s : State) (p : Port) : s.restartSilence p =
    if s.isOpen p = true ∧ (s.session p).silenceLimit ≠ 0 then
      s.setSession p { s.session p with
        silenceDeadline := some (s.clock + (s.session p).silenceLimit.setWidth 32) } else s := by
  unfold State.restartSilence deadlineAfter
  simp only [Bool.and_eq_true, bne_iff_ne]

/-- The session unit and the receiver do not meet. -/
theorem restartSilence_setReceiver (s : State) (p : Port) (r : ReceiverState) :
    (s.setReceiver p r).restartSilence p = (s.restartSilence p).setReceiver p r := by
  rw [restartSilence_eq, restartSilence_eq]
  show (if s.isOpen p = true ∧ (s.session p).silenceLimit ≠ 0 then _ else _) = _
  split <;> rfl

theorem completeFrame_of_room (h : (s.link p).window.length < 4) : s.completeFrame p b =
    (s.restartSilence p).setLink p { s.link p with
      receiver := .hunt, gapDeadline := none, window := (s.link p).window ++ [{ body := b, cond := .waiting }] } := by
  have hwindow : (((s.restartSilence p).setReceiver p .hunt).link p).window.length < windowSize := by
    rw [window_setReceiver, link_restartSilence]
    exact h
  rw [State.completeFrame, restartSilence_setReceiver, State.admitFrame, if_pos hwindow, setReceiver_hunt,
    setLink_setLink, link_setLink_self, link_restartSilence]

theorem completeFrame_of_full (h : 4 ≤ (s.link p).window.length) :
    s.completeFrame p b = (s.restartSilence p).discardFrame p .windowOverrun := by
  have hwindow : ¬ (((s.restartSilence p).setReceiver p .hunt).link p).window.length < windowSize := by
    rw [window_setReceiver, link_restartSilence]
    exact Nat.not_lt.mpr h
  rw [State.completeFrame, restartSilence_setReceiver, State.admitFrame, if_neg hwindow]
  rfl

/-- Settles O45: the frame is complete where the receiver stands, and is admitted or dropped. -/
theorem validFrameIsAdmitted : Obligations.ValidFrameIsAdmitted := by
  refine fun s p body hr h2 h60 => ⟨fun hat u hu => ?_, fun got high hat hne => ?_⟩
  · have hend : (s.link p).receiver.canEnd body (frameCheckOf body) = true := by
      rcases hat with hat | hat | hat <;> rw [hat] <;> simp [ReceiverState.canEnd, frameCheckOf, lengthByte]
    rw [← restartSilence_eq] at hu
    subst hu
    refine ⟨_, exec_validFrame hr (goodBody_of_length h2 h60) hend, fun hroom => completeFrame_of_room hroom,
      fun hfull => ?_⟩
    have hfault := faulted_discardFrame (s.restartSilence p) p .windowOverrun
    rw [link_restartSilence] at hfault
    rw [completeFrame_of_full hfull]
    exact hfault
  · refine congrArg Host.Outcome.next (if_neg ?_)
    rw [hat, Bool.and_eq_true, not_and]
    refine fun _ => ?_
    cases high with
    | none => simpa [ReceiverState.canEnd] using hne
    | some x =>
      rw [ReceiverState.canEnd, Bool.and_eq_true, beq_iff_eq, beq_iff_eq]
      rintro ⟨hgot, hx⟩
      rcases hne with hne | ⟨y, hy, hne⟩
      · exact hne hgot
      · exact hne (Option.mem_some_iff.mp hy ▸ hx)

/-! ### A whole frame, character by character -/

theorem completeFrame_setReceiver (s : State) (p : Port) (r : ReceiverState) (b : Body) :
    (s.setReceiver p r).completeFrame p b = s.completeFrame p b := by
  rw [State.completeFrame, setReceiver_setReceiver]
  rfl

theorem discardFrame_setReceiver (s : State) (p : Port) (r : ReceiverState) (c : FaultCode) :
    (s.setReceiver p r).discardFrame p c = s.discardFrame p c := by
  rw [State.discardFrame, setReceiver_setReceiver]
  rfl

section
variable {c : Byte} {rest : List Instr} {r r' : ReceiverState} {k : Nat}

theorem run_succ_of_next (h : step s = .next t) :
    Host.Core.run core (k + 1) s = Host.Core.run core k t := by
  have hcore : core.step s = .next t := h
  simp only [Host.Core.run, hcore]

/-- A character that only moves the receiver, taken from the queue. -/
theorem run_character (hr : s.receives p = true) (hat : (s.link p).receiver = r)
    (hmove : ∀ u : State, (u.link p).receiver = r → u.takeCharacter p c = u.setReceiver p r') :
    Host.Core.run core (k + 1) { s with pending := .characterReceived p c :: rest } =
      Host.Core.run core k { s.setReceiver p r' with pending := rest } := by
  have hexec : exec (.characterReceived p c) { s with pending := rest } =
      .next { s.setReceiver p r' with pending := rest } := by
    rw [exec_character (s := { s with pending := rest }) hr, hmove { s with pending := rest } hat]
    rfl
  exact run_succ_of_next hexec

theorem run_character_received (hr : s.receives p = true)
    (hmove : ∀ u : State, (u.link p).receiver = r → u.takeCharacter p c = u.setReceiver p r') :
    Host.Core.run core (k + 1) { s.setReceiver p r with pending := .characterReceived p c :: rest } =
      Host.Core.run core k { s.setReceiver p r' with pending := rest } := by
  rw [run_character (s := s.setReceiver p r) (by rw [receives_setReceiver, hr]) (receiver_setReceiver s p r) hmove,
    setReceiver_setReceiver]

/-- The bytes still missing of a body, received one by one. -/
theorem run_body (hr : s.receives p = true) {n : Byte} : ∀ (missing got : Body), missing ≠ [] →
    got.length + missing.length = n.toNat →
    Host.Core.run core (missing.length + k) { s.setReceiver p (.body n got) with
      pending := missing.map (.characterReceived p) ++ rest } =
    Host.Core.run core k { s.setReceiver p (.check (got ++ missing) none) with pending := rest }
  | [], _, hne, _ => absurd rfl hne
  | [c], got, _, hlen => by
    have hlast : n.toNat ≤ got.length + 1 := hlen.ge
    rw [Nat.add_comm]
    exact run_character_received hr fun u hu => by rw [takeCharacter_of_body hu, if_pos hlast]
  | c :: d :: missing, got, _, hlen => by
    have hmore : ¬ n.toNat ≤ got.length + 1 := by
      simp only [List.length_cons] at hlen
      omega
    have hstep := run_character_received (k := (d :: missing).length + k)
      (rest := (d :: missing).map (.characterReceived p) ++ rest) (c := c) hr fun u hu => by
        rw [takeCharacter_of_body hu, if_neg hmore]
    have htail := run_body hr (n := n) (d :: missing) (got ++ [c]) (List.cons_ne_nil _ _) (by
      simp only [List.length_cons, List.length_append, List.length_nil] at hlen ⊢
      omega)
    rw [List.append_assoc, List.singleton_append] at htail
    rw [List.length_cons, Nat.add_right_comm]
    exact hstep.trans htail

end

/-- The last character of a frame does what the command that completes it does from HUNT. -/
theorem exec_last_character {high low : Byte} (hr : s.receives p = true) (hhunt : (s.link p).receiver = .hunt)
    (hb : goodBody b = true) : exec (.characterReceived p low) (s.setReceiver p (.check b (some high))) =
      if high ++ low = frameCheckOf b then exec (.validFrame p b) s else exec (.frameCheck p b (high ++ low)) s := by
  have hreceives : (s.setReceiver p (.check b (some high))).receives p = true := by rw [receives_setReceiver, hr]
  rw [exec_character hreceives, takeCharacter_of_checked (receiver_setReceiver s p _), completeFrame_setReceiver,
    discardFrame_setReceiver]
  split
  · rw [exec_validFrame hr hb (by rw [hhunt]; rfl)]
  · next hne => rw [exec_frameCheck hr hb hne (by rw [hhunt]; rfl)]

/-- The pending commands of a whole frame's characters. -/
theorem frame_characters (p : Port) (n : Byte) (b : Body) (check : Half) (rest : List Instr) :
    (([0xB7, n] ++ b ++ halfBytes check).map (.characterReceived p)) ++ rest =
      .characterReceived p 0xB7 :: .characterReceived p n :: (b.map (.characterReceived p) ++
        (.characterReceived p (check.extractLsb' 8 8) :: .characterReceived p (check.extractLsb' 0 8) :: rest)) := by
  simp [halfBytes]

/-- One step run is the step. -/
theorem run_one (s : State) : Host.Core.run core 1 s = step s := by
  have hcore : core.step s = step s := rfl
  cases h : step s with
  | next t => exact run_succ_of_next h
  | fault f =>
    simp only [Host.Core.run, hcore.trans h]
    rfl
  | refused f =>
    simp only [Host.Core.run, hcore.trans h]
    rfl

/-- Settles O51: the receiver goes from HUNT through LENGTH and BODY to CHECK, and the last character completes the
frame. -/
theorem framesAreMadeOfCharacters : Obligations.FramesAreMadeOfCharacters := by
  intro s p body check hr hhunt h2 h60
  have hlength : (BitVec.ofNat 8 body.length).toNat = body.length := by
    rw [BitVec.toNat_ofNat, Nat.mod_eq_of_lt (by omega)]
  have hgood : goodLength (BitVec.ofNat 8 body.length) = true :=
    (goodLength_iff _).mpr (by rw [hlength]; exact ⟨h2, h60⟩)
  have hnonempty : body ≠ [] := List.ne_nil_of_length_pos (by omega)
  rw [frame_characters, run_character hr hhunt fun u hu => by rw [takeCharacter_of_hunt hu]; rfl,
    run_character_received hr fun u hu => by rw [takeCharacter_of_length hu, if_pos hgood],
    run_body (k := 2) hr body [] hnonempty (by rw [hlength]; exact Nat.zero_add _),
    run_character_received hr fun u hu => takeCharacter_of_check hu, run_one]
  show exec (.characterReceived p (check.extractLsb' 0 8))
    (s.setReceiver p (.check body (some (check.extractLsb' 8 8)))) = _
  rw [exec_last_character hr hhunt (goodBody_of_length h2 h60), append_halfBytes]

end Sys2Proof.Machine
end

section
/-! PROOFS. The transmitter, the forming of notices, the last field of a standing report, and pin reset (Chapters 5
and 9). -/

namespace Sys2Proof.Machine

variable {s t : State} {p : Port} {b : Body} {l : LockId} {e : LockEntry}

/-! ### The transmitter -/

/-- A transmitter that chooses changes itself and the reply queue. -/
theorem kick_fields (x : LinkPort) :
    x.kick = { x with replies := x.kick.replies, transmitter := x.kick.transmitter } := by
  unfold LinkPort.kick
  split <;> rfl

/-- A free transmitter that chooses stays free only without a reply to send. -/
theorem kick_free_iff {x : LinkPort} (h : x.transmitter = .free) :
    x.kick.transmitter = .free ↔ x.kick.outgoing = [] := by
  rw [outgoing_kick, LinkPort.outgoing, h, List.nil_append, List.map_eq_nil_iff]
  refine ⟨fun hfree => ?_, fun hnone => ?_⟩
  · by_contra hsome
    exact kick_busy x hsome hfree
  · rw [LinkPort.kick, h, hnone]
    exact h

theorem kick_no_notice {x : LinkPort} (h : x.transmitter = .free) (g : List Byte) :
    x.kick.transmitter ≠ .sendingNotice g := by
  unfold LinkPort.kick
  split
  · exact nofun
  · rw [h]
    exact nofun

/-- A free transmitter's frames on the way are those of its reply queue. -/
theorem outgoing_of_free {x : LinkPort} (h : x.transmitter = .free) : x.outgoing = x.replies.map frameOf := by
  rw [LinkPort.outgoing, h, List.nil_append]

/-- Settles O47: the frame that has gone is taken off, and a free transmitter chooses. -/
theorem transmitterSendsRepliesInOrder : Obligations.TransmitterSendsRepliesInOrder := by
  refine fun s p => ⟨fun f hf => ?_, fun f hf => ?_⟩
  · set x : LinkPort := { s.link p with window := (s.link p).window.tail, transmitter := .free } with hx
    have hgone : s.replyGone p = s.setLink p x.kick := by simp only [State.replyGone, hf, hx]
    have hlink : (s.replyGone p).link p = x.kick := by rw [hgone, link_setLink_self]
    refine ⟨_, rfl, ?_, ?_, ?_, ?_⟩ <;> rw [hlink]
    · rw [hgone, kick_fields]
    · rw [outgoing_kick, outgoing_of_free (x := x) rfl, LinkPort.outgoing, hf]
      rfl
    · exact kick_free_iff rfl
    · exact kick_no_notice rfl
  · set x : LinkPort := { s.link p with transmitter := .free } with hx
    have hgone : s.noticeGone p = s.setLink p x.kick := by simp only [State.noticeGone, hf, hx]
    have hlink : (s.noticeGone p).link p = x.kick := by rw [hgone, link_setLink_self]
    refine ⟨_, rfl, ?_, ?_, ?_, ?_⟩ <;> rw [hlink]
    · rw [hgone, kick_fields]
    · rw [outgoing_kick, outgoing_of_free (x := x) rfl, LinkPort.outgoing, hf]
      rfl
    · exact kick_free_iff rfl
    · exact kick_no_notice rfl

/-! ### Notices -/

theorem noticeSubject_of_conditions (hfree : (s.link p).transmitter = .free) (hreplies : (s.link p).replies = [])
    (hcredit : 0 < (s.session p).credit) (hopen : s.isOpen p = true) (hnone : (s.link p).handedOn = none) :
    s.noticeSubject p = (s.session p).notices.head? := by
  simp [State.noticeSubject, hfree, hreplies, hcredit, hopen, hnone]

theorem formStanding_of_not (h : ∀ l : LockId, s.noticeSubject p ≠ some (.lock l)) : s.formStanding p = s := by
  unfold State.formStanding
  split
  · next l hl => exact absurd hl (h l)
  · rfl

theorem formFault_of_not (h : s.noticeSubject p ≠ some .fault) : s.formFault p = s := by
  unfold State.formFault
  split
  · next hx => exact absurd hx h
  · rfl

theorem formTrace_of_not (h : s.noticeSubject p ≠ some .trace) : s.formTrace p = s := by
  unfold State.formTrace
  split
  · next hx => exact absurd hx h
  · rfl

/-- The sending of a notice touches no standing record. -/
theorem formStanding_of_lock (h : s.noticeSubject p = some (.lock l)) : s.formStanding p =
    (s.setStanding p l { s.standing p l with count := 0, cause := none }).sendNotice p
      (s.noticeBody p 0xE0 (s.standingFields p l)) := by
  simp only [State.formStanding, h]
  rfl

/-- Settles O48: the oldest subject is what a notice is formed for, and without the conditions there is none. -/
theorem noticesReportTheOldestSubject : Obligations.NoticesReportTheOldestSubject := by
  intro s p
  have hhead {x : Subject} (h : s.noticeSubject p = some x) : (s.session p).notices.head? = some x := by
    obtain ⟨-, -, -, -, -, hx⟩ := noticeSubject_eq_some h
    exact hx
  refine ⟨fun hfree hreplies hcredit hopen hnone => ?_, fun hfails => ?_, fun hno => ?_, fun hno => ?_, fun hno => ?_⟩
  · have hsubject {x : Subject} {rest : List Subject} (h : (s.session p).notices = x :: rest) :
        s.noticeSubject p = some x := by
      rw [noticeSubject_of_conditions hfree hreplies hcredit hopen hnone, h]
      rfl
    have hsend (u : State) (hu : u.sessions = s.sessions) {x : Subject} {rest : List Subject}
        (h : (s.session p).notices = x :: rest) (body : Body) : u.NoticeFormed (u.sendNotice p body) p rest body := by
      have hrest : (u.session p).notices.tail = rest := by rw [State.session, hu, ← State.session, h]; rfl
      exact hrest ▸ noticeFormed_sendNotice u p body
    refine ⟨fun l rest h => ⟨_, congrArg Host.Outcome.next (formStanding_of_lock (hsubject h)), hsend (s.setStanding p l _) rfl h _⟩,
      fun rest h => ⟨_, congrArg Host.Outcome.next ?_, hsend s rfl h _⟩,
      fun rest h => ⟨_, congrArg Host.Outcome.next ?_, hsend s rfl h _⟩⟩
    · simp only [State.formFault, hsubject h]
      rfl
    · simp only [State.formTrace, hsubject h]
      rfl
  · have hnone : s.noticeSubject p = none := by
      rw [Option.eq_none_iff_forall_ne_some]
      intro x hx
      obtain ⟨hfree, hreplies, hcredit, hopen, hhanded, hlist⟩ := noticeSubject_eq_some hx
      rcases hfails with h | h | h | h | h | h
      · omega
      · exact h hfree
      · exact h hreplies
      · rw [hopen] at h
        contradiction
      · exact h hhanded
      · rw [h] at hlist
        contradiction
    exact ⟨congrArg Host.Outcome.next (formStanding_of_not fun l => by simp [hnone]),
      congrArg Host.Outcome.next (formFault_of_not (by simp [hnone])),
      congrArg Host.Outcome.next (formTrace_of_not (by simp [hnone]))⟩
  · exact congrArg Host.Outcome.next (formStanding_of_not fun l h => hno l (hhead h))
  · exact congrArg Host.Outcome.next (formFault_of_not fun h => hno (hhead h))
  · exact congrArg Host.Outcome.next (formTrace_of_not fun h => hno (hhead h))

/-! ### The last field of a standing report -/

/-- A record's place in the queue (R29). -/
theorem position_of_queue {before after : List Waiter} {w : Waiter} (hq : e.queue = before ++ w :: after)
    (hp : w.port = p) (hbefore : ∀ x ∈ before, x.port ≠ p) : e.position p = before.length + 1 := by
  have hw : e.waits p = true := (waits_iff e p).mpr ⟨w, by simp [hq], hp⟩
  have hnot : ∀ x ∈ before, (x.port == p) = false := fun x hx => beq_false_of_ne (hbefore x hx)
  have hindex : (before ++ w :: after).findIdx (fun x => x.port == p) = before.length := by
    rw [List.findIdx_append, List.findIdx_eq_length_of_false hnot]
    simp [List.findIdx_cons, hp]
  rw [LockEntry.position, if_pos hw, hq, hindex]

/-- Settles O49: the record agrees with the lock entry, which says how the port stands. -/
theorem standingReportsLastField : Obligations.StandingReportsLastField := by
  intro s p l hsound hagree
  have hview := (hagree p l).1
  obtain ⟨-, -, ⟨hnodup, honce⟩, -⟩ := hsound l
  refine ⟨fun h hh => ?_, fun before w after hq hp => ?_, fun hh hw => ?_⟩
  · rw [view_of_holding hh, Prod.mk.injEq] at hview
    obtain ⟨hstanding, hdeadline⟩ := hview
    rw [State.standingDetail, hstanding, hdeadline]
    cases h.mode <;> rfl
  · have hw : (s.lock l).waits p = true := (waits_iff _ p).mpr ⟨w, by simp [hq], hp⟩
    have hh : (s.lock l).holding p = none := by
      by_contra hsome
      rw [honce p (Option.isSome_iff_ne_none.mpr hsome)] at hw
      contradiction
    have hbefore : ∀ x ∈ before, x.port ≠ p := fun x hx hxp => by
      rw [hq, List.map_append, List.map_cons, List.nodup_append] at hnodup
      exact hnodup.2.2 _ (List.mem_map_of_mem hx) _ List.mem_cons_self (hxp.trans hp.symm)
    rw [view_of_not_holding hh, if_pos hw, Prod.mk.injEq] at hview
    rw [State.standingDetail, hview.1, ← position_of_queue hq hp hbefore]
  · rw [view_of_not_holding hh, if_neg (by simp [hw]), Prod.mk.injEq] at hview
    rw [State.standingDetail, hview.1]

/-! ### Pin reset -/

/-- Settles O50: every table of the pin-reset state is filled with its entry's reset values. -/
theorem pinResetStartsAfresh : Obligations.PinResetStartsAfresh := by
  refine fun s baud supsel => ⟨_, rfl, rfl, fun l => look_replicate _ l, fun q l => ?_, fun q => look_replicate _ q,
    rfl, fun q => look_replicate _ q, fun q => look_replicate _ q, rfl, rfl, rfl, rfl,
    fun u hu => congrArg Host.Outcome.next (if_pos hu)⟩
  exact unused_reset.standing q l

end Sys2Proof.Machine
end

section
/-! PROOFS. Requests that do one thing and are answered: CREDIT, FAULT_ACK, the configuration requests and their
refusals, TRACE_SETUP and TRACE_READ, and the completion of a restart (Chapters 6 to 8). -/

namespace Sys2Proof.Machine

variable {s t u : State} {p q : Port} {b : Body} {l : LockId} {k : Kind}

/-! ### CREDIT and FAULT_ACK -/

/-- The next request does not depend on the fault record. -/
theorem nextRequest_setFault (s : State) (p : Port) (f : FaultRecord) :
    (s.setLink p { s.link p with fault := f }).nextRequest p = s.nextRequest p := by
  unfold State.nextRequest
  rw [link_setLink_self]
  rfl

theorem link_handOn_setFault (s : State) (p : Port) (f : FaultRecord) (q : Port) :
    ((s.handOn p).setLink p { (s.handOn p).link p with fault := f }).link q =
      ((s.setLink p { s.link p with fault := f }).handOn p).link q := by
  rw [link_setLink, link_handOn, link_handOn, link_handOn, link_setLink_self, link_setLink, if_pos rfl]
  split <;> rfl

/-- Settles O28: the credit is raised and replied, the fault record replied and emptied. -/
theorem creditAndFaultAckDoTheirOneThing : Obligations.CreditAndFaultAckDoTheirOneThing := by
  refine fun s p b => ⟨fun h => ?_, fun h => ?_⟩
  · refine ⟨_, congrArg Host.Outcome.next (takeRequest_of_takes _ h), ?_, ?_, fun q hq => ?_,
      replied_taken _ _ h.1 fun q => rfl⟩
    · rw [State.takeCredit, fixed_reply]
      rfl
    · rw [State.takeCredit, session_reply, session_setSession_self]
      rfl
    · rw [State.takeCredit, session_reply, session_setSession, if_neg (Ne.symm hq), session_handOn]
  · refine ⟨_, congrArg Host.Outcome.next (takeRequest_of_takes _ h), ?_, ?_, fun q hq => ?_, ?_⟩
    · rw [State.takeFaultAck, fixed_reply]
      rfl
    · rw [State.takeFaultAck, session_reply, session_unnotify, if_pos rfl]
      rfl
    · rw [State.takeFaultAck, session_reply, session_unnotify, if_neg (Ne.symm hq)]
      rfl
    · rw [← fault_link_handOn s p p]
      exact replied_taken (s := s.setLink p { s.link p with fault := {} }) .ok ((s.handOn p).link p).fault.bytes
        ((nextRequest_setFault s p {}).trans h.1) fun q => link_handOn_setFault s p {} q

/-! ### Configuration -/

/-- What a command appends to a list depends on the capture, the supervisor, the session's state and the list. -/
theorem newSubjects_congr {t' : State} (htrace : u.trace = s.trace) (hsup : u.supervisor = s.supervisor)
    (hopen : u.isOpen q = s.isOpen q) (hlist : (u.session q).notices = (s.session q).notices)
    (ht : t'.trace = t.trace) (l : LockId) (gets : Port → Bool) :
    u.newSubjects t' l gets q = s.newSubjects t l gets q := by
  unfold State.newSubjects State.stopToldTo
  rw [htrace, hsup, hopen, hlist, ht]

@[simp] theorem newSubjects_reply (s t : State) (p : Port) (st : Status) (res : List Byte) (l : LockId)
    (gets : Port → Bool) (q : Port) : s.newSubjects (t.reply p st res) l gets q = s.newSubjects t l gets q :=
  newSubjects_congr rfl rfl rfl rfl (trace_reply t p st res) l gets

theorem onlyTraceTold_reply (h : s.OnlyTraceTold t) (p : Port) (st : Status) (res : List Byte) :
    s.OnlyTraceTold (t.reply p st res) := fun q => by
  rw [session_reply, newSubjects_reply]
  exact h q

/-- A report made after work that left sessions, capture and straps alone. -/
theorem onlyTraceTold_report_of (hsessions : u.sessions = s.sessions) (htrace : u.trace = s.trace)
    (hsup : u.supsel = s.supsel) (r : Report) : s.OnlyTraceTold (u.report r) := fun q => by
  have hsession : u.session q = s.session q := by rw [State.session, hsessions, State.session]
  have hsupervisor : u.supervisor = s.supervisor := by rw [State.supervisor, hsup, State.supervisor]
  have hnew := newSubjects_congr (s := s) (u := u) (t := u.report r) (q := q) htrace hsupervisor
    (by rw [State.isOpen, hsession, State.isOpen]) (by rw [hsession]) rfl 0 fun _ => false
  rw [onlyTraceTold_report u r q, hnew, hsession]

/-- A port's configuration replaced (R119). -/
def State.withPortConfig (s : State) (p : Port) (c : PortConfig) : State :=
  s.setSession p { s.session p with config := c }

theorem session_withPortConfig (s : State) (p : Port) (c : PortConfig) (q : Port) :
    (s.withPortConfig p c).session q =
      { s.session q with config := if q = p then c else (s.session q).config } := by
  rw [State.withPortConfig, session_setSession]
  by_cases hpq : p = q
  · rw [if_pos hpq, if_pos hpq.symm, hpq]
  · rw [if_neg hpq, if_neg (Ne.symm hpq)]

theorem isOpen_withPortConfig (s : State) (p : Port) (c : PortConfig) (q : Port) :
    (s.withPortConfig p c).isOpen q = s.isOpen q := by
  rw [State.isOpen, session_withPortConfig]
  rfl

/-- A replacement reported: another list changes only where TRACE is told. -/
theorem session_withPortConfig_report (s : State) (p : Port) (c : PortConfig) (r : Report) (q : Port) :
    ((s.withPortConfig p c).report r).session q = { s.session q with
      config := if q = p then c else (s.session q).config
      notices := (s.session q).notices ++
        s.newSubjects ((s.withPortConfig p c).report r) 0 (fun _ => false) q } := by
  have hnew := newSubjects_congr (s := s) (u := s.withPortConfig p c) (t := (s.withPortConfig p c).report r) (q := q)
    rfl rfl (isOpen_withPortConfig s p c q) (by rw [session_withPortConfig]) rfl 0 fun _ => false
  rw [onlyTraceTold_report (s.withPortConfig p c) r q, hnew, session_withPortConfig]

theorem inUse_eq_true_iff (e : LockEntry) :
    e.inUse = true ↔ (∃ q : Port, e.holding q ≠ none) ∨ e.queue ≠ [] := by
  rw [← Bool.not_eq_false, inUse_eq_false_iff, not_and_or, not_forall]

theorem takeSetLock_of_applied {c : LockConfig} (h : c.enabled = true ∨ (s.lock l).inUse = false) :
    s.takeSetLock p l c = ((s.setLock l { s.lock l with config := c }).report
      { cls := .supervisor, port := p, lock := some l, detail := 0x20 }).reply p .ok [] := by
  refine if_neg fun hrefused => ?_
  rw [Bool.and_eq_true, Bool.not_eq_true'] at hrefused
  rcases h with h | h
  · rw [h] at hrefused
    exact absurd hrefused.1 Bool.noConfusion
  · rw [h] at hrefused
    exact absurd hrefused.2 Bool.noConfusion

theorem takeSetLock_of_in_use {c : LockConfig} (hc : c.enabled = false) (h : (s.lock l).inUse = true) :
    s.takeSetLock p l c = (s.reportRefused p (some l) .inUse).reply p .inUse [] :=
  if_pos (by rw [hc, h]; rfl)

/-- Settles O34: the configuration is replaced whole, reported and answered. -/
theorem configurationIsReplacedWhole : Obligations.ConfigurationIsReplacedWhole := by
  refine fun s p b => ⟨fun h => ?_, fun h happlied => ?_⟩
  · refine ⟨_, congrArg Host.Outcome.next (takeRequest_of_takes _ h), ?_, fun q => ?_, ?_,
      replied_taken _ _ h.1 fun q => link_report _ _ q⟩
    · rw [State.takeSetPort, fixed_reply, fixed_report]
      rfl
    · rw [State.takeSetPort, session_reply, newSubjects_reply]
      exact session_withPortConfig_report (s.handOn p) (portAt b 2) (portConfigAt b) _ q
    · rw [State.Hears, State.takeSetPort, trace_reply, trace_report]
      rfl
  · have hfree : (lockConfigAt b).enabled = true ∨ ((s.handOn p).lock (lockAt b 2)).inUse = false :=
      happlied.imp (fun h1 => by simp [lockConfigAt, flagAt, h1]) (inUse_eq_false_iff _).mpr
    have hexec : exec (.setLock p) s = .next ((s.handOn p).takeSetLock p (lockAt b 2) (lockConfigAt b)) :=
      congrArg Host.Outcome.next (takeRequest_of_takes _ h)
    rw [takeSetLock_of_applied hfree] at hexec
    refine ⟨_, hexec, ?_, fun k => ?_, onlyTraceTold_reply ?_ _ _ _, ?_, replied_taken _ _ h.1 fun q => link_report _ _ q⟩
    · rw [fixed_reply, fixed_report]
      rfl
    · rw [lock_reply, lock_report, lock_setLock]
      by_cases hk : lockAt b 2 = k
      · rw [if_pos hk, if_pos hk.symm, hk]
        rfl
      · rw [if_neg hk, if_neg (Ne.symm hk)]
        rfl
    · exact onlyTraceTold_report_of (s := s) (u := (s.handOn p).setLock _ _) rfl rfl rfl _
    · rw [State.Hears, trace_reply, trace_report]
      rfl

/-! ### Refusals of the supervisor's owners -/

/-- A request refused by its owner: reported, and answered with the status alone (R146). -/
theorem refused_by_owner (h : s.nextRequest p = some b) (l : Option LockId) (st : Status) :
    ((s.handOn p).reportRefused p l st).reply p st [] = { s with
        sessions := (((s.handOn p).reportRefused p l st).reply p st []).sessions
        links := (((s.handOn p).reportRefused p l st).reply p st []).links
        trace := (((s.handOn p).reportRefused p l st).reply p st []).trace } ∧
      s.OnlyTraceTold (((s.handOn p).reportRefused p l st).reply p st []) ∧
      s.Hears (((s.handOn p).reportRefused p l st).reply p st [])
        [{ cls := .refused, port := p, lock := l, detail := st.code }] ∧
      s.Replied (((s.handOn p).reportRefused p l st).reply p st []) p .waiting (replyTo b st []) := by
  obtain ⟨hfixed, htold, hhears⟩ := refused_of_report (s := s) (p := p) _
    (fixed_reply ((s.handOn p).reportRefused p l st) p st [])
  exact ⟨hfixed, htold, hhears, replied_taken st [] h fun q => link_reportRefused _ p l st q⟩

/-- The holders a REVOKE names are those of its target or all, in port order (R125). -/
theorem targets_eq (e : LockEntry) (target : Byte) : e.targets target =
    allPorts.filter fun q => (target == 0xFF || q.val == target.toNat) && (e.holding q).isSome := by
  unfold LockEntry.targets LockEntry.holderPorts
  by_cases h : target = 0xFF
  · simp [h]
  · rw [if_neg h, List.filter_filter, beq_false_of_ne h]
    simp

theorem takeRevoke_of_no_target {target : Byte} (h : (s.lock l).targets target = []) :
    s.takeRevoke p l target = (s.reportRefused p (some l) .notHolder).reply p .notHolder [] := by
  rw [State.takeRevoke, h]

/-- Settles O35: each of the three is refused before anything is changed. -/
theorem ownersRefuseSupervisorRequests : Obligations.OwnersRefuseSupervisorRequests := by
  refine fun s p b => ⟨fun h hoff huse => ?_, fun h hnone => ?_, fun h hown => ?_⟩
  · have hc : (lockConfigAt b).enabled = false := by simp [lockConfigAt, flagAt, hoff]
    have hexec : exec (.setLock p) s = .next ((s.handOn p).takeSetLock p (lockAt b 2) (lockConfigAt b)) :=
      congrArg Host.Outcome.next (takeRequest_of_takes _ h)
    rw [takeSetLock_of_in_use hc ((inUse_eq_true_iff ((s.handOn p).lock _)).mpr huse)] at hexec
    exact ⟨_, hexec, refused_by_owner h.1 _ _⟩
  · have hexec : exec (.revoke p) s = .next ((s.handOn p).takeRevoke p (lockAt b 2) (byteAt b 3)) :=
      congrArg Host.Outcome.next (takeRequest_of_takes _ h)
    have htargets : ((s.handOn p).lock (lockAt b 2)).targets (byteAt b 3) = [] := by
      rw [targets_eq, List.filter_eq_nil_iff]
      intro q _ hq
      rw [Bool.and_eq_true, Bool.or_eq_true, beq_iff_eq, beq_iff_eq] at hq
      rw [lock_handOn, hnone q hq.1] at hq
      exact Bool.noConfusion hq.2
    rw [takeRevoke_of_no_target htargets] at hexec
    exact ⟨_, hexec, refused_by_owner h.1 _ _⟩
  · have hexec : exec (.dropSession p) s = .next ((s.handOn p).takeDrop p (portAt b 2) (namedDisposition (byteAt b 3))) :=
      congrArg Host.Outcome.next (takeRequest_of_takes _ h)
    rw [State.takeDrop, if_pos hown] at hexec
    exact ⟨_, hexec, refused_by_owner h.1 none .badArgument⟩

/-! ### Restart completion -/

/-- Settles O40: the receivers are put in HUNT, then the RESTART is answered. -/
theorem restartCompletesWithItsReply : Obligations.RestartCompletesWithItsReply := by
  refine fun s => ⟨fun hr p hp b hb => ?_, fun hr => ?_⟩
  · have hdone : s.completeRestart = State.reply
        { s with restarting := false, links := s.links.map LinkPort.hunting } p .ok (halfBytes s.restartCount) := by
      unfold State.completeRestart
      rw [if_pos hr]
      show (match s.supervisor with
        | some q => _
        | none => _) = _
      rw [Option.mem_def.mp hp]
    refine ⟨_, congrArg Host.Outcome.next hdone, fixed_reply _ p .ok _, ?_⟩
    refine replied_reply (s := { s with links := s.links.map LinkPort.hunting }) .ok _ ?_ fun q => rfl
    show (look (s.links.map LinkPort.hunting) p).handedOn = some b
    rw [look_map]
    exact hb
  · refine congrArg Host.Outcome.next (if_neg ?_)
    rw [hr]
    exact Bool.noConfusion

/-! ### Trace requests -/

theorem firstState_eq (x : TraceSetup) (c d : Byte) (hc : x.enable = (c == 1)) (hd : x.startOnClass = (d == 1)) :
    x.firstState = if c = 1 then (if d = 1 then .armed else .running) else .off := by
  simp only [TraceSetup.firstState, hc, hd, beq_iff_eq]

/-- Settles O41: the trace unit is set up anew and the TRACE subject removed. -/
theorem traceSetupBeginsAWindow : Obligations.TraceSetupBeginsAWindow := by
  intro s p b h
  refine ⟨_, congrArg Host.Outcome.next (takeRequest_of_takes _ h), ?_, ?_, ?_, fun q hq => ?_,
    replied_taken _ _ h.1 fun q => rfl⟩
  · rw [State.takeTraceSetup, fixed_reply]
    rfl
  · rw [State.takeTraceSetup, trace_reply, ← firstState_eq (traceSetupAt b) (byteAt b 2) (byteAt b 3) rfl rfl]
    rfl
  · rw [State.takeTraceSetup, session_reply, session_unnotify, if_pos rfl]
    rfl
  · rw [State.takeTraceSetup, session_reply, session_unnotify, if_neg (Ne.symm hq)]
    rfl

/-- Settles O42: the entries taken leave the buffer, and the reply carries them. -/
theorem traceReadDrainsTheHead : Obligations.TraceReadDrainsTheHead := by
  intro s p b h
  have hexec : exec (.traceRead p) s = .next ((s.handOn p).takeTraceRead p (byteAt b 2).toNat) :=
    congrArg Host.Outcome.next (takeRequest_of_takes _ h)
  refine ⟨_, hexec, ?_, ?_⟩
  · rw [State.takeTraceRead, fixed_reply]
    rfl
  · rw [State.takeTraceRead, List.length_take, List.flatMap_def, ← List.length_drop]
    exact replied_taken _ _ h.1 fun q => rfl

end Sys2Proof.Machine
end

section
/-! PROOFS. How a session ends and how one begins: CLOSE, the silence expiry, and OPEN with its reattachment
(Chapter 6). -/

namespace Sys2Proof.Machine

variable {s t u x : State} {p q : Port} {b : Body} {l : LockId} {c : EndCause} {d : Disposition} {f : EndSequel}

/-! ### The lock work of a session end -/

/-- A port's session ended, with the lock work given still to take. -/
def State.endSession (s : State) (p : Port) (c : EndCause) (work : Option SessionEnd) : State :=
  (s.closeOut p c).setEnding p work

@[simp] theorem links_closeOut (s : State) (p : Port) (c : EndCause) : (s.closeOut p c).links = s.links := by
  rw [State.closeOut, fixed_report]
  rfl

@[simp] theorem links_endSession (s : State) (p : Port) (c : EndCause) (work : Option SessionEnd) :
    (s.endSession p c work).links = s.links := links_closeOut s p c

theorem sessionEnded_endSession (s : State) (p : Port) (c : EndCause) (work : Option SessionEnd) :
    s.SessionEnded (s.endSession p c work) p c work [] := sessionEnded_closeOut s p c work

/-- A session end with lock work to take. -/
theorem beginEnd_of_work {e : SessionEnd} (h : s.endWork p d f = some e) (finish : SessionEnd → State → State) :
    s.beginEnd p c d f finish = s.endSession p c (some e) := by
  have hsame := sameTables_closeOut s p c
  unfold State.beginEnd State.goOnEnding
  dsimp only
  rw [hsame.heldLocks, hsame.waitedLocks]
  unfold State.endWork at h
  cases hw : s.waitedLocks p with
  | cons w ws =>
    rw [hw, if_pos (List.cons_ne_nil _ _)] at h
    rw [← Option.some.inj h]
    rfl
  | nil =>
    rw [hw, if_neg (not_not.mpr rfl)] at h
    cases d with
    | retain => simp at h
    | release =>
      cases hh : s.heldLocks p with
      | nil => simp [hh] at h
      | cons k ks =>
        rw [hh, if_pos ⟨rfl, List.cons_ne_nil _ _⟩] at h
        rw [← Option.some.inj h]
        rfl

/-- A session end whose lock work is all taken. -/
def endOver (d : Disposition) (f : EndSequel) : SessionEnd :=
  { disposition := d
    work := match d with
      | .retain => .withdrawing []
      | .release => .releasing []
    sequel := f }

/-- A session end with no lock work to take is followed through at once. -/
theorem beginEnd_of_no_work (h : s.endWork p d f = none) (finish : SessionEnd → State → State) :
    s.beginEnd p c d f finish = finish (endOver d f) (s.endSession p c none) := by
  have hsame := sameTables_closeOut s p c
  unfold State.beginEnd State.goOnEnding
  dsimp only
  rw [hsame.heldLocks, hsame.waitedLocks]
  unfold State.endWork at h
  cases hw : s.waitedLocks p with
  | cons w ws => simp [hw] at h
  | nil =>
    cases d with
    | retain => rfl
    | release =>
      cases hh : s.heldLocks p with
      | cons k ks => simp [hw, hh] at h
      | nil => rfl

/-- A session end that nothing follows. -/
theorem beginEnd_unfollowed (s : State) (p : Port) (c : EndCause) (d : Disposition) :
    (s.beginEnd p c d .nothing fun _ t => t) = s.endSession p c (s.endWork p d .nothing) := by
  cases h : s.endWork p d .nothing with
  | some e => exact beginEnd_of_work h _
  | none => exact beginEnd_of_no_work h _

/-- What a session end does is no matter of the link ports. -/
theorem sessionEnded_of_links {work : Option SessionEnd} {before : List Report} (h : s.SessionEnded t p c work before)
    (hx : x = { t with links := x.links }) : s.SessionEnded x p c work before := by
  obtain ⟨hfixed, hown, hstanding, hothers, hhears⟩ := h
  rw [hx]
  exact ⟨congrArg (fun y : State => { y with links := x.links }) hfixed, hown, hstanding, hothers, hhears⟩

@[simp] theorem deferred_endSession (s : State) (p : Port) (c : EndCause) (work : Option SessionEnd) :
    ((s.endSession p c work).session p).deferred = (s.session p).deferred := by
  obtain ⟨-, hown, -⟩ := sessionEnded_endSession s p c work
  rw [hown]
  rfl

/-! ### What follows a reply -/

/-- With no session end waiting for a reply, nothing follows it. -/
theorem afterReply_of_nil (h : (s.session p).deferred = []) : s.afterReply p = s := by
  rw [State.afterReply, setDeferred_self h, h]
  rfl

/-- A port whose next request is taken has no session end waiting for a reply (R110). -/
theorem deferred_of_takes {k : Kind} (hwaits : s.WaitingEndsSound) (h : s.Takes p k b) :
    (s.session p).deferred = [] := by
  obtain ⟨-, hnone, -⟩ := nextRequest_eq_some s h.1
  exact (hwaits p).1 hnone

/-- The link ports after a step that has only handed the port's request on. -/
theorem handedOn_of_same_links (h : t.links = (s.handOn p).links) : s.HandedOn t p :=
  handedOn_of_links fun q => by rw [State.link, h, State.link]

/-! ### CLOSE -/

/-- Settles O27: the end is begun, and with no lock work left the request is answered. -/
theorem closeEndsTheSession : Obligations.CloseEndsTheSession := by
  intro s p b hwaits h
  have hexec : exec (.closeSession p) s = .next ((s.handOn p).takeClose p) :=
    congrArg Host.Outcome.next (takeRequest_of_takes _ h)
  refine ⟨_, hexec, ?_⟩
  cases hwork : s.endWork p .release .replyClose with
  | some e =>
    have hclose : (s.handOn p).takeClose p = (s.handOn p).endSession p .closed (some e) :=
      beginEnd_of_work (s := s.handOn p) hwork _
    rw [hclose, if_neg (Option.some_ne_none e)]
    exact ⟨sessionEnded_endSession (s.handOn p) p .closed (some e), handedOn_of_same_links (links_endSession _ _ _ _)⟩
  | none =>
    have hclose : (s.handOn p).takeClose p = ((s.handOn p).endSession p .closed none).reply p .ok [] := by
      refine (beginEnd_of_no_work (s := s.handOn p) hwork _).trans (afterReply_of_nil ?_)
      rw [session_reply, deferred_endSession, session_handOn]
      exact deferred_of_takes hwaits h
    rw [hclose, if_pos rfl]
    exact ⟨sessionEnded_of_links (sessionEnded_endSession (s.handOn p) p .closed none) (fixed_reply _ _ _ _),
      replied_taken _ _ h.1 fun q => by rw [State.link, links_endSession, State.link]⟩

/-! ### The silence expiry -/

theorem loseToSilence_of_due (hopen : s.isOpen p = true) (hdue : s.due (s.session p).silenceDeadline = true) :
    s.loseToSilence p =
      s.endSession p .silence (s.endWork p (s.session p).config.lossPolicy .nothing) := by
  rw [State.loseToSilence, if_pos (by rw [hopen, hdue]; rfl), beginEnd_unfollowed]

theorem loseToSilence_of_not_due (h : s.isOpen p = false ∨ s.due (s.session p).silenceDeadline = false) :
    s.loseToSilence p = s :=
  if_neg (by rw [Bool.and_eq_true]; rintro ⟨hopen, hdue⟩; rcases h with h | h <;> simp [h] at hopen hdue)

theorem takeSilenceExpiry_of_not_due (h : s.isOpen p = false ∨ s.due (s.session p).silenceDeadline = false) :
    s.takeSilenceExpiry p = s :=
  if_neg (by rw [Bool.and_eq_true]; rintro ⟨hopen, hdue⟩; rcases h with h | h <;> simp [h] at hopen hdue)

theorem takeSilenceExpiry_of_due (hopen : s.isOpen p = true) (hdue : s.due (s.session p).silenceDeadline = true) :
    s.takeSilenceExpiry p = if (s.link p).handedOn.isSome then
      if .silence ∈ (s.session p).deferred then s
      else s.setDeferred p ((s.session p).deferred ++ [.silence])
    else s.loseToSilence p :=
  if_pos (by rw [hopen, hdue]; rfl)

/-- Settles O29: the expiry ends the session, waits, or finds nothing due. -/
theorem silenceEndsTheSession : Obligations.SilenceEndsTheSession := by
  refine fun s p => ⟨fun hopen hdue hnone => ?_, fun hopen hdue hsome hnot => ?_, fun h =>
    congrArg Host.Outcome.next (takeSilenceExpiry_of_not_due h)⟩
  · have hlost : s.takeSilenceExpiry p =
        s.endSession p .silence (s.endWork p (s.session p).config.lossPolicy .nothing) := by
      rw [takeSilenceExpiry_of_due hopen hdue, if_neg (by simp [hnone]), loseToSilence_of_due hopen hdue]
    exact ⟨_, congrArg Host.Outcome.next hlost, sessionEnded_endSession s p _ _, links_endSession s p _ _⟩
  · refine congrArg Host.Outcome.next ?_
    rw [takeSilenceExpiry_of_due hopen hdue, if_pos (Option.isSome_iff_ne_none.mpr hsome), if_neg hnot]
    rfl

/-! ### New sessions -/

/-- The silence limit of an OPEN (R102). -/
theorem silenceLimitFor_eq (argument ceiling : Half) :
    silenceLimitFor argument ceiling = limitInForce argument ceiling := by
  have hraised : (argument ≠ 0 ∧ argument.toNat < 10) ↔ (1 ≤ argument.toNat ∧ argument.toNat ≤ 9) := by
    rw [ne_eq, ← BitVec.toNat_inj]
    show (¬ argument.toNat = 0 ∧ _) ↔ _
    omega
  simp only [silenceLimitFor, limitInForce, hraised]

/-- A new session begun by an OPEN handed on, in a state `x` that has the locks and sessions of `s` (R103). -/
theorem sessionBegun_startOpen {cond : SlotCond} (hx : x = { s with links := x.links })
    (hfault : (x.link p).fault = (s.link p).fault)
    (hrep : ∀ (v : State) (res : List Byte), (∀ q : Port, v.link q = x.link q) →
      s.Replied (v.reply p .ok res) p cond (replyTo b .ok res))
    (credit : Byte) (limit : Half) (superseded : Option Disposition) :
    ∃ v : State, s.SessionBegun v p credit limit superseded cond b ∧
      if s.heldLocks p = [] then x.startOpen p credit limit superseded = v.afterReply p
      else x.startOpen p credit limit superseded = v ∧ v.links = x.links := by
  have hsession (q : Port) : x.session q = s.session q := by rw [hx]; rfl
  have hheld : x.heldLocks p = s.heldLocks p := by rw [hx]; rfl
  have hclock : x.clock = s.clock := by rw [hx]
  set y := x.setSession p ((x.session p).reopened x.clock credit limit) with hy
  have hyp : y.session p = (s.session p).reopened s.clock credit limit := by
    rw [hy, session_setSession_self, hsession, hclock]
  have hyq (q : Port) (hq : q ≠ p) : y.session q = s.session q := by
    rw [hy, session_setSession, if_neg (Ne.symm hq), hsession]
  have hyfixed : y = { s with sessions := y.sessions, links := x.links } := by
    rw [hy, hx]
    rfl
  have hstart : x.startOpen p credit limit superseded =
      y.goOnOpening p { locks := s.heldLocks p, retained := 0, superseded := superseded } := by
    rw [State.startOpen, hheld]
  cases hlocks : s.heldLocks p with
  | nil =>
    obtain ⟨v, hv, hvfixed, hvp, hfinished⟩ := openFinished_finishOpen (s := s) (c := cond) (b := b) (kept := [])
      (o := { locks := [], retained := 0, superseded := superseded }) y (.inl rfl)
      (by rw [hyp, List.filter_nil, List.append_nil]; rfl) hyq (by rw [hyfixed]) (by rw [hyfixed]; rfl)
      (by rw [hyfixed]) hfault hrep
    refine ⟨v, ⟨?_, ?_, ?_⟩, ?_⟩
    · rw [hvfixed, hyfixed]
    · rw [if_pos hlocks, hvp, hyp]
      rfl
    · rw [if_pos hlocks]
      exact hfinished
    · rw [if_pos rfl, hstart, hlocks]
      exact hv
  | cons k ks =>
    have hne : s.heldLocks p ≠ [] := hlocks ▸ List.cons_ne_nil k ks
    refine ⟨y.setOpening p (some { locks := s.heldLocks p, retained := 0, superseded := superseded }), ⟨?_, ?_, ?_⟩, ?_⟩
    · rw [hyfixed]
      rfl
    · rw [if_neg hne, State.setOpening, session_setSession_self, hyp]
      rfl
    · rw [if_neg hne]
      refine ⟨?_, fun q hq => ?_, ?_⟩
      · rw [State.setOpening, session_setSession_self, hyp]
        rfl
      · rw [State.setOpening, session_setSession, if_neg (Ne.symm hq), hyq q hq]
      · rw [hyfixed]
        rfl
    · rw [if_neg (List.cons_ne_nil k ks), hstart, hlocks]
      refine ⟨rfl, ?_⟩
      rw [hyfixed]
      rfl

/-- A new session begun in the step that hands the OPEN on. -/
theorem sessionBegun_of_takes (h : s.nextRequest p = some b) (hdeferred : (s.session p).deferred = [])
    (hu : u = { s with standings := u.standings, sessions := u.sessions, trace := u.trace })
    (hsession : (u.session p).deferred = (s.session p).deferred) (hx : x = { u with links := x.links })
    (hlinks : x.links = (s.handOn p).links) (credit : Byte) (limit : Half) (superseded : Option Disposition) :
    u.SessionBegun (x.startOpen p credit limit superseded) p credit limit superseded .waiting b ∧
      (u.heldLocks p ≠ [] → u.HandedOn (x.startOpen p credit limit superseded) p) := by
  have hul (q : Port) : u.link q = s.link q := by rw [hu]; rfl
  have hxl (q : Port) : x.link q = (s.handOn p).link q := by rw [State.link, hlinks, State.link]
  obtain ⟨v, hbegun, hv⟩ := sessionBegun_startOpen (p := p) (b := b) (cond := .waiting) hx
    (by rw [hxl, fault_link_handOn, hul]) (fun v res hvl => by
      have hrep := replied_taken (t := v) .ok res h fun q => (hvl q).trans (hxl q)
      simpa only [State.Replied, hul] using hrep) credit limit superseded
  have hvp : (v.session p).deferred = [] := by
    obtain ⟨-, hown, -⟩ := hbegun
    rw [hown]
    exact hsession.trans hdeferred
  by_cases hheld : u.heldLocks p = []
  · rw [if_pos hheld, afterReply_of_nil hvp] at hv
    rw [hv]
    exact ⟨hbegun, fun hne => absurd hheld hne⟩
  · rw [if_neg hheld] at hv
    obtain ⟨hv, hvl⟩ := hv
    rw [hv]
    refine ⟨hbegun, fun _ => ?_⟩
    have hhanded := handedOn_of_same_links (s := s) (p := p) (hvl.trans hlinks)
    simpa only [State.HandedOn, hul] using hhanded

theorem takeOpen_of_not_open (h : s.isOpen p = false) (credit : Byte) (silence : Half) :
    s.takeOpen p credit silence =
      s.startOpen p credit (limitInForce silence (s.session p).config.silenceCeiling) none := by
  rw [State.takeOpen, if_neg (by simp [h]), silenceLimitFor_eq]

theorem takeOpen_of_open (h : s.isOpen p = true) (credit : Byte) (silence : Half) :
    s.takeOpen p credit silence = s.beginEnd p .superseded (s.session p).config.lossPolicy
      (.reopen credit (limitInForce silence (s.session p).config.silenceCeiling)) fun e t => t.finishEnd p e := by
  rw [State.takeOpen, if_pos h, silenceLimitFor_eq]

/-- Settles O24: the OPEN handed on begins the new session at once. -/
theorem openBeginsASession : Obligations.OpenBeginsASession := by
  intro s p b hwaits h hopen
  have hexec : exec (.openSession p) s = .next ((s.handOn p).takeOpen p (byteAt b 2) (halfAt b 3)) :=
    congrArg Host.Outcome.next (takeRequest_of_takes _ h)
  rw [takeOpen_of_not_open (s := s.handOn p) hopen] at hexec
  exact ⟨_, hexec, sessionBegun_of_takes h.1 (deferred_of_takes hwaits h) rfl rfl rfl rfl _ _ _⟩

/-- Settles O25: the old session's end is begun first, and with no lock work left the new session follows it. -/
theorem openSupersedesAnOpenSession : Obligations.OpenSupersedesAnOpenSession := by
  intro s p b hwaits h hopen limit hlimit
  have hexec : exec (.openSession p) s = .next ((s.handOn p).takeOpen p (byteAt b 2) (halfAt b 3)) :=
    congrArg Host.Outcome.next (takeRequest_of_takes _ h)
  rw [takeOpen_of_open (s := s.handOn p) hopen, session_handOn, ← hlimit] at hexec
  refine ⟨fun e he => ?_, fun hnone => ?_⟩
  · rw [beginEnd_of_work (s := s.handOn p) he] at hexec
    exact ⟨_, hexec, sessionEnded_endSession (s.handOn p) p .superseded (some e),
      handedOn_of_same_links (links_endSession _ _ _ _)⟩
  · rw [beginEnd_of_no_work (s := s.handOn p) hnone] at hexec
    have hended := sessionEnded_endSession (s.handOn p) p .superseded none
    obtain ⟨hfixed, -⟩ := sessionEnded_endSession (s.handOn p) p .superseded none
    refine ⟨_, hexec, { (s.handOn p).endSession p .superseded none with links := s.links },
      sessionEnded_of_links hended rfl, rfl, ?_⟩
    refine sessionBegun_of_takes (u := { (s.handOn p).endSession p .superseded none with links := s.links }) h.1
      (deferred_of_takes hwaits h) ?_ (deferred_endSession (s.handOn p) p _ none) rfl (links_endSession _ _ _ none) _ _ _
    rw [hfixed]
    rfl

/-! ### Reattachment -/

theorem reattachNext_of_opening {o : Opening} {rest : List LockId} (ho : (s.session p).opening = some o)
    (hlocks : o.locks = l :: rest) : s.reattachNext p =
      if (s.lock l).holding p = none then s.goOnOpening p { o with locks := rest }
      else (s.recordChange p l .retained).goOnOpening p { o with locks := rest, retained := o.retained + 1 } := by
  simp only [State.reattachNext, ho, hlocks]
  cases (s.lock l).holding p <;> rfl

/-- The kept holding of an OPEN in progress recorded as RETAINED where the port still has it (R104). -/
def State.retain (s : State) (p : Port) (l : LockId) : State :=
  if (s.lock l).holding p = none then s else s.recordChange p l .retained

/-- What a reattachment leaves of an OPEN in progress (R104). -/
def State.reattached (s : State) (p : Port) (l : LockId) (o : Opening) : Opening :=
  { o with locks := o.locks.tail, retained := if (s.lock l).holding p = none then o.retained else o.retained + 1 }

/-- The subject a reattachment appends to the port's list (R81). -/
def State.keptSubjects (s : State) (p : Port) (l : LockId) : List Subject :=
  if (s.lock l).holding p = none then [] else [.lock l]

theorem reattachNext_eq {o : Opening} (ho : (s.session p).opening = some o) (hl : l ∈ o.locks.head?) :
    s.reattachNext p = (s.retain p l).goOnOpening p (s.reattached p l o) := by
  obtain ⟨rest, hlocks⟩ := List.head?_eq_some_iff.mp hl
  rw [reattachNext_of_opening ho hlocks, State.retain, State.reattached, hlocks]
  split <;> rfl

theorem standing_retain (hopen : s.isOpen p = true) (l : LockId) (q : Port) (k : LockId) :
    (s.retain p l).standing q k = if q = p ∧ k = l ∧ (s.lock l).holding p ≠ none then
      { s.standing p l with count := min 15 ((s.standing p l).count + 1), cause := some .retained }
    else s.standing q k := by
  unfold State.retain
  by_cases hh : (s.lock l).holding p = none
  · rw [if_pos hh, if_neg fun h => h.2.2 hh]
  · rw [if_neg hh, standing_recordChange]
    by_cases hqk : q = p ∧ k = l
    · obtain ⟨rfl, rfl⟩ := hqk
      rw [if_pos ⟨hopen, rfl, rfl⟩, if_pos ⟨rfl, rfl, hh⟩]
      rfl
    · rw [if_neg fun h => hqk ⟨h.2.1.symm, h.2.2.symm⟩, if_neg fun h => hqk ⟨h.1, h.2.1⟩]

theorem session_retain (hopen : s.isOpen p = true) (l : LockId) : (s.retain p l).session p = { s.session p with
    notices := (s.session p).notices ++
      (s.keptSubjects p l).filter fun x => decide (x ∉ (s.session p).notices) } := by
  unfold State.retain State.keptSubjects
  split
  · rw [List.filter_nil, List.append_nil]
  · rw [session_recordChange, if_pos ⟨hopen, rfl⟩, appendSubject]
    by_cases hm : Subject.lock l ∈ (s.session p).notices <;> simp [hm]

theorem session_retain_of_ne (l : LockId) (hq : q ≠ p) : (s.retain p l).session q = s.session q := by
  unfold State.retain
  split
  · rfl
  · rw [session_recordChange, if_neg fun h => hq h.2.symm]

theorem fixed_retain (s : State) (p : Port) (l : LockId) : s.retain p l =
    { s with standings := (s.retain p l).standings, sessions := (s.retain p l).sessions } := by
  unfold State.retain State.recordChange
  split
  · rfl
  · split <;> rfl

theorem keptSubjects_cases (s : State) (p : Port) (l : LockId) :
    s.keptSubjects p l = [] ∨ ∃ k : LockId, s.keptSubjects p l = [.lock k] := by
  unfold State.keptSubjects
  split
  · exact .inl rfl
  · exact .inr ⟨l, rfl⟩

/-- The last reattachment brings the OPEN to its reply (R103 steps 5 to 7). -/
theorem finishOpen_retain (hopen : s.isOpen p = true) (l : LockId) (o : Opening) (hb : b ∈ (s.link p).handedOn) :
    ∃ v : State, (s.retain p l).finishOpen p o = v.afterReply p ∧
      v = { s.retain p l with sessions := v.sessions, links := v.links, trace := v.trace } ∧
      v.session p = { (s.retain p l).session p with opening := none, notices := (v.session p).notices } ∧
      s.OpenFinished v p o.superseded (s.keptSubjects p l) o.retained .handedOn b := by
  have hfixed := fixed_retain s p l
  have hstate : (s.session p).state = .opened := beq_iff_eq.mp hopen
  refine openFinished_finishOpen (s.retain p l) (keptSubjects_cases s p l) ?_ (fun q hq => session_retain_of_ne l hq)
    (by rw [hfixed]) (by rw [hfixed]; rfl) (by rw [hfixed]) (by rw [hfixed]; rfl)
    (fun v res hvl => replied_reply .ok res hb fun q => (hvl q).trans (by rw [hfixed]; rfl))
  rw [session_retain hopen, ← hstate]

theorem ite_keptSubjects (s : State) (p : Port) (l : LockId) (n : List Subject) :
    n ++ (s.keptSubjects p l).filter (fun x => decide (x ∉ n)) =
      if (s.lock l).holding p = none ∨ .lock l ∈ n then n else n ++ [.lock l] := by
  unfold State.keptSubjects
  by_cases hh : (s.lock l).holding p = none
  · simp [hh]
  · by_cases hm : Subject.lock l ∈ n <;> simp [hh, hm]

/-- Settles O26: the holding is recorded, and the OPEN goes on with the locks left or comes to its reply. -/
theorem reattachmentRecordsRetained : Obligations.ReattachmentRecordsRetained := by
  intro s p hopen o ho l hl
  have hexec : exec (.reattachHolding p) s = .next ((s.retain p l).goOnOpening p (s.reattached p l o)) :=
    congrArg Host.Outcome.next (reattachNext_eq ho hl)
  have hfixed := fixed_retain s p l
  by_cases hrest : o.locks.tail = []
  · have hlast : (s.retain p l).goOnOpening p (s.reattached p l o) =
        (s.retain p l).finishOpen p (s.reattached p l o) := by
      unfold State.goOnOpening
      rw [show (s.reattached p l o).locks = [] from hrest]
    rw [hlast] at hexec
    cases hb : (s.link p).handedOn with
    | none => exact ⟨_, s.retain p l, hexec, standing_retain hopen l, fun hne => absurd hrest hne, fun _ b hb => nomatch hb⟩
    | some b =>
      obtain ⟨v, hv, hvfixed, hvp, hfinished⟩ := finishOpen_retain hopen l (s.reattached p l o) hb
      refine ⟨_, v, hexec, fun q k => ?_, fun hne => absurd hrest hne, fun _ b' hb' => ?_⟩
      · rw [← standing_retain hopen l q k, hvfixed]
        rfl
      · obtain rfl := Option.some.inj hb'
        refine ⟨hv, ?_, ?_, hfinished⟩
        · rw [hvfixed, hfixed]
        · rw [hvp, session_retain hopen]
  · have hmore : (s.retain p l).goOnOpening p (s.reattached p l o) =
        (s.retain p l).setOpening p (some (s.reattached p l o)) := by
      unfold State.goOnOpening
      obtain ⟨k, ks, hcons⟩ := List.exists_cons_of_ne_nil hrest
      rw [show (s.reattached p l o).locks = k :: ks from hcons]
    rw [hmore] at hexec
    refine ⟨_, _, hexec, fun q k => ?_, fun _ => ⟨rfl, ?_, fun q hq => ?_, ?_⟩, fun hnil => absurd hnil hrest⟩
    · exact standing_retain hopen l q k
    · rw [State.setOpening, hfixed]
      rfl
    · rw [State.setOpening, session_setSession, if_neg (Ne.symm hq), session_retain_of_ne l hq]
    · rw [State.setOpening, session_setSession_self, session_retain hopen, ite_keptSubjects]
      rfl

end Sys2Proof.Machine
end

section
/-! PROOFS. What follows a reply or a session end: the ends that waited for it, the lock work of an end, and
DROP_SESSION (Chapters 6 and 7). -/

namespace Sys2Proof.Machine

variable {s t u w x : State} {p q : Port} {b : Body} {l : LockId} {c : EndCause} {d : Disposition} {f : EndSequel}
  {e : SessionEnd}

/-! ### The ends that wait, apart from the rest of the state

What a session end does neither reads nor writes the list of ends that wait at a port. -/

theorem setSession_comm (hpq : p ≠ q) (s : State) (a b : Session) :
    (s.setSession p a).setSession q b = (s.setSession q b).setSession p a := by
  have htable : put (put s.sessions p a) q b = put (put s.sessions q b) p a := table_ext fun i => by
    simp only [look_put]
    by_cases hp : p = i
    · rw [if_pos hp, if_neg fun h => hpq (hp.trans h.symm), if_pos hp]
    · rw [if_neg hp, if_neg hp]
  exact congrArg (fun v => { s with sessions := v }) htable

/-- An update of a session entry that leaves the list of waiting ends alone. -/
theorem setDeferred_setSession (s : State) (p q : Port) (D : List DeferredEnd) (g : Session → Session)
    (hg : ∀ y : Session, g { y with deferred := D } = { g y with deferred := D }) :
    (s.setDeferred p D).setSession q (g ((s.setDeferred p D).session q)) =
      (s.setSession q (g (s.session q))).setDeferred p D := by
  unfold State.setDeferred
  by_cases hpq : p = q
  · subst hpq
    simp only [session_setSession_self, setSession_setSession, hg]
  · rw [session_setSession, if_neg hpq, session_setSession, if_neg (Ne.symm hpq), setSession_comm hpq]

theorem session_setDeferred (s : State) (p : Port) (D : List DeferredEnd) (q : Port) :
    (s.setDeferred p D).session q = if p = q then { s.session p with deferred := D } else s.session q := by
  rw [State.setDeferred, session_setSession]

theorem isOpen_setDeferred (s : State) (p : Port) (D : List DeferredEnd) (q : Port) :
    (s.setDeferred p D).isOpen q = s.isOpen q := by
  unfold State.isOpen
  rw [session_setDeferred]
  split
  · next hpq => rw [hpq]
  · rfl

theorem notify_setDeferred (s : State) (p q : Port) (D : List DeferredEnd) (y : Subject) :
    (s.setDeferred p D).notify q y = (s.notify q y).setDeferred p D :=
  setDeferred_setSession s p q D (fun z => { z with notices := appendSubject y z.notices }) fun _ => rfl

theorem notifyTrace_setDeferred (s : State) (p : Port) (D : List DeferredEnd) :
    (s.setDeferred p D).notifyTrace = s.notifyTrace.setDeferred p D := by
  have hsup : (s.setDeferred p D).supervisor = s.supervisor := rfl
  unfold State.notifyTrace
  rw [hsup]
  cases s.supervisor with
  | none => rfl
  | some q =>
    dsimp only
    rw [isOpen_setDeferred, notify_setDeferred]
    split <;> rfl

theorem report_setDeferred (s : State) (p : Port) (D : List DeferredEnd) (r : Report) :
    (s.setDeferred p D).report r = (s.report r).setDeferred p D := by
  have hnotify := notifyTrace_setDeferred (s.setTrace (s.trace.hear r)) p D
  by_cases h : s.trace.state = .running ∧ (s.trace.hear r).state = .stopped
  · exact (if_pos h).trans (hnotify.trans (congrArg (fun y : State => y.setDeferred p D) (if_pos h).symm))
  · have hsame : s.report r = s.setTrace (s.trace.hear r) := if_neg h
    rw [hsame]
    exact if_neg h

theorem setEnding_setDeferred (s : State) (p q : Port) (D : List DeferredEnd) (work : Option SessionEnd) :
    (s.setDeferred p D).setEnding q work = (s.setEnding q work).setDeferred p D :=
  setDeferred_setSession s p q D (fun z => { z with ending := work }) fun _ => rfl

theorem endSession_setDeferred (s : State) (p q : Port) (D : List DeferredEnd) (c : EndCause)
    (work : Option SessionEnd) :
    (s.setDeferred p D).endSession q c work = (s.endSession q c work).setDeferred p D := by
  have hclose := setDeferred_setSession s p q D (fun z => { z with
    state := c.state, silenceDeadline := none, silenceLimit := 0, notices := [], credit := 0, opening := none })
    fun _ => rfl
  unfold State.endSession State.closeOut
  dsimp only at hclose ⊢
  rw [hclose, ← setEnding_setDeferred, ← report_setDeferred]
  rfl

theorem endWork_setDeferred (s : State) (p : Port) (D : List DeferredEnd) (q : Port) (d : Disposition)
    (f : EndSequel) : (s.setDeferred p D).endWork q d f = s.endWork q d f := rfl

theorem reply_setDeferred (s : State) (p q : Port) (D : List DeferredEnd) (st : Status) (res : List Byte) :
    (s.setDeferred p D).reply q st res = (s.reply q st res).setDeferred p D := by
  have hlink : (s.setDeferred p D).link q = s.link q := rfl
  unfold State.reply
  rw [hlink]
  cases (s.link q).handedOn <;> rfl

theorem setDeferred_setDeferred (hpq : p ≠ q) (s : State) (D E : List DeferredEnd) :
    (s.setDeferred p D).setDeferred q E = (s.setDeferred q E).setDeferred p D := by
  unfold State.setDeferred
  rw [session_setSession, if_neg hpq, session_setSession, if_neg (Ne.symm hpq), setSession_comm hpq]

/-- What decides on a silence expiry. -/
theorem silence_setDeferred (s : State) (p : Port) (D : List DeferredEnd) (q : Port) :
    ((s.setDeferred p D).session q).silenceDeadline = (s.session q).silenceDeadline ∧
      ((s.setDeferred p D).session q).config = (s.session q).config := by
  rw [session_setDeferred]
  split
  · next hpq =>
    rw [hpq]
    exact ⟨rfl, rfl⟩
  · exact ⟨rfl, rfl⟩

theorem loseToSilence_setDeferred (s : State) (p q : Port) (D : List DeferredEnd) :
    (s.setDeferred p D).loseToSilence q = (s.loseToSilence q).setDeferred p D := by
  obtain ⟨hdeadline, hconfig⟩ := silence_setDeferred s p D q
  have hdue : (s.setDeferred p D).due (s.session q).silenceDeadline = s.due (s.session q).silenceDeadline := rfl
  unfold State.loseToSilence
  rw [isOpen_setDeferred, hdeadline, hdue, hconfig, beginEnd_unfollowed, beginEnd_unfollowed, endSession_setDeferred,
    endWork_setDeferred]
  split <;> rfl

theorem replyDrop_setDeferred (hsup : s.supervisor ≠ some p) (D : List DeferredEnd) (ended : Bool)
    (d : Option Disposition) : (s.setDeferred p D).replyDrop ended d = (s.replyDrop ended d).setDeferred p D := by
  have hsame : (s.setDeferred p D).supervisor = s.supervisor := rfl
  unfold State.replyDrop
  rw [hsame]
  cases hq : s.supervisor with
  | none => rfl
  | some q =>
    have hpq : p ≠ q := fun h => hsup (h ▸ hq)
    dsimp only
    rw [reply_setDeferred, session_setDeferred, if_neg hpq, setDeferred_setDeferred hpq, loseToSilence_setDeferred]
    exact (apply_ite (fun y : State => y.setDeferred p D) _ _ _).symm

/-- The report of a DROP_SESSION, at the supervisor's port (R129). -/
def State.reportDrop (s : State) : State :=
  match s.supervisor with
  | some q => s.report { cls := .supervisor, port := q, detail := Kind.dropSession.code }
  | none => s

theorem drop_eq (s : State) (p : Port) (named : Option Disposition) : s.drop p named =
    if s.isOpen p then s.reportDrop.beginEnd p .dropped (named.getD (s.session p).config.lossPolicy) .replyDrop
      fun e t => t.replyDrop true (some e.disposition)
    else s.replyDrop false none := rfl

theorem reportDrop_setDeferred (s : State) (p : Port) (D : List DeferredEnd) :
    (s.setDeferred p D).reportDrop = s.reportDrop.setDeferred p D := by
  have hsame : (s.setDeferred p D).supervisor = s.supervisor := rfl
  unfold State.reportDrop
  rw [hsame]
  cases s.supervisor with
  | none => rfl
  | some q => exact report_setDeferred s p D _

theorem supervisor_endSession (s : State) (p : Port) (c : EndCause) (work : Option SessionEnd) :
    (s.endSession p c work).supervisor = s.supervisor := by
  obtain ⟨hfixed, -⟩ := sessionEnded_endSession s p c work
  rw [hfixed]
  rfl

theorem supervisor_reportDrop (s : State) : s.reportDrop.supervisor = s.supervisor := by
  unfold State.reportDrop
  cases h : s.supervisor with
  | none => exact h
  | some q => exact (supervisor_report s _).trans h

theorem beginEnd_setDeferred (s : State) (p : Port) (D : List DeferredEnd) (q : Port) (c : EndCause) (d : Disposition)
    (f : EndSequel) (finish : SessionEnd → State → State)
    (hfinish : ∀ e, finish e ((s.endSession q c none).setDeferred p D) =
      (finish e (s.endSession q c none)).setDeferred p D) :
    (s.setDeferred p D).beginEnd q c d f finish = (s.beginEnd q c d f finish).setDeferred p D := by
  cases hwork : s.endWork q d f with
  | some e =>
    rw [beginEnd_of_work (s := s.setDeferred p D) hwork, beginEnd_of_work hwork, endSession_setDeferred]
  | none =>
    rw [beginEnd_of_no_work (s := s.setDeferred p D) hwork, beginEnd_of_no_work hwork, endSession_setDeferred, hfinish]

theorem drop_setDeferred (hsup : s.supervisor ≠ some p) (D : List DeferredEnd) (named : Option Disposition) :
    (s.setDeferred p D).drop p named = (s.drop p named).setDeferred p D := by
  obtain ⟨-, hconfig⟩ := silence_setDeferred s p D p
  rw [drop_eq, drop_eq, isOpen_setDeferred, hconfig, reportDrop_setDeferred, beginEnd_setDeferred,
    replyDrop_setDeferred hsup]
  · exact (apply_ite (fun y : State => y.setDeferred p D) _ _ _).symm
  · refine fun e => replyDrop_setDeferred ?_ D _ _
    rw [supervisor_endSession, supervisor_reportDrop]
    exact hsup

/-- An end taken once a reply is formed leaves the ends that wait behind it. -/
theorem takeDeferred_setDeferred {y : DeferredEnd} (h : y = .silence ∨ s.supervisor ≠ some p) (D : List DeferredEnd) :
    (s.setDeferred p D).takeDeferred p y = (s.takeDeferred p y).setDeferred p D := by
  cases y with
  | silence => exact loseToSilence_setDeferred s p p D
  | drop named => exact drop_setDeferred (h.resolve_left nofun) D named

/-- The ends that wait for a reply are taken one after the other. -/
theorem afterReply_of_cons {y : DeferredEnd} {rest : List DeferredEnd} (hlist : (s.session p).deferred = y :: rest)
    (h : y = .silence ∨ s.supervisor ≠ some p) :
    s.afterReply p = ((s.setDeferred p rest).takeDeferred p y).afterReply p := by
  have hself : s.setDeferred p rest = (s.setDeferred p rest).setDeferred p rest := by
    unfold State.setDeferred
    rw [session_setSession_self, setSession_setSession]
  have hrest : (((s.setDeferred p rest).takeDeferred p y).session p).deferred = rest := by
    rw [hself, takeDeferred_setDeferred (s := s.setDeferred p rest) h, session_setDeferred, if_pos rfl]
  have hempty : ((s.setDeferred p rest).takeDeferred p y).setDeferred p [] = (s.setDeferred p []).takeDeferred p y := by
    rw [← takeDeferred_setDeferred (s := s.setDeferred p rest) h]
    unfold State.setDeferred
    rw [session_setSession_self, setSession_setSession]
  rw [State.afterReply, State.afterReply, hlist, hrest, hempty]
  rfl

/-! ### Silence expiries that wait -/

theorem isOpen_endSession (s : State) (p : Port) (c : EndCause) (work : Option SessionEnd) :
    (s.endSession p c work).isOpen p = false := by
  obtain ⟨-, hown, -⟩ := sessionEnded_endSession s p c work
  rw [State.isOpen, hown]
  cases c <;> rfl

/-- A session lost to silence is not lost again. -/
theorem loseToSilence_twice (s : State) (p : Port) : (s.loseToSilence p).loseToSilence p = s.loseToSilence p := by
  by_cases h : s.isOpen p = true ∧ s.due (s.session p).silenceDeadline = true
  · rw [loseToSilence_of_due h.1 h.2, loseToSilence_of_not_due (.inl (isOpen_endSession _ _ _ _))]
  · have hnot : s.isOpen p = false ∨ s.due (s.session p).silenceDeadline = false := by
      rwa [← Bool.not_eq_true, ← Bool.not_eq_true, ← not_and_or]
    rw [loseToSilence_of_not_due hnot, loseToSilence_of_not_due hnot]

theorem foldl_silences {D : List DeferredEnd} (hall : ∀ y ∈ D, y = .silence) (h : s.loseToSilence p = s) :
    D.foldl (fun t y => t.takeDeferred p y) s = s := by
  induction D with
  | nil => rfl
  | cons y rest ih =>
    rw [List.foldl_cons, hall y List.mem_cons_self]
    show rest.foldl _ (s.loseToSilence p) = s
    rw [h]
    exact ih fun z hz => hall z (List.mem_cons_of_mem y hz)

/-- Where only silence expiries wait, one is taken. -/
theorem afterReply_of_silences (hall : ∀ y ∈ (s.session p).deferred, y = .silence) : s.afterReply p =
    if .silence ∈ (s.session p).deferred then (s.setDeferred p []).loseToSilence p else s := by
  cases hlist : (s.session p).deferred with
  | nil => rw [afterReply_of_nil hlist, if_neg List.not_mem_nil]
  | cons y rest =>
    rw [hlist] at hall
    have hy := hall y List.mem_cons_self
    rw [if_pos (by rw [hy]; exact List.mem_cons_self), State.afterReply, hlist, List.foldl_cons, hy]
    exact foldl_silences (fun z hz => hall z (List.mem_cons_of_mem y hz)) (loseToSilence_twice _ p)

/-- The DROP_SESSION reply and the silence expiry that waited for it (R110, R129). -/
theorem replyDrop_eq (hsup : s.supervisor = some q) (hall : ∀ y ∈ (s.session q).deferred, y = .silence)
    (ended : Bool) (d : Option Disposition) : s.replyDrop ended d =
      (s.reply q .ok [if ended then 0 else 1, dispositionCode d]).afterReply q := by
  rw [afterReply_of_silences (by rw [session_reply]; exact hall)]
  simp only [State.replyDrop, hsup]

/-! ### A report before the end of a session -/

theorem newSubjects_trace (s t : State) (q : Port) : s.newSubjects t 0 (fun _ => false) q =
    (if s.stopToldTo t q then [Subject.trace] else []).filter fun y => decide (y ∉ (s.session q).notices) := by
  simp [State.newSubjects]

/-- A capture stopped once stays so: of two steps one tells of the stop. -/
theorem notices_append_newSubjects (hsup : x.supervisor = s.supervisor) (hopen : x.isOpen q = s.isOpen q)
    (hlist : (x.session q).notices = (s.session q).notices ++ s.newSubjects x 0 (fun _ => false) q)
    (hsx : s.trace.state = .stopped → x.trace.state = .stopped)
    (hxt : x.trace.state = .stopped → t.trace.state = .stopped) :
    (x.session q).notices ++ x.newSubjects t 0 (fun _ => false) q =
      (s.session q).notices ++ s.newSubjects t 0 (fun _ => false) q := by
  by_cases hx : x.trace.state = .stopped
  · have hnone : x.newSubjects t 0 (fun _ => false) q = [] := by
      simp [newSubjects_trace, State.stopToldTo, hx]
    have hsame : s.stopToldTo x q = s.stopToldTo t q := by
      rw [State.stopToldTo, State.stopToldTo, hx, hxt hx]
    rw [hnone, List.append_nil, hlist, newSubjects_trace, hsame, ← newSubjects_trace]
  · have hs : s.trace.state ≠ .stopped := mt hsx hx
    have hnone : s.newSubjects x 0 (fun _ => false) q = [] := by
      simp [newSubjects_trace, State.stopToldTo, hx]
    have hsame : x.stopToldTo t q = s.stopToldTo t q := by
      rw [State.stopToldTo, State.stopToldTo, bne_iff_ne.mpr hx, bne_iff_ne.mpr hs, hsup, hopen]
    rw [hnone, List.append_nil] at hlist
    rw [newSubjects_trace, hsame, hlist, ← newSubjects_trace]

/-- A session ended after a report (R110, R129). -/
theorem sessionEnded_report (s : State) (r : Report) (p : Port) (c : EndCause) (work : Option SessionEnd) :
    s.SessionEnded ((s.report r).endSession p c work) p c work [r] := by
  obtain ⟨hfixed, hown, hstanding, hothers, hhears⟩ := sessionEnded_endSession (s.report r) p c work
  have hstopped : s.trace.state = .stopped → (s.report r).trace.state = .stopped := fun h => by
    rw [trace_report]
    exact stopped_hear r h
  refine ⟨?_, ?_, fun q l => by rw [hstanding, standing_report], fun q hq => ?_, ?_⟩
  · rw [hfixed, fixed_report s r]
  · rw [hown, onlyTraceTold_report s r p]
    rfl
  · have htold := onlyTraceTold_report s r q
    have hlist := notices_append_newSubjects (q := q) (t := (s.report r).endSession p c work)
      (supervisor_report s r) (isOpen_report s r q) (by rw [htold]) hstopped fun h => by
        rw [hhears]
        exact stopped_hear _ h
    rw [hothers q hq, hlist, htold]
  · rw [State.Hears, hhears, trace_report]
    rfl

theorem links_report (s : State) (r : Report) : (s.report r).links = s.links := by
  rw [fixed_report]

theorem reportDrop_of_supervisor (hsup : s.supervisor = some q) :
    s.reportDrop = s.report { cls := .supervisor, port := q, detail := 0x26 } := by
  rw [State.reportDrop, hsup]
  rfl

/-! ### DROP_SESSION carried out -/

theorem dispositionCode_some (d : Disposition) : dispositionCode (some d) = if d = .release then 1 else 2 := by
  cases d <;> rfl

theorem endWork_of_same (h : s.SameTables t) (p : Port) (d : Disposition) (f : EndSequel) :
    t.endWork p d f = s.endWork p d f := by
  rw [State.endWork, State.endWork, h.waitedLocks, h.heldLocks]

/-- The report of a DROP_SESSION (R129). -/
def dropReport (q : Port) : Report := { cls := .supervisor, port := q, detail := 0x26 }

/-- An OPEN session ended by DROP_SESSION, with lock work to take. -/
theorem drop_of_work {named : Option Disposition} (hsup : s.supervisor = some q) (hopen : s.isOpen p = true)
    (hd : d = named.getD (s.session p).config.lossPolicy) (hwork : s.endWork p d .replyDrop = some e) :
    s.drop p named = (s.report (dropReport q)).endSession p .dropped (some e) := by
  rw [drop_eq, if_pos hopen, ← hd, reportDrop_of_supervisor hsup]
  exact beginEnd_of_work ((endWork_of_same (sameTables_report s _) p d _).trans hwork) _

/-- An OPEN session ended by DROP_SESSION, with no lock work to take: its reply follows. -/
theorem drop_of_no_work {named : Option Disposition} (hsup : s.supervisor = some q) (hopen : s.isOpen p = true)
    (hd : d = named.getD (s.session p).config.lossPolicy) (hwork : s.endWork p d .replyDrop = none) :
    s.drop p named = ((s.report (dropReport q)).endSession p .dropped none).replyDrop true (some d) := by
  rw [drop_eq, if_pos hopen, ← hd, reportDrop_of_supervisor hsup]
  exact beginEnd_of_no_work ((endWork_of_same (sameTables_report s _) p d _).trans hwork) _

theorem drop_of_not_open {named : Option Disposition} (hopen : s.isOpen p = false) :
    s.drop p named = s.replyDrop false none := by
  rw [drop_eq, if_neg (by simp [hopen])]

/-- A session end elsewhere leaves a port's waiting ends. -/
theorem deferred_of_ended {work : Option SessionEnd} {before : List Report} (h : s.SessionEnded t p c work before)
    (hq : q ≠ p) : (t.session q).deferred = (s.session q).deferred := by
  obtain ⟨-, -, -, hothers, -⟩ := h
  rw [hothers q hq]

/-- Settles O30: the first end that waits is taken, and the others follow it. -/
theorem waitingSessionEndsAreTaken : Obligations.WaitingSessionEndsAreTaken := by
  refine fun s p => ⟨afterReply_of_nil, fun y rest hlist u hu => ?_⟩
  have hlist' (h : y = .silence ∨ s.supervisor ≠ some p) : s.afterReply p = (u.takeDeferred p y).afterReply p := by
    rw [hu]
    exact afterReply_of_cons hlist h
  have hopen : u.isOpen p = s.isOpen p := by
    rw [hu]
    exact isOpen_setDeferred s p rest p
  have hlinks : u.links = s.links := by rw [hu]; rfl
  obtain ⟨hdeadline, hconfig⟩ : (u.session p).silenceDeadline = (s.session p).silenceDeadline ∧
      (u.session p).config = (s.session p).config := by
    rw [hu]
    exact silence_setDeferred s p rest p
  have hdue : u.due (u.session p).silenceDeadline = s.due (s.session p).silenceDeadline := by
    rw [hdeadline, hu]
    rfl
  refine ⟨fun hy => ?_, fun named hy q hq hqp b hb hall disposition hd => ?_⟩
  · rw [hlist' (.inl hy), hy]
    refine ⟨fun ho hd => ⟨_, sessionEnded_endSession u p .silence _, ?_, ?_⟩, fun h => ?_⟩
    · rw [links_endSession, hlinks]
    · show (u.loseToSilence p).afterReply p = _
      rw [loseToSilence_of_due (hopen.trans ho) (hdue.trans hd), hconfig]
    · show (u.loseToSilence p).afterReply p = _
      rw [loseToSilence_of_not_due (by rw [hopen, hdue]; exact h)]
  · have hsup : u.supervisor = some q := by
      rw [hu]
      exact hq
    have hne : s.supervisor ≠ some p := fun h => hqp (Option.some.inj (hq.symm.trans h))
    have husession : u.session q = s.session q := by
      rw [hu]
      exact (session_setDeferred s p rest q).trans (if_neg (Ne.symm hqp))
    rw [hlist' (.inr hne), hy]
    rw [← hconfig] at hd
    refine ⟨fun ho hwork => ?_, fun ho hwork => ?_, fun ho => ?_⟩
    · obtain ⟨e, he⟩ := Option.ne_none_iff_exists'.mp hwork
      refine ⟨_, sessionEnded_report u (dropReport q) p .dropped _, ?_, ?_⟩
      · rw [links_endSession, links_report, hlinks]
      · rw [he]
        exact congrArg (fun z : State => z.afterReply p) (drop_of_work hsup (hopen.trans ho) hd he)
    · set v := (u.report (dropReport q)).endSession p .dropped none with hv
      have hended : u.SessionEnded v p .dropped none [dropReport q] := sessionEnded_report u _ p .dropped none
      have hvlinks : v.links = s.links := by rw [hv, links_endSession, links_report, hlinks]
      have hvsup : v.supervisor = some q := by rw [hv, supervisor_endSession, supervisor_report, hsup]
      have hvall : ∀ z ∈ (v.session q).deferred, z = .silence := by
        rw [deferred_of_ended hended hqp, husession]
        exact hall
      refine ⟨v, v.reply q .ok [0, if disposition = .release then 1 else 2], hended, hvlinks, fixed_reply _ _ _ _,
        replied_reply .ok _ (by rw [State.link, hvlinks]; exact hb) fun _ => rfl, ?_⟩
      show (u.drop p named).afterReply p = _
      rw [drop_of_no_work hsup (hopen.trans ho) hd hwork, ← hv, replyDrop_eq hvsup hvall, dispositionCode_some]
      rfl
    · refine ⟨u.reply q .ok [1, 0], fixed_reply _ _ _ _,
        replied_reply .ok _ (by rw [State.link, hlinks]; exact hb) fun _ => rfl, ?_⟩
      show (u.drop p named).afterReply p = _
      rw [drop_of_not_open (hopen.trans ho), replyDrop_eq hsup (by rw [husession]; exact hall)]
      rfl

/-! ### DROP_SESSION taken -/

theorem namedDisposition_eq (n : Byte) :
    namedDisposition n = if n = 1 then some .release else if n = 2 then some .retain else none := by
  by_cases h1 : n = 1
  · rw [h1]
    rfl
  · by_cases h2 : n = 2
    · rw [h2]
      rfl
    · rw [if_neg h1, if_neg h2]
      unfold namedDisposition
      split
      · next h => exact absurd (BitVec.eq_of_toNat_eq h) h1
      · next h => exact absurd (BitVec.eq_of_toNat_eq h) h2
      · rfl

/-- Handing on a request of another port is nothing to the target's wait. -/
theorem dropWaits_handOn (hq : q ≠ p) : (s.handOn p).dropWaits q = s.dropWaits q := by
  unfold State.dropWaits State.isOpening
  rw [link_handOn, if_neg (Ne.symm hq), isOpen_handOn]

theorem takeDrop_now {named : Option Disposition} (hq : q ≠ p) (h : s.dropWaits q = false) :
    (s.handOn p).takeDrop p q named = (s.handOn p).drop q named := by
  rw [State.takeDrop, if_neg hq, dropWaits_handOn hq, h, if_neg Bool.false_ne_true]

theorem takeDrop_later {named : Option Disposition} (hq : q ≠ p) (h : s.dropWaits q = true) :
    (s.handOn p).takeDrop p q named = (s.handOn p).setDeferred q ((s.session q).deferred ++ [.drop named]) := by
  rw [State.takeDrop, if_neg hq, dropWaits_handOn hq, h, if_pos rfl, session_handOn]

/-- The DROP_SESSION reply where no silence expiry waits for it. -/
theorem replyDrop_of_nil (hsup : s.supervisor = some p) (hnil : (s.session p).deferred = []) (ended : Bool)
    (d : Option Disposition) :
    s.replyDrop ended d = s.reply p .ok [if ended then 0 else 1, dispositionCode d] := by
  rw [replyDrop_eq hsup (by rw [hnil]; exact fun _ h => absurd h List.not_mem_nil),
    afterReply_of_nil (by rw [session_reply, hnil])]

/-- Settles O38: the supervisor's request is handed on, and the target's session ends now, not at all, or once its
reply is formed. -/
theorem dropSessionEndsTheSession : Obligations.DropSessionEndsTheSession := by
  intro s p b hwaits h hne d hd
  have hexec : exec (.dropSession p) s =
      .next ((s.handOn p).takeDrop p (portAt b 2) (namedDisposition (byteAt b 3))) :=
    congrArg Host.Outcome.next (takeRequest_of_takes _ h)
  have hsup : (s.handOn p).supervisor = some p := supervisor_of_messageCheck s h.2.2 rfl
  have hnil : (s.session p).deferred = [] := deferred_of_takes hwaits h
  have hnamed : d = (namedDisposition (byteAt b 3)).getD ((s.handOn p).session (portAt b 2)).config.lossPolicy := by
    rw [hd, namedDisposition_eq]
    split
    · rfl
    · split <;> rfl
  refine ⟨_, hexec, fun hopen hnone => ?_, fun hopen hnot => ?_, fun hsome hcase => ?_⟩
  · rw [takeDrop_now hne (by simp [State.dropWaits, hnone])]
    cases hwork : s.endWork (portAt b 2) d .replyDrop with
    | some e =>
      rw [drop_of_work hsup hopen hnamed hwork, if_neg (Option.some_ne_none e)]
      refine ⟨sessionEnded_report (s.handOn p) (dropReport p) _ _ _, handedOn_of_same_links ?_⟩
      rw [links_endSession, links_report]
    | none =>
      have hended := sessionEnded_report (s.handOn p) (dropReport p) (portAt b 2) .dropped none
      have hreply := replyDrop_of_nil (p := p) ((supervisor_endSession _ _ _ _).trans
        ((supervisor_report _ _).trans hsup)) ((deferred_of_ended hended (Ne.symm hne)).trans hnil) true (some d)
      rw [drop_of_no_work hsup hopen hnamed hwork, hreply, if_pos rfl, dispositionCode_some]
      refine ⟨sessionEnded_of_links hended (fixed_reply _ _ _ _), replied_taken _ _ h.1 fun q => ?_⟩
      rw [State.link, links_endSession, links_report, State.link]
  · have hwaiting : s.dropWaits (portAt b 2) = false := by
      simp [State.dropWaits, State.isOpening, hopen, hnot]
    rw [takeDrop_now hne hwaiting, drop_of_not_open (s := s.handOn p) hopen, replyDrop_of_nil hsup hnil]
    exact ⟨fixed_reply (s.handOn p) p .ok _, replied_taken _ _ h.1 fun _ => rfl⟩
  · have hwaiting : s.dropWaits (portAt b 2) = true := by
      rw [State.dropWaits, State.isOpening, Option.isSome_iff_ne_none.mpr hsome, Bool.true_and, Bool.or_eq_true,
        beq_iff_eq]
      exact hcase
    rw [takeDrop_later hne hwaiting, namedDisposition_eq]
    refine ⟨rfl, fun q => ?_, handedOn_of_same_links rfl⟩
    rw [session_setDeferred, session_handOn]
    by_cases hq : portAt b 2 = q
    · rw [if_pos hq, if_pos hq.symm, hq]
    · rw [if_neg hq, if_neg (Ne.symm hq)]
      rfl

end Sys2Proof.Machine
end

section
/-! PROOFS. The lock work of a session end and what follows its last piece (Chapters 2 and 6). -/

namespace Sys2Proof.Machine

variable {s t u w : State} {p q : Port} {b : Body} {l : LockId} {e : SessionEnd} {ls : List LockId}
  {finish : SessionEnd → State → State}

/-! ### An end that goes on -/

theorem goOnEnding_of_withdrawals (h : ls ≠ []) : s.goOnEnding p { e with work := .withdrawing ls } finish =
    s.setEnding p (some { e with work := .withdrawing ls }) := by
  obtain ⟨k, ks, rfl⟩ := List.exists_cons_of_ne_nil h
  rfl

theorem goOnEnding_of_releases (hd : e.disposition = .release) (hheld : s.heldLocks p ≠ []) :
    s.goOnEnding p { e with work := .withdrawing [] } finish =
      s.setEnding p (some { e with work := .releasing (s.heldLocks p) }) := by
  obtain ⟨k, ks, hcons⟩ := List.exists_cons_of_ne_nil hheld
  rw [State.goOnEnding, SessionEnd.stage, hd, hcons]
  rfl

/-- An end with neither withdrawals nor releases left is over. -/
theorem goOnEnding_of_none (h : e.disposition = .retain ∨ s.heldLocks p = []) :
    s.goOnEnding p { e with work := .withdrawing [] } finish =
      finish (endOver e.disposition e.sequel) (s.setEnding p none) := by
  unfold State.goOnEnding SessionEnd.stage
  cases hd : e.disposition with
  | retain => rfl
  | release =>
    rw [h.resolve_left (by simp [hd])]
    rfl

theorem goOnEnding_of_releasing (hne : ls ≠ []) : s.goOnEnding p { e with work := .releasing ls } finish =
    s.setEnding p (some { e with work := .releasing ls }) := by
  obtain ⟨k, ks, rfl⟩ := List.exists_cons_of_ne_nil hne
  rfl

theorem goOnEnding_of_released : s.goOnEnding p { e with work := .releasing [] } finish =
    finish { e with work := .releasing [] } (s.setEnding p none) := rfl

/-! ### A withdrawal and a release of a session end -/

/-- The state after a session end's withdrawal on a lock, the end left as it stood (R48). -/
def State.withdrawAtEnd (s : State) (p : Port) (l : LockId) : State :=
  if (s.lock l).waits p then s.withdrawWait p l bySessionEnd else s

/-- The state after a session end's release on a lock, the end left as it stood (R111). -/
def State.releaseAtEnd (s : State) (p : Port) (l : LockId) : State :=
  match (s.lock l).holding p with
  | some h => s.releaseHolding p l h bySessionEnd
  | none => s

theorem links_of_lockWork (h : s.LockWork t) : t.links = s.links := by rw [h.fixed]

theorem lockWork_withdrawAtEnd (s : State) (p : Port) (l : LockId) : s.LockWork (s.withdrawAtEnd p l) := by
  unfold State.withdrawAtEnd
  split
  · exact lockWork_withdrawWait s p l _
  · exact .refl s

theorem lockWork_releaseAtEnd (s : State) (p : Port) (l : LockId) : s.LockWork (s.releaseAtEnd p l) := by
  unfold State.releaseAtEnd
  split
  · exact lockWork_releaseHolding s p l _ _
  · exact .refl s

theorem withdrawnAtEnd (hsound : s.LocksSound) (p : Port) (l : LockId) :
    s.WithdrawnAtEnd (s.withdrawAtEnd p l) p l := by
  unfold State.WithdrawnAtEnd State.withdrawAtEnd
  by_cases hw : (s.lock l).waits p = true
  · obtain ⟨-, hhead, -⟩ := hsound l
    obtain ⟨hoff, hpool, hstanding, hcount⟩ := handsOff_withdrawWait (s := s) (p := p) (hsound l) bySessionEnd
    rw [if_pos hw, if_pos hw]
    exact ⟨hoff, handOffRun_leave_of_not_first hhead, hstanding, hcount, hpool,
      links_of_lockWork (lockWork_withdrawWait s p l _)⟩
  · rw [if_neg hw, if_neg hw]

/-- A withdrawal grants the port that withdraws nothing. -/
theorem heldLocks_withdrawAtEnd (hsound : s.LocksSound) (p : Port) (l : LockId) :
    (s.withdrawAtEnd p l).heldLocks p = s.heldLocks p := by
  refine List.filter_congr fun k _ => congrArg Option.isSome ?_
  unfold State.withdrawAtEnd
  split
  · obtain ⟨⟨⟨-, hothers, -⟩, ⟨-, -, -, hholding, -⟩, -⟩, -⟩ :=
      handsOff_withdrawWait (s := s) (p := p) (hsound l) bySessionEnd
    by_cases hk : k = l
    · rw [hk, hholding p (not_mem_runPorts fun _ => port_ne_of_mem_leave), holding_leave]
    · rw [hothers k hk]
  · rfl

theorem releaseAtEnd_of_holding {h : Holding} (hh : (s.lock l).holding p = some h) :
    s.releaseAtEnd p l = s.releaseHolding p l h bySessionEnd := by
  rw [State.releaseAtEnd, hh]

theorem releasedAtEnd (hsound : s.LocksSound) (p : Port) (l : LockId) :
    s.ReleasedAtEnd (s.releaseAtEnd p l) p l := by
  refine ⟨fun h hh => ?_, fun hnone => by rw [State.releaseAtEnd, hnone]⟩
  obtain ⟨-, -, honce, -⟩ := hsound l
  obtain ⟨hoff, hpool, hstanding, hcount⟩ := handsOff_releaseHolding honce hh bySessionEnd
  rw [releaseAtEnd_of_holding hh]
  exact ⟨hoff, hstanding, hcount, hpool, links_of_lockWork (lockWork_releaseHolding s p l h _)⟩

theorem takeEndWithdrawal_eq (he : (s.session p).ending = some e) (hw : e.work = .withdrawing ls) (hl : l ∈ ls) :
    s.takeEndWithdrawal p l finish =
      (s.withdrawAtEnd p l).goOnEnding p { e with work := .withdrawing (ls.filter fun k => k != l) } finish := by
  simp only [State.takeEndWithdrawal, he, hw, hl, if_true]
  rfl

theorem takeEndRelease_eq (he : (s.session p).ending = some e) (hw : e.work = .releasing ls) (hl : l ∈ ls) :
    s.takeEndRelease p l finish =
      (s.releaseAtEnd p l).goOnEnding p { e with work := .releasing (ls.filter fun k => k != l) } finish := by
  simp only [State.takeEndRelease, he, hw, hl, if_true]
  rfl

/-- Settles O31: the withdrawal is taken, and the end goes on with the locks left. -/
theorem sessionEndWithdrawsTheWait : Obligations.SessionEndWithdrawsTheWait := by
  intro s p l hsound _ e he ls hw hl
  have hexec : exec (.sessionEndWithdrawal p l) s = .next ((s.withdrawAtEnd p l).goOnEnding p
      { e with work := .withdrawing (ls.filter fun k => k != l) } fun e t => t.finishEnd p e) :=
    congrArg Host.Outcome.next (takeEndWithdrawal_eq he hw hl)
  refine ⟨_, _, hexec, withdrawnAtEnd hsound p l, ?_⟩
  by_cases hrest : ls.filter (fun k => k != l) ≠ []
  · rw [if_pos hrest, goOnEnding_of_withdrawals hrest]
    rfl
  · rw [if_neg hrest, not_not.mp hrest]
    by_cases hreleases : e.disposition = .release ∧ (s.withdrawAtEnd p l).heldLocks p ≠ []
    · rw [if_pos hreleases, goOnEnding_of_releases hreleases.1 hreleases.2]
      rfl
    · rw [if_neg hreleases]
      intro hsequel
      have hover : e.disposition = .retain ∨ (s.withdrawAtEnd p l).heldLocks p = [] := by
        rw [not_and_or, not_not] at hreleases
        exact hreleases.imp (fun h => by cases hd : e.disposition <;> simp_all) id
      rw [goOnEnding_of_none hover, hsequel]
      rfl

/-- A CLOSE whose session end is over is answered (R107). -/
theorem finishEnd_of_close (hsequel : e.sequel = .replyClose) :
    w.finishEnd p e = (w.reply p .ok []).afterReply p := by
  rw [State.finishEnd, hsequel]

/-- Settles O32: the release is taken, and the end goes on with the locks left or is over. -/
theorem sessionEndReleasesTheHolding : Obligations.SessionEndReleasesTheHolding := by
  intro s p l hsound _ e he ls hw hl
  have hexec : exec (.sessionEndRelease p l) s = .next ((s.releaseAtEnd p l).goOnEnding p
      { e with work := .releasing (ls.filter fun k => k != l) } fun e t => t.finishEnd p e) :=
    congrArg Host.Outcome.next (takeEndRelease_eq he hw hl)
  have hlinks := links_of_lockWork (lockWork_releaseAtEnd s p l)
  refine ⟨_, _, _, hexec, releasedAtEnd hsound p l, rfl, ?_⟩
  by_cases hrest : ls.filter (fun k => k != l) = []
  · rw [if_pos hrest, hrest, goOnEnding_of_released]
    by_cases hsequel : e.sequel = .nothing
    · rw [if_pos (.inr hsequel), State.finishEnd, hsequel]
      rfl
    · rw [if_neg (by simp [hsequel])]
      intro hclose b hb
      refine ⟨_, fixed_reply _ p .ok [], replied_reply .ok [] ?_ fun _ => rfl, finishEnd_of_close hclose⟩
      show (look (s.releaseAtEnd p l).links p).handedOn = some b
      rw [hlinks]
      exact hb
  · rw [if_neg hrest, if_pos (.inl hrest), goOnEnding_of_releasing hrest]
    rfl

/-! ### What follows an end -/

/-- The state after an end's last piece of lock work, whichever it was. -/
theorem end_over {c : Instr} (he : (s.session p).ending = some e)
    (hcase : (c = .sessionEndRelease p l ∧ e.work = .releasing [l]) ∨
      (c = .sessionEndWithdrawal p l ∧ e.work = .withdrawing [l] ∧
        (e.disposition = .retain ∨ s.heldLocks p = []))) (hsound : s.LocksSound) :
    ∃ (u : State) (e' : SessionEnd), s.LockWork u ∧ e'.disposition = e.disposition ∧ e'.sequel = e.sequel ∧
      (if c = .sessionEndRelease p l then s.ReleasedAtEnd u p l else s.WithdrawnAtEnd u p l) ∧
      exec c s = .next ((u.setEnding p none).finishEnd p e') := by
  have hnone : [l].filter (fun k => k != l) = [] := by simp
  rcases hcase with ⟨rfl, hw⟩ | ⟨rfl, hw, hover⟩
  · refine ⟨s.releaseAtEnd p l, { e with work := .releasing [] }, lockWork_releaseAtEnd s p l, rfl, rfl, ?_,
      congrArg Host.Outcome.next ?_⟩
    · rw [if_pos rfl]
      exact releasedAtEnd hsound p l
    · rw [takeEndRelease_eq he hw List.mem_cons_self, hnone, goOnEnding_of_released]
  · refine ⟨s.withdrawAtEnd p l, endOver e.disposition e.sequel, lockWork_withdrawAtEnd s p l, rfl, rfl, ?_,
      congrArg Host.Outcome.next ?_⟩
    · rw [if_neg nofun]
      exact withdrawnAtEnd hsound p l
    · rw [takeEndWithdrawal_eq he hw List.mem_cons_self, hnone, goOnEnding_of_none]
      exact hover.imp id (heldLocks_withdrawAtEnd hsound p l).trans

/-- Settles O33: the end is over with its last piece, and its sequel follows. -/
theorem sessionEndsAreFollowedThrough : Obligations.SessionEndsAreFollowedThrough := by
  intro s p l c hsound hopen e he hcase
  obtain ⟨u, e', hwork, hdisposition, hsequel, hdone, hexec⟩ := end_over he hcase hsound
  have hlinks : (u.setEnding p none).links = s.links := links_of_lockWork (t := u) hwork
  have hlink (q : Port) : (u.setEnding p none).link q = s.link q := by rw [State.link, hlinks, State.link]
  have hsup : (u.setEnding p none).supervisor = s.supervisor := hwork.supervisor
  have hdeferred (q : Port) : ((u.setEnding p none).session q).deferred = (s.session q).deferred := by
    have hsame : (u.session q).deferred = (s.session q).deferred := by rw [hwork.sessions q]
    rw [State.setEnding, session_setSession]
    split
    · next hpq => rw [hpq]; exact hsame
    · exact hsame
  refine ⟨_, u, _, hexec, hdone, rfl, fun hnothing => ?_, fun hclose b hb => ?_, fun hdrop q hq b hb hall => ?_,
    fun credit limit hreopen b hb => ?_⟩
  · rw [State.finishEnd, hsequel, hnothing]
    rfl
  · exact ⟨_, fixed_reply _ p .ok [], replied_reply .ok [] ((congrArg _ (hlink p)).trans hb) fun _ => rfl,
      finishEnd_of_close (hsequel.trans hclose)⟩
  · refine ⟨_, fixed_reply _ q .ok _, replied_reply .ok _ ((congrArg _ (hlink q)).trans hb) fun _ => rfl, ?_⟩
    rw [State.finishEnd, hsequel, hdrop]
    show (u.setEnding p none).replyDrop true _ = _
    rw [replyDrop_eq (hsup.trans hq) (by rw [hdeferred]; exact hall), dispositionCode_some, hdisposition]
    rfl
  · obtain ⟨v, hbegun, hv⟩ := sessionBegun_startOpen (s := u.setEnding p none) (x := u.setEnding p none) (p := p)
      (b := b) (cond := .handedOn) rfl rfl
      (fun v res hvl => replied_reply .ok res (by rw [hlink]; exact hb) hvl) credit limit (some e.disposition)
    refine ⟨v, hbegun, ?_⟩
    rw [State.finishEnd, hsequel, hreopen, hdisposition]
    exact hv

end Sys2Proof.Machine
end

section
/-! PROOFS. REVOKE and PURGE: holders and waiters removed from a lock one by one (Chapter 7). -/

namespace Sys2Proof.Machine

variable {s t y : State} {p q : Port} {b : Body} {l : LockId} {c : Cause} {h : Holding} {gone : List Port}
  {reports : List Report} {e : LockEntry}

/-! ### Ports removed from a lock -/

/-- The record of a port removed from a lock: its holding has ended or its wait has left, and it has the change while
its session is OPEN (R81, R125, R127). -/
def State.ejectedRecord (s : State) (l : LockId) (c : Cause) (q : Port) : StandingRecord :=
  s.changed q c (match (s.lock l).holding q with
    | some h => (s.standing q l).unhold h
    | none => (s.standing q l).leave)

/-- The counts of a port removed from a lock. -/
def State.ejectedCounts (s : State) (l : LockId) (q : Port) : PortCounts :=
  match (s.lock l).holding q with
  | some _ => (s.count q).dropHolding
  | none => (s.count q).dropWait

/-- `t` is the state `s` after the removal of the ports `gone` from lock `l`, short of a hand-off. -/
structure State.Ejected (s t : State) (l : LockId) (c : Cause) (gone : List Port) (reports : List Report) : Prop where
  work : s.LockWork t
  locks : ∀ k : LockId, k ≠ l → t.lock k = s.lock k
  standings : ∀ (q : Port) (k : LockId), k ≠ l → t.standing q k = s.standing q k
  removed : ∀ q ∈ gone, t.standing q l = s.ejectedRecord l c q ∧ t.count q = s.ejectedCounts l q
  kept : ∀ q : Port, q ∉ gone → t.standing q l = s.standing q l ∧ t.count q = s.count q
  heard : s.Hears t reports
  told : s.Told t l fun q => decide (q ∈ gone)

theorem ejected_report (s : State) (l : LockId) (c : Cause) (r : Report) : s.Ejected (s.report r) l c [] [r] where
  work := lockWork_report s r
  locks k _ := lock_report s r k
  standings q k _ := standing_report s r q k
  removed _ h := absurd h List.not_mem_nil
  kept q _ := ⟨standing_report s r q l, count_report s r q⟩
  heard := trace_report s r
  told := by
    have htold := told_report (told_refl s l) (fun _ => rfl) rfl id r
    simpa using htold

theorem State.Ejected.stopped (h : s.Ejected t l c gone reports) (hs : s.trace.state = .stopped) :
    t.trace.state = .stopped := by
  rw [h.heard, hearAll_of_stopped hs]
  exact hs

/-- The lists depend on the notices and the capture alone. -/
theorem told_congr {gets : Port → Bool} (h : s.Told t l gets) (hsession : ∀ q : Port, y.session q = t.session q)
    (htrace : y.trace = t.trace) : s.Told y l gets := fun q => by
  have hstop : s.stopToldTo y q = s.stopToldTo t q := by rw [State.stopToldTo, htrace, State.stopToldTo]
  rw [hsession, hstop]
  exact h q

/-- One more port removed: `y` is the state when its holding has ended or its wait has left. -/
theorem State.Ejected.eject (h : s.Ejected t l c gone reports) (hwork : t.LockWork y)
    (hlocks : ∀ k : LockId, k ≠ l → y.lock k = t.lock k) {record : StandingRecord}
    (hstanding : ∀ (r : Port) (k : LockId), y.standing r k = if q = r ∧ l = k then record else t.standing r k)
    (hrecord : s.changed q c record = s.ejectedRecord l c q)
    (hcount : ∀ r : Port, y.count r = if q = r then s.ejectedCounts l q else t.count r)
    (hsession : ∀ r : Port, y.session r = t.session r) (htrace : y.trace = t.trace) (rep : Report) :
    s.Ejected ((y.recordChange q l c).report rep) l c (gone ++ [q]) (reports ++ [rep]) := by
  have hy : s.LockWork y := h.work.trans hwork
  have hchange : s.LockWork (y.recordChange q l c) := hy.trans (lockWork_recordChange y q l c)
  have hstanding' (r : Port) (k : LockId) : ((y.recordChange q l c).report rep).standing r k =
      if q = r ∧ l = k then s.ejectedRecord l c q else t.standing r k := by
    rw [standing_report, standing_recordChange, hy.isOpen, hstanding, ← hrecord, State.changed]
    by_cases hown : q = r ∧ l = k
    · simp only [hown, and_true, if_true]
      rfl
    · rw [if_neg fun e => hown e.2, if_neg hown, if_neg hown]
  have hcount' (r : Port) : ((y.recordChange q l c).report rep).count r =
      if q = r then s.ejectedCounts l q else t.count r := by
    rw [count_report, count_recordChange, hcount]
  refine ⟨hchange.trans (lockWork_report _ rep), fun k hk => ?_, fun r k hk => ?_, fun r hr => ?_, fun r hr => ?_, ?_, ?_⟩
  · rw [lock_report, lock_recordChange, hlocks k hk, h.locks k hk]
  · rw [hstanding', if_neg fun e => hk e.2.symm, h.standings r k hk]
  · rw [hstanding', hcount']
    by_cases hqr : q = r
    · subst hqr
      rw [if_pos ⟨rfl, rfl⟩, if_pos rfl]
      exact ⟨rfl, rfl⟩
    · rw [if_neg fun e => hqr e.1, if_neg hqr]
      exact h.removed r ((List.mem_append.mp hr).resolve_right fun hm => hqr (List.mem_singleton.mp hm).symm)
  · have hqr : q ≠ r := fun e => hr (List.mem_append.mpr (.inr (List.mem_singleton.mpr e.symm)))
    rw [hstanding', hcount', if_neg fun e => hqr e.1, if_neg hqr]
    exact h.kept r fun hm => hr (List.mem_append.mpr (.inl hm))
  · rw [State.Hears, trace_report, trace_recordChange, htrace, h.heard, List.foldl_append]
    rfl
  · have htold := told_recordChange (told_congr h.told hsession htrace) hy.isOpen q c
    have hgone : (fun r => decide (r ∈ gone) || decide (r = q)) = fun r => decide (r ∈ gone ++ [q]) := by
      funext r
      simp
    rw [hgone] at htold
    exact told_report htold hchange.isOpen hchange.supervisor
      (fun hs => by rw [trace_recordChange, htrace]; exact h.stopped hs) rep

/-! ### Holders removed -/

theorem holding_foldl_unhold (e : LockEntry) (qs : List Port) (r : Port) :
    (qs.foldl LockEntry.unhold e).holding r = if r ∈ qs then none else e.holding r := by
  induction qs generalizing e with
  | nil => rfl
  | cons q qs ih =>
    rw [List.foldl_cons, ih, holding_unhold]
    by_cases hr : r ∈ qs
    · rw [if_pos hr, if_pos (List.mem_cons_of_mem q hr)]
    · by_cases hq : q = r
      · rw [if_neg hr, if_pos hq, if_pos (hq ▸ List.mem_cons_self)]
      · rw [if_neg hr, if_neg hq, if_neg (List.not_mem_cons_of_ne_of_not_mem (Ne.symm hq) hr)]

theorem foldl_unhold_keeps (e : LockEntry) (qs : List Port) : (qs.foldl LockEntry.unhold e).queue = e.queue ∧
    (qs.foldl LockEntry.unhold e).config = e.config ∧ (qs.foldl LockEntry.unhold e).last = e.last := by
  induction qs generalizing e with
  | nil => exact ⟨rfl, rfl, rfl⟩
  | cons q qs ih => exact ih (e.unhold q)

/-- The report of a holder removed (R125, R127). -/
def State.revokedReport (s : State) (l : LockId) (detail : Byte) (q : Port) : Report :=
  { cls := .revoked, port := q, lock := some l, detail := detail, grant := ((s.lock l).holding q).map Holding.grant }

theorem revokeHolding_eq (hh : (s.lock l).holding q = some h) (d : Byte) :
    s.revokeHolding l c d q = ((s.endHolding q l h).recordChange q l c).report
      { cls := .revoked, port := q, lock := some l, detail := d, grant := some h.grant } := by
  rw [State.revokeHolding, hh]

theorem ejected_foldl_revoke {d : Byte} : ∀ (qs done : List Port) (reports : List Report) (t : State),
    s.Ejected t l c done reports → t.lock l = done.foldl LockEntry.unhold (s.lock l) → (done ++ qs).Nodup →
    (∀ q ∈ qs, ((s.lock l).holding q).isSome = true) →
    s.Ejected (qs.foldl (fun t q => t.revokeHolding l c d q) t) l c (done ++ qs)
        (reports ++ qs.map (s.revokedReport l d)) ∧
      (qs.foldl (fun t q => t.revokeHolding l c d q) t).lock l = (done ++ qs).foldl LockEntry.unhold (s.lock l) ∧
      (qs.foldl (fun t q => t.revokeHolding l c d q) t).poolInUse = t.poolInUse
  | [], done, reports, t, ht, hlock, _, _ => by
    rw [List.append_nil, List.map_nil, List.append_nil]
    exact ⟨ht, hlock, rfl⟩
  | q :: qs, done, reports, t, ht, hlock, hnodup, hheld => by
    have hq : q ∉ done := fun hm =>
      (List.nodup_append.mp hnodup).2.2 q hm q List.mem_cons_self rfl
    obtain ⟨h, hh⟩ := Option.isSome_iff_exists.mp (hheld q List.mem_cons_self)
    have hth : (t.lock l).holding q = some h := by rw [hlock, holding_foldl_unhold, if_neg hq, hh]
    obtain ⟨hstanding, hcount⟩ := ht.kept q hq
    have hnext := ht.eject (y := t.endHolding q l h) (lockWork_endHolding t q l h)
      (fun k hk => by rw [lock_endHolding, if_neg (Ne.symm hk)])
      (fun r k => standing_endHolding t q l h r k)
      (by rw [hstanding, State.ejectedRecord, hh])
      (fun r => by rw [count_endHolding, State.ejectedCounts, hh, hcount])
      (session_endHolding t q l h) (trace_endHolding t q l h)
      { cls := .revoked, port := q, lock := some l, detail := d, grant := some h.grant }
    rw [← revokeHolding_eq hth] at hnext
    have hreport : s.revokedReport l d q =
        { cls := .revoked, port := q, lock := some l, detail := d, grant := some h.grant } := by
      rw [State.revokedReport, hh]
      rfl
    have hlock' : (t.revokeHolding l c d q).lock l = (done ++ [q]).foldl LockEntry.unhold (s.lock l) := by
      rw [revokeHolding_eq hth, lock_report, lock_recordChange, lock_endHolding, if_pos rfl, hlock, List.foldl_append]
      rfl
    have hpool : (t.revokeHolding l c d q).poolInUse = t.poolInUse := by
      rw [revokeHolding_eq hth, poolInUse_report, poolInUse_recordChange, poolInUse_endHolding]
    have htail := ejected_foldl_revoke (d := d) qs (done ++ [q]) _ _ hnext hlock' (by rwa [List.append_assoc])
      fun r hr => hheld r (List.mem_cons_of_mem q hr)
    rw [List.append_assoc, List.append_assoc, hpool] at htail
    rw [List.map_cons, hreport]
    exact htail

/-! ### Waiters removed -/

/-- The entry without the records given. -/
def LockEntry.leaveAll (e : LockEntry) (ws : List Waiter) : LockEntry := ws.foldl (fun f w => f.leave w.port) e

theorem leaveAll_keeps (e : LockEntry) (ws : List Waiter) : (e.leaveAll ws).config = e.config ∧
    (e.leaveAll ws).last = e.last ∧ ∀ q : Port, (e.leaveAll ws).holding q = e.holding q := by
  induction ws generalizing e with
  | nil => exact ⟨rfl, rfl, fun _ => rfl⟩
  | cons w ws ih => exact ih (e.leave w.port)

theorem mem_queue_leaveAll {ws : List Waiter} {x : Waiter} (hx : x ∈ (e.leaveAll ws).queue) :
    x ∈ e.queue ∧ ∀ w ∈ ws, x.port ≠ w.port := by
  induction ws generalizing e with
  | nil => exact ⟨hx, fun _ h => absurd h List.not_mem_nil⟩
  | cons w ws ih =>
    obtain ⟨hleft, hothers⟩ := ih hx
    rw [queue_leave, List.mem_filter, bne_iff_ne] at hleft
    refine ⟨hleft.1, fun v hv => ?_⟩
    rcases List.mem_cons.mp hv with rfl | hv
    · exact hleft.2
    · exact hothers v hv

/-- All its records taken, a queue is empty. -/
theorem queue_leaveAll_self (h : e.queue = ws) : (e.leaveAll ws).queue = [] :=
  List.eq_nil_iff_forall_not_mem.mpr fun x hx => by
    obtain ⟨hin, hout⟩ := mem_queue_leaveAll hx
    exact hout x (h ▸ hin) rfl

/-- The report of a waiter removed (R127). -/
def purgedReport (l : LockId) (q : Port) : Report := { cls := .revoked, port := q, lock := some l, detail := 1 }

theorem ejected_foldl_purge : ∀ (ws : List Waiter) (done : List Port) (reports : List Report) (t : State),
    s.Ejected t l .purged done reports → (done ++ ws.map Waiter.port).Nodup →
    (∀ w ∈ ws, (s.lock l).holding w.port = none) →
    s.Ejected (ws.foldl (fun t w => t.purgeWaiter l w) t) l .purged (done ++ ws.map Waiter.port)
        (reports ++ (ws.map Waiter.port).map (purgedReport l)) ∧
      (ws.foldl (fun t w => t.purgeWaiter l w) t).lock l = (t.lock l).leaveAll ws ∧
      (ws.foldl (fun t w => t.purgeWaiter l w) t).poolInUse = t.poolInUse - ws.length
  | [], done, reports, t, ht, _, _ => by
    simp only [List.map_nil, List.append_nil]
    exact ⟨ht, rfl, rfl⟩
  | w :: ws, done, reports, t, ht, hnodup, hfree => by
    have hq : w.port ∉ done := fun hm =>
      (List.nodup_append.mp hnodup).2.2 w.port hm w.port List.mem_cons_self rfl
    have hh := hfree w List.mem_cons_self
    obtain ⟨hstanding, hcount⟩ := ht.kept w.port hq
    have hnext := ht.eject (y := t.leaveQueue w.port l) (lockWork_leaveQueue t w.port l)
      (fun k hk => by rw [lock_leaveQueue, if_neg (Ne.symm hk)])
      (fun r k => standing_leaveQueue t w.port l r k)
      (by rw [hstanding, State.ejectedRecord, hh])
      (fun r => by rw [count_leaveQueue, State.ejectedCounts, hh, hcount])
      (session_leaveQueue t w.port l) (trace_leaveQueue t w.port l) (purgedReport l w.port)
    replace hnext : s.Ejected (t.purgeWaiter l w) l .purged (done ++ [w.port]) (reports ++ [purgedReport l w.port]) :=
      hnext
    have hlock : (t.purgeWaiter l w).lock l = (t.lock l).leave w.port := by
      rw [State.purgeWaiter, lock_report, lock_recordChange, lock_leaveQueue, if_pos rfl]
    have hpool : (t.purgeWaiter l w).poolInUse = t.poolInUse - 1 := by
      rw [State.purgeWaiter, poolInUse_report, poolInUse_recordChange, poolInUse_leaveQueue]
    have htail := ejected_foldl_purge ws (done ++ [w.port]) _ _ hnext (by rwa [List.append_assoc])
      fun v hv => hfree v (List.mem_cons_of_mem w hv)
    rw [List.append_assoc, List.append_assoc] at htail
    obtain ⟨hejected, hleft, hrest⟩ := htail
    refine ⟨hejected, ?_, ?_⟩
    · exact hleft.trans (by rw [hlock]; rfl)
    · refine hrest.trans ?_
      rw [hpool, List.length_cons, Nat.sub_sub, Nat.add_comm]

/-! ### REVOKE -/

theorem nodup_allPorts : allPorts.Nodup := by decide

/-- Work on a lock is no matter of the link ports. -/
theorem lockFrame_of_links (h : s.LockFrame t l) (hy : y = { t with links := y.links }) : s.LockFrame y l := by
  obtain ⟨hfixed, hlocks, hstandings, hsessions⟩ := h
  rw [hy]
  exact ⟨congrArg (fun z : State => { z with links := y.links }) hfixed, hlocks, hstandings, hsessions⟩

/-- The work of a hand-off is no matter of the link ports. -/
theorem handsOff_of_links {ended : List Port} {gets : Port → Bool} {caller : Option Port}
    (h : s.HandsOff t l e ended gets caller reports) (hy : y = { t with links := y.links }) :
    s.HandsOff y l e ended gets caller reports := by
  obtain ⟨hframe, hentry, hgranted, hkept, hhears, hlists⟩ := h
  refine ⟨lockFrame_of_links hframe hy, ?_⟩
  rw [hy]
  exact ⟨hentry, hgranted, hkept, hhears, hlists⟩

theorem takeRevoke_of_targets {target : Byte} {qs : List Port} (hqs : (s.lock l).targets target = qs) (hne : qs ≠ []) :
    s.takeRevoke p l target = ((qs.foldl (fun t q => t.revokeHolding l .revoked byRevoke q)
      (s.report { cls := .supervisor, port := p, lock := some l, detail := 0x24 })).handOff l).reply p .ok
        [countByte qs.length] := by
  obtain ⟨k, ks, rfl⟩ := List.exists_cons_of_ne_nil hne
  rw [State.takeRevoke, hqs]
  rfl

/-- Settles O36: the holdings named are ended one by one, and one hand-off follows. -/
theorem revokeRemovesHolders : Obligations.RevokeRemovesHolders := by
  intro s p b hsound htakes qs hqs hne e he
  have htargets : ((s.handOn p).lock (lockAt b 2)).targets (byteAt b 3) = qs := by rw [targets_eq, hqs, lock_handOn]
  have hexec : exec (.revoke p) s = .next ((s.handOn p).takeRevoke p (lockAt b 2) (byteAt b 3)) :=
    congrArg Host.Outcome.next (takeRequest_of_takes _ htakes)
  rw [takeRevoke_of_targets htargets hne] at hexec
  have hheld : ∀ q ∈ qs, (((s.handOn p).lock (lockAt b 2)).holding q).isSome = true := fun q hq => by
    rw [hqs, List.mem_filter, Bool.and_eq_true] at hq
    exact hq.2.2
  have hnodup : qs.Nodup := hqs ▸ nodup_allPorts.filter _
  obtain ⟨-, -, ⟨hports, honce⟩, -⟩ := hsound (lockAt b 2)
  obtain ⟨hejected, hlock, hpool⟩ := ejected_foldl_revoke (d := byRevoke) qs [] _ _
    (ejected_report (s.handOn p) (lockAt b 2) .revoked
      { cls := .supervisor, port := p, lock := some (lockAt b 2), detail := 0x24 })
    (lock_report _ _ _) hnodup hheld
  rw [List.nil_append] at hejected hlock
  set v := qs.foldl (fun t q => t.revokeHolding (lockAt b 2) .revoked byRevoke q) ((s.handOn p).report
    { cls := .supervisor, port := p, lock := some (lockAt b 2), detail := 0x24 }) with hv
  rw [poolInUse_report] at hpool
  have hentry : v.lock (lockAt b 2) = e := hlock.trans he.symm
  obtain ⟨hqueue, -⟩ := foldl_unhold_keeps (s.lock (lockAt b 2)) qs
  have hvqueue : (v.lock (lockAt b 2)).queue = (s.lock (lockAt b 2)).queue := by rw [hlock]; exact hqueue
  obtain ⟨hoff, hpoolOff, hended⟩ := handsOff_handOff hejected.work hejected.locks hejected.standings hejected.kept
    (by rw [hvqueue]; exact hports)
    (fun w hw hq => by
      have hwaits := (waits_iff (s.lock (lockAt b 2)) w.port).mpr ⟨w, hvqueue ▸ hw, rfl⟩
      rw [honce w.port (hheld w.port hq)] at hwaits
      contradiction)
    hejected.heard hejected.told
  rw [hentry] at hoff hpoolOff
  refine ⟨_, hexec, handsOff_of_links (handsOff_of_handOn hoff) (fixed_reply _ _ _ _), fun q hq h hh => ?_, ?_,
    replied_taken _ _ htakes.1 fun q => ?_⟩
  · obtain ⟨hstanding, hcount⟩ := hended q hq
    obtain ⟨hrecord, hcounts⟩ := hejected.removed q hq
    have hh' : ((s.handOn p).lock (lockAt b 2)).holding q = some h := hh
    rw [standing_reply, count_reply, hstanding, hcount, hrecord, hcounts, State.ejectedRecord, State.ejectedCounts, hh']
    exact ⟨rfl, rfl⟩
  · rw [poolInUse_reply, hpoolOff, hpool]
    rfl
  · rw [(lockWork_handOff v (lockAt b 2)).link, hejected.work.link]

/-! ### PURGE -/

theorem handOff_of_empty (h : (s.lock l).queue = []) : s.handOff l = s := by
  rw [State.handOff, handOffRun_of_empty h]
  rfl

/-- An entry with nobody on it is its configuration and last grant number. -/
theorem entry_of_unused (hholding : ∀ q : Port, e.holding q = none) (hqueue : e.queue = []) :
    e = { config := e.config, last := e.last } := by
  have hholders : e.holders = Vector.replicate 6 none := table_ext fun q => by
    rw [look_replicate]
    exact hholding q
  obtain ⟨config, last, holders, queue⟩ := e
  simp_all

theorem takePurge_eq (s : State) (p : Port) (l : LockId) : s.takePurge p l =
    ((((s.lock l).queue.foldl (fun t w => t.purgeWaiter l w) ((s.lock l).holderPorts.foldl
      (fun t q => t.revokeHolding l .purged byPurge q)
      (s.report { cls := .supervisor, port := p, lock := some l, detail := 0x25 }))).handOff l).reply p .ok
        [countByte (s.lock l).holderPorts.length, countByte (s.lock l).queue.length]) := rfl

/-- A lock after its holders and its waiters have been removed one by one. -/
theorem purged_entry (e : LockEntry) :
    (e.holderPorts.foldl LockEntry.unhold e).leaveAll e.queue = { config := e.config, last := e.last } := by
  obtain ⟨hqueue, hconfig, hlast⟩ := foldl_unhold_keeps e e.holderPorts
  obtain ⟨hconfig', hlast', hholding'⟩ := leaveAll_keeps (e.holderPorts.foldl LockEntry.unhold e) e.queue
  have hnone (q : Port) : ((e.holderPorts.foldl LockEntry.unhold e).leaveAll e.queue).holding q = none := by
    rw [hholding', holding_foldl_unhold]
    split
    · rfl
    · next hq =>
      rw [mem_holderPorts] at hq
      exact Option.not_isSome_iff_eq_none.mp hq
  have hentry := entry_of_unused hnone (queue_leaveAll_self hqueue)
  rw [hconfig', hlast', hconfig, hlast] at hentry
  exact hentry

/-- The ports removed by a PURGE: the holders, then the waiters. -/
theorem nodup_purged (honce : e.PortOnce) : (e.holderPorts ++ e.queue.map Waiter.port).Nodup := by
  obtain ⟨hports, hholder⟩ := honce
  refine List.nodup_append.mpr ⟨nodup_allPorts.filter _, hports, fun q hq r hr hqr => ?_⟩
  obtain ⟨w, hw, hwr⟩ := List.mem_map.mp hr
  have hwaits := hholder q ((mem_holderPorts e q).mp hq)
  rw [(waits_iff e q).mpr ⟨w, hw, hwr.trans hqr.symm⟩] at hwaits
  contradiction

theorem holding_of_waiter (honce : e.PortOnce) {w : Waiter} (hw : w ∈ e.queue) : e.holding w.port = none := by
  by_contra hsome
  have hwaits := honce.2 w.port (Option.isSome_iff_ne_none.mpr hsome)
  rw [(waits_iff e w.port).mpr ⟨w, hw, rfl⟩] at hwaits
  contradiction

/-- Settles O37: every holder and every waiter is removed, and an empty queue leaves nobody to grant. -/
theorem purgeEmptiesTheLock : Obligations.PurgeEmptiesTheLock := by
  intro s p b hsound htakes hs hhs ws hws
  have hexec : exec (.purge p) s = .next ((s.handOn p).takePurge p (lockAt b 2)) :=
    congrArg Host.Outcome.next (takeRequest_of_takes _ htakes)
  rw [takePurge_eq, lock_handOn] at hexec
  obtain ⟨-, -, honce, -⟩ := hsound (lockAt b 2)
  have hholders : (s.lock (lockAt b 2)).holderPorts = hs := hhs.symm
  have hnodup := nodup_purged honce
  obtain ⟨hejected, hlock, hpool⟩ := ejected_foldl_revoke (s := s.handOn p) (d := byPurge)
    (s.lock (lockAt b 2)).holderPorts [] _ _ (ejected_report (s.handOn p) (lockAt b 2) .purged
      { cls := .supervisor, port := p, lock := some (lockAt b 2), detail := 0x25 }) (lock_report _ _ _)
    (List.nodup_append.mp hnodup).1 fun q hq => (mem_holderPorts _ q).mp hq
  obtain ⟨hejected, hlock', hpool'⟩ := ejected_foldl_purge (s.lock (lockAt b 2)).queue _ _ _ hejected hnodup
    fun w hw => holding_of_waiter honce hw
  rw [hlock, List.nil_append, lock_handOn, purged_entry] at hlock'
  rw [hpool, poolInUse_report] at hpool'
  rw [handOff_of_empty (by rw [hlock'])] at hexec
  generalize (s.lock (lockAt b 2)).queue.foldl _ _ = v at hexec hejected hlock' hpool'
  rw [List.nil_append, hholders, ← hws] at hejected
  have hframe : (s.handOn p).LockFrame v (lockAt b 2) :=
    lockFrame_of_lockWork hejected.work hejected.locks hejected.standings
  have hlength : (s.lock (lockAt b 2)).queue.length = ws.length := by rw [hws, List.length_map]
  rw [hholders, hlength] at hexec
  rw [hlength] at hpool'
  have hreply := fixed_reply v p .ok [countByte hs.length, countByte ws.length]
  have hentry : (v.reply p .ok [countByte hs.length, countByte ws.length]).lock (lockAt b 2) =
      { config := (s.lock (lockAt b 2)).config, last := (s.lock (lockAt b 2)).last } := by rw [lock_reply, hlock']
  refine ⟨_, hexec, lockFrame_of_links hframe hreply, fun q => ?_, hentry, fun q hq h hh => ?_, fun q hq => ?_,
    fun q hq hq' => ?_, ?_, ?_, ?_, replied_taken _ _ htakes.1 hejected.work.link⟩
  · rw [hentry, LockEntry.holding, look_replicate]
  · obtain ⟨hrecord, hcounts⟩ := hejected.removed q (List.mem_append.mpr (.inl hq))
    have hh' : ((s.handOn p).lock (lockAt b 2)).holding q = some h := hh
    rw [standing_reply, count_reply, hrecord, hcounts, State.ejectedRecord, State.ejectedCounts, hh']
    exact ⟨rfl, rfl⟩
  · obtain ⟨hrecord, hcounts⟩ := hejected.removed q (List.mem_append.mpr (.inr hq))
    obtain ⟨w, hw, rfl⟩ := List.mem_map.mp (hws ▸ hq)
    have hh' : ((s.handOn p).lock (lockAt b 2)).holding w.port = none := holding_of_waiter honce hw
    rw [standing_reply, count_reply, hrecord, hcounts, State.ejectedRecord, State.ejectedCounts, hh']
    exact ⟨rfl, rfl⟩
  · rw [standing_reply, count_reply]
    exact hejected.kept q fun hm => (List.mem_append.mp hm).elim hq hq'
  · rw [poolInUse_reply]
    exact hpool'
  · rw [State.Hears, trace_reply]
    exact hejected.heard
  · have hgets : (fun q => decide (q ∈ hs ++ ws)) = fun q => decide (q ∈ hs) || decide (q ∈ ws) := by
      funext q
      simp
    have hgrow := listsGrow_of_told hejected.told
    rw [hgets] at hgrow
    intro q
    rw [session_reply]
    have hnew : s.newSubjects (v.reply p .ok [countByte hs.length, countByte ws.length]) (lockAt b 2)
        (fun q => decide (q ∈ hs) || decide (q ∈ ws)) q = (s.handOn p).newSubjects v (lockAt b 2)
        (fun q => decide (q ∈ hs) || decide (q ∈ ws)) q := newSubjects_reply s v p .ok _ _ _ q
    rw [hnew]
    exact hgrow q

end Sys2Proof.Machine
end

section
/-! PROOFS. The model's queue of waiting commands: no command reads it or writes it (log entry 2). -/

namespace Sys2Proof.Machine

variable {c : Instr} {t : State}

/-! ### A state with another queue of commands

What is read of a state with another queue is what is read of the state. The proofs are written `(rfl)` so that
`simp` rewrites the tests of the model with them as propositions, and their decisions with them. -/

/-- The state with another queue of waiting commands. -/
def State.withQueue (s : State) (w : List Instr) : State := { s with pending := w }

variable (s : State) (w : List Instr) (p q : Port) (l : LockId)

theorem withQueue_eq : s.withQueue w = { s with pending := w } := rfl

@[simp] theorem lock_withQueue : (s.withQueue w).lock l = s.lock l := (rfl)

@[simp] theorem standing_withQueue : (s.withQueue w).standing p l = s.standing p l := (rfl)

@[simp] theorem session_withQueue : (s.withQueue w).session p = s.session p := (rfl)

@[simp] theorem link_withQueue : (s.withQueue w).link p = s.link p := (rfl)

@[simp] theorem trace_withQueue : (s.withQueue w).trace = s.trace := (rfl)

@[simp] theorem clock_withQueue : (s.withQueue w).clock = s.clock := (rfl)

@[simp] theorem restartCount_withQueue : (s.withQueue w).restartCount = s.restartCount := (rfl)

@[simp] theorem restarting_withQueue : (s.withQueue w).restarting = s.restarting := (rfl)

@[simp] theorem resetAsserted_withQueue : (s.withQueue w).resetAsserted = s.resetAsserted := (rfl)

@[simp] theorem supervisor_withQueue : (s.withQueue w).supervisor = s.supervisor := (rfl)

@[simp] theorem isOpen_withQueue : (s.withQueue w).isOpen p = s.isOpen p := (rfl)

@[simp] theorem due_withQueue (d : Option Clock) : (s.withQueue w).due d = s.due d := (rfl)

@[simp] theorem receives_withQueue : (s.withQueue w).receives p = s.receives p := (rfl)

@[simp] theorem nextRequest_withQueue : (s.withQueue w).nextRequest p = s.nextRequest p := (rfl)

@[simp] theorem messageCheck_withQueue (k : Kind) (b : Body) :
    (s.withQueue w).messageCheck p k b = s.messageCheck p k b := (rfl)

@[simp] theorem judgeAcquire_withQueue (m : Mode) (wait : Bool) (lease : Half) :
    (s.withQueue w).judgeAcquire p l m wait lease = s.judgeAcquire p l m wait lease := (rfl)

@[simp] theorem standingReport_withQueue : (s.withQueue w).standingReport p l = s.standingReport p l := (rfl)

@[simp] theorem noticeSubject_withQueue : (s.withQueue w).noticeSubject p = s.noticeSubject p := (rfl)

@[simp] theorem heldLocks_withQueue : (s.withQueue w).heldLocks p = s.heldLocks p := (rfl)

@[simp] theorem dueWithdrawals_withQueue : (s.withQueue w).dueWithdrawals p = s.dueWithdrawals p := (rfl)

@[simp] theorem dueReleases_withQueue : (s.withQueue w).dueReleases p = s.dueReleases p := (rfl)

@[simp] theorem dropWaits_withQueue : (s.withQueue w).dropWaits p = s.dropWaits p := (rfl)

/-! ### Writes of one table -/

@[simp] theorem setLock_withQueue (e : LockEntry) : (s.withQueue w).setLock l e = (s.setLock l e).withQueue w := rfl

@[simp] theorem setStanding_withQueue (r : StandingRecord) :
    (s.withQueue w).setStanding p l r = (s.setStanding p l r).withQueue w := rfl

@[simp] theorem setSession_withQueue (x : Session) :
    (s.withQueue w).setSession p x = (s.setSession p x).withQueue w := rfl

@[simp] theorem setLink_withQueue (x : LinkPort) : (s.withQueue w).setLink p x = (s.setLink p x).withQueue w := rfl

@[simp] theorem setTrace_withQueue (x : TraceUnit) : (s.withQueue w).setTrace x = (s.setTrace x).withQueue w := rfl

@[simp] theorem setEnding_withQueue (e : Option SessionEnd) :
    (s.withQueue w).setEnding p e = (s.setEnding p e).withQueue w := rfl

@[simp] theorem setDeferred_withQueue (d : List DeferredEnd) :
    (s.withQueue w).setDeferred p d = (s.setDeferred p d).withQueue w := rfl

@[simp] theorem setOpening_withQueue (o : Option Opening) :
    (s.withQueue w).setOpening p o = (s.setOpening p o).withQueue w := rfl

@[simp] theorem clearAllChanges_withQueue :
    (s.withQueue w).clearAllChanges p = (s.clearAllChanges p).withQueue w := rfl

@[simp] theorem notify_withQueue (x : Subject) : (s.withQueue w).notify p x = (s.notify p x).withQueue w := rfl

@[simp] theorem unnotify_withQueue (x : Subject) : (s.withQueue w).unnotify p x = (s.unnotify p x).withQueue w := rfl

@[simp] theorem handOn_withQueue : (s.withQueue w).handOn p = (s.handOn p).withQueue w := rfl

@[simp] theorem answer_withQueue (r : Body) : (s.withQueue w).answer p r = (s.answer p r).withQueue w := rfl

@[simp] theorem setReceiver_withQueue (r : ReceiverState) :
    (s.withQueue w).setReceiver p r = (s.setReceiver p r).withQueue w := rfl

@[simp] theorem clearChange_withQueue : (s.withQueue w).clearChange p l = (s.clearChange p l).withQueue w := rfl

@[simp] theorem grantTo_withQueue (m : Mode) (lease : Half) :
    (s.withQueue w).grantTo p l m lease = (s.grantTo p l m lease).withQueue w := rfl

@[simp] theorem takeHead_withQueue : (s.withQueue w).takeHead l p = (s.takeHead l p).withQueue w := rfl

@[simp] theorem endHolding_withQueue (h : Holding) :
    (s.withQueue w).endHolding p l h = (s.endHolding p l h).withQueue w := rfl

@[simp] theorem leaveQueue_withQueue : (s.withQueue w).leaveQueue p l = (s.leaveQueue p l).withQueue w := rfl

@[simp] theorem enqueue_withQueue (m : Mode) (lease limit : Half) :
    (s.withQueue w).enqueue p l m lease limit = (s.enqueue p l m lease limit).withQueue w := rfl

@[simp] theorem alterHolding_withQueue (h : Holding) :
    (s.withQueue w).alterHolding p l h = (s.alterHolding p l h).withQueue w := rfl

@[simp] theorem raiseHolding_withQueue (h : Holding) :
    (s.withQueue w).raiseHolding p l h = (s.raiseHolding p l h).withQueue w := rfl

@[simp] theorem beginRestart_withQueue : (s.withQueue w).beginRestart p = (s.beginRestart p).withQueue w := rfl

/-! ### Alternatives and repetitions -/

/-- Both alternatives keep the queue they are given. -/
theorem ite_withQueue (P : Prop) {_ : Decidable P} (a b : State) :
    (if P then a.withQueue w else b.withQueue w) = (if P then a else b).withQueue w :=
  (apply_ite (fun y : State => y.withQueue w) P a b).symm

/-- A repetition keeps the queue it is given when each of its steps does. -/
theorem foldl_withQueue {α : Type} {f : State → α → State}
    (hf : ∀ (t : State) (a : α), f (t.withQueue w) a = (f t a).withQueue w) (L : List α) :
    L.foldl f (s.withQueue w) = (L.foldl f s).withQueue w := by
  induction L generalizing s with
  | nil => rfl
  | cons a L ih => rw [List.foldl_cons, List.foldl_cons, hf, ih]

/-! ### Reports, replies, the receiver -/

@[simp] theorem notifyTrace_withQueue : (s.withQueue w).notifyTrace = s.notifyTrace.withQueue w := by
  unfold State.notifyTrace
  rw [supervisor_withQueue]
  cases s.supervisor with
  | none => rfl
  | some q => exact ite_withQueue w _ (s.notify q .trace) s

@[simp] theorem report_withQueue (r : Report) : (s.withQueue w).report r = (s.report r).withQueue w := by
  have hnotify := notifyTrace_withQueue (s.setTrace (s.trace.hear r)) w
  unfold State.report
  simp only [trace_withQueue, setTrace_withQueue, hnotify, ite_withQueue]

@[simp] theorem linkFault_withQueue (f : FaultCode) :
    (s.withQueue w).linkFault p f = (s.linkFault p f).withQueue w := by
  simp [State.linkFault, ite_withQueue]

@[simp] theorem reply_withQueue (st : Status) (res : List Byte) :
    (s.withQueue w).reply p st res = (s.reply p st res).withQueue w := by
  unfold State.reply
  rw [link_withQueue]
  cases (s.link p).handedOn <;> rfl

@[simp] theorem reportRefused_withQueue (lock : Option LockId) (st : Status) :
    (s.withQueue w).reportRefused p lock st = (s.reportRefused p lock st).withQueue w := report_withQueue s w _

@[simp] theorem refuse_withQueue (st : Status) : (s.withQueue w).refuse p st = (s.refuse p st).withQueue w := by
  simp [State.refuse]

/-- A request row keeps the queue it is given when the owner of the request does. -/
theorem takeRequest_withQueue (k : Kind) {owner : Body → State → State}
    (hown : ∀ (b : Body) (t : State), owner b (t.withQueue w) = (owner b t).withQueue w) :
    (s.withQueue w).takeRequest k p owner = (s.takeRequest k p owner).withQueue w := by
  unfold State.takeRequest
  rw [nextRequest_withQueue]
  cases s.nextRequest p with
  | none => rfl
  | some b =>
    dsimp only
    rw [messageCheck_withQueue]
    cases s.messageCheck p k b with
    | none => simp [hown, ite_withQueue]
    | some st => simp [ite_withQueue]

@[simp] theorem discardFrame_withQueue (f : FaultCode) :
    (s.withQueue w).discardFrame p f = (s.discardFrame p f).withQueue w := by
  simp [State.discardFrame]

@[simp] theorem restartSilence_withQueue :
    (s.withQueue w).restartSilence p = (s.restartSilence p).withQueue w := by
  simp [State.restartSilence, ite_withQueue]

@[simp] theorem admitFrame_withQueue (b : Body) :
    (s.withQueue w).admitFrame p b = (s.admitFrame p b).withQueue w := by
  simp [State.admitFrame, ite_withQueue]

@[simp] theorem completeFrame_withQueue (b : Body) :
    (s.withQueue w).completeFrame p b = (s.completeFrame p b).withQueue w := by
  simp [State.completeFrame]

@[simp] theorem takeCharacter_withQueue (x : Byte) :
    (s.withQueue w).takeCharacter p x = (s.takeCharacter p x).withQueue w := by
  unfold State.takeCharacter
  rw [link_withQueue]
  cases (s.link p).receiver with
  | hunt => exact ite_withQueue w _ (s.setReceiver p .length) s
  | length => simp [ite_withQueue]
  | body n got => simp [ite_withQueue]
  | check got high =>
    cases high with
    | none => rfl
    | some high => simp [ite_withQueue]

@[simp] theorem takeCharError_withQueue (begins : Bool) :
    (s.withQueue w).takeCharError p begins = (s.takeCharError p begins).withQueue w := by
  simp [State.takeCharError, ite_withQueue]

@[simp] theorem endBreak_withQueue : (s.withQueue w).endBreak p = (s.endBreak p).withQueue w :=
  ite_withQueue w ((s.link p).inBreak = true) ((s.setLink p { s.link p with inBreak := false }).setReceiver p .hunt) s

@[simp] theorem refuseUnknown_withQueue : (s.withQueue w).refuseUnknown p = (s.refuseUnknown p).withQueue w := by
  unfold State.refuseUnknown
  rw [nextRequest_withQueue]
  cases s.nextRequest p with
  | none => rfl
  | some b => simp [ite_withQueue]

@[simp] theorem replyGone_withQueue : (s.withQueue w).replyGone p = (s.replyGone p).withQueue w := by
  simp only [State.replyGone, link_withQueue]
  cases (s.link p).transmitter <;> rfl

@[simp] theorem noticeGone_withQueue : (s.withQueue w).noticeGone p = (s.noticeGone p).withQueue w := by
  simp only [State.noticeGone, link_withQueue]
  cases (s.link p).transmitter <;> rfl

/-! ### The lock engine -/

@[simp] theorem recordChange_withQueue (y : Cause) :
    (s.withQueue w).recordChange p l y = (s.recordChange p l y).withQueue w := by
  simp [State.recordChange, ite_withQueue]

@[simp] theorem grantNow_withQueue (m : Mode) (lease : Half) :
    (s.withQueue w).grantNow p l m lease = (s.grantNow p l m lease).withQueue w := by
  simp [State.grantNow]

@[simp] theorem grantHead_withQueue (y : Waiter) :
    (s.withQueue w).grantHead l y = (s.grantHead l y).withQueue w := by
  simp [State.grantHead]

@[simp] theorem handOff_withQueue : (s.withQueue w).handOff l = (s.handOff l).withQueue w :=
  foldl_withQueue s w (fun t y => grantHead_withQueue t w l y) _

@[simp] theorem reexamine_withQueue (first : Bool) :
    (s.withQueue w).reexamine l first = (s.reexamine l first).withQueue w := by
  simp [State.reexamine, ite_withQueue]

@[simp] theorem withdrawWait_withQueue (y : Byte) :
    (s.withQueue w).withdrawWait p l y = (s.withdrawWait p l y).withQueue w := by
  simp [State.withdrawWait]

@[simp] theorem releaseHolding_withQueue (h : Holding) (y : Byte) :
    (s.withQueue w).releaseHolding p l h y = (s.releaseHolding p l h y).withQueue w := by
  simp [State.releaseHolding]

@[simp] theorem replyStanding_withQueue (st : Status) :
    (s.withQueue w).replyStanding p l st = (s.replyStanding p l st).withQueue w := by
  simp [State.replyStanding]

@[simp] theorem refuseStanding_withQueue (st : Status) :
    (s.withQueue w).refuseStanding p l st = (s.refuseStanding p l st).withQueue w := by
  simp [State.refuseStanding]

@[simp] theorem joinQueue_withQueue (m : Mode) (lease limit : Half) :
    (s.withQueue w).joinQueue p l m lease limit = (s.joinQueue p l m lease limit).withQueue w := by
  simp [State.joinQueue]

@[simp] theorem takeAcquire_withQueue (m : Mode) (wait : Bool) (lease limit : Half) :
    (s.withQueue w).takeAcquire p l m wait lease limit = (s.takeAcquire p l m wait lease limit).withQueue w := by
  unfold State.takeAcquire
  rw [judgeAcquire_withQueue]
  cases s.judgeAcquire p l m wait lease <;> simp

@[simp] theorem takeRelease_withQueue (g : Grant) :
    (s.withQueue w).takeRelease p l g = (s.takeRelease p l g).withQueue w := by
  unfold State.takeRelease
  rw [lock_withQueue]
  cases (s.lock l).holderTest p g <;> simp

@[simp] theorem takeWithdraw_withQueue : (s.withQueue w).takeWithdraw p l = (s.takeWithdraw p l).withQueue w := by
  simp [State.takeWithdraw, ite_withQueue]

@[simp] theorem takeRenew_withQueue (g : Grant) (lease : Half) :
    (s.withQueue w).takeRenew p l g lease = (s.takeRenew p l g lease).withQueue w := by
  simp only [State.takeRenew, lock_withQueue]
  cases (s.lock l).holderTest p g <;> simp [ite_withQueue]

@[simp] theorem downgrade_withQueue (h : Holding) :
    (s.withQueue w).downgrade p l h = (s.downgrade p l h).withQueue w := by
  simp [State.downgrade]

@[simp] theorem upgrade_withQueue (h : Holding) :
    (s.withQueue w).upgrade p l h = (s.upgrade p l h).withQueue w := by
  simp [State.upgrade]

@[simp] theorem takeConvert_withQueue (g : Grant) (m : Mode) :
    (s.withQueue w).takeConvert p l g m = (s.takeConvert p l g m).withQueue w := by
  unfold State.takeConvert
  rw [lock_withQueue]
  cases (s.lock l).holderTest p g with
  | error st => simp
  | ok h => cases m <;> simp [ite_withQueue]

@[simp] theorem takeLeaseExpiry_withQueue :
    (s.withQueue w).takeLeaseExpiry p l = (s.takeLeaseExpiry p l).withQueue w := by
  unfold State.takeLeaseExpiry
  rw [lock_withQueue]
  cases (s.lock l).holding p <;> simp [State.expireLease, ite_withQueue]

@[simp] theorem takeWaitExpiry_withQueue :
    (s.withQueue w).takeWaitExpiry p l = (s.takeWaitExpiry p l).withQueue w := by
  unfold State.takeWaitExpiry
  rw [lock_withQueue]
  cases (s.lock l).waiter p <;> simp [State.expireWait, ite_withQueue]

/-! ### Notices -/

@[simp] theorem formStanding_withQueue : (s.withQueue w).formStanding p = (s.formStanding p).withQueue w := by
  unfold State.formStanding
  rw [noticeSubject_withQueue]
  cases s.noticeSubject p with
  | none => rfl
  | some x => cases x <;> rfl

@[simp] theorem formFault_withQueue : (s.withQueue w).formFault p = (s.formFault p).withQueue w := by
  unfold State.formFault
  rw [noticeSubject_withQueue]
  cases s.noticeSubject p with
  | none => rfl
  | some x => cases x <;> rfl

@[simp] theorem formTrace_withQueue : (s.withQueue w).formTrace p = (s.formTrace p).withQueue w := by
  unfold State.formTrace
  rw [noticeSubject_withQueue]
  cases s.noticeSubject p with
  | none => rfl
  | some x => cases x <;> rfl

/-! ### Sessions -/

@[simp] theorem closeOut_withQueue (y : EndCause) :
    (s.withQueue w).closeOut p y = (s.closeOut p y).withQueue w := by
  simp [State.closeOut]

section
variable {s w p l} {finish : SessionEnd → State → State}

/-- Session-end work keeps the queue it is given when what follows the end does. -/
theorem goOnEnding_withQueue (hf : ∀ (e : SessionEnd) (t : State), finish e (t.withQueue w) =
    (finish e t).withQueue w) (e : SessionEnd) :
    (s.withQueue w).goOnEnding p e finish = (s.goOnEnding p e finish).withQueue w := by
  simp [State.goOnEnding, hf, ite_withQueue]

theorem beginEnd_withQueue (hf : ∀ (e : SessionEnd) (t : State), finish e (t.withQueue w) =
    (finish e t).withQueue w) (y : EndCause) (d : Disposition) (f : EndSequel) :
    (s.withQueue w).beginEnd p y d f finish = (s.beginEnd p y d f finish).withQueue w := by
  unfold State.beginEnd
  rw [closeOut_withQueue]
  exact goOnEnding_withQueue hf _

theorem takeEndWithdrawal_withQueue (hf : ∀ (e : SessionEnd) (t : State), finish e (t.withQueue w) =
    (finish e t).withQueue w) :
    (s.withQueue w).takeEndWithdrawal p l finish = (s.takeEndWithdrawal p l finish).withQueue w := by
  unfold State.takeEndWithdrawal
  rw [session_withQueue]
  cases (s.session p).ending with
  | none => rfl
  | some e =>
    dsimp only
    cases e.work with
    | releasing ls => rfl
    | withdrawing ls => simp [ite_withQueue, goOnEnding_withQueue hf]

theorem takeEndRelease_withQueue (hf : ∀ (e : SessionEnd) (t : State), finish e (t.withQueue w) =
    (finish e t).withQueue w) :
    (s.withQueue w).takeEndRelease p l finish = (s.takeEndRelease p l finish).withQueue w := by
  unfold State.takeEndRelease
  rw [session_withQueue]
  cases (s.session p).ending with
  | none => rfl
  | some e =>
    dsimp only
    cases e.work with
    | withdrawing ls => rfl
    | releasing ls =>
      rw [lock_withQueue]
      cases (s.lock l).holding p <;> simp [ite_withQueue, goOnEnding_withQueue hf]

end

@[simp] theorem loseToSilence_withQueue :
    (s.withQueue w).loseToSilence p = (s.loseToSilence p).withQueue w := by
  simp [State.loseToSilence, beginEnd_withQueue, ite_withQueue]

@[simp] theorem replyDrop_withQueue (ended : Bool) (d : Option Disposition) :
    (s.withQueue w).replyDrop ended d = (s.replyDrop ended d).withQueue w := by
  unfold State.replyDrop
  rw [supervisor_withQueue]
  cases s.supervisor <;> simp [ite_withQueue]

@[simp] theorem reportDrop_withQueue : (s.withQueue w).reportDrop = s.reportDrop.withQueue w := by
  unfold State.reportDrop
  rw [supervisor_withQueue]
  cases s.supervisor <;> simp

@[simp] theorem drop_withQueue (named : Option Disposition) :
    (s.withQueue w).drop p named = (s.drop p named).withQueue w := by
  have hbegin := beginEnd_withQueue (s := s.reportDrop) (w := w) (p := p)
    (finish := fun e t => t.replyDrop true (some e.disposition)) (fun e t => replyDrop_withQueue t w _ _) .dropped
    (named.getD (s.session p).config.lossPolicy) .replyDrop
  rw [← reportDrop_withQueue] at hbegin
  have hleft := replyDrop_withQueue s w false none
  unfold State.drop
  rw [hleft, isOpen_withQueue]
  exact (congrArg (fun y => ite _ y _) hbegin).trans (ite_withQueue w _ _ _)

@[simp] theorem takeDeferred_withQueue (d : DeferredEnd) :
    (s.withQueue w).takeDeferred p d = (s.takeDeferred p d).withQueue w := by
  cases d <;> simp [State.takeDeferred]

@[simp] theorem afterReply_withQueue : (s.withQueue w).afterReply p = (s.afterReply p).withQueue w :=
  foldl_withQueue (s.setDeferred p []) w (fun t d => takeDeferred_withQueue t w p d) _

@[simp] theorem finishOpen_withQueue (o : Opening) :
    (s.withQueue w).finishOpen p o = (s.finishOpen p o).withQueue w := by
  simp [State.finishOpen, ite_withQueue]

@[simp] theorem goOnOpening_withQueue (o : Opening) :
    (s.withQueue w).goOnOpening p o = (s.goOnOpening p o).withQueue w := by
  unfold State.goOnOpening
  cases o.locks <;> simp

@[simp] theorem startOpen_withQueue (credit : Byte) (limit : Half) (d : Option Disposition) :
    (s.withQueue w).startOpen p credit limit d = (s.startOpen p credit limit d).withQueue w := by
  simp [State.startOpen]

@[simp] theorem finishEnd_withQueue (e : SessionEnd) :
    (s.withQueue w).finishEnd p e = (s.finishEnd p e).withQueue w := by
  unfold State.finishEnd
  cases e.sequel <;> simp

@[simp] theorem takeOpen_withQueue (credit : Byte) (silence : Half) :
    (s.withQueue w).takeOpen p credit silence = (s.takeOpen p credit silence).withQueue w := by
  simp [State.takeOpen, beginEnd_withQueue, ite_withQueue]

@[simp] theorem reattachNext_withQueue : (s.withQueue w).reattachNext p = (s.reattachNext p).withQueue w := by
  unfold State.reattachNext
  rw [session_withQueue]
  cases (s.session p).opening with
  | none => rfl
  | some o =>
    dsimp only
    cases o.locks with
    | nil => rfl
    | cons l rest => simp [ite_withQueue]

@[simp] theorem takeClose_withQueue : (s.withQueue w).takeClose p = (s.takeClose p).withQueue w :=
  beginEnd_withQueue (fun e t => finishEnd_withQueue t w p e) _ _ _

@[simp] theorem takeCredit_withQueue (n : Nat) :
    (s.withQueue w).takeCredit p n = (s.takeCredit p n).withQueue w := by
  simp [State.takeCredit]

@[simp] theorem takeFaultAck_withQueue : (s.withQueue w).takeFaultAck p = (s.takeFaultAck p).withQueue w := by
  simp [State.takeFaultAck]

@[simp] theorem takeSilenceExpiry_withQueue :
    (s.withQueue w).takeSilenceExpiry p = (s.takeSilenceExpiry p).withQueue w := by
  simp [State.takeSilenceExpiry, ite_withQueue]

@[simp] theorem settleEnd_withQueue : (s.withQueue w).settleEnd p = (s.settleEnd p).withQueue w := by
  have hwithdraw := foldl_withQueue (f := fun t l => t.takeEndWithdrawal p l fun _ u => u) s w
    (fun t l => takeEndWithdrawal_withQueue fun _ _ => rfl) (s.dueWithdrawals p)
  have hrelease := fun t : State => foldl_withQueue (f := fun t l => t.takeEndRelease p l fun _ u => u) t w
    (fun t l => takeEndRelease_withQueue fun _ _ => rfl) (t.dueReleases p)
  unfold State.settleEnd
  simp only [dueWithdrawals_withQueue, dueReleases_withQueue, hwithdraw, hrelease]

@[simp] theorem settleEnds_withQueue : (s.withQueue w).settleEnds = s.settleEnds.withQueue w :=
  foldl_withQueue s w (fun t q => settleEnd_withQueue t w q) _

/-! ### The supervisor and the trace unit -/

@[simp] theorem takeSetLock_withQueue (y : LockConfig) :
    (s.withQueue w).takeSetLock p l y = (s.takeSetLock p l y).withQueue w := by
  simp [State.takeSetLock, ite_withQueue]

@[simp] theorem takeSetPort_withQueue (y : PortConfig) :
    (s.withQueue w).takeSetPort p q y = (s.takeSetPort p q y).withQueue w := by
  simp [State.takeSetPort]

@[simp] theorem revokeHolding_withQueue (y : Cause) (z : Byte) :
    (s.withQueue w).revokeHolding l y z p = (s.revokeHolding l y z p).withQueue w := by
  unfold State.revokeHolding
  rw [lock_withQueue]
  cases (s.lock l).holding p <;> simp

theorem foldl_revokeHolding_withQueue (y : Cause) (z : Byte) (L : List Port) :
    L.foldl (fun t q => t.revokeHolding l y z q) (s.withQueue w) =
      (L.foldl (fun t q => t.revokeHolding l y z q) s).withQueue w :=
  foldl_withQueue s w (fun t q => revokeHolding_withQueue t w q l y z) L

@[simp] theorem takeRevoke_withQueue (y : Byte) :
    (s.withQueue w).takeRevoke p l y = (s.takeRevoke p l y).withQueue w := by
  unfold State.takeRevoke
  rw [lock_withQueue]
  cases (s.lock l).targets y with
  | nil => simp
  | cons q qs =>
    simp only [report_withQueue, foldl_revokeHolding_withQueue, handOff_withQueue, reply_withQueue]

@[simp] theorem purgeWaiter_withQueue (y : Waiter) :
    (s.withQueue w).purgeWaiter l y = (s.purgeWaiter l y).withQueue w := by
  simp [State.purgeWaiter]

theorem foldl_purgeWaiter_withQueue (L : List Waiter) :
    L.foldl (fun t y => t.purgeWaiter l y) (s.withQueue w) = (L.foldl (fun t y => t.purgeWaiter l y) s).withQueue w :=
  foldl_withQueue s w (fun t y => purgeWaiter_withQueue t w l y) L

@[simp] theorem takePurge_withQueue : (s.withQueue w).takePurge p l = (s.takePurge p l).withQueue w := by
  simp only [State.takePurge, lock_withQueue, report_withQueue, foldl_revokeHolding_withQueue,
    foldl_purgeWaiter_withQueue, handOff_withQueue, reply_withQueue]

@[simp] theorem takeDrop_withQueue (named : Option Disposition) :
    (s.withQueue w).takeDrop p q named = (s.takeDrop p q named).withQueue w := by
  simp [State.takeDrop, ite_withQueue]

@[simp] theorem takeRestart_withQueue : (s.withQueue w).takeRestart p = (s.takeRestart p).withQueue w := by
  simp [State.takeRestart]

/-- The part back at work after a restart, before the RESTART is answered (R133). -/
def State.resumed (s : State) : State := { s with restarting := false, links := s.links.map LinkPort.hunting }

@[simp] theorem resumed_withQueue : (s.withQueue w).resumed = s.resumed.withQueue w := rfl

theorem completeRestart_eq : s.completeRestart = if s.restarting then
    (match s.supervisor with
      | some q => s.resumed.reply q .ok (halfBytes s.restartCount)
      | none => s.resumed) else s := rfl

@[simp] theorem completeRestart_withQueue : (s.withQueue w).completeRestart = s.completeRestart.withQueue w := by
  rw [completeRestart_eq, completeRestart_eq, supervisor_withQueue]
  cases s.supervisor with
  | none => exact ite_withQueue w (s.restarting = true) s.resumed s
  | some q => simp [ite_withQueue]

@[simp] theorem takeTraceSetup_withQueue (y : TraceSetup) :
    (s.withQueue w).takeTraceSetup p y = (s.takeTraceSetup p y).withQueue w := by
  simp [State.takeTraceSetup]

@[simp] theorem takeTraceRead_withQueue (n : Nat) :
    (s.withQueue w).takeTraceRead p n = (s.takeTraceRead p n).withQueue w := by
  simp [State.takeTraceRead]

@[simp] theorem wrapTimer_withQueue : (s.withQueue w).wrapTimer = s.wrapTimer.withQueue w :=
  ite_withQueue w (s.trace.timer = 0xFFFFFF) (s.setTrace s.trace.tick) s

@[simp] theorem advanceClock_withQueue : (s.withQueue w).advanceClock = s.advanceClock.withQueue w :=
  ite_withQueue w (s.resetAsserted = true) s { s with clock := s.clock + 1 }

/-! ### Every command -/

theorem exec_withQueue (h : exec c s = .next t) : exec c (s.withQueue w) = .next (t.withQueue w) := by
  cases c
  all_goals
    cases h
    refine congrArg Host.Outcome.next ?_
  case openSession p => exact takeRequest_withQueue s w p _ fun b t => takeOpen_withQueue t w p _ _
  case reattachHolding p => exact reattachNext_withQueue s w p
  case closeSession p => exact takeRequest_withQueue s w p _ fun b t => takeClose_withQueue t w p
  case ping p => exact takeRequest_withQueue s w p _ fun b t => reply_withQueue t w p _ _
  case credit p => exact takeRequest_withQueue s w p _ fun b t => takeCredit_withQueue t w p _
  case faultAck p => exact takeRequest_withQueue s w p _ fun b t => takeFaultAck_withQueue t w p
  case acquire p => exact takeRequest_withQueue s w p _ fun b t => takeAcquire_withQueue t w p _ _ _ _ _
  case release p => exact takeRequest_withQueue s w p _ fun b t => takeRelease_withQueue t w p _ _
  case withdraw p => exact takeRequest_withQueue s w p _ fun b t => takeWithdraw_withQueue t w p _
  case renew p => exact takeRequest_withQueue s w p _ fun b t => takeRenew_withQueue t w p _ _ _
  case convert p => exact takeRequest_withQueue s w p _ fun b t => takeConvert_withQueue t w p _ _ _
  case query p => exact takeRequest_withQueue s w p _ fun b t => reply_withQueue t w p _ _
  case setLock p => exact takeRequest_withQueue s w p _ fun b t => takeSetLock_withQueue t w p _ _
  case getLock p => exact takeRequest_withQueue s w p _ fun b t => reply_withQueue t w p _ _
  case setPort p => exact takeRequest_withQueue s w p _ fun b t => takeSetPort_withQueue t w p _ _
  case getPort p => exact takeRequest_withQueue s w p _ fun b t => reply_withQueue t w p _ _
  case revoke p => exact takeRequest_withQueue s w p _ fun b t => takeRevoke_withQueue t w p _ _
  case purge p => exact takeRequest_withQueue s w p _ fun b t => takePurge_withQueue t w p _
  case dropSession p => exact takeRequest_withQueue s w p _ fun b t => takeDrop_withQueue t w p _ _
  case restart p => exact takeRequest_withQueue s w p _ fun b t => takeRestart_withQueue t w p
  case restartComplete => exact completeRestart_withQueue s w
  case traceSetup p => exact takeRequest_withQueue s w p _ fun b t => takeTraceSetup_withQueue t w p _
  case traceStatus p => exact takeRequest_withQueue s w p _ fun b t => reply_withQueue t w p _ _
  case traceRead p => exact takeRequest_withQueue s w p _ fun b t => takeTraceRead_withQueue t w p _
  case unknownKind p => exact refuseUnknown_withQueue s w p
  case leaseExpiry p l => exact takeLeaseExpiry_withQueue s w p l
  case waitExpiry p l => exact takeWaitExpiry_withQueue s w p l
  case silenceExpiry p => exact takeSilenceExpiry_withQueue s w p
  case sessionEndWithdrawal p l => exact takeEndWithdrawal_withQueue fun e t => finishEnd_withQueue t w p e
  case sessionEndRelease p l => exact takeEndRelease_withQueue fun e t => finishEnd_withQueue t w p e
  case leaseClockAdvance => exact advanceClock_withQueue s w
  case validFrame p b => simp [ite_withQueue]
  case frameCheck p b y => simp [ite_withQueue]
  case frameShape p y => simp [ite_withQueue]
  case charError p begins => exact takeCharError_withQueue s w p begins
  case breakEnd p => exact endBreak_withQueue s w p
  case receiveGap p => simp [ite_withQueue]
  case standingNotice p => exact formStanding_withQueue s w p
  case faultNotice p => exact formFault_withQueue s w p
  case traceNotice p => exact formTrace_withQueue s w p
  case replySent p => exact replyGone_withQueue s w p
  case noticeSent p => exact noticeGone_withQueue s w p
  case timeWrapped => exact wrapTimer_withQueue s w
  case pinReset => rfl
  case characterReceived p y => simp [ite_withQueue]
  case traceTimerAdvance => rfl
  case resetReleased baud supsel =>
    exact ite_withQueue w (s.resetAsserted = true) { s with resetAsserted := false, baud := baud, supsel := supsel } s

/-- Settles O2: a command on a state with another queue is the command, with that queue put back. -/
theorem commandsLeaveTheQueueAlone : Obligations.CommandsLeaveTheQueueAlone := by
  unfold Obligations.CommandsLeaveTheQueueAlone
  intro c s t waiting h
  have hsame : exec c s = .next (t.withQueue s.pending) := exec_withQueue s s.pending h
  have hqueue : t = t.withQueue s.pending := Host.Outcome.next.inj (h.symm.trans hsame)
  have hpending : t.pending = (t.withQueue s.pending).pending := congrArg State.pending hqueue
  exact ⟨hpending, exec_withQueue s waiting h⟩

end Sys2Proof.Machine
end

section
/-! PROOFS. The lock work that a RESTART has taken first, command by command (7.7, log entry 19). -/

namespace Sys2Proof.Machine

-- One proof at a time: those that wait for the same definition's equations each hold a thread of the checker.
set_option Elab.async false

variable {s t u : State} {p q : Port} {l : LockId} {c : Instr}

/-! ### Commands taken one after another -/

/-- The state a command leads to. -/
def State.obey (s : State) (c : Instr) : State :=
  match exec c s with
  | .next t => t
  | _ => s

theorem obey_of_exec (h : exec c s = .next t) : s.obey c = t := by
  rw [State.obey, h]

theorem exec_obey (s : State) (c : Instr) : exec c s = .next (s.obey c) := by
  cases c <;> rfl

/-- A run of waiting commands takes them one after another. -/
theorem run_commands (commands : List Instr) (s : State) :
    Host.Core.run core commands.length (s.withQueue commands) =
      .next ((commands.foldl State.obey s).withQueue []) := by
  induction commands generalizing s with
  | nil => rfl
  | cons c rest ih =>
    have hstep : step (s.withQueue (c :: rest)) = .next ((s.obey c).withQueue rest) :=
      exec_withQueue s rest (exec_obey s c)
    exact (run_succ_of_next hstep).trans (ih _)

/-! ### Apart from the link ports and from what follows the session ends -/

/-- The session end with nothing left to follow it. -/
def SessionEnd.unfollowed (e : SessionEnd) : SessionEnd := { e with sequel := .nothing }

/-- The session entry with nothing left to follow its end. -/
def Session.unfollowed (x : Session) : Session := { x with ending := x.ending.map SessionEnd.unfollowed }

/-- The state with other link ports and nothing left to follow its session ends. -/
def State.detached (s : State) (L : Vector LinkPort 6) : State := { s.unfollowed with links := L }

section
variable (s : State) (L : Vector LinkPort 6) (p : Port) (l : LockId)

@[simp] theorem lock_detached : (s.detached L).lock l = s.lock l := (rfl)

@[simp] theorem pending_detached : (s.detached L).pending = s.pending := (rfl)

@[simp] theorem trace_detached : (s.detached L).trace = s.trace := (rfl)

@[simp] theorem heldLocks_detached : (s.detached L).heldLocks p = s.heldLocks p := (rfl)

@[simp] theorem session_detached : (s.detached L).session p = (s.session p).unfollowed :=
  look_map Session.unfollowed s.sessions p

@[simp] theorem isOpen_detached : (s.detached L).isOpen p = s.isOpen p := by
  rw [State.isOpen, session_detached]
  rfl

@[simp] theorem setSession_detached (x : Session) :
    (s.detached L).setSession p x.unfollowed = (s.setSession p x).detached L := by
  have htable : put (s.sessions.map Session.unfollowed) p x.unfollowed =
      (put s.sessions p x).map Session.unfollowed := table_ext fun i => by
    simp only [look_put, look_map]
    exact (apply_ite Session.unfollowed _ _ _).symm
  exact congrArg (fun v => { s with sessions := v, links := L }) htable

@[simp] theorem setEnding_detached (e : Option SessionEnd) :
    (s.detached L).setEnding p (e.map SessionEnd.unfollowed) = (s.setEnding p e).detached L := by
  rw [State.setEnding, session_detached]
  exact setSession_detached s L p { s.session p with ending := e }

@[simp] theorem notify_detached (x : Subject) : (s.detached L).notify p x = (s.notify p x).detached L := by
  rw [State.notify, session_detached]
  exact setSession_detached s L p { s.session p with notices := appendSubject x (s.session p).notices }

/-- Both alternatives stay detached. -/
theorem ite_detached (P : Prop) {_ : Decidable P} (a b : State) :
    (if P then a.detached L else b.detached L) = (if P then a else b).detached L :=
  (apply_ite (fun y : State => y.detached L) P a b).symm

theorem notifyTrace_detached : (s.detached L).notifyTrace = s.notifyTrace.detached L := by
  have hsup : (s.detached L).supervisor = s.supervisor := rfl
  unfold State.notifyTrace
  rw [hsup]
  cases s.supervisor <;> simp [ite_detached]

@[simp] theorem report_detached (r : Report) : (s.detached L).report r = (s.report r).detached L := by
  have hset : (s.detached L).setTrace (s.trace.hear r) = (s.setTrace (s.trace.hear r)).detached L := rfl
  unfold State.report
  simp only [trace_detached, hset, notifyTrace_detached, ite_detached]

@[simp] theorem recordChange_detached (y : Cause) :
    (s.detached L).recordChange p l y = (s.recordChange p l y).detached L := by
  have hset : (s.detached L).setStanding p l (((s.detached L).standing p l).change y) =
      (s.setStanding p l ((s.standing p l).change y)).detached L := rfl
  unfold State.recordChange
  simp only [isOpen_detached, hset, notify_detached, ite_detached]

@[simp] theorem grantHead_detached (y : Waiter) :
    (s.detached L).grantHead l y = (s.grantHead l y).detached L := by
  have hgrant : ((s.detached L).takeHead l y.port).grantTo y.port l y.mode y.lease =
      ((s.takeHead l y.port).grantTo y.port l y.mode y.lease).detached L := rfl
  unfold State.grantHead
  rw [hgrant, recordChange_detached, lock_detached, report_detached]

@[simp] theorem handOff_detached : (s.detached L).handOff l = (s.handOff l).detached L :=
  List.foldl_hom (fun t : State => t.detached L) fun t y => grantHead_detached t L l y

theorem withdrawAtEnd_detached : (s.detached L).withdrawAtEnd p l = (s.withdrawAtEnd p l).detached L := by
  have hleave : (s.detached L).leaveQueue p l = (s.leaveQueue p l).detached L := rfl
  unfold State.withdrawAtEnd State.withdrawWait State.reexamine
  simp [hleave, ite_detached]

theorem releaseAtEnd_detached : (s.detached L).releaseAtEnd p l = (s.releaseAtEnd p l).detached L := by
  have hend (h : Holding) : (s.detached L).endHolding p l h = (s.endHolding p l h).detached L := rfl
  unfold State.releaseAtEnd State.releaseHolding
  rw [lock_detached]
  cases (s.lock l).holding p <;> simp [hend]

end

/-! ### The commands on a session end with nothing to follow -/

variable {L : Vector LinkPort 6}

theorem stage_unfollowed (e : SessionEnd) (held : List LockId) :
    e.unfollowed.stage held = (e.stage held).unfollowed := by
  obtain ⟨d, work, f⟩ := e
  cases work with
  | withdrawing ls => cases ls <;> cases d <;> rfl
  | releasing ls => rfl

/-- With nothing to follow it, an end goes on as the lock work that a RESTART has taken. -/
theorem goOnEnding_detached (s : State) (p : Port) (e : SessionEnd) :
    (s.detached L).goOnEnding p e.unfollowed (fun e t => t.finishEnd p e) =
      (s.goOnEnding p e fun _ t => t).detached L := by
  have hover : ((s.detached L).setEnding p none).finishEnd p (e.stage (s.heldLocks p)).unfollowed =
      (s.setEnding p none).detached L := setEnding_detached s L p none
  have hon := setEnding_detached s L p (some (e.stage (s.heldLocks p)))
  unfold State.goOnEnding
  rw [heldLocks_detached, stage_unfollowed]
  dsimp only
  rw [hover]
  exact (congrArg (ite _ _) hon).trans (ite_detached L _ _ _)

/-! ### The locks on which an end still has work to take -/

/-- The locks on which a session end of the port has still to withdraw. -/
def State.toWithdraw (s : State) (p : Port) : List LockId :=
  match (s.session p).ending.map SessionEnd.work with
  | some (.withdrawing ls) => ls
  | _ => []

/-- The locks on which a session end of the port has still to release. -/
def State.toRelease (s : State) (p : Port) : List LockId :=
  match (s.session p).ending.map SessionEnd.work with
  | some (.releasing ls) => ls
  | _ => []

theorem mem_toWithdraw_iff : l ∈ s.toWithdraw p ↔
    ∃ e ls, (s.session p).ending = some e ∧ e.work = .withdrawing ls ∧ l ∈ ls := by
  unfold State.toWithdraw
  cases (s.session p).ending with
  | none => simp
  | some e => cases hw : e.work <;> simp [hw]

theorem mem_toRelease_iff : l ∈ s.toRelease p ↔
    ∃ e ls, (s.session p).ending = some e ∧ e.work = .releasing ls ∧ l ∈ ls := by
  unfold State.toRelease
  cases (s.session p).ending with
  | none => simp
  | some e => cases hw : e.work <;> simp [hw]

theorem toWithdraw_of_work {e : SessionEnd} {ls : List LockId} (he : (s.session p).ending = some e)
    (hw : e.work = .withdrawing ls) : s.toWithdraw p = ls := by
  rw [State.toWithdraw, he, Option.map_some, hw]

theorem toRelease_of_work {e : SessionEnd} {ls : List LockId} (he : (s.session p).ending = some e)
    (hw : e.work = .releasing ls) : s.toRelease p = ls := by
  rw [State.toRelease, he, Option.map_some, hw]

theorem dueWithdrawals_eq (s : State) (p : Port) :
    s.dueWithdrawals p = allLocks.filter (fun l => l ∈ s.toWithdraw p) := by
  unfold State.dueWithdrawals State.toWithdraw
  cases (s.session p).ending with
  | none => simp
  | some e => cases hw : e.work <;> simp [hw]

theorem dueReleases_eq (s : State) (p : Port) : s.dueReleases p = allLocks.filter (fun l => l ∈ s.toRelease p) := by
  unfold State.dueReleases State.toRelease
  cases (s.session p).ending with
  | none => simp
  | some e => cases hw : e.work <;> simp [hw]

@[simp] theorem ending_setEnding (s : State) (p : Port) (e : Option SessionEnd) :
    ((s.setEnding p e).session p).ending = e := by
  rw [State.setEnding, session_setSession_self]

/-- A withdrawal on a lock that the end does not name does nothing. -/
theorem takeEndWithdrawal_of_not_mem {finish : SessionEnd → State → State} (h : l ∉ s.toWithdraw p) :
    s.takeEndWithdrawal p l finish = s := by
  unfold State.takeEndWithdrawal
  cases he : (s.session p).ending with
  | none => rfl
  | some e =>
    dsimp only
    cases hw : e.work with
    | releasing ls => rfl
    | withdrawing ls => exact if_neg fun hl => h (mem_toWithdraw_iff.mpr ⟨e, ls, he, hw, hl⟩)

theorem takeEndRelease_of_not_mem {finish : SessionEnd → State → State} (h : l ∉ s.toRelease p) :
    s.takeEndRelease p l finish = s := by
  unfold State.takeEndRelease
  cases he : (s.session p).ending with
  | none => rfl
  | some e =>
    dsimp only
    cases hw : e.work with
    | withdrawing ls => rfl
    | releasing ls => exact if_neg fun hl => h (mem_toRelease_iff.mpr ⟨e, ls, he, hw, hl⟩)

theorem toWithdraw_goOnEnding (s : State) (p : Port) (e : SessionEnd) (ls : List LockId) :
    (s.goOnEnding p { e with work := .withdrawing ls } fun _ t => t).toWithdraw p = ls := by
  by_cases hls : ls = []
  · subst hls
    by_cases hreleases : e.disposition = .release ∧ s.heldLocks p ≠ []
    · rw [goOnEnding_of_releases hreleases.1 hreleases.2, State.toWithdraw, ending_setEnding]
      rfl
    · have hover : e.disposition = .retain ∨ s.heldLocks p = [] := by
        cases hd : e.disposition with
        | retain => exact .inl rfl
        | release => exact .inr (not_not.mp fun h => hreleases ⟨hd, h⟩)
      rw [goOnEnding_of_none hover, State.toWithdraw, ending_setEnding]
      rfl
  · rw [goOnEnding_of_withdrawals hls, State.toWithdraw, ending_setEnding]
    rfl

theorem toRelease_goOnEnding (s : State) (p : Port) (e : SessionEnd) (ls : List LockId) :
    (s.goOnEnding p { e with work := .releasing ls } fun _ t => t).toRelease p = ls := by
  by_cases hls : ls = []
  · subst hls
    rw [goOnEnding_of_released, State.toRelease, ending_setEnding]
    rfl
  · rw [goOnEnding_of_releasing hls, State.toRelease, ending_setEnding]
    rfl

theorem toWithdraw_takeEndWithdrawal (h : l ∈ s.toWithdraw p) :
    (s.takeEndWithdrawal p l fun _ t => t).toWithdraw p = (s.toWithdraw p).filter fun k => k != l := by
  obtain ⟨e, ls, he, hw, hl⟩ := mem_toWithdraw_iff.mp h
  rw [takeEndWithdrawal_eq he hw hl, toWithdraw_goOnEnding, toWithdraw_of_work he hw]

theorem toRelease_takeEndRelease (h : l ∈ s.toRelease p) :
    (s.takeEndRelease p l fun _ t => t).toRelease p = (s.toRelease p).filter fun k => k != l := by
  obtain ⟨e, ls, he, hw, hl⟩ := mem_toRelease_iff.mp h
  rw [takeEndRelease_eq he hw hl, toRelease_goOnEnding, toRelease_of_work he hw]

/-! ### The commands on every lock, and the work that is due -/

/-- Work taken on every lock of a list is the work on those that are due, when it does nothing on the others and
takes a lock off those due. -/
theorem foldl_due {f : State → LockId → State} {due : State → List LockId}
    (hskip : ∀ t l, l ∉ due t → f t l = t)
    (htake : ∀ t l, l ∈ due t → due (f t l) = (due t).filter fun k => k != l) :
    ∀ (M : List LockId) (t : State), M.Nodup → M.foldl f t = (M.filter fun l => l ∈ due t).foldl f t
  | [], _, _ => rfl
  | l :: M, t, hM => by
    obtain ⟨hl, hrest⟩ := List.nodup_cons.mp hM
    rw [List.foldl_cons, List.filter_cons]
    by_cases hdue : l ∈ due t
    · have hsame : (M.filter fun k => k ∈ due (f t l)) = M.filter fun k => k ∈ due t :=
        List.filter_congr fun k hk => by
          have hne : k ≠ l := fun h => hl (h ▸ hk)
          simp [htake t l hdue, hne]
      rw [if_pos (by simpa using hdue), List.foldl_cons, foldl_due hskip htake M _ hrest, hsame]
    · rw [hskip t l hdue, if_neg (by simpa using hdue), foldl_due hskip htake M t hrest]

/-- The work of a port's session end, taken on every lock. -/
theorem settleEnd_eq (s : State) (p : Port) : s.settleEnd p =
    allLocks.foldl (fun t l => t.takeEndRelease p l fun _ u => u)
      (allLocks.foldl (fun t l => t.takeEndWithdrawal p l fun _ u => u) s) := by
  have hnodup : allLocks.Nodup := List.nodup_finRange 64
  have hwithdraw := foldl_due (f := fun t l => t.takeEndWithdrawal p l fun _ u => u)
    (due := fun t => t.toWithdraw p) (fun t l h => takeEndWithdrawal_of_not_mem h)
    (fun t l h => toWithdraw_takeEndWithdrawal h) allLocks s hnodup
  have hrelease (t : State) := foldl_due (f := fun t l => t.takeEndRelease p l fun _ u => u)
    (due := fun t => t.toRelease p) (fun t l h => takeEndRelease_of_not_mem h)
    (fun t l h => toRelease_takeEndRelease h) allLocks t hnodup
  rw [hwithdraw, hrelease, State.settleEnd, dueReleases_eq, dueWithdrawals_eq]

theorem work_unfollowed (x : Session) : x.unfollowed.ending.map SessionEnd.work = x.ending.map SessionEnd.work := by
  unfold Session.unfollowed
  cases x.ending <;> rfl

theorem toWithdraw_detached (s : State) (p : Port) : (s.detached L).toWithdraw p = s.toWithdraw p := by
  rw [State.toWithdraw, session_detached, work_unfollowed]
  rfl

theorem toRelease_detached (s : State) (p : Port) : (s.detached L).toRelease p = s.toRelease p := by
  rw [State.toRelease, session_detached, work_unfollowed]
  rfl

theorem ending_detached {e : SessionEnd} (he : (s.session p).ending = some e) :
    ((s.detached L).session p).ending = some e.unfollowed := by
  rw [session_detached, Session.unfollowed, he]
  rfl

theorem obey_withdrawal_detached (s : State) (p : Port) (l : LockId) :
    (s.detached L).obey (.sessionEndWithdrawal p l) = (s.takeEndWithdrawal p l fun _ t => t).detached L := by
  show (s.detached L).takeEndWithdrawal p l (fun e t => t.finishEnd p e) = _
  by_cases h : l ∈ s.toWithdraw p
  · obtain ⟨e, ls, he, hw, hl⟩ := mem_toWithdraw_iff.mp h
    rw [takeEndWithdrawal_eq he hw hl, takeEndWithdrawal_eq (ending_detached he) hw hl, withdrawAtEnd_detached]
    exact goOnEnding_detached _ p { e with work := .withdrawing (ls.filter fun k => k != l) }
  · rw [takeEndWithdrawal_of_not_mem h, takeEndWithdrawal_of_not_mem (by rwa [toWithdraw_detached])]

theorem obey_release_detached (s : State) (p : Port) (l : LockId) :
    (s.detached L).obey (.sessionEndRelease p l) = (s.takeEndRelease p l fun _ t => t).detached L := by
  show (s.detached L).takeEndRelease p l (fun e t => t.finishEnd p e) = _
  by_cases h : l ∈ s.toRelease p
  · obtain ⟨e, ls, he, hw, hl⟩ := mem_toRelease_iff.mp h
    rw [takeEndRelease_eq he hw hl, takeEndRelease_eq (ending_detached he) hw hl, releaseAtEnd_detached]
    exact goOnEnding_detached _ p { e with work := .releasing (ls.filter fun k => k != l) }
  · rw [takeEndRelease_of_not_mem h, takeEndRelease_of_not_mem (by rwa [toRelease_detached])]

/-- The withdrawals and releases of every session end, as commands on a state with nothing to follow the ends. -/
theorem foldl_endCommands_detached (s : State) (L : Vector LinkPort 6) :
    endCommands.foldl State.obey (s.detached L) = s.settleEnds.detached L := by
  have hport (t : State) (q : Port) :
      (allLocks.map (Instr.sessionEndWithdrawal q) ++ allLocks.map (Instr.sessionEndRelease q)).foldl State.obey
        (t.detached L) = (t.settleEnd q).detached L := by
    rw [List.foldl_append, List.foldl_map, List.foldl_map, settleEnd_eq,
      List.foldl_hom (fun t : State => t.detached L) fun t l => obey_withdrawal_detached t q l,
      List.foldl_hom (fun t : State => t.detached L) fun t l => obey_release_detached t q l]
  rw [endCommands, List.foldl_flatMap]
  exact List.foldl_hom (fun t : State => t.detached L) hport

/-- Without a session end in progress there is nothing to take. -/
theorem settleEnds_of_none (h : ∀ q : Port, (s.session q).ending = none) : s.settleEnds = s := by
  have hend (q : Port) : s.settleEnd q = s := by
    rw [State.settleEnd, State.dueWithdrawals, h q]
    show List.foldl _ s (s.dueReleases q) = s
    rw [State.dueReleases, h q]
    rfl
  exact List.foldl_fixed' hend allPorts

/-- Nothing to follow where no session end is in progress. -/
theorem detached_of_none (h : ∀ q : Port, (s.session q).ending = none) : s.detached s.links = s := by
  have hsessions : s.sessions.map Session.unfollowed = s.sessions := table_ext fun q => by
    have hq : (look s.sessions q).ending = none := h q
    rw [look_map, Session.unfollowed, hq]
    exact congrArg (fun e => { look s.sessions q with ending := e }) hq.symm
  exact congrArg (fun v => { s with sessions := v }) hsessions

/-- The session ends of a part that takes a RESTART, settled. -/
theorem endsSettled_of_handOn (s : State) (p : Port) :
    s.EndsSettled ((s.handOn p).settleEnds.detached s.links) := by
  have hpending : (s.handOn p).settleEnds.pending = s.pending :=
    (steady_settleEnds sameConfigRule (s.handOn p)).pending
  have hstart : ({ s.unfollowed with pending := endCommands } : State) =
      ((s.handOn p).detached s.links).withQueue endCommands := rfl
  refine ⟨(pending_detached _ _).trans hpending, ?_⟩
  rw [hstart, run_commands, foldl_endCommands_detached]
  exact congrArg Host.Outcome.next (withQueue_eq _ _)

end Sys2Proof.Machine
end

section
/-! PROOFS. What a RESTART clears and keeps (7.7). -/

namespace Sys2Proof.Machine

-- One proof at a time: those that wait for the same definition's equations each hold a thread of the checker.
set_option Elab.async false

variable {s t v : State} {p q : Port} {b : Body} {l : LockId}

/-! ### The slots of a window that a RESTART keeps -/

/-- Handing on a request answers none. -/
theorem filter_answered_advanceSlot (window : List Slot) :
    (advanceSlot .waiting .handedOn window).filter (fun c => c.cond == .answered) =
      window.filter fun c => c.cond == .answered := by
  induction window with
  | nil => rfl
  | cons c rest ih =>
    rw [advanceSlot]
    split
    · next hwait => simp [hwait]
    · rw [List.filter_cons, List.filter_cons, ih]

/-- The one slot that is handed on once a request is. -/
theorem filter_handedOn_handOn (h : s.nextRequest p = some b) :
    (advanceSlot .waiting .handedOn (s.link p).window).filter (fun c => c.cond == .handedOn) =
      [{ body := b, cond := .handedOn }] := by
  obtain ⟨-, hnone, -, holdest⟩ := nextRequest_eq_some s h
  obtain ⟨c, hfind, rfl⟩ : ∃ c, (s.link p).window.find? (fun x => x.cond == .waiting) = some c ∧ c.body = b := by
    simpa [LinkPort.oldestWaiting] using holdest
  obtain ⟨pre, post, hwindow, -, -, hadv⟩ := advanceSlot_of_find (b := .handedOn) hfind
  have hothers := find_handedOn_eq_none hnone
  rw [hwindow, List.find?_eq_none] at hothers
  have hpre : pre.filter (fun x => x.cond == .handedOn) = [] :=
    List.filter_eq_nil_iff.mpr fun x hx => hothers x (List.mem_append_left _ hx)
  have hpost : post.filter (fun x => x.cond == .handedOn) = [] :=
    List.filter_eq_nil_iff.mpr fun x hx => hothers x (List.mem_append_right _ (List.mem_cons_of_mem _ hx))
  rw [hadv, List.filter_append, List.filter_cons, hpre, hpost]
  rfl

/-- A RESTART keeps the slot of a reply in transmission and, at its own port, its own (R132). -/
theorem keptSlots_handOn (h : s.nextRequest p = some b) (q : Port) :
    ((s.handOn p).link q).keptSlots (q == p) =
      (match (s.link q).transmitter with
        | .sendingReply _ => ((s.link q).window.filter fun c => c.cond == .answered).take 1
        | .sendingNotice _ => []
        | .free => []) ++ if q = p then [{ body := b, cond := .handedOn }] else [] := by
  unfold LinkPort.keptSlots
  by_cases hq : q = p
  · subst hq
    rw [link_handOn, if_pos rfl, if_pos rfl]
    dsimp only
    rw [filter_answered_advanceSlot, filter_handedOn_handOn h]
    cases (s.link q).transmitter <;> simp
  · rw [link_handOn, if_neg (Ne.symm hq), if_neg hq]
    cases (s.link q).transmitter <;> simp [hq]

/-! ### What the capture hears of a RESTART -/

section
variable {x : TraceUnit} (r : Report)

theorem hearRestart_of_idle (h : x.state = .off ∨ x.state = .stopped) : x.hearRestart r = x := by
  rcases h with h | h <;> rw [TraceUnit.hearRestart, h]

theorem hearRestart_of_armed (h : x.state = .armed) :
    x.hearRestart r = { x with state := .stopped, stopCause := .restart } := by
  rw [TraceUnit.hearRestart, h]
  rfl

theorem hearRestart_of_running (h : x.state = .running) : x.hearRestart r = (x.record r).stop .restart := by
  rw [TraceUnit.hearRestart, h]

/-- The setup, the timer and its mark are the same after a RESTART (R142, R147). -/
theorem kept_hearRestart (x : TraceUnit) (r : Report) : (x.hearRestart r).setup = x.setup ∧
    (x.hearRestart r).timer = x.timer ∧ (x.hearRestart r).timeWrapped = x.timeWrapped := by
  cases h : x.state with
  | off => rw [hearRestart_of_idle r (.inl h)]; exact ⟨rfl, rfl, rfl⟩
  | stopped => rw [hearRestart_of_idle r (.inr h)]; exact ⟨rfl, rfl, rfl⟩
  | armed => rw [hearRestart_of_armed r h]; exact ⟨rfl, rfl, rfl⟩
  | running => rw [hearRestart_of_running r h, record_eq]; exact ⟨rfl, rfl, rfl⟩

/-- A RUNNING capture records the RESTART, whatever its filters, and stops (R147). -/
theorem stopped_hearRestart (h : x.state = .running) :
    (x.hearRestart r).state = .stopped ∧ (x.hearRestart r).stopCause = .restart ∧
      (x.buffer.length < 128 → (x.hearRestart r).entriesLost = x.entriesLost ∧
        (x.hearRestart r).buffer = x.buffer ++ [{ report := r, stamp := x.timer, lostAfter := false }]) ∧
      (128 ≤ x.buffer.length → (x.hearRestart r).entriesLost = true ∧
        (x.hearRestart r).buffer =
          x.buffer.modify (x.buffer.length - 1) fun y => { y with lostAfter := true }) := by
  rw [hearRestart_of_running r h, record_eq]
  refine ⟨rfl, rfl, fun hroom => ?_, fun hfull => ?_⟩
  · have hyes : x.hasRoom = true := decide_eq_true hroom
    simp [TraceUnit.stop, hyes]
  · have hno : x.hasRoom = false := decide_eq_false (Nat.not_lt.mpr hfull)
    simp [TraceUnit.stop, hno]

end

/-! ### The RESTART's own work -/

theorem exec_restart_of_takes (h : s.Takes p .restart b) :
    exec (.restart p) s = .next ((s.handOn p).settleEnds.beginRestart p) :=
  congrArg Host.Outcome.next (takeRequest_of_takes _ h)

section
variable (v : State) (p : Port)

theorem lock_beginRestart (l : LockId) : (v.beginRestart p).lock l = (v.lock l).restarted :=
  look_map LockEntry.restarted v.locks l

theorem session_beginRestart (q : Port) : (v.beginRestart p).session q = (v.session q).restarted :=
  look_map Session.restarted v.sessions q

theorem link_beginRestart (q : Port) : (v.beginRestart p).link q = (v.link q).restarted (q == p) :=
  look_ofFn (fun q => (v.link q).restarted (q == p)) q

theorem trace_beginRestart : (v.beginRestart p).trace =
    v.trace.hearRestart { cls := .supervisor, port := p, detail := Kind.restart.code } := rfl

theorem standing_beginRestart (q : Port) (l : LockId) : (v.beginRestart p).standing q l =
    { standing := .none, grant := 0, deadline := none, count := 0, cause := none } := by
  show look (look State.reset.standings q) l = _
  simp [State.reset]

theorem count_beginRestart (q : Port) : (v.beginRestart p).count q = { holdings := 0, waits := 0 } := by
  show look State.reset.counts q = _
  simp [State.reset]

end

/-- Beyond the tables, a RESTART after steady work changes the restart count alone (R131). -/
theorem fixed_beginRestart {Q : LockEntry → LockEntry → Prop} (hv : s.Steady Q v) (ht : t = v.beginRestart p) :
    t = { s with restarting := true, restartCount := s.restartCount + 1, poolInUse := 0, locks := t.locks,
                 standings := t.standings, counts := t.counts, sessions := t.sessions, links := t.links,
                 trace := t.trace } := by
  subst ht
  simp only [State.beginRestart, State.clearForRestart, hv.pending, hv.baud, hv.supsel, hv.resetAsserted,
    hv.restartCount, hv.clock]

/-- Settles O39: the work of the session ends is steady and touches no link port, and the RESTART clears the rest. -/
theorem restartClearsAndKeeps : Obligations.RestartClearsAndKeeps := by
  unfold Obligations.RestartClearsAndKeeps
  intro s p b h
  have hsteady : s.Steady LockEntry.SameConfig (s.handOn p).settleEnds :=
    (steady_handOn sameConfigRule s p).trans sameConfigRule (steady_settleEnds sameConfigRule _)
  have hsettled := endsSettled_of_handOn s p
  have hnone : (∀ q : Port, (s.session q).ending = none) → (s.handOn p).settleEnds.detached s.links = s :=
    fun hq => by
      rw [settleEnds_of_none (s := s.handOn p) fun q => by rw [session_handOn]; exact hq q]
      exact detached_of_none hq
  have hlink (q : Port) : (s.handOn p).settleEnds.link q = (s.handOn p).link q := by
    rw [State.link, links_settleEnds, State.link]
  have hexec := exec_restart_of_takes h
  generalize (s.handOn p).settleEnds = v at hsteady hsettled hnone hlink hexec
  refine ⟨v.beginRestart p, v.detached s.links, hexec, hsettled, hnone, fixed_beginRestart hsteady rfl, fun l => ?_,
    standing_beginRestart v p, count_beginRestart v p, fun q => ?_, fun q => ?_, ?_⟩
  · rw [lock_beginRestart, lock_detached, ← hsteady.locks l]
    rfl
  · rw [session_beginRestart, ← hsteady.config q, ← hsteady.number q]
    rfl
  · rw [link_beginRestart, hlink]
    have hsame : ((s.handOn p).link q).transmitter = (s.link q).transmitter ∧
        ((s.handOn p).link q).inBreak = (s.link q).inBreak := by
      rw [link_handOn]
      split
      · next hpq => rw [hpq]; exact ⟨rfl, rfl⟩
      · exact ⟨rfl, rfl⟩
    obtain ⟨htransmitter, hbreak⟩ := hsame
    exact ⟨rfl, rfl, rfl, htransmitter, hbreak, rfl, keptSlots_handOn h.1 q⟩
  · rw [trace_detached, trace_beginRestart]
    obtain ⟨hsetup, htimer, hwrapped⟩ :=
      kept_hearRestart v.trace { cls := .supervisor, port := p, detail := Kind.restart.code }
    exact ⟨hsetup.trans hsteady.setup, htimer, hwrapped, hearRestart_of_idle _, hearRestart_of_armed _,
      stopped_hearRestart _⟩

end Sys2Proof.Machine
end
